-- ==== Sys2Proof/Word.lean ====
section
/-!
DEFINITION. The word types of the K9: 64-bit scalar values (R15), bytes (R6), 512-bit vector values (R17).
-/

namespace Sys2Proof

/-- A 64-bit scalar value (R15). -/
abbrev Word := BitVec 64

/-- One byte of memory (R6). -/
abbrev Byte := BitVec 8

/-- The value of a 512-bit vector register (R17). -/
abbrev VWord := BitVec 512

end Sys2Proof
end

