-- ==== Sys2Proof/Syntax.lean ====
section
/-!
DEFINITION. The syntax of the K9's steps: one constructor of `Instr` for every row of spec/opcode_table.json,
182 instructions and the fill word (R76-R94) first, then the events of the hardware, the host and the environment.
-/

namespace Sys2Proof

/-- A number that a scalar register field may hold (R15, R84): 0-47 `x`, 48-55 `c`, 56-59 `q`, 60 `tid`, 61 `cid`, 62 `cyc`. -/
abbrev SReg := Fin 63

/-- A vector register number (R17). -/
abbrev VReg := Fin 32

/-- A mask register number (R17); 0 reads all ones. -/
abbrev MReg := Fin 8

/-- An immediate with the length of the instruction that carries it (R82, R83). -/
inductive Imm where
  | i18 (v : BitVec 18)   -- 64-bit form
  | i32 (v : BitVec 32)   -- 96-bit form
  | i64 (v : BitVec 64)   -- 128-bit form
  deriving DecidableEq, Repr

/-- Signed or unsigned reading of an integer (R47). -/
inductive Sign where
  | s | z
  deriving DecidableEq, Repr

/-- The size of a scalar access (R109). -/
inductive Size where
  | b8 | b16 | b32 | b64
  deriving DecidableEq, Repr

/-- The width of `sext` and `zext` (R101). -/
inductive ExtW where
  | w8 | w16 | w32
  deriving DecidableEq, Repr

/-- The conditions of `b.cc` (R106). -/
inductive Cc where
  | eq | ne | lt | ge | ltu | geu
  deriving DecidableEq, Repr

/-- The conditions of `vcmp` (R131). -/
inductive VCc where
  | eq | ne | lt | le | gt | ge
  deriving DecidableEq, Repr

/-- The element types of R89. -/
inductive Ty where
  | s8 | s16 | s32 | s64 | z8 | z16 | z32 | z64 | f32 | f16 | bf16 | e4m3 | e5m2 | e2m1
  deriving DecidableEq, Repr

/-- The scopes of fences and atomics (R118). -/
inductive Scope where
  | ctx | core | clu | die | dev | sys
  deriving DecidableEq, Repr

/-- The order field of the atomic layout (R92, R233). -/
inductive Order where
  | relaxed | acq | rel | acqrel
  deriving DecidableEq, Repr

/-- The operations of `amo`, `red` and `vamo` (R236). -/
inductive AmoOp where
  | add | and | or | xor | minS | minZ | maxS | maxZ | swap | addF32
  deriving DecidableEq, Repr

/-- The operations of `vred` (R137). -/
inductive RedOp where
  | add | min | max | and | or | xor
  deriving DecidableEq, Repr

/-- The operations of `nred` (R325). -/
inductive NredOp where
  | add | min | max
  deriving DecidableEq, Repr

/-- The quantisation schemes of R91. -/
inductive Scheme where
  | mxe4m3 | mxe5m2 | mxfp4 | kb4
  deriving DecidableEq, Repr

/-- The weight formats of `clw` (R303). -/
inductive WFmt where
  | t5 | mxfp4 | e4m3 | e5m2 | bf16 | kb4
  deriving DecidableEq, Repr

/-- The activation formats of `cfmt` (R307). -/
inductive AFmt where
  | e4m3 | e5m2 | bf16 | mxe4m3 | mxe5m2 | mxfp4 | kb4
  deriving DecidableEq, Repr

/-- The width field of `vsel` and `vmov` (R132). -/
inductive LaneW where
  | w8 | w16 | w32 | w64
  deriving DecidableEq, Repr

/-- The destination kind of `cpy` (R287). -/
inductive CpyDst where
  | mem | xfill | vfill
  deriving DecidableEq, Repr

/-- The engine-command extension of `cpy`, bits 127:64 (R287). -/
structure CpyExt where
  sfmt : Ty
  dfmt : Ty
  cvt  : Bool
  dk   : CpyDst
  irq  : Bool
  fon  : BitVec 8
  tag  : BitVec 8
  deriving DecidableEq, Repr

/-- Who performs a write that enters no scope buffer (R255). -/
inductive Agent where
  | engine (core : Nat) | host | peer | blotter
  deriving DecidableEq, Repr

/-- A write that an agent sends straight to the home slice (R255). -/
structure AgentWrite where
  agent : Agent
  vf    : Nat
  va    : Nat
  bytes : List Byte
  deriving DecidableEq, Repr

/-- A turn of the copy engine of a core's cluster: how many elements of the core's copy go together where some begin (R289;
log 28). -/
structure CopyTurn where
  core : Nat
  num  : Nat
  deriving DecidableEq, Repr

/-- A fault of an engine of a core: one that the operation itself meets, or a data error (R343) that a unit meets at an offset of a
bank (unit 0 the copy engine, 1 the array, 2 the exchange queue, from 3 on the sequencers). -/
structure EngFault where
  core : Nat
  err  : Option (Nat × Nat × Nat) := none
  deriving DecidableEq, Repr

/-- A host access within one region of R372: `wr` holds the bytes of a write; a read names its size. -/
structure HostAcc where
  vf   : Nat
  addr : Nat
  size : Nat
  wr   : Option (List Byte)
  deriving DecidableEq, Repr

/-- The bytes that a host access is of. -/
def HostAcc.len (q : HostAcc) : Nat := (q.wr.map List.length).getD q.size

/-- What a peer package asks for: what its cores may ask of a page that a leaf with tgt = 2 maps (R283, R379). -/
inductive PeerReq where
  | read (size : Nat)
  | fetch (size : Nat)
  | write (bytes : List Byte)
  | cas (size : Nat) (y z : Word)
  | casv (size : Nat) (y z : Word)
  | amo (op : AmoOp) (size : Nat) (y : Word)
  | ldv (size : Nat)
  | check (ver : Word)
  deriving DecidableEq, Repr

/-- The bytes that a peer's request is of; a check is of its line. -/
def PeerReq.len : PeerReq → Nat
  | .read n | .fetch n | .cas n _ _ | .casv n _ _ | .amo _ n _ | .ldv n => n
  | .write bs => bs.length
  | .check _ => 1

/-- A request that arrives from a peer package (R379): under function `pvf` of the peer. -/
structure PeerAcc where
  pkg  : Nat
  pvf  : Nat
  va   : Nat
  req  : PeerReq
  deriving DecidableEq, Repr

/-- Where a start is cut off by power loss (R401, R403): in the write of code 2 with which a step begins, inside the step, or in the
write of its result; a write that is cut leaves its copy of the record invalid. -/
inductive Cut where
  | first | inside | last
  deriving DecidableEq, Repr

/-- What the tests of a start find (R400): the environment's input to the boot ROM. `stackFails` gives, for each HBM stack,
the lowest rate code at which training would pass (4 or more: none). -/
structure BootInput where
  romOk      : Bool
  sigOk      : Bool
  versOk     : Bool
  linksOk    : Bool
  itnikOk    : Bool
  keyOk      : Bool
  scrubOk    : Bool
  stackFails : List Nat
  badSlices  : List Nat
  badClusters : List Nat
  badCxl     : List Nat
  badPorts   : List Nat
  pkgid      : BitVec 8
  torn       : Bool := false               -- the power loss before this start cut off a write of the store (R403)
  cutAt      : Option (Nat × Cut) := none   -- the step in which power is lost again, and where, if it is (R401, R403)
  cxlSets    : List (List Nat) := []       -- the interleave sets that firmware makes of CXL ports (R378, R400)
  firmware   : Option (List (BitVec 8) × List (BitVec 8)) := none   -- the image and its signature (R407); none: `sigOk` says what the check comes to
  deriving DecidableEq, Repr

/-- The steps of the K9, one constructor for each row of the opcode table. `k` is the mask field of the common head (R81). -/
inductive Instr where
  -- integer operations (R97)
  | add (k : MReg) (d a b : SReg)
  | addImm (k : MReg) (d a : SReg) (imm : Imm)
  | sub (k : MReg) (d a b : SReg)
  | subImm (k : MReg) (d a : SReg) (imm : Imm)
  | and (k : MReg) (d a b : SReg)
  | andImm (k : MReg) (d a : SReg) (imm : Imm)
  | or (k : MReg) (d a b : SReg)
  | orImm (k : MReg) (d a : SReg) (imm : Imm)
  | xor (k : MReg) (d a b : SReg)
  | xorImm (k : MReg) (d a : SReg) (imm : Imm)
  | shl (k : MReg) (d a b : SReg)
  | shlImm (k : MReg) (d a : SReg) (imm : Imm)
  | shr (k : MReg) (d a b : SReg)
  | shrImm (k : MReg) (d a : SReg) (imm : Imm)
  | sra (k : MReg) (d a b : SReg)
  | sraImm (k : MReg) (d a : SReg) (imm : Imm)
  | min (k : MReg) (sg : Sign) (d a b : SReg)
  | minImm (k : MReg) (sg : Sign) (d a : SReg) (imm : Imm)
  | max (k : MReg) (sg : Sign) (d a b : SReg)
  | maxImm (k : MReg) (sg : Sign) (d a : SReg) (imm : Imm)
  -- multiply, divide, remainder (R98, R99)
  | mul (k : MReg) (d a b : SReg)
  | mulImm (k : MReg) (d a : SReg) (imm : Imm)
  | mulh (k : MReg) (sg : Sign) (d a b : SReg)
  | mulhImm (k : MReg) (sg : Sign) (d a : SReg) (imm : Imm)
  | div (k : MReg) (sg : Sign) (d a b : SReg)
  | divImm (k : MReg) (sg : Sign) (d a : SReg) (imm : Imm)
  | rem (k : MReg) (sg : Sign) (d a b : SReg)
  | remImm (k : MReg) (sg : Sign) (d a : SReg) (imm : Imm)
  -- compares, counts, extensions, bit fields, select (R100-R103)
  | slt (k : MReg) (d a b : SReg)
  | sltImm (k : MReg) (d a : SReg) (imm : Imm)
  | sltu (k : MReg) (d a b : SReg)
  | sltuImm (k : MReg) (d a : SReg) (imm : Imm)
  | seq (k : MReg) (d a b : SReg)
  | seqImm (k : MReg) (d a : SReg) (imm : Imm)
  | sne (k : MReg) (d a b : SReg)
  | sneImm (k : MReg) (d a : SReg) (imm : Imm)
  | clz (k : MReg) (d a : SReg)
  | ctz (k : MReg) (d a : SReg)
  | popc (k : MReg) (d a : SReg)
  | sext (k : MReg) (w : ExtW) (d a : SReg)
  | zext (k : MReg) (w : ExtW) (d a : SReg)
  | bfx (k : MReg) (sg : Sign) (d a : SReg) (pos : Fin 64) (wm1 : Fin 64)
  | bfi (k : MReg) (d a b : SReg) (pos : Fin 64) (wm1 : Fin 64)
  | sel (k : MReg) (d a b c : SReg)
  -- constants and addresses (R104, R105)
  | li (k : MReg) (d : SReg) (imm : Imm)
  | lea (k : MReg) (d : SReg) (off : BitVec 32)
  -- branches, jumps, loops (R106, R107)
  | bcc (k : MReg) (cc : Cc) (a b : SReg) (imm : Imm)
  | j (k : MReg) (imm : Imm)
  | jal (k : MReg) (d : SReg) (imm : Imm)
  | jr (k : MReg) (d a : SReg)
  | loop (k : MReg) (d : SReg) (imm : Imm)
  -- loads, stores, line maintenance (R109-R115)
  | ld (k : MReg) (sz : Size) (sx : Bool) (d a : SReg) (imm : Imm)
  | st (k : MReg) (sz : Size) (a b : SReg) (imm : Imm)
  | pf (k : MReg) (a : SReg) (imm : BitVec 18)
  | wb (k : MReg) (a : SReg) (imm : BitVec 18)
  | inv (k : MReg) (a : SReg) (imm : BitVec 18)
  -- system (R116-R122, R45)
  | trap (k : MReg) (imm : BitVec 18)
  | eret (k : MReg)
  | csrr (k : MReg) (d : SReg) (n : BitVec 12)
  | csrw (k : MReg) (d a : SReg) (n : BitVec 12)
  | csrs (k : MReg) (d a : SReg) (n : BitVec 12)
  | csrc (k : MReg) (d a : SReg) (n : BitVec 12)
  | fence (k : MReg) (sc : Scope) (un : Bool)
  | nop (k : MReg)
  | halt (k : MReg)
  | brk (k : MReg)
  | wfi (k : MReg)
  -- vector integer (R127)
  | vaddInt (k : MReg) (t : Ty) (d a b : VReg)
  | vaddIntScalar (k : MReg) (t : Ty) (d a : VReg) (b : SReg)
  | vsubInt (k : MReg) (t : Ty) (d a b : VReg)
  | vsubIntScalar (k : MReg) (t : Ty) (d a : VReg) (b : SReg)
  | vmulInt (k : MReg) (t : Ty) (d a b : VReg)
  | vmulIntScalar (k : MReg) (t : Ty) (d a : VReg) (b : SReg)
  | vminInt (k : MReg) (t : Ty) (d a b : VReg)
  | vminIntScalar (k : MReg) (t : Ty) (d a : VReg) (b : SReg)
  | vmaxInt (k : MReg) (t : Ty) (d a b : VReg)
  | vmaxIntScalar (k : MReg) (t : Ty) (d a : VReg) (b : SReg)
  | vand (k : MReg) (t : Ty) (d a b : VReg)
  | vandScalar (k : MReg) (t : Ty) (d a : VReg) (b : SReg)
  | vor (k : MReg) (t : Ty) (d a b : VReg)
  | vorScalar (k : MReg) (t : Ty) (d a : VReg) (b : SReg)
  | vxor (k : MReg) (t : Ty) (d a b : VReg)
  | vxorScalar (k : MReg) (t : Ty) (d a : VReg) (b : SReg)
  | vshl (k : MReg) (t : Ty) (d a b : VReg)
  | vshlScalar (k : MReg) (t : Ty) (d a : VReg) (b : SReg)
  | vshr (k : MReg) (t : Ty) (d a b : VReg)
  | vshrScalar (k : MReg) (t : Ty) (d a : VReg) (b : SReg)
  | vsra (k : MReg) (t : Ty) (d a b : VReg)
  | vsraScalar (k : MReg) (t : Ty) (d a : VReg) (b : SReg)
  -- vector floating point (R128-R131)
  | vaddFp (k : MReg) (t : Ty) (d a b : VReg)
  | vaddFpScalar (k : MReg) (t : Ty) (d a : VReg) (b : SReg)
  | vsubFp (k : MReg) (t : Ty) (d a b : VReg)
  | vsubFpScalar (k : MReg) (t : Ty) (d a : VReg) (b : SReg)
  | vmulFp (k : MReg) (t : Ty) (d a b : VReg)
  | vmulFpScalar (k : MReg) (t : Ty) (d a : VReg) (b : SReg)
  | vminFp (k : MReg) (t : Ty) (d a b : VReg)
  | vminFpScalar (k : MReg) (t : Ty) (d a : VReg) (b : SReg)
  | vmaxFp (k : MReg) (t : Ty) (d a b : VReg)
  | vmaxFpScalar (k : MReg) (t : Ty) (d a : VReg) (b : SReg)
  | vdiv (k : MReg) (t : Ty) (d a b : VReg)
  | vdivScalar (k : MReg) (t : Ty) (d a : VReg) (b : SReg)
  | vfma (k : MReg) (t : Ty) (d a b c : VReg)
  | vfms (k : MReg) (t : Ty) (d a b c : VReg)
  | vsqrt (k : MReg) (t : Ty) (d a : VReg)
  | vrcp (k : MReg) (t : Ty) (d a : VReg)
  | vrsq (k : MReg) (t : Ty) (d a : VReg)
  | vabs (k : MReg) (t : Ty) (d a : VReg)
  | vneg (k : MReg) (t : Ty) (d a : VReg)
  | vcmp (k : MReg) (cc : VCc) (t : Ty) (d : MReg) (a b : VReg)
  | vcmpScalar (k : MReg) (cc : VCc) (t : Ty) (d : MReg) (a : VReg) (b : SReg)
  -- vector moves (R132-R137)
  | vsel (k : MReg) (w : LaneW) (d a b : VReg) (c : MReg)
  | vmov (k : MReg) (w : LaneW) (d a : VReg)
  | vbcast (k : MReg) (t : Ty) (d : VReg) (a : SReg)
  | vext (k : MReg) (t : Ty) (d : SReg) (a : VReg) (b : SReg) (imm : BitVec 18)
  | vins (k : MReg) (t : Ty) (d : VReg) (a b : SReg) (imm : BitVec 18)
  | vperm (k : MReg) (t : Ty) (d a b : VReg)
  | vred (k : MReg) (op : RedOp) (t : Ty) (d : SReg) (a : VReg)
  -- vector memory (R138-R141)
  | vld (k : MReg) (d : VReg) (a : SReg) (imm : Imm)
  | vst (k : MReg) (a : SReg) (b : VReg) (imm : Imm)
  | vlds (k : MReg) (d : VReg) (a c : SReg) (imm : BitVec 18)
  | vgather (k : MReg) (t : Ty) (d : VReg) (a : SReg) (b : VReg) (imm : BitVec 18)
  | vscatter (k : MReg) (t : Ty) (a : SReg) (b c : VReg) (imm : BitVec 18)
  -- conversions, quantisation, packing (R142-R149)
  | vcvt (k : MReg) (dt st : Ty) (d a : VReg) (p : BitVec 4)
  | vq (k : MReg) (sch : Scheme) (cmp : Bool) (t : Ty) (d : VReg) (c : SReg) (a : VReg) (b : SReg) (p : BitVec 2)
  | vdq (k : MReg) (sch : Scheme) (exp : Bool) (t : Ty) (d a : VReg) (b c : SReg) (p : BitVec 2)
  | vcomp (k : MReg) (inverse : Bool) (d a : VReg)
  | vqtab (k : MReg) (a : SReg) (imm : Imm)
  | t5pack (k : MReg) (d a : VReg) (p : BitVec 1)
  | t5unpk (k : MReg) (d a : VReg) (p : BitVec 1)
  -- the barrel core (R162-R170)
  | spawn (k : MReg) (d a : SReg) (imm : Imm)
  | reap (k : MReg) (d a : SReg)
  | exit (k : MReg) (a : SReg)
  | arm (k : MReg) (d a : SReg) (imm : BitVec 18)
  | disarm (k : MReg) (d a : SReg) (imm : BitVec 18)
  | mwait (k : MReg) (d a : SReg)
  | fset (k : MReg) (vec : Bool) (d : SReg)
  | fclr (k : MReg) (vec : Bool) (d : SReg)
  | rfill (k : MReg) (d a b : SReg) (n : BitVec 6)
  -- groups and tasks (R186, R192)
  | gbar (k : MReg) (swap : Bool) (d a : SReg)
  | garrive (k : MReg) (d a : SReg)
  | gwait (k : MReg) (a b : SReg)
  | gmem (k : MReg) (d a : SReg)
  | tdec (k : MReg) (d a : SReg)
  | tnext (k : MReg) (d : SReg)
  | tdone (k : MReg) (d a b : SReg)
  | tcancel (k : MReg) (d a : SReg)
  -- wells (R204-R217)
  | wpass (k : MReg) (ro : Bool) (d a : SReg) (s t : Fin 16)
  | wpoll (k : MReg) (d : SReg) (s : Fin 16)
  | wdetach (k : MReg) (d : SReg) (s : Fin 16)
  | wattach (k : MReg) (keep : Bool) (d a : SReg) (s : Fin 16)
  | wrel (k : MReg) (free : Bool) (d : SReg) (s : Fin 16)
  | wmode (k : MReg) (m : Bool) (d : SReg) (s : Fin 16)
  | wclr (k : MReg) (d : SReg) (s : Fin 16)
  -- versions and atomics (R231-R245)
  | ldv (k : MReg) (set : Bool) (d a c : SReg)
  | verchk (k : MReg) (d : SReg)
  | verclr (k : MReg)
  | cas (k : MReg) (sz : Size) (o : Order) (sc : Scope) (d a b c : SReg)
  | casv (k : MReg) (sz : Size) (o : Order) (sc : Scope) (d a b c : SReg)
  | amo (k : MReg) (op : AmoOp) (sz : Size) (o : Order) (sc : Scope) (d a b : SReg)
  | red (k : MReg) (op : AmoOp) (sz : Size) (o : Order) (sc : Scope) (a b : SReg)
  | vamo (k : MReg) (op : AmoOp) (sz : Size) (o : Order) (sc : Scope) (d : VReg) (a : SReg) (b c : VReg)
  | ldAcq (k : MReg) (sz : Size) (sc : Scope) (d a : SReg)
  | stRel (k : MReg) (sz : Size) (sc : Scope) (a b : SReg)
  -- engines (R287-R302)
  | cpy (k : MReg) (d : Fin 64) (a b c : SReg) (r : BitVec 18) (ext : CpyExt)
  | fork (k : MReg) (d a b : SReg) (imm : Imm)
  | rdv (k : MReg) (d a : SReg)
  | qfence (k : MReg) (m : BitVec 3)
  | wait (k : MReg) (tl cp st ld : BitVec 8)
  | uiret (k : MReg)
  -- the Calamus (R306-R318)
  | clw (k : MReg) (f : WFmt) (sc : Bool) (d a : SReg)
  | cflip (k : MReg)
  | cpass (k : MReg) (a b c : SReg) (irq : Bool) (tag : BitVec 8)
  | cdrain (k : MReg) (a b c : SReg) (irq : Bool) (tag : BitVec 8)
  | cstk (k : MReg) (a b c : SReg)
  | cfmt (k : MReg) (f : AFmt) (cmp : Bool)
  | cstat (k : MReg) (d : SReg)
  -- exchange (R325-R337)
  | xst (k : MReg) (a b c : SReg)
  | sopen (k : MReg) (rx : Bool) (d a : SReg) (n : Fin 4)
  | sclose (k : MReg) (rx : Bool) (d : SReg) (n : Fin 4)
  | smark (k : MReg) (n : Fin 4)
  | nred (k : MReg) (op : NredOp) (a b c : SReg) (s : Fin 16) (off64 : BitVec 11)
  | nmc (k : MReg) (a b c : SReg) (s : Fin 16) (off64 : BitVec 11)
  -- the fill word (R78)
  | fillWord (bits : BitVec 30)
  -- events of a core
  | fetchMiss (core tid : Nat)
  | resultArrival (op : Nat)
  | storeAcknowledge (op : Nat)
  | lateFault (op part : Nat) (dataError : Bool)
  | trapEntry (core tid : Nat)
  | interruptEntry (core tid : Nat)
  | timerPending (core tid : Nat)
  | noticeDelivery (core tid : Nat)
  | registerFileSleep (core : Nat)
  | wakeEnd (core : Nat)
  | remoteFillDelivery (op : Nat)
  | mwaitTimeout (core tid : Nat)
  | episodeComplete (team group : Nat)
  | decrementAtHome (op : Nat)
  | watchdogExpiry (team task : Nat)
  | errorTokenArrival (launch core : Nat)
  -- events of wells
  | wellMoveComplete (mv : Nat)
  | wellAttachComplete (mv : Nat)
  | wellClearComplete (mv : Nat)
  | wellModeChange (mv : Nat)
  | wellFree (mv : Nat)
  | wellPortAccess (op part : Nat)
  -- events of the ordering machine and the slices
  | entryMoveOutward (op part piece : Nat)
  | linePartPerform (op part : Nat)
  | loadPartPerform (op part : Nat)
  | sliceStep (op part : Nat)
  | vamoLaneFault (op : Nat)
  | pageResolved (vf page token : Nat)
  -- events of the engines
  | engineCopy (w : CopyTurn)
  | copyComplete (core : Nat)
  | engineFault (f : EngFault)
  | sequencerRecord (core seq : Nat)
  | arrayOpStart (core : Nat)
  | arrayOpComplete (core : Nat)
  | exchangeOpStart (core : Nat)
  | unitLanding (core target : Nat)
  | networkReduction (team group : Nat)
  | wordInjection (core tid : Nat) (n : Fin 4)
  | wordDelivery (flit : Nat)
  | markerSend (core : Nat)
  | lockstepStall (core tid : Nat)
  -- events of launches and teams
  | schedulerQuantum (vf : Nat)
  | launchEnd (launch : Nat)
  | synchronizedStop (teams : List Nat)
  | teamRestore (team : Nat)
  | frameScrub (frame : Nat)
  -- events of the network
  | noresHoldExpiry (op part : Nat)
  | retryPermit (slice : Nat)
  | genReplay (core : Nat)
  | deadlockProbe (buffer : Nat)
  | deadlockRecoveryStep
  -- events of virtual functions
  | shootDownComplete (vf : Nat)
  | patchTaken (vf : Nat)
  -- events of the package
  | deviceStart (inp : BootInput)
  | powerLoss
  | timebaseRecord
  | lineMove (vf line : Nat)
  | masksTaken (vf : Nat)
  | resetDone (vf : Nat)
  | returnToLender (cluster : Nat)
  -- events that only the environment raises: the host, the firmware window, agents, peer packages, sensors
  | agentWriteAtSlice (w : AgentWrite)
  | eviction (line : Nat)
  | peerRequest (q : PeerAcc)
  | hostCoherentAccess (q : HostAcc)
  | hostRawAccess (q : HostAcc)
  | hostTierAccess (q : HostAcc)
  | registerWindowWrite (vf off : Nat) (v : Word)
  | quantumWrite (vf : Nat) (v : Word)
  | sdoor (vf : Nat) (v : Word)
  | reset (vf : Nat) (v : Word)
  | carveoutWrite (vf : Nat) (bound : Bool) (v : Word)
  | sdgo (vf : Nat) (v : Word)
  | mvgo (vf : Nat) (v : Word)
  | prq (vf : Nat)
  | prans (vf : Nat) (v : Word)
  | gpgo (vf : Nat) (v : Word)
  | gdef (vf : Nat) (v : Word)
  | qtail (vf : Nat) (q : Fin 16) (v : Word)
  | qctlResume (vf : Nat) (q : Fin 16) (v : Word)
  | irqstatClear (vf : Nat) (v : Word)
  | createFunction (a0 a1 a2 : Word)
  | addCluster (a0 a1 a2 : Word)
  | removeCluster (a0 a1 a2 : Word)
  | addSlice (a0 a1 a2 : Word)
  | writeHashMask (a0 a1 a2 : Word)
  | lendCluster (a0 a1 a2 : Word)
  | revokeLentCluster (a0 a1 a2 : Word)
  | bindExport (a0 a1 a2 : Word)
  | destroyFunction (a0 a1 a2 : Word)
  | clearBootRecord (a0 a1 a2 : Word)
  | attestationReport (a0 a1 a2 : Word)
  | thermalLimit (die : Nat) (hot : Bool)
  | unlistedCommand (code : Word)
  | hostAccessToNoRegion (q : HostAcc)
  deriving DecidableEq, Repr

end Sys2Proof
end

