-- ==== Sys2Proof/Machine/Fields.lean ====
section
/-!
DEFINITION. The codes of the operand fields (R82-R92) and what each instruction's entry demands of its fields
beyond their ranges (R84, R85 and the entries): `instrOk`.
-/

namespace Sys2Proof

/-- The immediate as a 64-bit value (R83, R95). -/
def Imm.value : Imm → Word
  | .i18 v => v.signExtend 64
  | .i32 v => v.signExtend 64
  | .i64 v => v

/-- The length in bytes of an instruction that carries this immediate (R82). -/
def Imm.bytes : Imm → Nat
  | .i18 _ => 8
  | .i32 _ => 12
  | .i64 _ => 16

/-- Only `li` takes the 128-bit form of an immediate (R87). -/
def Imm.short : Imm → Bool
  | .i64 _ => false
  | _ => true

def Sign.code : Sign → BitVec 8
  | .s => 0
  | .z => 1

def Size.code : Size → BitVec 2
  | .b8 => 0
  | .b16 => 1
  | .b32 => 2
  | .b64 => 3

def Size.ofCode (n : BitVec 2) : Size :=
  match n.toNat with
  | 0 => .b8
  | 1 => .b16
  | 2 => .b32
  | _ => .b64

/-- The size of a scalar access in bytes (R109). -/
def Size.bytes : Size → Nat
  | .b8 => 1
  | .b16 => 2
  | .b32 => 4
  | .b64 => 8

def ExtW.code : ExtW → BitVec 8
  | .w8 => 0
  | .w16 => 1
  | .w32 => 2

def ExtW.bits : ExtW → Nat
  | .w8 => 8
  | .w16 => 16
  | .w32 => 32

def Cc.code : Cc → BitVec 8
  | .eq => 0
  | .ne => 1
  | .lt => 2
  | .ge => 3
  | .ltu => 4
  | .geu => 5

def Cc.ofCode (n : BitVec 8) : Option Cc :=
  match n.toNat with
  | 0 => some .eq
  | 1 => some .ne
  | 2 => some .lt
  | 3 => some .ge
  | 4 => some .ltu
  | 5 => some .geu
  | _ => none

def VCc.code : VCc → BitVec 4
  | .eq => 0
  | .ne => 1
  | .lt => 2
  | .le => 3
  | .gt => 4
  | .ge => 5

def VCc.ofCode (n : BitVec 4) : Option VCc :=
  match n.toNat with
  | 0 => some .eq
  | 1 => some .ne
  | 2 => some .lt
  | 3 => some .le
  | 4 => some .gt
  | 5 => some .ge
  | _ => none

/-- The type codes of R89. -/
def Ty.code : Ty → BitVec 4
  | .s8 => 0
  | .s16 => 1
  | .s32 => 2
  | .s64 => 3
  | .z8 => 4
  | .z16 => 5
  | .z32 => 6
  | .z64 => 7
  | .f32 => 8
  | .f16 => 9
  | .bf16 => 10
  | .e4m3 => 11
  | .e5m2 => 12
  | .e2m1 => 13

def Ty.ofCode (n : BitVec 4) : Option Ty :=
  match n.toNat with
  | 0 => some .s8
  | 1 => some .s16
  | 2 => some .s32
  | 3 => some .s64
  | 4 => some .z8
  | 5 => some .z16
  | 6 => some .z32
  | 7 => some .z64
  | 8 => some .f32
  | 9 => some .f16
  | 10 => some .bf16
  | 11 => some .e4m3
  | 12 => some .e5m2
  | 13 => some .e2m1
  | _ => none

/-- Width in bits of an element (R123, R142). -/
def Ty.width : Ty → Nat
  | .s8 | .z8 | .e4m3 | .e5m2 => 8
  | .s16 | .z16 | .f16 | .bf16 => 16
  | .s32 | .z32 | .f32 => 32
  | .s64 | .z64 => 64
  | .e2m1 => 4

def Ty.signed : Ty → Bool
  | .s8 | .s16 | .s32 | .s64 => true
  | _ => false

def Ty.isInt : Ty → Bool
  | .s8 | .s16 | .s32 | .s64 | .z8 | .z16 | .z32 | .z64 => true
  | _ => false

/-- The types 0x8-0xA (R90). -/
def Ty.vecFp : Ty → Bool
  | .f32 | .f16 | .bf16 => true
  | _ => false

/-- The types 0x0-0xA (R90). -/
def Ty.vecAny (t : Ty) : Bool := t.isInt || t.vecFp

/-- The types 0x0-0x3 and 0x8 (R136, R140). -/
def Ty.gatherable : Ty → Bool
  | .s8 | .s16 | .s32 | .s64 | .f32 => true
  | _ => false

/-- Lanes of a 512-bit register (R123). -/
def Ty.lanes (t : Ty) : Nat := 512 / t.width

def Scope.code : Scope → BitVec 3
  | .ctx => 0
  | .core => 1
  | .clu => 2
  | .die => 3
  | .dev => 4
  | .sys => 5

def Scope.ofCode (n : BitVec 3) : Option Scope :=
  match n.toNat with
  | 0 => some .ctx
  | 1 => some .core
  | 2 => some .clu
  | 3 => some .die
  | 4 => some .dev
  | 5 => some .sys
  | _ => none

def Order.code : Order → BitVec 2
  | .relaxed => 0
  | .acq => 1
  | .rel => 2
  | .acqrel => 3

def Order.ofCode (n : BitVec 2) : Order :=
  match n.toNat with
  | 0 => .relaxed
  | 1 => .acq
  | 2 => .rel
  | _ => .acqrel

def Order.isAcq : Order → Bool
  | .acq | .acqrel => true
  | _ => false

def Order.isRel : Order → Bool
  | .rel | .acqrel => true
  | _ => false

def AmoOp.code : AmoOp → BitVec 4
  | .add => 0
  | .and => 1
  | .or => 2
  | .xor => 3
  | .minS => 4
  | .minZ => 5
  | .maxS => 6
  | .maxZ => 7
  | .swap => 8
  | .addF32 => 9

def AmoOp.ofCode (n : BitVec 4) : Option AmoOp :=
  match n.toNat with
  | 0 => some .add
  | 1 => some .and
  | 2 => some .or
  | 3 => some .xor
  | 4 => some .minS
  | 5 => some .minZ
  | 6 => some .maxS
  | 7 => some .maxZ
  | 8 => some .swap
  | 9 => some .addF32
  | _ => none

def RedOp.code : RedOp → BitVec 4
  | .add => 0
  | .min => 1
  | .max => 2
  | .and => 3
  | .or => 4
  | .xor => 5

def RedOp.ofCode (n : BitVec 4) : Option RedOp :=
  match n.toNat with
  | 0 => some .add
  | 1 => some .min
  | 2 => some .max
  | 3 => some .and
  | 4 => some .or
  | 5 => some .xor
  | _ => none

/-- Operations 0x3-0x5 of `vred` take integer types only (R90). -/
def RedOp.logical : RedOp → Bool
  | .and | .or | .xor => true
  | _ => false

def NredOp.code : NredOp → BitVec 3
  | .add => 0
  | .min => 1
  | .max => 2

def NredOp.ofCode (n : BitVec 3) : Option NredOp :=
  match n.toNat with
  | 0 => some .add
  | 1 => some .min
  | 2 => some .max
  | _ => none

def Scheme.code : Scheme → BitVec 3
  | .mxe4m3 => 0
  | .mxe5m2 => 1
  | .mxfp4 => 2
  | .kb4 => 3

def Scheme.ofCode (n : BitVec 3) : Option Scheme :=
  match n.toNat with
  | 0 => some .mxe4m3
  | 1 => some .mxe5m2
  | 2 => some .mxfp4
  | 3 => some .kb4
  | _ => none

/-- The number of parts of a register that `vq` and `vdq` name (R143): two for MXFP8, four for the 4-bit schemes. -/
def Scheme.parts : Scheme → Nat
  | .mxe4m3 | .mxe5m2 => 2
  | .mxfp4 | .kb4 => 4

def WFmt.code : WFmt → BitVec 8
  | .t5 => 0
  | .mxfp4 => 1
  | .e4m3 => 2
  | .e5m2 => 3
  | .bf16 => 4
  | .kb4 => 5

def WFmt.ofCode (n : BitVec 8) : Option WFmt :=
  match n.toNat with
  | 0 => some .t5
  | 1 => some .mxfp4
  | 2 => some .e4m3
  | 3 => some .e5m2
  | 4 => some .bf16
  | 5 => some .kb4
  | _ => none

def AFmt.code : AFmt → BitVec 3
  | .e4m3 => 0
  | .e5m2 => 1
  | .bf16 => 2
  | .mxe4m3 => 3
  | .mxe5m2 => 4
  | .mxfp4 => 5
  | .kb4 => 6

def AFmt.ofCode (n : BitVec 3) : Option AFmt :=
  match n.toNat with
  | 0 => some .e4m3
  | 1 => some .e5m2
  | 2 => some .bf16
  | 3 => some .mxe4m3
  | 4 => some .mxe5m2
  | 5 => some .mxfp4
  | 6 => some .kb4
  | _ => none

def LaneW.code : LaneW → BitVec 18
  | .w8 => 0
  | .w16 => 1
  | .w32 => 2
  | .w64 => 3

def LaneW.ofCode (n : BitVec 18) : Option LaneW :=
  match n.toNat with
  | 0 => some .w8
  | 1 => some .w16
  | 2 => some .w32
  | 3 => some .w64
  | _ => none

def LaneW.bits : LaneW → Nat
  | .w8 => 8
  | .w16 => 16
  | .w32 => 32
  | .w64 => 64

def CpyDst.code : CpyDst → BitVec 2
  | .mem => 0
  | .xfill => 1
  | .vfill => 2

def CpyDst.ofCode (n : BitVec 2) : Option CpyDst :=
  match n.toNat with
  | 0 => some .mem
  | 1 => some .xfill
  | 2 => some .vfill
  | _ => none

/-- A flag as one bit of an encoding. -/
def flagBit (w : Nat) (b : Bool) : BitVec w := if b then 1 else 0

/-! ### What the entries demand of their fields -/

/-- A register that an instruction may write before the next issue: 60-62 are read only (R16). -/
def dstOk (d : SReg) : Bool := d.val < 60

/-- The destination of a deferred result: no queue port either (R19, R96). -/
def dstDeferred (d : SReg) : Bool := d.val < 56

/-- The control registers of R30. -/
def csrListed (n : BitVec 12) : Bool :=
  let v := n.toNat
  v ≤ 0x008 || (0x010 ≤ v && v ≤ 0x01F) || (0x400 ≤ v && v ≤ 0x408) || (0x410 ≤ v && v ≤ 0x417) ||
  (0xC00 ≤ v && v ≤ 0xC05)

/-- The control registers marked read-only in R30: `netcap`, `tinfo`, `wtab0`-`wtab15`. -/
def csrReadOnly (n : BitVec 12) : Bool :=
  let v := n.toNat
  v == 0x007 || v == 0x008 || (0x010 ≤ v && v ≤ 0x01F)

/-- The first two checks of `Csr` (R116), which decide cause 0x01. -/
def csrOk (writes : Bool) (d : SReg) (n : BitVec 12) : Bool :=
  dstOk d && csrListed n && !(writes && csrReadOnly n)

/-- The sizes that the atomic layout accepts outside `ld.acq` and `st.rel` (R92). -/
def atomicSize : Size → Bool
  | .b32 | .b64 => true
  | _ => false

/-- `add.f32` requires the 32-bit size (R92). -/
def amoOk (op : AmoOp) (sz : Size) : Bool :=
  atomicSize sz && (op != .addF32 || sz == .b32)

/-- A register pair vn, vn+1 exists (R125). -/
def pairOk (n : VReg) : Bool := n.val < 31

/-- The field checks of `vq` and `vdq` (R143, R145). -/
def quantOk (sch : Scheme) (t : Ty) (pair : VReg) (unused : SReg) (p : BitVec 2) : Bool :=
  t.vecFp && (t != .f32 || pairOk pair) && p.toNat < sch.parts && (sch == .kb4 || unused.val == 0)

/-- The ratio of the two widths of a conversion (R142). -/
def cvtRatio (dt st : Ty) : Nat := Nat.max dt.width st.width / Nat.min dt.width st.width

/-- The checks of R288 that decide cause 0x01. -/
def cpyOk (d : Fin 64) (b : SReg) (r : BitVec 18) (e : CpyExt) : Bool :=
  (e.cvt || e.dfmt == e.sfmt) &&
  match e.dk with
  | .mem => d.val == 0 && r.toNat == 0
  | .xfill => d.val != 0 && r.toNat != 0 && d.val + r.toNat ≤ 48 && b.val == 0 && e.fon == 0
  | .vfill => r.toNat != 0 && d.val + r.toNat ≤ 32 && b.val == 0 && e.fon == 0

/-- What the entry of each instruction demands of its fields; the opposite is cause 0x01 (R84, R85, R93).
Events carry nothing to check here: what they name is looked up when they run. -/
def instrOk : Instr → Bool
  | .add _ d _ _ | .sub _ d _ _ | .and _ d _ _ | .or _ d _ _ | .xor _ d _ _ | .shl _ d _ _ | .shr _ d _ _
  | .sra _ d _ _ | .min _ _ d _ _ | .max _ _ d _ _ | .slt _ d _ _ | .sltu _ d _ _ | .seq _ d _ _
  | .sne _ d _ _ => dstOk d
  | .addImm _ d _ i | .subImm _ d _ i | .andImm _ d _ i | .orImm _ d _ i | .xorImm _ d _ i | .shlImm _ d _ i
  | .shrImm _ d _ i | .sraImm _ d _ i | .minImm _ _ d _ i | .maxImm _ _ d _ i | .sltImm _ d _ i
  | .sltuImm _ d _ i | .seqImm _ d _ i | .sneImm _ d _ i => dstOk d && i.short
  | .mul _ d _ _ | .mulh _ _ d _ _ | .div _ _ d _ _ | .rem _ _ d _ _ => dstDeferred d
  | .mulImm _ d _ i | .mulhImm _ _ d _ i | .divImm _ _ d _ i | .remImm _ _ d _ i => dstDeferred d && i.short
  | .clz _ d _ | .ctz _ d _ | .popc _ d _ | .sext _ _ d _ | .zext _ _ d _ => dstOk d
  | .bfx _ _ d _ pos wm1 => dstOk d && pos.val + wm1.val < 64
  | .bfi _ d _ _ pos wm1 => dstOk d && pos.val + wm1.val < 64
  | .sel _ d _ _ _ => dstOk d
  | .li _ d _ => dstOk d
  | .lea _ d _ => dstOk d
  | .bcc _ _ _ _ i => i.short
  | .j _ i => i.short
  | .jal _ d i => dstOk d && i.short
  | .jr _ d _ => dstOk d
  | .loop _ d i => d.val != 0 && dstDeferred d && i.short
  | .ld _ _ _ d _ i => dstDeferred d && i.short
  | .st _ _ _ _ i => i.short
  | .pf _ _ _ | .wb _ _ _ | .inv _ _ _ | .trap _ _ | .eret _ => true
  | .csrr _ d n => csrOk false d n
  | .csrw _ d _ n => csrOk true d n
  | .csrs _ d a n | .csrc _ d a n => csrOk (a.val != 0) d n
  | .fence _ sc un => !un || sc == .dev
  | .nop _ | .halt _ | .brk _ | .wfi _ => true
  | .vaddInt _ t _ _ _ | .vsubInt _ t _ _ _ | .vmulInt _ t _ _ _ | .vminInt _ t _ _ _ | .vmaxInt _ t _ _ _
  | .vand _ t _ _ _ | .vor _ t _ _ _ | .vxor _ t _ _ _ | .vshl _ t _ _ _ | .vshr _ t _ _ _
  | .vsra _ t _ _ _ => t.isInt
  | .vaddIntScalar _ t _ _ _ | .vsubIntScalar _ t _ _ _ | .vmulIntScalar _ t _ _ _ | .vminIntScalar _ t _ _ _
  | .vmaxIntScalar _ t _ _ _ | .vandScalar _ t _ _ _ | .vorScalar _ t _ _ _ | .vxorScalar _ t _ _ _
  | .vshlScalar _ t _ _ _ | .vshrScalar _ t _ _ _ | .vsraScalar _ t _ _ _ => t.isInt
  | .vaddFp _ t _ _ _ | .vsubFp _ t _ _ _ | .vmulFp _ t _ _ _ | .vminFp _ t _ _ _ | .vmaxFp _ t _ _ _
  | .vdiv _ t _ _ _ | .vaddFpScalar _ t _ _ _ | .vsubFpScalar _ t _ _ _ | .vmulFpScalar _ t _ _ _
  | .vminFpScalar _ t _ _ _ | .vmaxFpScalar _ t _ _ _ | .vdivScalar _ t _ _ _ => t.vecFp
  | .vfma _ t _ _ _ _ | .vfms _ t _ _ _ _ => t.vecFp
  | .vsqrt _ t _ _ | .vrcp _ t _ _ | .vrsq _ t _ _ => t.vecFp
  | .vabs _ t _ _ | .vneg _ t _ _ => t.vecFp || (t.isInt && t.signed)
  | .vcmp _ _ t _ _ _ | .vcmpScalar _ _ t _ _ _ => t.vecAny
  | .vsel _ _ _ _ _ _ | .vmov _ _ _ _ => true
  | .vbcast _ t _ _ => t.vecAny
  | .vext _ t d _ _ _ => t.vecAny && dstOk d
  | .vins _ t _ _ _ _ => t.vecAny
  | .vperm _ t _ _ _ => t.gatherable
  | .vred _ op t d _ => t.vecAny && (!op.logical || t.isInt) && dstDeferred d
  | .vld _ _ _ i | .vst _ _ _ i => i.short
  | .vlds _ _ _ _ _ => true
  | .vgather _ t _ _ _ _ | .vscatter _ t _ _ _ _ => t.gatherable
  | .vcvt _ dt st _ _ p => dt != st && p.toNat < cvtRatio dt st
  | .vq _ sch _ t _ c a b p => quantOk sch t a b p && dstDeferred c
  | .vdq _ sch _ t d _ _ c p => quantOk sch t d c p
  | .vcomp _ _ _ _ => true
  | .vqtab _ _ i => i.short
  | .t5pack _ _ a _ => pairOk a
  | .t5unpk _ d _ _ => pairOk d
  | .spawn _ d _ i => dstOk d && i.short
  | .reap _ d _ => dstOk d
  | .exit _ _ => true
  | .arm _ d _ _ => dstDeferred d
  | .disarm _ d _ _ => dstOk d
  | .mwait _ d _ => dstOk d
  | .fset _ vec d | .fclr _ vec d => if vec then d.val < 32 else d.val < 56
  | .rfill _ d _ _ n => dstOk d && n.toNat != 0 && n.toNat < 48
  | .gbar _ _ d _ | .garrive _ d _ | .gmem _ d _ | .tdec _ d _ | .tcancel _ d _ => dstOk d
  | .gwait _ _ _ => true
  | .tnext _ d => dstOk d
  | .tdone _ d _ _ => dstOk d
  | .wpass _ _ d _ _ _ | .wpoll _ d _ | .wdetach _ d _ | .wattach _ _ d _ _ | .wrel _ _ d _ | .wmode _ _ d _
  | .wclr _ d _ => dstOk d
  | .ldv _ _ d _ c => dstDeferred d && dstDeferred c && (c.val != d.val || d.val == 0)
  | .verchk _ d => dstDeferred d
  | .verclr _ => true
  | .cas _ sz _ _ d _ _ _ | .casv _ sz _ _ d _ _ _ => atomicSize sz && dstDeferred d
  | .amo _ op sz _ _ d _ _ => amoOk op sz && dstDeferred d
  | .red _ op sz o _ _ _ => amoOk op sz && op != .swap && !o.isAcq
  | .vamo _ op sz _ _ _ _ _ _ => amoOk op sz
  | .ldAcq _ _ _ d _ => dstDeferred d
  | .stRel _ _ _ _ _ => true
  | .cpy _ d _ b _ r e => cpyOk d b r e
  | .fork _ d _ _ i => dstOk d && i.short
  | .rdv _ d _ => dstOk d
  | .qfence _ m => m != 0
  | .wait _ _ _ _ _ | .uiret _ => true
  | .clw _ _ _ d _ => dstDeferred d
  | .cflip _ | .cpass _ _ _ _ _ _ | .cdrain _ _ _ _ _ _ | .cstk _ _ _ _ | .cfmt _ _ _ => true
  | .cstat _ d => dstOk d
  | .xst _ _ _ _ => true
  | .sopen _ _ d _ _ | .sclose _ _ d _ => dstOk d
  | .smark _ _ | .nred _ _ _ _ _ _ _ | .nmc _ _ _ _ _ _ => true
  | .fillWord _ => true
  -- events
  | .fetchMiss .. | .resultArrival .. | .storeAcknowledge .. | .lateFault .. | .trapEntry .. | .interruptEntry ..
  | .timerPending .. | .noticeDelivery .. | .registerFileSleep .. | .wakeEnd .. | .remoteFillDelivery ..
  | .mwaitTimeout .. | .episodeComplete .. | .decrementAtHome .. | .watchdogExpiry .. | .errorTokenArrival ..
  | .wellMoveComplete .. | .wellAttachComplete .. | .wellClearComplete .. | .wellModeChange .. | .wellFree ..
  | .wellPortAccess .. | .entryMoveOutward .. | .linePartPerform .. | .loadPartPerform .. | .sliceStep ..
  | .agentWriteAtSlice .. | .eviction .. | .vamoLaneFault .. | .pageResolved .. | .engineCopy .. | .copyComplete ..
  | .engineFault .. | .sequencerRecord .. | .arrayOpStart .. | .arrayOpComplete .. | .exchangeOpStart ..
  | .unitLanding .. | .networkReduction .. | .wordInjection .. | .wordDelivery .. | .markerSend .. | .lockstepStall ..
  | .schedulerQuantum .. | .launchEnd .. | .synchronizedStop .. | .teamRestore .. | .frameScrub ..
  | .noresHoldExpiry .. | .retryPermit .. | .genReplay .. | .deadlockProbe .. | .deadlockRecoveryStep
  | .peerRequest .. | .hostCoherentAccess .. | .hostRawAccess .. | .hostTierAccess .. | .registerWindowWrite ..
  | .quantumWrite .. | .sdoor .. | .reset .. | .carveoutWrite .. | .sdgo .. | .shootDownComplete .. | .mvgo ..
  | .prq .. | .prans .. | .gpgo .. | .patchTaken .. | .gdef .. | .qtail .. | .qctlResume .. | .irqstatClear ..
  | .createFunction .. | .addCluster .. | .removeCluster .. | .addSlice .. | .writeHashMask .. | .lendCluster ..
  | .revokeLentCluster .. | .bindExport .. | .destroyFunction .. | .clearBootRecord .. | .attestationReport ..
  | .deviceStart .. | .powerLoss | .timebaseRecord | .thermalLimit .. | .lineMove .. | .masksTaken .. | .resetDone ..
  | .returnToLender .. | .unlistedCommand .. | .hostAccessToNoRegion .. => true

end Sys2Proof
end

