-- ==== Sys2Proof/WellFormed.lean ====
section
/-!
DEFINITION. Which terms of the syntax are instructions of the K9: those whose fields meet their entries (R84, R85).
-/

namespace Sys2Proof

/-- The fields of the instruction meet what its entry demands (R84, R85). -/
def Instr.wellFormed (i : Instr) : Bool := instrOk i

end Sys2Proof
end

