-- ==== Sys2Proof/Decode.lean ====
section
/-!
DEFINITION. The bits of an instruction (R76-R94): the fields of a word, the decoder over bytes, and the encoder.
A word is accepted when some instruction of the tables has exactly its bits, reserved fields included (R85), and its
fields meet the entry (R84); every refusal has a name.
-/

namespace Sys2Proof

/-- Why bits are no instruction. All but `truncated` are cause 0x01 (R93). -/
inductive DecErr where
  /-- No major and minor of R87-R92, or a type, scheme, format or scope code not listed against it. -/
  | undefinedOpcode
  /-- A scalar field names 63, or a vector or mask field a number outside its file (R84). -/
  | badRegister
  /-- A field that the instruction does not use is not zero, or the length is not accepted (R85, R87). -/
  | reservedField
  /-- The fields break what the instruction's entry demands of them. -/
  | badOperand
  /-- The bytes end before the instruction does. -/
  | truncated
  deriving DecidableEq, Repr

/-- The fields of R81 and R82. `hi` holds what stands above bit 63: nothing, imm32, or the 64-bit immediate. -/
structure Raw where
  len   : BitVec 2 := 0
  major : BitVec 8
  d     : BitVec 6 := 0
  a     : BitVec 6 := 0
  b     : BitVec 6 := 0
  k     : BitVec 3 := 0
  top   : BitVec 1 := 0
  minor : BitVec 8 := 0
  c     : BitVec 6 := 0
  imm   : BitVec 18 := 0
  hi    : BitVec 64 := 0
  deriving DecidableEq, Repr

/-- The word that the fields make, the length code in bits 1:0 (R81, R82). -/
def Raw.word (r : Raw) : BitVec 128 :=
  r.hi ++ (r.imm ++ (r.c ++ (r.minor ++ (r.top ++ (r.k ++ (r.b ++ (r.a ++ (r.d ++ (r.major ++ r.len)))))))))

/-- The fields of a word. -/
def Raw.ofWord (w : BitVec 128) : Raw :=
  { len := w.extractLsb' 0 2, major := w.extractLsb' 2 8, d := w.extractLsb' 10 6, a := w.extractLsb' 16 6,
    b := w.extractLsb' 22 6, k := w.extractLsb' 28 3, top := w.extractLsb' 31 1, minor := w.extractLsb' 32 8,
    c := w.extractLsb' 40 6, imm := w.extractLsb' 46 18, hi := w.extractLsb' 64 64 }

/-- The length in bytes that a length code gives (R76). -/
def lenBytes (len : BitVec 2) : Nat :=
  match len.toNat with
  | 0 => 8
  | 1 => 12
  | 2 => 16
  | _ => 4

/-! ### Fields to bits -/

def sBits (s : SReg) : BitVec 6 := BitVec.ofNat 6 s.val
def vBits (v : VReg) : BitVec 6 := BitVec.ofNat 6 v.val
def mBits (m : MReg) : BitVec 6 := BitVec.ofNat 6 m.val
def kBits (m : MReg) : BitVec 3 := BitVec.ofNat 3 m.val

/-- A word of a major with scalar fields d, a, b. -/
def rawS (major : BitVec 8) (k : MReg) (d a b : SReg) (minor : BitVec 8) : Raw :=
  { major := major, k := kBits k, d := sBits d, a := sBits a, b := sBits b, minor := minor }

/-- A word of a major with vector fields d and a. -/
def rawV (major : BitVec 8) (k : MReg) (d a : VReg) (b : BitVec 6) (minor : BitVec 8) : Raw :=
  { major := major, k := kBits k, d := vBits d, a := vBits a, b := b, minor := minor }

/-- The immediate of any length put into a word (R82, R95). -/
def Raw.withImm (r : Raw) : Imm → Raw
  | .i18 v => { r with imm := v }
  | .i32 v => { r with len := 1, hi := v.setWidth 64 }
  | .i64 v => { r with len := 2, hi := v }

/-- Minor of the vector majors: op code in bits 7:4, type in bits 3:0 (R90). -/
def opTy (op : BitVec 4) (t : Ty) : BitVec 8 := op ++ t.code

/-- Minor of the atomic layout (R92). -/
def atomicMinor (op : BitVec 4) (o : Order) (sz : Size) : BitVec 8 := op ++ (o.code ++ sz.code)

/-- imm18 of the atomic layout: the scope in bits 2:0 (R92). -/
def scopeImm (sc : Scope) : BitVec 18 := sc.code.setWidth 18

/-- imm18 with two 4-bit fields and a flag or operation above them. -/
def nib (n : Fin 16) : BitVec 18 := BitVec.ofNat 18 n.val

/-- The engine-command extension (R287), bits 127:64 of `cpy`. -/
def CpyExt.bits (e : CpyExt) : BitVec 64 :=
  e.sfmt.code ++ (e.dfmt.code ++ (flagBit 1 e.cvt ++ (e.dk.code ++ (flagBit 1 e.irq ++ (e.fon ++ (e.tag ++ (0 : BitVec 36)))))))

/-- The fields of an instruction (R87-R92); none for an event, which has no encoding, and for the fill word. -/
def toRaw : Instr → Option Raw
  | .add k d a b => some (rawS 0x00 k d a b 0x00)
  | .sub k d a b => some (rawS 0x00 k d a b 0x01)
  | .and k d a b => some (rawS 0x00 k d a b 0x02)
  | .or k d a b => some (rawS 0x00 k d a b 0x03)
  | .xor k d a b => some (rawS 0x00 k d a b 0x04)
  | .shl k d a b => some (rawS 0x00 k d a b 0x05)
  | .shr k d a b => some (rawS 0x00 k d a b 0x06)
  | .sra k d a b => some (rawS 0x00 k d a b 0x07)
  | .min k sg d a b => some (rawS 0x00 k d a b (0x08 + sg.code))
  | .max k sg d a b => some (rawS 0x00 k d a b (0x0A + sg.code))
  | .addImm k d a i => some ((rawS 0x01 k d a 0 0x00).withImm i)
  | .subImm k d a i => some ((rawS 0x01 k d a 0 0x01).withImm i)
  | .andImm k d a i => some ((rawS 0x01 k d a 0 0x02).withImm i)
  | .orImm k d a i => some ((rawS 0x01 k d a 0 0x03).withImm i)
  | .xorImm k d a i => some ((rawS 0x01 k d a 0 0x04).withImm i)
  | .shlImm k d a i => some ((rawS 0x01 k d a 0 0x05).withImm i)
  | .shrImm k d a i => some ((rawS 0x01 k d a 0 0x06).withImm i)
  | .sraImm k d a i => some ((rawS 0x01 k d a 0 0x07).withImm i)
  | .minImm k sg d a i => some ((rawS 0x01 k d a 0 (0x08 + sg.code)).withImm i)
  | .maxImm k sg d a i => some ((rawS 0x01 k d a 0 (0x0A + sg.code)).withImm i)
  | .mul k d a b => some (rawS 0x02 k d a b 0x00)
  | .mulh k sg d a b => some (rawS 0x02 k d a b (0x01 + sg.code))
  | .div k sg d a b => some (rawS 0x02 k d a b (0x03 + sg.code))
  | .rem k sg d a b => some (rawS 0x02 k d a b (0x05 + sg.code))
  | .mulImm k d a i => some ((rawS 0x03 k d a 0 0x00).withImm i)
  | .mulhImm k sg d a i => some ((rawS 0x03 k d a 0 (0x01 + sg.code)).withImm i)
  | .divImm k sg d a i => some ((rawS 0x03 k d a 0 (0x03 + sg.code)).withImm i)
  | .remImm k sg d a i => some ((rawS 0x03 k d a 0 (0x05 + sg.code)).withImm i)
  | .slt k d a b => some (rawS 0x04 k d a b 0x00)
  | .sltu k d a b => some (rawS 0x04 k d a b 0x01)
  | .seq k d a b => some (rawS 0x04 k d a b 0x02)
  | .sne k d a b => some (rawS 0x04 k d a b 0x03)
  | .sltImm k d a i => some ((rawS 0x05 k d a 0 0x00).withImm i)
  | .sltuImm k d a i => some ((rawS 0x05 k d a 0 0x01).withImm i)
  | .seqImm k d a i => some ((rawS 0x05 k d a 0 0x02).withImm i)
  | .sneImm k d a i => some ((rawS 0x05 k d a 0 0x03).withImm i)
  | .clz k d a => some (rawS 0x06 k d a 0 0x00)
  | .ctz k d a => some (rawS 0x06 k d a 0 0x01)
  | .popc k d a => some (rawS 0x06 k d a 0 0x02)
  | .sext k w d a => some (rawS 0x06 k d a 0 (0x10 + w.code))
  | .zext k w d a => some (rawS 0x06 k d a 0 (0x14 + w.code))
  | .bfx k .z d a pos wm1 => some { rawS 0x07 k d a 0 0x00 with imm := bfImm pos wm1 }
  | .bfx k .s d a pos wm1 => some { rawS 0x07 k d a 0 0x01 with imm := bfImm pos wm1 }
  | .bfi k d a b pos wm1 => some { rawS 0x07 k d a b 0x02 with imm := bfImm pos wm1 }
  | .sel k d a b c => some { rawS 0x08 k d a b 0 with c := sBits c }
  | .li k d i => some ((rawS 0x09 k d 0 0 0).withImm i)
  | .lea k d off => some ((rawS 0x0A k d 0 0 0).withImm (.i32 off))
  | .bcc k cc a b i => some ((rawS 0x20 k 0 a b cc.code).withImm i)
  | .j k i => some ((rawS 0x21 k 0 0 0 0).withImm i)
  | .jal k d i => some ((rawS 0x22 k d 0 0 0).withImm i)
  | .jr k d a => some (rawS 0x23 k d a 0 0)
  | .loop k d i => some ((rawS 0x24 k d 0 0 0).withImm i)
  | .ld k sz sx d a i => some ((rawS 0x30 k d a 0 ((0 : BitVec 5) ++ (flagBit 1 sx ++ sz.code))).withImm i)
  | .st k sz a b i => some ((rawS 0x31 k 0 a b ((0 : BitVec 6) ++ sz.code)).withImm i)
  | .pf k a i => some { rawS 0x32 k 0 a 0 0 with imm := i }
  | .wb k a i => some { rawS 0x33 k 0 a 0 0 with imm := i }
  | .inv k a i => some { rawS 0x34 k 0 a 0 0 with imm := i }
  | .trap k i => some { rawS 0x40 k 0 0 0 0 with imm := i }
  | .eret k => some (rawS 0x41 k 0 0 0 0)
  | .csrr k d n => some { rawS 0x42 k d 0 0 0x00 with imm := n.setWidth 18 }
  | .csrw k d a n => some { rawS 0x42 k d a 0 0x01 with imm := n.setWidth 18 }
  | .csrs k d a n => some { rawS 0x42 k d a 0 0x02 with imm := n.setWidth 18 }
  | .csrc k d a n => some { rawS 0x42 k d a 0 0x03 with imm := n.setWidth 18 }
  | .fence k sc un => some (rawS 0x43 k 0 0 0 ((0 : BitVec 4) ++ (flagBit 1 un ++ sc.code)))
  | .nop k => some (rawS 0x44 k 0 0 0 0)
  | .halt k => some (rawS 0x45 k 0 0 0 0)
  | .brk k => some (rawS 0x46 k 0 0 0 0)
  | .wfi k => some (rawS 0x47 k 0 0 0 0)
  | .vaddInt k t d a b => some (rawV 0x50 k d a (vBits b) (opTy 0x0 t))
  | .vsubInt k t d a b => some (rawV 0x50 k d a (vBits b) (opTy 0x1 t))
  | .vmulInt k t d a b => some (rawV 0x50 k d a (vBits b) (opTy 0x2 t))
  | .vminInt k t d a b => some (rawV 0x50 k d a (vBits b) (opTy 0x3 t))
  | .vmaxInt k t d a b => some (rawV 0x50 k d a (vBits b) (opTy 0x4 t))
  | .vand k t d a b => some (rawV 0x50 k d a (vBits b) (opTy 0x6 t))
  | .vor k t d a b => some (rawV 0x50 k d a (vBits b) (opTy 0x7 t))
  | .vxor k t d a b => some (rawV 0x50 k d a (vBits b) (opTy 0x8 t))
  | .vshl k t d a b => some (rawV 0x50 k d a (vBits b) (opTy 0x9 t))
  | .vshr k t d a b => some (rawV 0x50 k d a (vBits b) (opTy 0xA t))
  | .vsra k t d a b => some (rawV 0x50 k d a (vBits b) (opTy 0xB t))
  | .vaddIntScalar k t d a b => some (rawV 0x51 k d a (sBits b) (opTy 0x0 t))
  | .vsubIntScalar k t d a b => some (rawV 0x51 k d a (sBits b) (opTy 0x1 t))
  | .vmulIntScalar k t d a b => some (rawV 0x51 k d a (sBits b) (opTy 0x2 t))
  | .vminIntScalar k t d a b => some (rawV 0x51 k d a (sBits b) (opTy 0x3 t))
  | .vmaxIntScalar k t d a b => some (rawV 0x51 k d a (sBits b) (opTy 0x4 t))
  | .vandScalar k t d a b => some (rawV 0x51 k d a (sBits b) (opTy 0x6 t))
  | .vorScalar k t d a b => some (rawV 0x51 k d a (sBits b) (opTy 0x7 t))
  | .vxorScalar k t d a b => some (rawV 0x51 k d a (sBits b) (opTy 0x8 t))
  | .vshlScalar k t d a b => some (rawV 0x51 k d a (sBits b) (opTy 0x9 t))
  | .vshrScalar k t d a b => some (rawV 0x51 k d a (sBits b) (opTy 0xA t))
  | .vsraScalar k t d a b => some (rawV 0x51 k d a (sBits b) (opTy 0xB t))
  | .vaddFp k t d a b => some (rawV 0x52 k d a (vBits b) (opTy 0x0 t))
  | .vsubFp k t d a b => some (rawV 0x52 k d a (vBits b) (opTy 0x1 t))
  | .vmulFp k t d a b => some (rawV 0x52 k d a (vBits b) (opTy 0x2 t))
  | .vminFp k t d a b => some (rawV 0x52 k d a (vBits b) (opTy 0x3 t))
  | .vmaxFp k t d a b => some (rawV 0x52 k d a (vBits b) (opTy 0x4 t))
  | .vdiv k t d a b => some (rawV 0x52 k d a (vBits b) (opTy 0x5 t))
  | .vaddFpScalar k t d a b => some (rawV 0x53 k d a (sBits b) (opTy 0x0 t))
  | .vsubFpScalar k t d a b => some (rawV 0x53 k d a (sBits b) (opTy 0x1 t))
  | .vmulFpScalar k t d a b => some (rawV 0x53 k d a (sBits b) (opTy 0x2 t))
  | .vminFpScalar k t d a b => some (rawV 0x53 k d a (sBits b) (opTy 0x3 t))
  | .vmaxFpScalar k t d a b => some (rawV 0x53 k d a (sBits b) (opTy 0x4 t))
  | .vdivScalar k t d a b => some (rawV 0x53 k d a (sBits b) (opTy 0x5 t))
  | .vfma k t d a b c => some { rawV 0x54 k d a (vBits b) (opTy 0x0 t) with c := vBits c }
  | .vfms k t d a b c => some { rawV 0x54 k d a (vBits b) (opTy 0x1 t) with c := vBits c }
  | .vsqrt k t d a => some (rawV 0x55 k d a 0 (opTy 0x0 t))
  | .vrcp k t d a => some (rawV 0x55 k d a 0 (opTy 0x1 t))
  | .vrsq k t d a => some (rawV 0x55 k d a 0 (opTy 0x2 t))
  | .vabs k t d a => some (rawV 0x55 k d a 0 (opTy 0x3 t))
  | .vneg k t d a => some (rawV 0x55 k d a 0 (opTy 0x4 t))
  | .vcmp k cc t d a b => some { rawV 0x56 k 0 a (vBits b) (opTy cc.code t) with d := mBits d }
  | .vcmpScalar k cc t d a b => some { rawV 0x57 k 0 a (sBits b) (opTy cc.code t) with d := mBits d }
  | .vmov k w d a => some { rawV 0x58 k d a 0 0 with imm := w.code }
  | .vbcast k t d a => some { rawV 0x59 k d 0 0 (opTy 0 t) with a := sBits a }
  | .vext k t d a b i => some { rawV 0x5A k 0 a (sBits b) (opTy 0 t) with d := sBits d, imm := i }
  | .vins k t d a b i => some { rawV 0x5B k d 0 (sBits b) (opTy 0 t) with a := sBits a, imm := i }
  | .vperm k t d a b => some (rawV 0x5C k d a (vBits b) (opTy 0 t))
  | .vred k op t d a => some { rawV 0x5D k 0 a 0 (opTy op.code t) with d := sBits d }
  | .vsel k w d a b c => some { rawV 0x5E k d a (vBits b) 0 with c := mBits c, imm := w.code }
  | .vld k d a i => some ({ rawV 0x60 k d 0 0 0 with a := sBits a } |>.withImm i)
  | .vst k a b i => some ({ rawV 0x61 k 0 0 (vBits b) 0 with a := sBits a } |>.withImm i)
  | .vlds k d a c i => some { rawV 0x62 k d 0 0 0 with a := sBits a, c := sBits c, imm := i }
  | .vgather k t d a b i => some { rawV 0x63 k d 0 (vBits b) (opTy 0 t) with a := sBits a, imm := i }
  | .vscatter k t a b c i => some { rawV 0x64 k 0 0 (vBits b) (opTy 0 t) with a := sBits a, c := vBits c, imm := i }
  | .vcvt k dt st d a p => some { rawV 0x90 k d a 0 (dt.code ++ st.code) with imm := p.setWidth 18 }
  | .vq k sch cmp t d c a b p =>
      some { rawV 0x91 k d a (sBits b) (flagBit 1 cmp ++ (sch.code ++ t.code)) with c := sBits c, imm := p.setWidth 18 }
  | .vdq k sch exp t d a b c p =>
      some { rawV 0x92 k d a (sBits b) (flagBit 1 exp ++ (sch.code ++ t.code)) with c := sBits c, imm := p.setWidth 18 }
  | .vcomp k inverse d a => some (rawV 0x93 k d a 0 (flagBit 1 inverse ++ (0 : BitVec 7)))
  | .vqtab k a i => some ((rawS 0x94 k 0 a 0 0).withImm i)
  | .t5pack k d a p => some { rawV 0x95 k d a 0 0 with imm := p.setWidth 18 }
  | .t5unpk k d a p => some { rawV 0x96 k d a 0 0 with imm := p.setWidth 18 }
  | .spawn k d a i => some ((rawS 0xA0 k d a 0 0).withImm i)
  | .reap k d a => some (rawS 0xA1 k d a 0 0)
  | .exit k a => some (rawS 0xA2 k 0 a 0 0)
  | .arm k d a i => some { rawS 0xA3 k d a 0 0 with imm := i }
  | .disarm k d a i => some { rawS 0xA4 k d a 0 0 with imm := i }
  | .mwait k d a => some (rawS 0xA5 k d a 0 0)
  | .fset k vec d => some { rawS 0xA6 k d 0 0 0 with imm := flagBit 18 vec }
  | .fclr k vec d => some { rawS 0xA7 k d 0 0 0 with imm := flagBit 18 vec }
  | .rfill k d a b n => some { rawS 0xA8 k d a b 0 with imm := n.setWidth 18 }
  | .gbar k swap d a => some (rawS 0xB0 k d a 0 (flagBit 8 swap))
  | .garrive k d a => some (rawS 0xB1 k d a 0 0)
  | .gwait k a b => some (rawS 0xB2 k 0 a b 0)
  | .gmem k d a => some (rawS 0xB3 k d a 0 0)
  | .tdec k d a => some (rawS 0xB4 k d a 0 0)
  | .tnext k d => some (rawS 0xB5 k d 0 0 0)
  | .tdone k d a b => some (rawS 0xB6 k d a b 0)
  | .tcancel k d a => some (rawS 0xB7 k d a 0 0)
  | .wpass k ro d a s t => some { rawS 0xB8 k d a 0 0 with imm := (0 : BitVec 9) ++ (flagBit 1 ro ++ (slotBits t ++ slotBits s)) }
  | .wpoll k d s => some { rawS 0xB9 k d 0 0 0 with imm := nib s }
  | .wdetach k d s => some { rawS 0xBA k d 0 0 0 with imm := nib s }
  | .wattach k keep d a s => some { rawS 0xBB k d a 0 0 with imm := (0 : BitVec 13) ++ (flagBit 1 keep ++ slotBits s) }
  | .wrel k free d s => some { rawS 0xBC k d 0 0 0 with imm := (0 : BitVec 13) ++ (flagBit 1 free ++ slotBits s) }
  | .wmode k m d s => some { rawS 0xBD k d 0 0 0 with imm := (0 : BitVec 13) ++ (flagBit 1 m ++ slotBits s) }
  | .wclr k d s => some { rawS 0xBE k d 0 0 0 with imm := nib s }
  | .ldv k set d a c => some { rawS 0xC0 k d a 0 (flagBit 8 set) with c := sBits c }
  | .verchk k d => some (rawS 0xC1 k d 0 0 0)
  | .verclr k => some (rawS 0xC2 k 0 0 0 0)
  | .cas k sz o sc d a b c => some { rawS 0xC3 k d a b (atomicMinor 0 o sz) with c := sBits c, imm := scopeImm sc }
  | .casv k sz o sc d a b c => some { rawS 0xC4 k d a b (atomicMinor 0 o sz) with c := sBits c, imm := scopeImm sc }
  | .amo k op sz o sc d a b => some { rawS 0xC5 k d a b (atomicMinor op.code o sz) with imm := scopeImm sc }
  | .red k op sz o sc a b => some { rawS 0xC6 k 0 a b (atomicMinor op.code o sz) with imm := scopeImm sc }
  | .vamo k op sz o sc d a b c =>
      some { rawS 0xC7 k 0 a 0 (atomicMinor op.code o sz) with d := vBits d, b := vBits b, c := vBits c, imm := scopeImm sc }
  | .ldAcq k sz sc d a => some { rawS 0xC8 k d a 0 (atomicMinor 0 .relaxed sz) with imm := scopeImm sc }
  | .stRel k sz sc a b => some { rawS 0xC9 k 0 a b (atomicMinor 0 .relaxed sz) with imm := scopeImm sc }
  | .cpy k d a b c r e =>
      some { rawS 0xD0 k 0 a b 0 with d := BitVec.ofNat 6 d.val, len := 2, c := sBits c, imm := r, hi := e.bits }
  | .fork k d a b i => some ((rawS 0xD1 k d a b 0).withImm i)
  | .rdv k d a => some (rawS 0xD2 k d a 0 0)
  | .qfence k m => some { rawS 0xD3 k 0 0 0 0 with imm := m.setWidth 18 }
  | .wait k tl cp st ld =>
      some { rawS 0xD4 k 0 0 0 0 with len := 1, hi := (0 : BitVec 32) ++ (tl ++ (cp ++ (st ++ ld))) }
  | .uiret k => some (rawS 0xD5 k 0 0 0 0)
  | .clw k f sc d a => some { rawS 0xD8 k d a 0 f.code with imm := flagBit 18 sc }
  | .cflip k => some (rawS 0xD9 k 0 0 0 0)
  | .cpass k a b c irq tag => some { rawS 0xDA k 0 a b 0 with c := sBits c, imm := (0 : BitVec 9) ++ (flagBit 1 irq ++ tag) }
  | .cdrain k a b c irq tag => some { rawS 0xDB k 0 a b 0 with c := sBits c, imm := (0 : BitVec 9) ++ (flagBit 1 irq ++ tag) }
  | .cstk k a b c => some { rawS 0xDC k 0 a b 0 with c := sBits c }
  | .cfmt k f cmp => some (rawS 0xDD k 0 0 0 (flagBit 1 cmp ++ ((0 : BitVec 4) ++ f.code)))
  | .cstat k d => some (rawS 0xDE k d 0 0 0)
  | .xst k a b c => some { rawS 0xE0 k 0 a b 0 with c := sBits c }
  | .sopen k rx d a n => some { rawS 0xE1 k d a 0 0 with imm := portImm rx n }
  | .smark k n => some { rawS 0xE2 k 0 0 0 0 with imm := portImm false n }
  | .nred k op a b c s off =>
      some { rawS 0xE3 k 0 a b 0 with c := sBits c, imm := op.code ++ (off ++ slotBits s) }
  | .nmc k a b c s off =>
      some { rawS 0xE4 k 0 a b 0 with c := sBits c, imm := (0 : BitVec 3) ++ (off ++ slotBits s) }
  | .sclose k rx d n => some { rawS 0xE5 k d 0 0 0 with imm := portImm rx n }
  | _ => none
where
  slotBits (n : Fin 16) : BitVec 4 := BitVec.ofNat 4 n.val
  portImm (rx : Bool) (n : Fin 4) : BitVec 18 := (0 : BitVec 15) ++ (flagBit 1 rx ++ BitVec.ofNat 2 n.val)
  bfImm (pos wm1 : Fin 64) : BitVec 18 := (0 : BitVec 5) ++ ((0 : BitVec 1) ++ (BitVec.ofNat 6 wm1.val ++ BitVec.ofNat 6 pos.val))

/-! ### Bits to fields -/

def sReg (f : BitVec 6) : Except DecErr SReg :=
  if h : f.toNat < 63 then .ok ⟨f.toNat, h⟩ else .error .badRegister

def vReg (f : BitVec 6) : Except DecErr VReg :=
  if h : f.toNat < 32 then .ok ⟨f.toNat, h⟩ else .error .badRegister

def mReg (f : BitVec 6) : Except DecErr MReg :=
  if h : f.toNat < 8 then .ok ⟨f.toNat, h⟩ else .error .badRegister

/-- A code that its table lists. -/
def listed (o : Option α) : Except DecErr α :=
  match o with
  | some x => .ok x
  | none => .error .undefinedOpcode

def Raw.kReg (r : Raw) : MReg := r.k.toFin

/-- The immediate of the word's length (R95). -/
def Raw.immOf (r : Raw) : Imm :=
  match r.len.toNat with
  | 0 => .i18 r.imm
  | 1 => .i32 (r.hi.setWidth 32)
  | _ => .i64 r.hi

/-- Minor bits 7:4, the op code of the vector and atomic majors. -/
def Raw.op (r : Raw) : BitVec 4 := r.minor.extractLsb' 4 4
/-- Minor bits 3:0, the type code. -/
def Raw.lo (r : Raw) : BitVec 4 := r.minor.extractLsb' 0 4
def Raw.ty (r : Raw) : Except DecErr Ty := listed (Ty.ofCode r.lo)
def Raw.size (r : Raw) : Size := Size.ofCode (r.minor.extractLsb' 0 2)
def Raw.order (r : Raw) : Order := Order.ofCode (r.minor.extractLsb' 2 2)
def Raw.scope (r : Raw) : Except DecErr Scope := listed (Scope.ofCode (r.imm.extractLsb' 0 3))
def Raw.slot (r : Raw) (at_ : Nat) : Fin 16 := (r.imm.extractLsb' at_ 4).toFin
def Raw.flag (r : Raw) (n : Nat) : Bool := r.imm.getLsbD n

abbrev MkDab := MReg → SReg → SReg → SReg → Instr
abbrev MkDai := MReg → SReg → SReg → Imm → Instr
abbrev MkVvv := MReg → Ty → VReg → VReg → VReg → Instr
abbrev MkVvs := MReg → Ty → VReg → VReg → SReg → Instr

def Raw.dab (r : Raw) (mk : MkDab) : Except DecErr Instr := do
  return mk r.kReg (← sReg r.d) (← sReg r.a) (← sReg r.b)

def Raw.dai (r : Raw) (mk : MkDai) : Except DecErr Instr := do
  return mk r.kReg (← sReg r.d) (← sReg r.a) r.immOf

def Raw.da (r : Raw) (mk : MReg → SReg → SReg → Instr) : Except DecErr Instr := do
  return mk r.kReg (← sReg r.d) (← sReg r.a)

def Raw.d1 (r : Raw) (mk : MReg → SReg → Instr) : Except DecErr Instr := do
  return mk r.kReg (← sReg r.d)

def Raw.abc (r : Raw) (mk : MReg → SReg → SReg → SReg → Instr) : Except DecErr Instr := do
  return mk r.kReg (← sReg r.a) (← sReg r.b) (← sReg r.c)

def Raw.vvv (r : Raw) (mk : MkVvv) : Except DecErr Instr := do
  return mk r.kReg (← r.ty) (← vReg r.d) (← vReg r.a) (← vReg r.b)

def Raw.vvs (r : Raw) (mk : MkVvs) : Except DecErr Instr := do
  return mk r.kReg (← r.ty) (← vReg r.d) (← vReg r.a) (← sReg r.b)

def Raw.vv (r : Raw) (mk : MReg → Ty → VReg → VReg → Instr) : Except DecErr Instr := do
  return mk r.kReg (← r.ty) (← vReg r.d) (← vReg r.a)

/-- Majors 0x00-0x0A: integer operations, constants and addresses (R87, R88). -/
def decodeInteger (r : Raw) : Except DecErr Instr :=
  match r.major.toNat, r.minor.toNat with
  | 0x00, 0x00 => r.dab .add
  | 0x00, 0x01 => r.dab .sub
  | 0x00, 0x02 => r.dab .and
  | 0x00, 0x03 => r.dab .or
  | 0x00, 0x04 => r.dab .xor
  | 0x00, 0x05 => r.dab .shl
  | 0x00, 0x06 => r.dab .shr
  | 0x00, 0x07 => r.dab .sra
  | 0x00, 0x08 => r.dab (fun k => .min k .s)
  | 0x00, 0x09 => r.dab (fun k => .min k .z)
  | 0x00, 0x0A => r.dab (fun k => .max k .s)
  | 0x00, 0x0B => r.dab (fun k => .max k .z)
  | 0x01, 0x00 => r.dai .addImm
  | 0x01, 0x01 => r.dai .subImm
  | 0x01, 0x02 => r.dai .andImm
  | 0x01, 0x03 => r.dai .orImm
  | 0x01, 0x04 => r.dai .xorImm
  | 0x01, 0x05 => r.dai .shlImm
  | 0x01, 0x06 => r.dai .shrImm
  | 0x01, 0x07 => r.dai .sraImm
  | 0x01, 0x08 => r.dai (fun k => .minImm k .s)
  | 0x01, 0x09 => r.dai (fun k => .minImm k .z)
  | 0x01, 0x0A => r.dai (fun k => .maxImm k .s)
  | 0x01, 0x0B => r.dai (fun k => .maxImm k .z)
  | 0x02, 0x00 => r.dab .mul
  | 0x02, 0x01 => r.dab (fun k => .mulh k .s)
  | 0x02, 0x02 => r.dab (fun k => .mulh k .z)
  | 0x02, 0x03 => r.dab (fun k => .div k .s)
  | 0x02, 0x04 => r.dab (fun k => .div k .z)
  | 0x02, 0x05 => r.dab (fun k => .rem k .s)
  | 0x02, 0x06 => r.dab (fun k => .rem k .z)
  | 0x03, 0x00 => r.dai .mulImm
  | 0x03, 0x01 => r.dai (fun k => .mulhImm k .s)
  | 0x03, 0x02 => r.dai (fun k => .mulhImm k .z)
  | 0x03, 0x03 => r.dai (fun k => .divImm k .s)
  | 0x03, 0x04 => r.dai (fun k => .divImm k .z)
  | 0x03, 0x05 => r.dai (fun k => .remImm k .s)
  | 0x03, 0x06 => r.dai (fun k => .remImm k .z)
  | 0x04, 0x00 => r.dab .slt
  | 0x04, 0x01 => r.dab .sltu
  | 0x04, 0x02 => r.dab .seq
  | 0x04, 0x03 => r.dab .sne
  | 0x05, 0x00 => r.dai .sltImm
  | 0x05, 0x01 => r.dai .sltuImm
  | 0x05, 0x02 => r.dai .seqImm
  | 0x05, 0x03 => r.dai .sneImm
  | 0x06, 0x00 => r.da .clz
  | 0x06, 0x01 => r.da .ctz
  | 0x06, 0x02 => r.da .popc
  | 0x06, 0x10 => r.da (fun k => .sext k .w8)
  | 0x06, 0x11 => r.da (fun k => .sext k .w16)
  | 0x06, 0x12 => r.da (fun k => .sext k .w32)
  | 0x06, 0x14 => r.da (fun k => .zext k .w8)
  | 0x06, 0x15 => r.da (fun k => .zext k .w16)
  | 0x06, 0x16 => r.da (fun k => .zext k .w32)
  | 0x07, 0x00 => r.da (fun k d a => .bfx k .z d a pos wm1)
  | 0x07, 0x01 => r.da (fun k d a => .bfx k .s d a pos wm1)
  | 0x07, 0x02 => r.dab (fun k d a b => .bfi k d a b pos wm1)
  | 0x08, 0x00 => do return .sel r.kReg (← sReg r.d) (← sReg r.a) (← sReg r.b) (← sReg r.c)
  | 0x09, 0x00 => r.d1 (fun k d => .li k d r.immOf)
  | 0x0A, 0x00 => r.d1 (fun k d => .lea k d (r.hi.setWidth 32))
  | _, _ => .error .undefinedOpcode
where
  pos : Fin 64 := (r.imm.extractLsb' 0 6).toFin
  wm1 : Fin 64 := (r.imm.extractLsb' 6 6).toFin

/-- Majors 0x20-0x47: control, memory and system (R87). -/
def decodeControl (r : Raw) : Except DecErr Instr :=
  match r.major.toNat with
  | 0x20 => do return .bcc r.kReg (← listed (Cc.ofCode r.minor)) (← sReg r.a) (← sReg r.b) r.immOf
  | 0x21 => return .j r.kReg r.immOf
  | 0x22 => r.d1 (fun k d => .jal k d r.immOf)
  | 0x23 => r.da .jr
  | 0x24 => r.d1 (fun k d => .loop k d r.immOf)
  | 0x30 => r.da (fun k d a => .ld k r.size (r.minor.getLsbD 2) d a r.immOf)
  | 0x31 => do return .st r.kReg r.size (← sReg r.a) (← sReg r.b) r.immOf
  | 0x32 => do return .pf r.kReg (← sReg r.a) r.imm
  | 0x33 => do return .wb r.kReg (← sReg r.a) r.imm
  | 0x34 => do return .inv r.kReg (← sReg r.a) r.imm
  | 0x40 => return .trap r.kReg r.imm
  | 0x41 => return .eret r.kReg
  | 0x42 =>
    match r.minor.toNat with
    | 0x00 => r.d1 (fun k d => .csrr k d (r.imm.setWidth 12))
    | 0x01 => r.da (fun k d a => .csrw k d a (r.imm.setWidth 12))
    | 0x02 => r.da (fun k d a => .csrs k d a (r.imm.setWidth 12))
    | 0x03 => r.da (fun k d a => .csrc k d a (r.imm.setWidth 12))
    | _ => .error .undefinedOpcode
  | 0x43 => do return .fence r.kReg (← listed (Scope.ofCode (r.minor.extractLsb' 0 3))) (r.minor.getLsbD 3)
  | 0x44 => return .nop r.kReg
  | 0x45 => return .halt r.kReg
  | 0x46 => return .brk r.kReg
  | 0x47 => return .wfi r.kReg
  | _ => .error .undefinedOpcode

/-- Majors 0x50-0x57: vector arithmetic and compares (R90). -/
def decodeVectorOp (r : Raw) : Except DecErr Instr :=
  match r.major.toNat, r.op.toNat with
  | 0x50, 0x0 => r.vvv .vaddInt
  | 0x50, 0x1 => r.vvv .vsubInt
  | 0x50, 0x2 => r.vvv .vmulInt
  | 0x50, 0x3 => r.vvv .vminInt
  | 0x50, 0x4 => r.vvv .vmaxInt
  | 0x50, 0x6 => r.vvv .vand
  | 0x50, 0x7 => r.vvv .vor
  | 0x50, 0x8 => r.vvv .vxor
  | 0x50, 0x9 => r.vvv .vshl
  | 0x50, 0xA => r.vvv .vshr
  | 0x50, 0xB => r.vvv .vsra
  | 0x51, 0x0 => r.vvs .vaddIntScalar
  | 0x51, 0x1 => r.vvs .vsubIntScalar
  | 0x51, 0x2 => r.vvs .vmulIntScalar
  | 0x51, 0x3 => r.vvs .vminIntScalar
  | 0x51, 0x4 => r.vvs .vmaxIntScalar
  | 0x51, 0x6 => r.vvs .vandScalar
  | 0x51, 0x7 => r.vvs .vorScalar
  | 0x51, 0x8 => r.vvs .vxorScalar
  | 0x51, 0x9 => r.vvs .vshlScalar
  | 0x51, 0xA => r.vvs .vshrScalar
  | 0x51, 0xB => r.vvs .vsraScalar
  | 0x52, 0x0 => r.vvv .vaddFp
  | 0x52, 0x1 => r.vvv .vsubFp
  | 0x52, 0x2 => r.vvv .vmulFp
  | 0x52, 0x3 => r.vvv .vminFp
  | 0x52, 0x4 => r.vvv .vmaxFp
  | 0x52, 0x5 => r.vvv .vdiv
  | 0x53, 0x0 => r.vvs .vaddFpScalar
  | 0x53, 0x1 => r.vvs .vsubFpScalar
  | 0x53, 0x2 => r.vvs .vmulFpScalar
  | 0x53, 0x3 => r.vvs .vminFpScalar
  | 0x53, 0x4 => r.vvs .vmaxFpScalar
  | 0x53, 0x5 => r.vvs .vdivScalar
  | 0x54, 0x0 => do return .vfma r.kReg (← r.ty) (← vReg r.d) (← vReg r.a) (← vReg r.b) (← vReg r.c)
  | 0x54, 0x1 => do return .vfms r.kReg (← r.ty) (← vReg r.d) (← vReg r.a) (← vReg r.b) (← vReg r.c)
  | 0x55, 0x0 => r.vv .vsqrt
  | 0x55, 0x1 => r.vv .vrcp
  | 0x55, 0x2 => r.vv .vrsq
  | 0x55, 0x3 => r.vv .vabs
  | 0x55, 0x4 => r.vv .vneg
  | 0x56, _ => do return .vcmp r.kReg (← listed (VCc.ofCode r.op)) (← r.ty) (← mReg r.d) (← vReg r.a) (← vReg r.b)
  | 0x57, _ =>
    do return .vcmpScalar r.kReg (← listed (VCc.ofCode r.op)) (← r.ty) (← mReg r.d) (← vReg r.a) (← sReg r.b)
  | _, _ => .error .undefinedOpcode

/-- Majors 0x58-0x96: vector moves, vector memory, conversions and packing (R90, R91). -/
def decodeVectorRest (r : Raw) : Except DecErr Instr :=
  match r.major.toNat with
  | 0x58 => do return .vmov r.kReg (← listed (LaneW.ofCode r.imm)) (← vReg r.d) (← vReg r.a)
  | 0x59 => do return .vbcast r.kReg (← r.ty) (← vReg r.d) (← sReg r.a)
  | 0x5A => do return .vext r.kReg (← r.ty) (← sReg r.d) (← vReg r.a) (← sReg r.b) r.imm
  | 0x5B => do return .vins r.kReg (← r.ty) (← vReg r.d) (← sReg r.a) (← sReg r.b) r.imm
  | 0x5C => r.vvv .vperm
  | 0x5D => do return .vred r.kReg (← listed (RedOp.ofCode r.op)) (← r.ty) (← sReg r.d) (← vReg r.a)
  | 0x5E =>
    do return .vsel r.kReg (← listed (LaneW.ofCode r.imm)) (← vReg r.d) (← vReg r.a) (← vReg r.b) (← mReg r.c)
  | 0x60 => do return .vld r.kReg (← vReg r.d) (← sReg r.a) r.immOf
  | 0x61 => do return .vst r.kReg (← sReg r.a) (← vReg r.b) r.immOf
  | 0x62 => do return .vlds r.kReg (← vReg r.d) (← sReg r.a) (← sReg r.c) r.imm
  | 0x63 => do return .vgather r.kReg (← r.ty) (← vReg r.d) (← sReg r.a) (← vReg r.b) r.imm
  | 0x64 => do return .vscatter r.kReg (← r.ty) (← sReg r.a) (← vReg r.b) (← vReg r.c) r.imm
  | 0x90 => do
    return .vcvt r.kReg (← listed (Ty.ofCode r.op)) (← r.ty) (← vReg r.d) (← vReg r.a) (r.imm.setWidth 4)
  | 0x91 => do
    return .vq r.kReg (← listed (Scheme.ofCode (r.minor.extractLsb' 4 3))) (r.minor.getLsbD 7) (← r.ty) (← vReg r.d)
      (← sReg r.c) (← vReg r.a) (← sReg r.b) (r.imm.setWidth 2)
  | 0x92 => do
    return .vdq r.kReg (← listed (Scheme.ofCode (r.minor.extractLsb' 4 3))) (r.minor.getLsbD 7) (← r.ty) (← vReg r.d)
      (← vReg r.a) (← sReg r.b) (← sReg r.c) (r.imm.setWidth 2)
  | 0x93 => do return .vcomp r.kReg (r.minor.getLsbD 7) (← vReg r.d) (← vReg r.a)
  | 0x94 => do return .vqtab r.kReg (← sReg r.a) r.immOf
  | 0x95 => do return .t5pack r.kReg (← vReg r.d) (← vReg r.a) (r.imm.setWidth 1)
  | 0x96 => do return .t5unpk r.kReg (← vReg r.d) (← vReg r.a) (r.imm.setWidth 1)
  | _ => .error .undefinedOpcode

/-- Majors 0xA0-0xBE: the barrel core, groups, tasks and wells (R92). -/
def decodeParallel (r : Raw) : Except DecErr Instr :=
  match r.major.toNat with
  | 0xA0 => r.dai .spawn
  | 0xA1 => r.da .reap
  | 0xA2 => do return .exit r.kReg (← sReg r.a)
  | 0xA3 => r.da (fun k d a => .arm k d a r.imm)
  | 0xA4 => r.da (fun k d a => .disarm k d a r.imm)
  | 0xA5 => r.da .mwait
  | 0xA6 => r.d1 (fun k d => .fset k (r.flag 0) d)
  | 0xA7 => r.d1 (fun k d => .fclr k (r.flag 0) d)
  | 0xA8 => r.dab (fun k d a b => .rfill k d a b (r.imm.setWidth 6))
  | 0xB0 => r.da (fun k d a => .gbar k (r.minor.getLsbD 0) d a)
  | 0xB1 => r.da .garrive
  | 0xB2 => do return .gwait r.kReg (← sReg r.a) (← sReg r.b)
  | 0xB3 => r.da .gmem
  | 0xB4 => r.da .tdec
  | 0xB5 => r.d1 .tnext
  | 0xB6 => r.dab .tdone
  | 0xB7 => r.da .tcancel
  | 0xB8 => r.da (fun k d a => .wpass k (r.flag 8) d a (r.slot 0) (r.slot 4))
  | 0xB9 => r.d1 (fun k d => .wpoll k d (r.slot 0))
  | 0xBA => r.d1 (fun k d => .wdetach k d (r.slot 0))
  | 0xBB => r.da (fun k d a => .wattach k (r.flag 4) d a (r.slot 0))
  | 0xBC => r.d1 (fun k d => .wrel k (r.flag 4) d (r.slot 0))
  | 0xBD => r.d1 (fun k d => .wmode k (r.flag 4) d (r.slot 0))
  | 0xBE => r.d1 (fun k d => .wclr k d (r.slot 0))
  | _ => .error .undefinedOpcode

/-- Majors 0xC0-0xE5: versions, atomics, engines, Calamus and exchange (R92). -/
def decodeEngines (r : Raw) : Except DecErr Instr :=
  match r.major.toNat with
  | 0xC0 => do return .ldv r.kReg (r.minor.getLsbD 0) (← sReg r.d) (← sReg r.a) (← sReg r.c)
  | 0xC1 => r.d1 .verchk
  | 0xC2 => return .verclr r.kReg
  | 0xC3 => do
    return .cas r.kReg r.size r.order (← r.scope) (← sReg r.d) (← sReg r.a) (← sReg r.b) (← sReg r.c)
  | 0xC4 => do
    return .casv r.kReg r.size r.order (← r.scope) (← sReg r.d) (← sReg r.a) (← sReg r.b) (← sReg r.c)
  | 0xC5 => do
    return .amo r.kReg (← listed (AmoOp.ofCode r.op)) r.size r.order (← r.scope) (← sReg r.d) (← sReg r.a) (← sReg r.b)
  | 0xC6 => do
    return .red r.kReg (← listed (AmoOp.ofCode r.op)) r.size r.order (← r.scope) (← sReg r.a) (← sReg r.b)
  | 0xC7 => do
    return .vamo r.kReg (← listed (AmoOp.ofCode r.op)) r.size r.order (← r.scope) (← vReg r.d) (← sReg r.a) (← vReg r.b)
      (← vReg r.c)
  | 0xC8 => do return .ldAcq r.kReg r.size (← r.scope) (← sReg r.d) (← sReg r.a)
  | 0xC9 => do return .stRel r.kReg r.size (← r.scope) (← sReg r.a) (← sReg r.b)
  | 0xD0 => do
    return .cpy r.kReg r.d.toFin (← sReg r.a) (← sReg r.b) (← sReg r.c) r.imm
      { sfmt := ← listed (Ty.ofCode (r.hi.extractLsb' 60 4)), dfmt := ← listed (Ty.ofCode (r.hi.extractLsb' 56 4)),
        cvt := r.hi.getLsbD 55, dk := ← listed (CpyDst.ofCode (r.hi.extractLsb' 53 2)), irq := r.hi.getLsbD 52,
        fon := r.hi.extractLsb' 44 8, tag := r.hi.extractLsb' 36 8 }
  | 0xD1 => do return .fork r.kReg (← sReg r.d) (← sReg r.a) (← sReg r.b) r.immOf
  | 0xD2 => r.da .rdv
  | 0xD3 => return .qfence r.kReg (r.imm.setWidth 3)
  | 0xD4 =>
    return .wait r.kReg (r.hi.extractLsb' 24 8) (r.hi.extractLsb' 16 8) (r.hi.extractLsb' 8 8) (r.hi.extractLsb' 0 8)
  | 0xD5 => return .uiret r.kReg
  | 0xD8 => do return .clw r.kReg (← listed (WFmt.ofCode r.minor)) (r.flag 0) (← sReg r.d) (← sReg r.a)
  | 0xD9 => return .cflip r.kReg
  | 0xDA => r.abc (fun k a b c => .cpass k a b c (r.flag 8) (r.imm.setWidth 8))
  | 0xDB => r.abc (fun k a b c => .cdrain k a b c (r.flag 8) (r.imm.setWidth 8))
  | 0xDC => r.abc .cstk
  | 0xDD => do return .cfmt r.kReg (← listed (AFmt.ofCode (r.minor.extractLsb' 0 3))) (r.minor.getLsbD 7)
  | 0xDE => r.d1 .cstat
  | 0xE0 => r.abc .xst
  | 0xE1 => r.da (fun k d a => .sopen k (r.flag 2) d a port)
  | 0xE2 => return .smark r.kReg port
  | 0xE3 => do
    let op ← listed (NredOp.ofCode (r.imm.extractLsb' 15 3))
    r.abc (fun k a b c => .nred k op a b c (r.slot 0) (r.imm.extractLsb' 4 11))
  | 0xE4 => r.abc (fun k a b c => .nmc k a b c (r.slot 0) (r.imm.extractLsb' 4 11))
  | 0xE5 => r.d1 (fun k d => .sclose k (r.flag 2) d port)
  | _ => .error .undefinedOpcode
where
  port : Fin 4 := (r.imm.extractLsb' 0 2).toFin

/-- The instruction that the fields would be, its unused fields not yet looked at (R87-R92). -/
def ofFields (r : Raw) : Except DecErr Instr :=
  let m := r.major.toNat
  if m ≤ 0x0A then decodeInteger r
  else if m ≤ 0x47 then decodeControl r
  else if m ≤ 0x57 then decodeVectorOp r
  else if m ≤ 0x96 then decodeVectorRest r
  else if m ≤ 0xBE then decodeParallel r
  else decodeEngines r

/-- The instruction of an encoding of 64 bits or more: its bits are exactly these, reserved fields included (R85),
and its fields meet its entry (R84). -/
def decodeRaw (r : Raw) : Except DecErr Instr :=
  match ofFields r with
  | .error e => .error e
  | .ok i =>
    if toRaw i != some r then .error .reservedField
    else if i.wellFormed then .ok i
    else .error .badOperand

/-- The instruction of a word: a fill word (R78) or an encoding of R87-R92. -/
def decodeWord (w : BitVec 128) : Except DecErr Instr :=
  if w.extractLsb' 0 2 = 3 then .ok (.fillWord (w.extractLsb' 2 30)) else decodeRaw (Raw.ofWord w)

/-- The number whose little-endian bytes these are (R6). -/
def leNat : List Byte → Nat
  | [] => 0
  | b :: bs => b.toNat + 256 * leNat bs

/-- The first `n` little-endian bytes of a number (R6). -/
def leBytes : Nat → Nat → List Byte
  | 0, _ => []
  | n + 1, v => BitVec.ofNat 8 v :: leBytes n (v / 256)

/-- The length in bytes of the instruction whose first byte this is (R76). -/
def instrLen (b : Byte) : Nat := lenBytes (b.extractLsb' 0 2)

/-- Decode the instruction at the head of the bytes, and give the bytes that follow it. -/
def decode (bs : List Byte) : Except DecErr (Instr × List Byte) :=
  match bs with
  | [] => .error .truncated
  | b :: _ =>
    let n := instrLen b
    if bs.length < n then .error .truncated
    else
      match decodeWord (BitVec.ofNat 128 (leNat (bs.take n))) with
      | .ok i => .ok (i, bs.drop n)
      | .error e => .error e

/-- The word of an instruction; none for an event, which has no encoding. -/
def encodeWord : Instr → Option (BitVec 128)
  | .fillWord bits => some ((bits ++ (3 : BitVec 2)).setWidth 128)
  | i => (toRaw i).map Raw.word

/-- The bytes of an instruction in the order in which memory holds them (R6, R76). -/
def encode (i : Instr) : Option (List Byte) :=
  (encodeWord i).map (fun w => leBytes (lenBytes (w.extractLsb' 0 2)) w.toNat)

/-- The instruction that the decoder reads from the bits `w` of a table row of `nbits` bits, the bits above being zero. -/
def decodeTableWord (nbits w : Nat) : Option Instr :=
  match decode (leBytes 16 (w % 2 ^ nbits)) with
  | .ok (i, _) => some i
  | .error _ => none

end Sys2Proof
end

