-- ==== Sys2Proof/Machine/Fp.lean ====
section
/-!
DEFINITION. Floating-point formats and arithmetic (R49-R62, R73, R75): values are exact rationals, every result is rounded
once, and the flags come with it. A flag set is five bits in the order NV DZ OF UF NX, NX lowest (R32, R39).
-/

namespace Sys2Proof

/-- Flags NV DZ OF UF NX. -/
abbrev Flags := BitVec 5

def fNV : Flags := 16
def fDZ : Flags := 8
def fOF : Flags := 4
def fUF : Flags := 2
def fNX : Flags := 1

/-- A format of R50: exponent and mantissa widths, bias, whether it has infinities, whether it has NaNs, and its largest
finite value as significand and exponent of its lowest bit. -/
structure Fmt where
  e    : Nat
  m    : Nat
  bias : Nat
  inf  : Bool
  nan  : Bool
  top  : Nat          -- significand of the largest finite value
  flush : Bool        -- subject to `ftz` (R57)
  deriving DecidableEq, Repr

def fmt32 : Fmt := { e := 8, m := 23, bias := 127, inf := true, nan := true, top := 0xFFFFFF, flush := true }
def fmt16 : Fmt := { e := 5, m := 10, bias := 15, inf := true, nan := true, top := 0x7FF, flush := true }
def fmtB16 : Fmt := { e := 8, m := 7, bias := 127, inf := true, nan := true, top := 0xFF, flush := true }
def fmtE5M2 : Fmt := { e := 5, m := 2, bias := 15, inf := true, nan := true, top := 7, flush := false }
def fmtE4M3 : Fmt := { e := 4, m := 3, bias := 7, inf := false, nan := true, top := 14, flush := false }
def fmtE2M1 : Fmt := { e := 2, m := 1, bias := 1, inf := false, nan := false, top := 3, flush := false }

/-- The format of a floating-point type (R89). -/
def Ty.fmt : Ty → Fmt
  | .f16 => fmt16
  | .bf16 => fmtB16
  | .e4m3 => fmtE4M3
  | .e5m2 => fmtE5M2
  | .e2m1 => fmtE2M1
  | _ => fmt32

def Fmt.width (f : Fmt) : Nat := 1 + f.e + f.m
/-- The largest exponent of a finite value: 2^k with the significand's leading bit (R50). -/
def Fmt.emax (f : Fmt) : Int := if f.inf then (2 ^ f.e : Int) - 2 - f.bias else (2 ^ f.e : Int) - 1 - f.bias
/-- The exponent of the smallest normal value. -/
def Fmt.emin (f : Fmt) : Int := 1 - f.bias
/-- The canonical NaN (R50, R52). -/
def Fmt.cnan (f : Fmt) : Nat :=
  if f.inf then (2 ^ f.e - 1) * 2 ^ f.m + 2 ^ (f.m - 1) else (2 ^ f.e - 1) * 2 ^ f.m + (2 ^ f.m - 1)
def Fmt.signBit (f : Fmt) (neg : Bool) : Nat := if neg then 2 ^ (f.e + f.m) else 0
def Fmt.infBits (f : Fmt) (neg : Bool) : Nat := f.signBit neg + (2 ^ f.e - 1) * 2 ^ f.m
/-- The largest finite value with a sign (R50). -/
def Fmt.maxBits (f : Fmt) (neg : Bool) : Nat :=
  f.signBit neg + (f.emax + f.bias).toNat * 2 ^ f.m + (f.top - 2 ^ f.m)

/-- A value read from a format: NaN (quiet or signalling), infinity, or (-1)^neg × n × 2^e. -/
inductive FVal where
  | nan (sig : Bool)
  | inf (neg : Bool)
  | fin (neg : Bool) (n : Nat) (e : Int)
  deriving DecidableEq, Repr

/-- Read the bits of a format (R50, R51); a subnormal is read as zero under `ftz` (R57). -/
def Fmt.read (f : Fmt) (ftz : Bool) (bits : Nat) : FVal :=
  let neg := bits / 2 ^ (f.e + f.m) % 2 = 1
  let e := bits / 2 ^ f.m % 2 ^ f.e
  let m := bits % 2 ^ f.m
  if f.inf && e = 2 ^ f.e - 1 then
    if m = 0 then .inf neg else .nan (f.m != 2 && m < 2 ^ (f.m - 1))
  else if !f.inf && f.nan && e = 2 ^ f.e - 1 && m = 2 ^ f.m - 1 then .nan false
  else if e = 0 then
    if ftz && f.flush then .fin neg 0 0 else .fin neg m (f.emin - f.m)
  else .fin neg (2 ^ f.m + m) ((e : Int) - f.bias - f.m)

def FVal.isNan : FVal → Bool
  | .nan _ => true
  | _ => false
def FVal.isSig : FVal → Bool
  | .nan s => s
  | _ => false
def FVal.isInf : FVal → Bool
  | .inf _ => true
  | _ => false
def FVal.isZero : FVal → Bool
  | .fin _ n _ => n = 0
  | _ => false
def FVal.neg : FVal → Bool
  | .nan _ => false
  | .inf b => b
  | .fin b _ _ => b
def FVal.negate : FVal → FVal
  | .nan s => .nan s
  | .inf b => .inf (!b)
  | .fin b n e => .fin (!b) n e
def FVal.abs : FVal → FVal
  | .nan s => .nan s
  | .inf _ => .inf false
  | .fin _ n e => .fin false n e

/-- A finite value times 2^k. -/
def FVal.scale : FVal → Int → FVal
  | .fin s n e, k => .fin s n (e + k)
  | v, _ => v

/-- The magnitude of a finite value; 0 for the others. -/
def FVal.mag : FVal → Nat × Int
  | .fin _ n e => (n, e)
  | _ => (0, 0)

/-- A positive rational scaled by a power of two. -/
def scale2 (n d : Nat) (e : Int) : Nat × Nat :=
  if e ≥ 0 then (n * 2 ^ e.toNat, d) else (n, d * 2 ^ (-e).toNat)

/-- floor(log2(n/d)) of a positive rational. -/
def ilog2 (n d : Nat) : Int :=
  let g : Int := (Nat.log2 n : Int) - Nat.log2 d
  let (a, b) := scale2 n d (-g)
  if a < b then g - 1 else g

/-- The rounding modes of R53, by their code in `fpcsr`.rm. -/
abbrev Rm := BitVec 2

/-- Round a non-negative rational to an integer in a mode, for a value of the given sign (R53); and whether it was exact. -/
def roundInt (rm : Rm) (neg : Bool) (n d : Nat) : Nat × Bool :=
  let q := n / d
  let r := n % d
  if r = 0 then (q, true)
  else
    let up := match rm.toNat with
      | 0 => 2 * r > d || (2 * r = d && q % 2 = 1)
      | 1 => false
      | 2 => !neg
      | _ => neg
    (if up then q + 1 else q, false)

/-- What an overflow delivers (R55). -/
def Fmt.overflow (f : Fmt) (rm : Rm) (neg : Bool) : Nat :=
  let away := match rm.toNat with
    | 0 => true
    | 1 => false
    | 2 => !neg
    | _ => neg
  if f.inf && away then f.infBits neg else f.maxBits neg

/-- Round the non-zero value (-1)^neg × n/d once to a format: overflow, tininess and `ftz` of results under R55-R57. -/
def Fmt.round (f : Fmt) (rm : Rm) (ftz neg : Bool) (n d : Nat) : Nat × Flags :=
  let e := ilog2 n d
  let (a, b) := scale2 n d (f.m - e)
  let (q, exact) := roundInt rm neg a b
  let carry := q = 2 ^ (f.m + 1)
  let e' := if carry then e + 1 else e
  let q' := if carry then 2 ^ f.m else q
  if e' < f.emin then
    if ftz && f.flush then (f.signBit neg, fUF ||| fNX)
    else
      let (a, b) := scale2 n d (f.m - f.emin)
      let (q, exact) := roundInt rm neg a b
      (f.signBit neg + q, if exact then 0 else fUF ||| fNX)
  else if e' > f.emax || (e' = f.emax && q' > f.top) then (f.overflow rm neg, fOF ||| fNX)
  else (f.signBit neg + (e' + f.bias).toNat * 2 ^ f.m + (q' - 2 ^ f.m), if exact then 0 else fNX)

/-- Round a finite value given as significand and exponent; a zero keeps its sign. -/
def Fmt.roundFin (f : Fmt) (rm : Rm) (ftz neg : Bool) (n : Nat) (e : Int) : Nat × Flags :=
  if n = 0 then (f.signBit neg, 0)
  else
    let (a, b) := scale2 n 1 e
    f.round rm ftz neg a b

/-- The canonical NaN, with NV where the operation is invalid or an operand signals (R52, R58). -/
def Fmt.nanOut (f : Fmt) (nv : Bool) : Nat × Flags := (f.cnan, if nv then fNV else 0)

/-- A signed significand. -/
def sgn (neg : Bool) (n : Nat) : Int := if neg then -(n : Int) else n

/-- Exact sum of two finite values, rounded once; the sign of an exact zero follows R54. -/
def Fmt.addFin (f : Fmt) (rm : Rm) (ftz : Bool) (s1 : Bool) (n1 : Nat) (e1 : Int) (s2 : Bool) (n2 : Nat) (e2 : Int) :
    Nat × Flags :=
  let e := if e1 < e2 then e1 else e2
  let t : Int := sgn s1 (n1 * 2 ^ (e1 - e).toNat) + sgn s2 (n2 * 2 ^ (e2 - e).toNat)
  if t = 0 then
    let neg := if n1 = 0 && n2 = 0 && s1 == s2 then s1 else rm == 3
    (f.signBit neg, 0)
  else f.roundFin rm ftz (t < 0) t.natAbs e

/-- Addition (R128). -/
def Fmt.add (f : Fmt) (rm : Rm) (ftz : Bool) (a b : FVal) : Nat × Flags :=
  match a, b with
  | .fin s1 n1 e1, .fin s2 n2 e2 => f.addFin rm ftz s1 n1 e1 s2 n2 e2
  | .inf x, .inf y => if x == y then (f.infBits x, 0) else f.nanOut true
  | .inf x, .fin _ _ _ => (f.infBits x, 0)
  | .fin _ _ _, .inf y => (f.infBits y, 0)
  | _, _ => f.nanOut (a.isSig || b.isSig)

/-- Multiplication (R128). -/
def Fmt.mul (f : Fmt) (rm : Rm) (ftz : Bool) (a b : FVal) : Nat × Flags :=
  match a, b with
  | .fin s1 n1 e1, .fin s2 n2 e2 => f.roundFin rm ftz (s1 != s2) (n1 * n2) (e1 + e2)
  | .inf x, .inf y => (f.infBits (x != y), 0)
  | .inf x, .fin s n _ => if n = 0 then f.nanOut true else (f.infBits (x != s), 0)
  | .fin s n _, .inf y => if n = 0 then f.nanOut true else (f.infBits (s != y), 0)
  | _, _ => f.nanOut (a.isSig || b.isSig)

/-- Division (R128). -/
def Fmt.div (f : Fmt) (rm : Rm) (ftz : Bool) (a b : FVal) : Nat × Flags :=
  match a, b with
  | .fin s1 n1 e1, .fin s2 n2 e2 =>
    if n2 = 0 then (if n1 = 0 then f.nanOut true else (f.infBits (s1 != s2), fDZ))
    else if n1 = 0 then (f.signBit (s1 != s2), 0)
    else
      let (x, y) := scale2 n1 n2 (e1 - e2)
      f.round rm ftz (s1 != s2) x y
  | .inf _, .inf _ => f.nanOut true
  | .inf x, .fin s _ _ => (f.infBits (x != s), 0)
  | .fin s _ _, .inf y => (f.signBit (s != y), 0)
  | _, _ => f.nanOut (a.isSig || b.isSig)

/-- Fused multiply-add a × b + c (R75). -/
def Fmt.fma (f : Fmt) (rm : Rm) (ftz : Bool) (a b c : FVal) : Nat × Flags :=
  let bad := (a.isInf && b.isZero) || (a.isZero && b.isInf)
  if bad then f.nanOut true
  else if a.isNan || b.isNan || c.isNan then f.nanOut (a.isSig || b.isSig || c.isSig)
  else
    match a, b, c with
    | .fin s1 n1 e1, .fin s2 n2 e2, .fin s3 n3 e3 => f.addFin rm ftz (s1 != s2) (n1 * n2) (e1 + e2) s3 n3 e3
    | _, _, _ =>
      if a.isInf || b.isInf then
        let p := a.neg != b.neg
        if c.isInf && c.neg != p then f.nanOut true else (f.infBits p, 0)
      else (f.infBits c.neg, 0)

/-- Integer square root by bits: the largest r below 2^k added to `r` with r² ≤ n. -/
def isqrt (n : Nat) : Nat → Nat → Nat
  | 0, r => r
  | k + 1, r =>
    let t := r + 2 ^ k
    if t * t ≤ n then isqrt n k t else isqrt n k r

/-- A rational between the same rounding boundaries as the square root of n/d, for formats of at most 24 bits: the root
taken to 64 bits below its leading one, and half a step more where it is not exact. -/
def rootOf (n d : Nat) : Nat × Nat :=
  let l := ilog2 n d
  let k : Int := 64 - l / 2
  let (a, b) := scale2 n d (2 * k)
  let r := isqrt (a / b) 70 0
  let exact := r * r * b = a
  let (x, y) := scale2 (if exact then 2 * r else 2 * r + 1) 2 (-k)
  (x, y)

/-- Square root (R130). -/
def Fmt.sqrt (f : Fmt) (rm : Rm) (ftz : Bool) (a : FVal) : Nat × Flags :=
  match a with
  | .nan s => f.nanOut s
  | .inf neg => if neg then f.nanOut true else (f.infBits false, 0)
  | .fin neg n e =>
    if n = 0 then (f.signBit neg, 0)
    else if neg then f.nanOut true
    else
      let (x, y) := scale2 n 1 e
      let (p, q) := rootOf x y
      f.round rm ftz false p q

/-- Reciprocal (R130). -/
def Fmt.rcp (f : Fmt) (rm : Rm) (ftz : Bool) (a : FVal) : Nat × Flags := f.div rm ftz (.fin false 1 0) a

/-- Reciprocal square root (R130). -/
def Fmt.rsq (f : Fmt) (rm : Rm) (ftz : Bool) (a : FVal) : Nat × Flags :=
  match a with
  | .nan s => f.nanOut s
  | .inf neg => if neg then f.nanOut true else (0, 0)
  | .fin neg n e =>
    if n = 0 then (f.infBits neg, fDZ)
    else if neg then f.nanOut true
    else
      let (x, y) := scale2 n 1 e
      let (p, q) := rootOf y x
      f.round rm ftz false p q

/-- The order of two values that are not NaN; -0 below +0 only where `zeros`. -/
def FVal.ltOrd (zeros : Bool) (a b : FVal) : Bool :=
  match a, b with
  | .inf x, .inf y => x && !y
  | .inf x, _ => x
  | _, .inf y => !y
  | .fin s1 n1 e1, .fin s2 n2 e2 =>
    if n1 = 0 && n2 = 0 then zeros && s1 && !s2
    else
      let e := if e1 < e2 then e1 else e2
      decide (sgn s1 (n1 * 2 ^ (e1 - e).toNat) < sgn s2 (n2 * 2 ^ (e2 - e).toNat))
  | _, _ => false

/-- Write a value that the format holds exactly. -/
def Fmt.exact (f : Fmt) (a : FVal) : Nat :=
  match a with
  | .nan _ => f.cnan
  | .inf neg => f.infBits neg
  | .fin neg n e => (f.roundFin 0 false neg n e).1

/-- Minimum and maximum (R128): a NaN gives the canonical NaN, with NV only for a signalling one. -/
def Fmt.minMax (f : Fmt) (isMin : Bool) (a b : FVal) : Nat × Flags :=
  if a.isNan || b.isNan then f.nanOut (a.isSig || b.isSig)
  else
    let lt := FVal.ltOrd true a b
    (f.exact (if lt == isMin then a else b), 0)

/-- The comparisons of R131: result and flags. -/
def fpCompare (cc : VCc) (a b : FVal) : Bool × Flags :=
  if a.isNan || b.isNan then
    let quietNV := match cc with
      | .eq | .ne => false
      | _ => true
    (cc == .ne, if a.isSig || b.isSig || quietNV then fNV else 0)
  else
    let lt := FVal.ltOrd false a b
    let gt := FVal.ltOrd false b a
    (match cc with
      | .eq => !lt && !gt
      | .ne => lt || gt
      | .lt => lt
      | .le => !gt
      | .gt => gt
      | .ge => !lt, 0)

/-- Conversion of a value into a floating-point format (R61). -/
def Fmt.convert (f : Fmt) (rm : Rm) (ftz : Bool) (a : FVal) : Nat × Flags :=
  match a with
  | .nan s => if f.nan then f.nanOut s else (0, fNV)
  | .inf neg =>
    if f.inf then (f.infBits neg, 0)
    else if f.nan then (f.cnan, fNV)
    else (f.maxBits neg, fNV)
  | .fin neg n e => f.roundFin rm ftz neg n e

/-- The range of an integer type (R49). -/
def Ty.lowest (t : Ty) : Int := if t.signed then -(2 ^ (t.width - 1) : Int) else 0
def Ty.highest (t : Ty) : Int := if t.signed then (2 ^ (t.width - 1) : Int) - 1 else (2 ^ t.width : Int) - 1

/-- Saturation (R49). -/
def Ty.saturate (t : Ty) (x : Int) : Int := if x < t.lowest then t.lowest else if x > t.highest then t.highest else x

/-- The low bits of an integer, as the natural number they stand for. -/
def intBits (w : Nat) (x : Int) : Nat := (x % (2 ^ w : Int)).toNat

/-- The integer that the bits of an integer type stand for (R47). -/
def Ty.toInt (t : Ty) (bits : Nat) : Int :=
  let b := bits % 2 ^ t.width
  if t.signed && b ≥ 2 ^ (t.width - 1) then (b : Int) - 2 ^ t.width else b

/-- Conversion of a value to an integer type (R62). -/
def Ty.fromFp (t : Ty) (rm : Rm) (a : FVal) : Nat × Flags :=
  match a with
  | .nan _ => (0, fNV)
  | .inf neg => (intBits t.width (if neg then t.lowest else t.highest), fNV)
  | .fin neg n e =>
    let (x, y) := scale2 n 1 e
    let (q, exact) := roundInt rm neg x y
    let v := sgn neg q
    if v < t.lowest || v > t.highest then (intBits t.width (t.saturate v), fNV)
    else (intBits t.width v, if exact then 0 else fNX)

/-- Conversion of an integer to a floating-point format (R62). -/
def Fmt.fromInt (f : Fmt) (rm : Rm) (ftz : Bool) (x : Int) : Nat × Flags := f.roundFin rm ftz (x < 0) x.natAbs 0

/-- `Convert` between any two types (R142): bits of `st` to bits of `dt`. A subnormal E5M2 value into FP16 with ftz = 1 is a tiny FP16
result, and is flushed with UF and NX by R57, though R61 calls the conversion exact (DESIGN CHOICE, log 66). -/
def convertElem (dt st : Ty) (rm : Rm) (ftz : Bool) (bits : Nat) : Nat × Flags :=
  match st.isInt, dt.isInt with
  | true, true => (intBits dt.width (dt.saturate (st.toInt bits)), 0)
  | true, false => dt.fmt.fromInt rm ftz (st.toInt bits)
  | false, true => dt.fromFp rm (st.fmt.read ftz bits)
  | false, false => dt.fmt.convert rm ftz (st.fmt.read ftz bits)

/-- One level of the pairwise tree of R73: a node with one omitted input passes the other. -/
def treeLevel (f : α → α → α) : List (Option α) → List (Option α)
  | x :: y :: r =>
    (match x, y with
      | some a, some b => some (f a b)
      | some a, none => some a
      | none, z => z) :: treeLevel f r
  | [x] => [x]
  | [] => []

/-- The fixed pairwise tree of R73 over `2^n` leaves. -/
def treeFold (f : α → α → α) : Nat → List (Option α) → Option α
  | 0, xs => xs.headD none
  | n + 1, xs => treeFold f n (treeLevel f xs)

end Sys2Proof
end

