-- ==== Sys2Proof/Config.lean ====
section
/-!
DEFINITION. What one implementation or the outside world fixes and the manual leaves open: free values without a body.
Nothing can be proved about what they are; a statement about them holds whatever they are.
-/

namespace Sys2Proof.Config

/-- A byte that a peer package or a CXL device returns (R379, R378): not this package's to say. UNVERIFIED, log 5. -/
opaque outsideByte : Nat → Byte

/-- The firmware vector, the same in every context of the package (R341); the manual gives no address. DESIGN CHOICE, log 3. -/
opaque firmwareVector : Word

/-- The private part of the device identity's XMSS key (R406, R408): where each chain of each leaf starts, the key of the randomizer,
and the public seed. The manual gives no key. UNVERIFIED, log 5. -/
opaque identitySecret : (leaf chain : Nat) → BitVec 256
opaque identityPrf : BitVec 256
opaque identitySeed : BitVec 256

/-- The public key held in ROM, against which firmware is verified (R407): root and seed. UNVERIFIED, log 5. -/
opaque romRoot : BitVec 256
opaque romSeed : BitVec 256

/-- The SHAKE256 digest of the running firmware (R409). UNVERIFIED, log 5. -/
opaque firmwareDigest : BitVec 256

/-- Whether an agent outside has written a byte of a peer package since it was last read or written from here (R379). UNVERIFIED,
log 60. -/
opaque outsideWrote : Nat → Bool

/-- A 64-byte sector that one key pair has encrypted, as another key pair reads it; `tweak` is the sector's address (R354). The
manual gives no key. UNVERIFIED, log 59. -/
opaque otherKey : (reader writer tweak : Nat) → BitVec 512 → BitVec 512

/-- A value that the manual does not state: the shadow fields of `cstat` while no shadow is valid (R318). DESIGN CHOICE, log 5. -/
opaque unstatedByte : Nat → Byte

end Sys2Proof.Config
end

