-- ==== Sys2Proof/Machine/Tbl.lean ====
section
/-!
DEFINITION. Tables from numbers to values: a list of pairs in rising order of the key, listing no value that an unlisted
key reads as. Memories, register banks and directories are such tables; equal tables are equal lists.
-/

namespace Sys2Proof.Machine

/-- A table: pairs of a key and a value. -/
abbrev Tbl (α : Type) := List (Nat × α)

namespace Tbl

/-- What key `k` holds; `d` when it is not listed. -/
def get (d : α) : Tbl α → Nat → α
  | [], _ => d
  | p :: t, k => if p.1 = k then p.2 else get d t k

/-- The table without key `k`. -/
def erase (t : Tbl α) (k : Nat) : Tbl α := t.filter (fun p => p.1 != k)

/-- Put a pair before the first greater key. -/
def insert (k : Nat) (v : α) : Tbl α → Tbl α
  | [] => [(k, v)]
  | p :: t => if k < p.1 then (k, v) :: p :: t else p :: insert k v t

/-- Write `v` to key `k`; writing what an unlisted key reads as removes the key. -/
def set [DecidableEq α] (d : α) (t : Tbl α) (k : Nat) (v : α) : Tbl α :=
  if v = d then erase t k else insert k v (erase t k)

/-- Write a list of pairs in order. -/
def putAll [DecidableEq α] (d : α) (t : Tbl α) (l : List (Nat × α)) : Tbl α := l.foldl (fun t p => set d t p.1 p.2) t

/-- Forget every key from `lo` up to, not including, `hi`. -/
def clear (t : Tbl α) (lo hi : Nat) : Tbl α := t.filter (fun p => !(lo ≤ p.1 && p.1 < hi))

/-- The pairs whose keys lie from `lo` up to, not including, `hi`. -/
def range (t : Tbl α) (lo hi : Nat) : Tbl α := t.filter (fun p => lo ≤ p.1 && p.1 < hi)

/-- The canonical form: keys strictly rising and no value that an unlisted key reads as. -/
def wf [DecidableEq α] (d : α) : Tbl α → Bool
  | [] => true
  | [p] => p.2 != d
  | p :: q :: t => p.2 != d && p.1 < q.1 && wf d (q :: t)

end Tbl

/-- A memory of bytes. A byte that is not listed reads as 0 (log 1 for HBM; wells, slices and stacked slices are
zeroed by the Blotter, R356). -/
abbrev Memory := List Host.Cell

namespace Memory

/-- What an unlisted byte reads as. DESIGN CHOICE for HBM and the second tier: the manual gives no contents (log 1). -/
def unlisted : Byte := 0

/-- Read one byte. -/
def read (m : Memory) (a : Nat) : Byte := Tbl.get unlisted m a

/-- Write one byte. -/
def write (m : Memory) (a : Nat) (b : Byte) : Memory := Tbl.set unlisted m a b

/-- Read `n` bytes upward from `a`. -/
def readN (m : Memory) (a : Nat) : Nat → List Byte
  | 0 => []
  | n + 1 => read m a :: readN m (a + 1) n

/-- Write bytes upward from `a`. -/
def writeN (m : Memory) (a : Nat) : List Byte → Memory
  | [] => m
  | b :: bs => writeN (write m a b) (a + 1) bs

/-- The canonical form of a memory. -/
def wf (m : Memory) : Bool := Tbl.wf unlisted m

end Memory

/-- The value of little-endian bytes (R6). -/
def ofBytes : List Byte → Nat
  | [] => 0
  | b :: bs => b.toNat + 256 * ofBytes bs

/-- The low `n` bytes of a value, little-endian (R6). -/
def toBytes : Nat → Nat → List Byte
  | 0, _ => []
  | n + 1, v => BitVec.ofNat 8 v :: toBytes n (v / 256)

/-- Put an element before the first one that it may precede. -/
def insertBy (le : α → α → Bool) (a : α) : List α → List α
  | [] => [a]
  | b :: l => if le a b then a :: b :: l else b :: insertBy le a l

/-- A list in the order `le`; elements that `le` does not separate keep their order. -/
def sortBy (le : α → α → Bool) (l : List α) : List α := l.foldr (insertBy le) []

end Sys2Proof.Machine
end

