-- ==== Sys2Proof/Machine/State.lean ====
section
/-!
DEFINITION. The state of a K9 package as plain data (INVENTORY.md, State), the faults and refusals of the model, and
the state at the first power-on. Directories are tables: contexts by 16*cid+tid (R170), cores by cid, wells by
64*clu+index (R201), virtual functions, clusters and slices by number.
-/

namespace Sys2Proof.Machine

/-! ### Contexts (R15-R45, R150-R170) -/

/-- The three privilege levels (R28). -/
inductive Priv where
  | u | s | f
  deriving DecidableEq, Repr

/-- A scalar register: value, full/empty bit, and whether a deferred result is outstanding (R21-R24). -/
structure Reg where
  val  : Word := 0
  full : Bool := true
  pend : Bool := false
  deriving DecidableEq, Repr

/-- A vector register with its one full/empty bit (R17, R22). -/
structure VecReg where
  val  : VWord := 0
  full : Bool := true
  pend : Bool := false
  deriving DecidableEq, Repr

/-- `kstat` and `fstat` without the read-only priv field (R31). -/
structure Status where
  late  : Bool := false
  ktrap : Bool := false
  pie   : Bool := false
  ppriv : Priv := .u
  ie    : Bool := false
  deriving DecidableEq, Repr

/-- A saved trap: cause, pc and value registers of one level (R30, R33). -/
structure TrapRegs where
  cause : Word := 0
  epc   : Word := 0
  val   : Word := 0
  vec   : Word := 0
  deriving DecidableEq, Repr

/-- An address monitor (R165): the line it names, whether the slice has registered it, its trigger bit, and the
physical line behind it and the slice at registration. -/
structure Monitor where
  used : Bool := false
  op   : Nat := 0                -- the `arm` that took it
  line : Nat := 0
  reg  : Bool := false
  trig : Bool := false
  phys : Nat := 0
  slice : Nat := 0
  deriving DecidableEq, Repr

/-- A completion notice (R300): kind 1 copy, 2 array, 3 page. -/
structure Notice where
  kind : Nat
  tag  : Byte
  addr : Word
  deriving DecidableEq, Repr

/-- An entry of a validate set (R242, R280). -/
structure VEntry where
  line : Nat
  ver  : Word
  gen  : BitVec 32
  slice : Nat                    -- the slice whose generation it is (R362)
  deriving DecidableEq, Repr

/-- A validate set (R242). -/
structure VSet where
  ents : List VEntry := []
  ovf  : Bool := false
  mis  : Bool := false
  deriving DecidableEq, Repr

/-- The life states of R150. -/
inductive Life where
  | free | running | ended
  deriving DecidableEq, Repr

/-- Why a context is parked at an instruction that has not issued (R154). -/
inductive Wait where
  | source (ns : List Nat)       -- scalar registers, those of its sources that are empty
  | vsource (n : Nat)            -- vector register n
  | dest | incoming | own | fetch
  | queue (port : Nat) (out : Bool) (ns : List Nat := [])   -- a port, and the scalar registers that are empty besides (R170)
  deriving DecidableEq, Repr

/-- A wait that follows the issue (R154): `wfi`, `mwait` and `gbar`. -/
inductive PostWait where
  | none
  | wfi
  | mwait (d issued timeout by_ : Nat)   -- by_: its issue number (R158)
  | gbar (g e : Nat) (at_ : Word)
  deriving DecidableEq, Repr

/-- A trap that waits for the context's next issue point (R42, R157, R194, R293, R338). `above` is `IssuedAboveU`. -/
structure Late where
  cause : Nat
  val   : Word
  above : Bool
  at_   : Option Word := none   -- the `vamo` at which it resumes (R240)
  deleg : Bool := false   -- may be delegated (R275)
  wr    : Bool := false   -- a delegated access that writes (R275)
  queue : Option Nat := none   -- the engine queue whose operation faulted (R293)
  ord   : Nat := 0             -- the `vamo`, in program order (R276)
  deriving DecidableEq, Repr

/-- The two directions of a queue port (R19): words and the stream it is bound to. -/
structure Port where
  words : List Word := []
  bound : Option Nat := none
  deriving DecidableEq, Repr

/-- A marker left by `qfence` (R294): the queues it names and the operations it waits for. -/
structure FenceMark where
  queues : BitVec 3
  ops    : List Nat
  deriving DecidableEq, Repr

/-- One context. -/
structure Ctx where
  life   : Life := .free
  exitv  : Word := 0
  pc     : Word := 0
  priv   : Priv := .u
  x      : Tbl Reg := []        -- x1-x47, main bank
  sh     : Tbl Reg := []        -- shadow x40-x47 (R301)
  inH    : Bool := false        -- in a notice handler: the shadow bank is in force
  v      : Tbl VecReg := []
  k      : Tbl Word := []       -- k1-k7
  fpcsr  : Word := 0
  uvec   : Word := 0
  uirqv  : Word := 0
  uepc   : Word := 0
  ucause : Word := 0
  uval   : Word := 0
  vdone  : Word := 0
  kstat  : Status := {}
  ktr    : TrapRegs := {}       -- kcause, kepc, kval, kvec
  kscr   : Word := 0
  kipP   : BitVec 3 := 0        -- pending bits of kip; bit 1 is computed from ktcmp (R34)
  kipE   : BitVec 3 := 0        -- enable bits
  kipS   : BitVec 3 := 0        -- interrupts whose rise to pending and enabled has been acted on (R161)
  ktcmp  : Word := 0
  fstat  : Status := {}
  ftr    : TrapRegs := {}
  cnt    : Nat × Nat × Nat × Nat := (0, 0, 0, 0)   -- ld, st, cp, tl (R286)
  vset   : VSet := {}
  mon    : Tbl Monitor := []    -- monitors 0-3
  notes  : List Notice := []
  lost   : Bool := false
  afmt   : AFmt := .e4m3        -- R306
  acmp   : Bool := false
  lates  : List Late := []
  fetchF : Option (Nat × Nat × Word) := none   -- a fetch that faulted: address of the block, cause and value
  qin    : Tbl Port := []
  qout   : Tbl Port := []
  pushes : List Nat := []       -- the output queues of the words that stand in them, in the order of their pushes (R333)
  marks  : List FenceMark := []
  seen   : List (Nat × Nat × Nat) := []   -- store entries observed in scope buffers: entry, operation, part (R257)
  parked : Option Wait := none
  parkAt : Nat := 0             -- the cycle in which it parked (R335)
  post   : PostWait := .none
  lastAt : Option Nat := none   -- cycle of the last issue (R151)
  holdTo : Nat := 0             -- offers nothing before this cycle (R26, R60)
  irqDue : Bool := false        -- its last issue, or the end of its wait, left an interrupt takeable (R117, R122)
  rfAt   : Nat := 0             -- first cycle in which its register file takes a fill (R171)
  sync   : Nat := 0             -- fetch synchronisation (R80)
  trapAt : Nat := 0             -- cycle of the last trap entry into S, which sets `ktrap`, for the dump (R358)
  deriving DecidableEq, Repr

/-! ### Cores (R150-R171, R201-R218, R284-R319, R410, R412) -/

/-- A write to a `c` register that not every issue sees yet (R158): its cycle, and the number of the issue that makes it. -/
structure CWrite where
  at_  : Nat
  by_  : Nat
  reg  : Nat
  val  : Option Word
  full : Bool
  pend : Bool
  deriving DecidableEq, Repr

/-- The states of an attach-table slot (R35). -/
inductive SlotSt where
  | detached | attached | incoming | held
  deriving DecidableEq, Repr

/-- A slot of the attach table (R35, R214). -/
structure Slot where
  st   : SlotSt := .detached
  well : Nat := 0
  rd   : Bool := false
  wr   : Bool := false
  exch : Bool := false
  deriving DecidableEq, Repr

/-- One segment of a companding table, as FP32 bit patterns (R70). -/
structure Seg where
  x : BitVec 32
  s : BitVec 32
  y : BitVec 32
  u : BitVec 32
  deriving DecidableEq, Repr

/-- A block of the instruction buffer (R80, R108). -/
structure IBlk where
  va   : Nat
  data : BitVec 256
  at_  : Nat
  deriving DecidableEq, Repr

/-- The ordering kinds of R250. -/
inductive PKind where
  | rc | so | un
  deriving DecidableEq, Repr

/-- An entry of a core's kind table (R410). -/
structure KindEnt where
  page  : Nat
  kind  : PKind
  slice : Nat
  gen   : BitVec 32
  deriving DecidableEq, Repr

/-- What a window slot of an engine operation is bound to (R411). -/
structure Bind where
  slot : Nat
  well : Nat
  rd   : Bool
  wr   : Bool
  exch : Bool
  deriving DecidableEq, Repr

/-- A sequencer (R296). -/
structure Sequencer where
  running : Bool := false
  pc      : Word := 0
  ctx     : Nat := 0
  priv    : Priv := .u
  fault   : Bool := false
  recNo   : Nat := 0
  repNo   : Nat := 0
  id      : Nat := 0             -- of the `fork` that started it
  binds   : List Bind := []      -- of its program records (R411)
  next    : Nat := 0             -- first cycle in which it may issue (R296)
  orphan  : Bool := false        -- the context that forked it has been spawned anew since (log 26)
  deriving DecidableEq, Repr

/-- Where a deferred result goes: a scalar register of the bank in force at issue, a `c` register, the bits of a vector
register under a mask, or nowhere (`x0`). -/
inductive Dst where
  | nowhere
  | x (n : Nat) (shadow : Bool)
  | c (n : Nat)
  | v (n : Nat) (mask : VWord)
  deriving DecidableEq, Repr

/-- A deferred result. -/
structure Out where
  dst : Dst
  val : VWord := 0
  deriving DecidableEq, Repr

/-- One dimension of a shape block: extent and strides (R288). -/
structure Dim where
  ext : Nat
  ss  : Int
  ds  : Int
  deriving DecidableEq, Repr

/-- The position of a copy (R289, R290, R347). -/
structure Copying where
  dims  : Option (List Dim) := none   -- its shape block, once read
  pos   : Nat := 0                    -- elements that are done
  num   : Nat := 0                    -- elements under way after them
  part  : Nat := 0                    -- line parts of theirs that have been performed, of the reads or of the writes
  bytes : List Byte := []             -- what their reads have given; before `dims`, the first access of the shape block
  read  : Bool := false               -- their reads are over
  vals  : List Nat := []              -- their values as read; of a fill, every value converted
  put   : Nat := 0                    -- registers filled
  deriving DecidableEq, Repr

/-- The engine operations (R284). -/
inductive EKind where
  | cpy (src dst shape : Word) (d r : Nat) (ext : CpyExt)
  | clw (f : WFmt) (sc : Bool) (off : Nat) (d : Nat)
  | cflip
  | cpass (a : Word) (n row : Nat) (f : AFmt) (tab : Option (List Seg))
  | cdrain (a : Word) (n row : Nat)
  | cstk (a : Word) (off n : Nat)
  | xst (a desc : Word) (n : Nat)
  | smark (q : Nat)
  | nred (op : NredOp) (a : Word) (g n slot off : Nat)
  | nmc (a : Word) (g n slot off : Nat)
  deriving DecidableEq, Repr

/-- An operation in an engine queue (R284-R293). -/
structure EOp where
  id    : Nat
  ctx   : Nat
  priv  : Priv
  kind  : EKind
  irq   : Bool := false
  tag   : Byte := 0
  cmd   : Word := 0            -- low 64 bits of the instruction
  binds : List Bind := []
  after : List Nat := []       -- R294
  keep  : List Out := []       -- the registers it marked empty, with their values at issue (R290, R293)
  rm    : BitVec 2 := 0
  ftz   : Bool := false
  seq   : Option Nat := none
  start : Option Nat := none
  fin   : Nat := 0             -- reference end of a started operation
  orphan : Bool := false       -- the context that issued it has been spawned anew since: nothing is reported to it
  cp    : Copying := {}        -- position of a copy (R289, R347)
  lives : Nat := 0             -- live vectors' cost V of a pass (R320)
  mate  : Option Nat := none   -- of a pass: the `clw` that has started beside it (R321)
  pos   : Nat := 0             -- accesses to the wells of its issuing core that it has made, of those of `EOp.nextAccess` (R203, R261)
  data  : List Byte := []      -- what an exchange operation has read (R327), or what its reduction came to (R337); of a pass, the
                               -- beats of a record so far
  dest  : Option (Nat × Nat) := none   -- of a reduction that is matched: the well and offset at which its result lands (R337)
  landed : Tbl Nat := []       -- 64-byte units landed at each target core (R327, R336)
  ahead : Nat := 0             -- words of its output queue that a marker follows (R334)
  k     : Nat := 0             -- number of a reduction on its group (R337)
  bad   : Bool := false        -- a reduction whose source faulted (R338)
  flags : BitVec 5 := 0
  done  : Bool := false        -- performed, its completion still to come
  lost  : Bool := false        -- a request of it bore a foreign tag and was discarded (R351)
  deriving DecidableEq, Repr

/-- A recoded column of a weight tile (R304). -/
structure Col where
  g      : Int
  n      : List Int
  gs     : BitVec 16
  bs     : BitVec 16
  poison : Bool
  deriving DecidableEq, Repr

/-- A set of weight planes (R303-R305, R319). No columns: all weights zero. The planes themselves are the signed digits
of the weights (`naf`), so they are computed. -/
structure Tile where
  fmt  : WFmt := .t5
  p    : Nat := 0
  cols : List Col := []
  deriving DecidableEq, Repr

/-- Register-file sleep (R161, R197). -/
inductive Sleep where
  | awake
  | asleep (depth : Nat)
  | waking (until_ : Nat)
  deriving DecidableEq, Repr

/-- A register write that arrives while a core's register file sleeps or wakes (R161, R197): the result of an operation, the end
of a `vamo` with a fault, a remote fill, or a value for one register. -/
inductive Arr where
  | result (op : Nat)
  | vamo (op : Nat)
  | fill (op : Nat)
  | put (a by_ : Nat) (o : Out)
  deriving DecidableEq, Repr

/-- A request that a core's NI holds after a refusal (R362, R368), until it is accepted: of part `part` of an operation, or of an
engine operation (part 0). -/
structure Refused where
  op     : Nat
  part   : Nat
  slice  : Nat
  gen    : Option Nat
  permit : Bool
  at_    : Nat
  again  : Bool := false         -- the NI may send it again (R362, R368, R369)
  deriving DecidableEq, Repr

/-- A stream's receive buffer at a core (R333). -/
structure RxBuf where
  stream : Nat
  words  : List Word
  deriving DecidableEq, Repr

/-- One core. -/
structure Core where
  c      : Tbl Reg := []        -- c0-c7; entry 8 is `sleepd`, which changes under R158 as well (R161)
  cw     : List CWrite := []
  rot    : Nat := 15
  slotAt : Nat := 0             -- first cycle whose issue slot is unused
  sleep  : Sleep := .awake
  late   : List Arr := []       -- what a wake holds, in its order (R197)
  frozen : Option Nat := none   -- the context that trapped under revoke-on-trap (R216)
  frzAt  : Option Nat := none   -- the cycle of its last freeze (R221)
  stopAt : Option Nat := none   -- takes no slot from this cycle (R347)
  stall  : List (Nat × Nat) := []   -- lockstep stall windows: first cycle, and one past the last (R335)
  slots  : Tbl Slot := []
  prior  : Option (Nat × Tbl Slot) := none   -- the slots before the well instructions of a cycle: the cycle, the slots (R210)
  comp   : List Seg := []       -- companding table; [] is the identity table of R72
  ibuf   : List IBlk := []
  kinds  : List KindEnt := []
  gens   : Tbl (BitVec 32) := []
  kAt    : Tbl Nat := []        -- of each slice: the time of the last response that the NI has taken (R367, R410)
  pblock : Word := 0
  seqs   : Tbl Sequencer := []
  cq     : List EOp := []
  aq     : List EOp := []
  eq     : List EOp := []
  live   : Tile := {}
  shadow : Option Tile := none
  token  : Bool := false
  runl   : List Nat := []
  rx     : List RxBuf := []
  refu   : List Refused := []
  mapgen : Nat := 0
  nredK  : Tbl Nat := []        -- nreds started per group (R337)
  deriving DecidableEq, Repr

/-! ### Accesses and the ordering machine (R247-R264) -/

/-- The atomic kinds of R235. -/
inductive AtomK where
  | cas | casv | amo | red
  deriving DecidableEq, Repr

/-- What an outstanding operation of a context does. -/
inductive OpKind where
  | alu
  | load (sx : Bool)
  | lanes (w : Nat)
  | store | wb | inv | pf
  | atom (a : AtomK) (op : AmoOp) (y z : Word)
  | ldv (set : Bool)
  | verchk
  | arm (m : Nat)
  | vamo (op : AmoOp)
  | rfill (ta n : Nat) (v : Word)
  | tdec (task : Nat) (cancel : Bool)
  | vqtab
  | fetch
  deriving DecidableEq, Repr

/-- How far a part of an access has come: to be performed, performed, or held after a late fault (R42). -/
inductive PartSt where
  | wait                         -- strongly ordered, and an earlier strongly ordered access is still on its way (R259)
  | todo | done | held
  | gone                         -- discarded by a write of 0 to a late bit (R31)
  | lost                         -- its request bore a foreign tag and was discarded (R351): it never returns
  deriving DecidableEq, Repr

/-- One part of an access: bytes of one line, or of one well. Parts with one `acc` form one access (R113, R141). -/
structure Part where
  acc   : Nat
  va    : Nat
  dst   : Nat                    -- byte offset of the part in its access's value
  data  : List (Option Byte)     -- data of a store; for a load, which bytes are read, then what they held
  win   : Bool := false          -- reached through the parameter window (R412)
  well  : Option Nat := none
  off   : Nat := 0               -- offset in the well's 128 KiB
  st    : PartSt := .todo
  pk    : Option PKind := none   -- the page's kind known at issue (R410)
  seq   : Nat := 0               -- number of its issue: a replay is a new issue (R45)
  y     : Word := 0              -- operand of an atomic lane, version of a check
  gen   : BitVec 32 := 0
  slice : Nat := 0               -- the slice of a check (R362)
  res   : Word := 0              -- value returned by an atomic, `ldv`, a check
  ver   : Word := 0
  cause : Nat := 0
  kval  : Word := 0
  deleg : Bool := false          -- held until the host answers (R275, R276)
  rep   : Bool := false          -- its hold has been reported (R42)
  far   : Bool := false          -- performed in a peer package (R256)
  canDel : Bool := false         -- its fault is a walk fault marked delegable (R272, R275)
  rk    : Option (PKind × Nat × BitVec 32) := none   -- kind, slice and generation that the response carries (R410)
  rAt   : Nat := 0               -- one more than the cycle in which the slice sent it (R367)
  deriving DecidableEq, Repr

/-- An outstanding operation of a context. `id` grows in program order. -/
structure Op where
  id     : Nat
  ctx    : Nat
  kind   : OpKind
  priv   : Priv
  order  : Order := .relaxed
  scope  : Scope := .ctx
  sent   : Bool := true          -- false: a release that still waits (R233)
  replay : Bool := false         -- re-issued after a trap (R45)
  arrived : Bool := false        -- `vqtab`: the bytes are there (R147)
  cnts   : Bool := true          -- counted on its class
  acked  : List Nat := []        -- accesses of a store that have been acknowledged (R111)
  fp     : Bool := false         -- a floating-point instruction (R59, R60)
  parts  : List Part := []
  outs   : List Out := []
  flags  : BitVec 5 := 0
  size   : Nat := 0
  ea     : Nat := 0              -- address of the table that a `vqtab` reads
  issued : Nat := 0              -- cycle of its issue; of an `rfill` that has been applied, that cycle (R170)
  due    : Nat := 0              -- reference time of its next event
  deriving DecidableEq, Repr

/-- Where a store entry stands (R248). -/
inductive Level where
  | csq | core | clu | die
  deriving DecidableEq, Repr

/-- A store entry (R249, R251). The list of entries is in the order of appending to the parts they stand in. -/
structure SEntry where
  id    : Nat
  op    : Nat
  part  : Nat
  piece : Nat
  ctx   : Nat                    -- of a saved team's context: 20480 * (team + 1) + its number on the run that it left (R263)
  place : Nat := 0               -- the context in whose queue, or in a buffer of whose core, cluster and die, it stands
  vf    : Nat
  line  : Nat                    -- virtual line number
  lo    : Nat                    -- first byte within the line
  data  : List (Option Byte)
  level : Level
  nCore : Nat := 0               -- when it was appended to its core, cluster and die buffer (R257); 0: not yet
  nClu  : Nat := 0
  nDie  : Nat := 0
  due   : Nat
  deriving DecidableEq, Repr

/-! ### Wells (R201-R218) -/

/-- A well outside its bytes: bound or FREE, and which physical half is the front (R202, R328). -/
structure Bank where
  bound : Bool := false
  swap  : Bool := false
  deriving DecidableEq, Repr

/-- The changes that the well controller schedules (R207, R211-R217). -/
inductive MoveKind where
  | pass | detach | attach (keep : Bool) | clear | mode (exch : Bool) | free
  deriving DecidableEq, Repr

/-- A scheduled change of a well. It waits for accesses, engine operations and a store count, then for `delay`. -/
structure WMove where
  id    : Nat
  kind  : MoveKind
  well  : Nat
  core  : Nat
  slot  : Nat
  ops   : List Nat
  eops  : List Nat
  stOf  : Option Nat
  base  : Nat                    -- latest cycle so far of i, P and Q
  delay : Nat
  deriving DecidableEq, Repr

/-! ### Memory behind the cores (R222-R230, R268-R283) -/

/-- A line that a slice holds (R222, R224), keyed by its physical line. -/
structure Line where
  slice : Nat
  vf    : Nat
  vline : Nat
  valid : BitVec 4
  wrtn  : BitVec 256
  data  : BitVec 2048
  key   : Nat := 0               -- the key pair under which it goes to memory (R354)
  deriving DecidableEq, Repr

/-- A pointer or leaf that a slice's NI keeps: the level of its table and the address bits that lead to it (R270, R274). -/
structure TEnt where
  vf  : Nat
  lvl : Nat
  tag : Nat
  e   : Word
  deriving DecidableEq, Repr

/-- A slice's own state (R165, R274, R280, R368, R369). -/
structure Slice where
  owner   : Option Nat := none
  commons : Bool := false
  fenced  : Bool := false
  tc      : List TEnt := []
  gen     : BitVec 32 := 0
  permits : List Nat := []
  full    : Bool := false        -- request buffer full
  recov   : Bool := false        -- start-up, test or deadlock recovery
  freed   : Nat := 0             -- buffer entries that have become free while an NI is listed (R369)
  kept    : List (Nat × Nat) := []   -- the entries kept for NIs, and until when
  last    : Option Nat := none   -- the slice cycle in which it accepted its last request (R225)
  deriving DecidableEq, Repr

/-- The memories. -/
structure Mem where
  hbm   : Memory := []
  tier  : Memory := []
  keys  : Tbl Nat := []          -- key number of a sector, HBM sectors even, second tier odd (R354, log 59)
  peer  : Tbl (Option Byte) := []   -- what peer packages were seen to hold: 2^52 * package + address (R283, log 60)
  wells : Memory := []           -- well key * 0x20000 + physical offset
  banks : Tbl Bank := []
  ports : Tbl Nat := []          -- first cycle in which a well's port is free (R203)
  stack : Memory := []           -- cid * 0x300000 + offset (R303)
  foot  : Tbl (BitVec 32) := []  -- (cid * 256 + row) * 128 + column
  tags  : Tbl (BitVec 16) := []  -- cid * 256 + row; unlisted: 0x3F80
  lines : List (Nat × Line) := []   -- by physical line: 2 * line, + 1 in the second tier
  vers  : Tbl Word := []         -- versions of HBM lines that differ from the base
  base  : Word := 0              -- the version every line took at this start (R229)
  slices : Tbl Slice := []
  deriving DecidableEq, Repr

/-! ### Launches and teams (R172-R196) -/

/-- The kernel header (R172, R173). -/
structure Header where
  contexts : Nat := 1
  wells    : Nat := 0
  xwells   : Nat := 0
  sregs    : Nat := 0
  vregs    : Nat := 0
  scribe   : Bool := false
  lockstep : Bool := false
  stack    : Nat := 0
  traps    : BitVec 32 := 0
  upcall   : Nat := 0
  entry    : Nat := 0
  deriving DecidableEq, Repr

/-- A stream of the slot table (R329). -/
structure Stream where
  num   : Nat
  src   : Nat
  sets  : List Nat
  slots : BitVec 64
  deriving DecidableEq, Repr

/-- A task of the task table (R191). -/
structure Task where
  home : Nat
  slot : Nat
  off  : Nat
  init : Nat
  deriving DecidableEq, Repr

/-- A launch record (R181). -/
structure LRec where
  image  : Word
  params : Word
  teams  : Nat
  clusters : Nat
  irq    : Bool
  done   : Word
  graph  : Nat
  isize  : Nat
  cend   : Nat
  clean  : Bool := true          -- its reserved fields are zero and its team count is not
  deriving DecidableEq, Repr

/-- A graph replay that runs: the graph, the generation captured, the record that runs, the replay's own record, and the
sums of the task counts so far (R196). -/
structure Replay where
  graph : Nat
  gen   : Nat
  index : Nat := 0
  top   : LRec
  sums  : Nat × Nat × Nat := (0, 0, 0)   -- tdone, cancelled, under
  deriving DecidableEq, Repr

/-- A launch in progress. -/
structure Launch where
  id     : Nat
  vf     : Nat
  queue  : Nat
  lrec   : LRec
  hdr    : Header := {}
  dir    : List (Nat × Nat) := []    -- the well directory: image offset and length of each slot (R395)
  groups : Tbl (List Nat) := []      -- members of the valid groups of the image; group 0 is the whole team
  streams : List Stream := []
  tasks  : List Task := []
  status : Nat := 0
  ntdone : Nat := 0
  ncanc  : Nat := 0
  nunder : Nat := 0
  failt  : Option Nat := none        -- failtask
  token  : Bool := false
  replay : Option Replay := none
  deriving DecidableEq, Repr

/-! ### Accesses of the device for a function (R183, R184, R255) -/

/-- What the device's NI holds after a refusal (R362, R368). -/
structure DevHold where
  slice  : Nat
  gen    : Option Nat
  permit : Bool
  at_    : Nat
  again  : Bool := false         -- it may be sent again (R362, R368, R369)
  deriving DecidableEq, Repr

/-- Bytes that the device reads or writes for a function, one line part after the other (R225, R255). -/
structure DevAcc where
  va   : Nat
  n    : Nat
  pos  : Nat := 0                -- bytes that are done
  got  : List Byte := []         -- what a read has given
  bad  : Bool := false           -- a line part did not translate
  hold : Option DevHold := none
  deriving DecidableEq, Repr

/-- Where the tables of an image stand (R172). -/
structure Tabs where
  group : Nat
  slot  : Nat
  task  : Nat
  deriving DecidableEq, Repr

/-- What is read of a queue's next record before it is dispatched or refused (R183, R196). -/
inductive Seek where
  | record
  | member (p : Replay)
  | header (r : LRec) (p : Option Replay)
  | groups (l : Launch) (t : Tabs)
  | streamCount (l : Launch) (t : Tabs)
  | streams (l : Launch) (t : Tabs)
  | taskCount (l : Launch) (t : Tabs)
  | tasks (l : Launch)
  deriving DecidableEq, Repr

/-- The scheduler fills free clusters (R182): the queues that it has still to serve, what it reads for the first of them, and whether
it begins again when it is through. -/
structure Pass where
  queues : List Nat
  at_    : Option (Seek × DevAcc) := none
  again  : Bool := false
  deriving DecidableEq, Repr

/-- How far the preparation of a team has come (R175, R179): the image of a slot, the code, the stacks. -/
inductive PrepStage where
  | image (n : Nat)
  | code
  | stack
  deriving DecidableEq, Repr

/-- A team that is being prepared on the run that it has been given (R179). -/
structure Prep where
  team   : Nat
  stage  : PrepStage := .image 0
  acc    : DevAcc
  images : List (Nat × List Byte) := []
  code   : Option (List Byte) := none
  kinds  : List (Nat × Nat × PKind × BitVec 32) := []   -- what the responses to the reads of the code carry (R410)
  deriving DecidableEq, Repr

/-- A completion record that is to be written (R184): its address, the interrupt bit, status, task counts and failing task. -/
structure DoneRec where
  done   : Word
  irq    : Bool
  status : Nat
  n      : Nat × Nat × Nat
  failt  : Nat
  deriving DecidableEq, Repr

/-- The end of a record of a queue: completion records that are still to be written, the write of the first, and the replay that then
goes on (R180, R184, R196). -/
structure Ending where
  recs  : List DoneRec
  acc   : DevAcc
  bytes : List Byte := []        -- of the first record, from the time at which its first part is written
  cont  : Option Replay := none
  deriving DecidableEq, Repr

/-- A group of a team (R186): episodes completed as the members see it, the team indices that arrived in the current and
the next one, the wells marked for swapping (R328), and the cycle of the last arrival. -/
structure GroupSt where
  ep    : Nat := 0
  arr   : List Nat := []
  nxt   : List Nat := []
  swp   : List Nat := []         -- package-wide numbers; while the team is saved, 16 * core + slot on the run that it left
  swpN  : List Nat := []
  last  : Nat := 0
  lastN : Nat := 0
  aborts : List Nat := []        -- reductions that were aborted, by their number (R338)
  deriving DecidableEq, Repr

/-- The states of a task (R192). -/
inductive TaskSt where
  | pending | listed | taken (ctx : Nat) (since : Nat) (expired : Bool) | done | cancelled
  deriving DecidableEq, Repr

/-- A word of a stream on its way (R330-R334). -/
structure Flit where
  id     : Nat
  team   : Nat
  stream : Nat
  word   : Word
  dests  : List Nat              -- cores still to receive it
  due    : Nat
  deriving DecidableEq, Repr

/-- The save of a team: everything that a swap keeps (R348). -/
structure Saved where
  ctxs  : Tbl Ctx := []        -- numbers here and below are those of the run that it left
  cores : Tbl Core := []
  foot  : Tbl (BitVec 32) := []
  tags  : Tbl (BitVec 16) := []
  stack : Memory := []
  wells : List (Nat × Nat × Bool × Memory) := []   -- core, slot, swap bit, bytes
  first : Nat := 0             -- first cluster it left
  pool  : Bool := true         -- restored on the same run (R350)
  ops   : List Op := []        -- packets of the save buffers: operations still to be performed
  flits : List Flit := []
  moves : List WMove := []     -- well changes that wait for what the stop keeps from going on (R347, log 43)
  loose : List (Nat × Bool × Memory) := []   -- the wells of those that no slot holds any more: number, swap bit, bytes
  at_   : Nat := 0
  deriving DecidableEq, Repr

/-- Where a team stands. -/
inductive TeamSt where
  | waiting | starting | resident | stopping (at_ : Nat) | saved | restoring | complete
  deriving DecidableEq, Repr

/-- A reservation of slots of one network link for a stream (R331). -/
structure Resv where
  link   : Nat
  slots  : BitVec 64
  stream : Nat
  deriving DecidableEq, Repr

/-- A team (R177, R189). -/
structure Team where
  id     : Nat
  launch : Nat
  num    : Nat
  first  : Nat := 0              -- package-wide number of its first cluster
  count  : Nat
  st     : TeamSt := .waiting
  groups : Tbl GroupSt := []
  tstate : Tbl TaskSt := []
  setIx  : Tbl Nat := []         -- port set in force of each stream
  inj    : Tbl (Nat × Nat) := [] -- of each reserved stream: start of the last slot it used, and words sent in it (R330, R332)
  saved  : Option Saved := none
  revoked : Bool := false        -- it stops for a revocation (R355)
  since  : Nat := 0              -- since when it is resident, or waits
  resv   : List Resv := []
  deriving DecidableEq, Repr

/-! ### Virtual functions, clusters, package -/

/-- A launch queue (R375, R376). -/
structure LQueue where
  base   : Word := 0
  log2   : Nat := 0
  prio   : Nat := 0
  enable : Bool := false
  frozen : Bool := false
  head   : BitVec 32 := 0
  tail   : BitVec 32 := 0
  waited : Nat := 0              -- whole quanta that its head launch has waited (R182)
  seen   : Bool := false         -- a quantum boundary has found that launch waiting
  want   : Option Nat := none    -- clusters that the first team of that launch waits for
  busy   : Option Nat := none    -- launch that runs from this queue
  ending : Option Ending := none -- the end of its record (R184)
  cont   : Option Replay := none -- a replay between two of its records
  deriving DecidableEq, Repr

/-- A page request to the host (R275, R375): what `prq` shows, the context, the fault address, and, once the host has
resolved it, the accesses that were replayed (R277). -/
structure PageReq where
  wr   : Bool
  page : Nat
  tok  : Nat
  ctx  : Nat
  va   : Nat
  team : Option Nat := none      -- the team of the context
  ops  : List Nat := []
  ord  : Nat := 0                -- the access that faulted, in program order (R276)
  late : Bool := false           -- answered while the team is saved: the accesses are replayed after the restore
  void : Bool := false           -- its fault has been taken to S after all: it holds nothing, and its answer does nothing
  deriving DecidableEq, Repr

/-- A page move in progress (R360). -/
structure PageMove where
  page  : Nat
  src   : Nat                    -- physical line of the old frame's first line
  tgt   : Nat                    -- target of the new frame (R271)
  dst   : Nat                    -- physical address of the new frame
  lines : List Nat               -- lines still to move
  deriving DecidableEq, Repr

/-- A graph (R196): records, current generation, blocks of its live generations. -/
structure Graph where
  base  : Word
  count : Nat
  cur   : Nat
  gens  : Tbl Word
  deriving DecidableEq, Repr

/-- A patch of a graph, or a definition, that waits (R196). -/
inductive GPend where
  | patch (n : Nat) (a : Word)
  | define (n : Nat) (g : Graph)
  deriving DecidableEq, Repr

/-- A virtual function (R269, R375). -/
structure VF where
  live   : Bool := false
  key    : Nat := 0                         -- number of its key pair (R354)
  lastQ  : Option Nat := none               -- the last quantum boundary (R182)
  hmask  : Tbl Word := []
  mapgen : Nat := 0
  newMask : Option (Nat × Word) := none     -- a change of masks announced (R361)
  root   : Word := 0
  segb   : Word := 0
  segn   : Word := 0
  t2b    : Word := 0
  t2n    : Word := 0
  svec   : Word := 0
  quantum : Word := 1000000
  dumpb  : Word := 0
  sdbase : Word := 0
  sdcount : Word := 0
  sdRun  : Option (Nat × Nat) := none       -- pages of the shoot-down that runs
  mvpage : Word := 0
  mvframe : Word := 0
  move   : Option PageMove := none
  prqs   : List PageReq := []
  asked  : List PageReq := []               -- requests the host has taken and not answered
  answers : List PageReq := []              -- resolved requests whose accesses are replayed
  reports : List Nat := []                  -- malformed table entries reported to the host: virtual address (R272)
  gpnum  : Word := 0
  gpaddr : Word := 0
  gdbase : Word := 0
  pend   : List GPend := []                 -- patches and definitions of graphs that wait, oldest first (R196)
  graphs : Tbl Graph := []
  queues : Tbl LQueue := []
  rr     : Tbl Nat := []                    -- queue served last at each level (R182)
  carve  : List (Bool × Word) := []         -- carve-out writes that wait, oldest first (R281)
  foreign : Bool := false                   -- wstat bit 4
  rst    : Option Nat := none               -- tenant reset running, with its T
  wiped  : Bool := false                    -- it has come to its completion records (R357)
  pass   : Option Pass := none              -- the scheduler fills free clusters (R182)
  preps  : List Prep := []                  -- teams that are being prepared (R179)
  wasRst : Bool := false                    -- a reset has completed since it was created
  irqmask : Word := 0
  irqstat : Word := 0
  msgs   : Nat := 0                         -- interrupt messages sent to the host
  deriving DecidableEq, Repr

/-- A cluster (R351-R356, R285, R400). -/
structure Cluster where
  owner  : Option Nat := none
  margin : Bool := false
  lentTo : Option Nat := none
  revoke : Option Nat := none   -- revocation requested at
  fenced : Bool := false
  cpyPos : Nat := 15            -- core the copy engine served last (R285)
  cpyBusy : Option Nat := none
  deriving DecidableEq, Repr

/-- An error token on its way to a core (R195). -/
structure TokenMsg where
  launch : Nat
  core   : Nat
  by_    : Nat
  deriving DecidableEq, Repr

/-- A packet in a router: its number, and the input buffers that it has still to pass; it leaves the routers after the last. -/
structure Packet where
  id   : Nat
  path : List Nat
  deriving DecidableEq, Repr

/-- A router input buffer (R370, R371): its packets, the head first, and when it last made progress. -/
structure RBuf where
  packets : List Packet := []
  since   : Nat := 0
  deriving DecidableEq, Repr

/-- A request that has left for a peer package (R283, R379): its port, the peer and the address there, and the bytes that it
writes, or the number of bytes that it reads. -/
structure PeerOut where
  port : Nat
  peer : Nat
  addr : Nat
  wr   : List (Option Byte) := []
  rd   : Nat := 0
  deriving DecidableEq, Repr

/-- The network. -/
structure Net where
  flits  : List Flit := []
  tokens : List TokenMsg := []
  rbufs  : Tbl RBuf := []
  cycles : List (List Nat) := []  -- confirmed cycles of stalled buffers, each from the origin of its probe on (R370)
  deriving DecidableEq, Repr

/-- One copy of the record in the non-volatile store (R229, R402, R403, R408). -/
structure NvCopy where
  ok     : Bool := true          -- valid: no write of it was cut off
  seq    : Nat := 0
  starts : Nat := 0
  base   : Word := 0             -- B of R229
  count  : Nat := 0              -- last timebase count recorded
  res    : BitVec 32 := 0        -- step results of the last start
  rate   : BitVec 16 := 0
  fencedC : List Nat := []
  fencedS : List Nat := []
  badCxl : List Nat := []
  badPort : List Nat := []
  leaf   : Nat := 0
  deriving DecidableEq, Repr

/-- How a start stands (R400, R403). -/
inductive Boot where
  | cold                         -- powered, the ROM sequence not yet run
  | up
  | stopped (step : Nat)
  | off                          -- without power
  deriving DecidableEq, Repr

/-- The package (R1, R377-R379, R400-R409). -/
structure Pkg where
  boot   : Boot := .cold
  bootlog : Word := 0
  pkgid  : Byte := 0
  fwarg0 : Word := 0
  fwarg1 : Word := 0
  fwarg2 : Word := 0
  fwstat : Word := 0
  therm  : BitVec 4 := 0
  exports : List (Nat × Nat × Nat) := []     -- peer package, peer vf, local vf
  cmask  : Word := 0                         -- hmask0 of the commons partition (R282)
  owed   : List (Nat × Nat × Nat) := []      -- frames owed to the Blotter: first, one past the last, function (R281)
  scrub  : Tbl Nat := []                     -- lines of such a frame that it has zeroed
  report : List Byte := []                   -- attestation report (R409)
  ckey   : Nat := 0                          -- number of the commons' key pair (R354)
  nvA    : NvCopy := {}
  nvB    : NvCopy := {}
  ports  : List Nat := []                    -- enabled scale-up ports
  cxl    : List (List Nat) := []             -- the interleave sets of CXL ports (R378)
  fwErrs : List (Nat × Nat × Word × Word) := []   -- firmware errors reported: context, cause, value, pc (R43)
  deriving DecidableEq, Repr

/-- What the last issue attempt came to; the step reads it to choose between a trap and an interrupt (R40). -/
inductive IssueRes where
  | issued | parked | trapped
  deriving DecidableEq, Repr

/-- An access of the host, of a peer or of another agent that its slice has not taken yet (R255, R368, R374). -/
inductive Outside where
  | host (q : HostAcc)
  | peer (q : PeerAcc)
  | agent (w : AgentWrite)
  deriving DecidableEq, Repr

/-- Such an access as the link's NI holds it: busy slices take it later, a refusal is waited out (R362, R368, R369). -/
structure Held where
  acc    : Outside
  slice  : Nat := 0
  gen    : Option Nat := none
  permit : Bool := false
  at_    : Nat := 0
  refused : Bool := false        -- it has been refused before
  again  : Bool := true          -- it may be sent now
  deriving DecidableEq, Repr

/-- Who acts next (log 4). -/
inductive Turn where
  | issue (core tid : Nat)       -- the context takes an issue point
  | slot (core : Nat)            -- the core's issue slot of this cycle, given by rotation
  | event (e : Instr)
  | tick (until_ : Nat)              -- the timebase moves on
  | link (q : HostAcc)           -- the host accesses an Itnik address (R372)
  | packet (buffer : Nat) (p : Packet)   -- a packet enters an input buffer of a router (R370)
  | hop (buffer : Nat)           -- the packet at a buffer's head goes on
  deriving DecidableEq, Repr

/-- The machine. -/
structure State where
  ctxs   : Tbl Ctx := []
  cores  : Tbl Core := []
  mem    : Mem := {}
  ops    : List Op := []
  sb     : List SEntry := []
  far    : List SEntry := []                -- entries performed in a peer package that has not acknowledged them (R256, R257)
  moves  : List WMove := []
  clus   : Tbl Cluster := []
  vfs    : Tbl VF := []
  launches : List Launch := []
  teams  : List Team := []
  net    : Net := {}
  pkg    : Pkg := {}
  hostRd : List (Nat × List Byte) := []     -- what host reads returned, oldest first: address, bytes
  peerRd : List (Nat × Option (List Byte)) := []   -- what peer requests were answered; none: refused (R379)
  peerOut : List PeerOut := []              -- what has been sent to peers, oldest first (R283)
  held   : List Held := []                  -- accesses of the host and of peers that wait for their slices, oldest first
  now    : Nat := 0
  cur    : Nat := 0                         -- the context that an instruction acts for
  nid    : Nat := 0                         -- next identifier
  nfree  : Nat := 0                         -- next free value (log 5)
  last   : IssueRes := .issued
  agenda : List Turn := []
  deriving DecidableEq, Repr

/-- Why the machine cannot take a step. -/
inductive Fault where
  /-- Raised by the step when the package has no power (R403). Safe: nothing runs. -/
  | poweredOff
  deriving DecidableEq, Repr

/-- Why the model does not answer. -/
inductive Refusal where
  /-- Raised by `exec` for an instruction that has no meaning yet. Safe: it stops where the machine would go on. -/
  | notModelled (mnemonic : String)
  deriving DecidableEq, Repr

/-- The machine at the first power-on of a part, before the boot ROM runs (R400): nothing is bound, no memory is listed,
and every register for which the manual gives no value holds zero (log 2). -/
def State.reset : State := {}

end Sys2Proof.Machine
end

