-- ==== Sys2Proof/Machine/Base.lean ====
section
/-!
DEFINITION. Access to the parts of the state: contexts, cores, wells, functions, teams; where a core stands in its team;
codes of small types. Every read and write of a directory goes through here.
-/

namespace Sys2Proof.Machine

/-- The global timebase: a 64-bit count of cycles, the same on all dies (R1), which `cyc` reads (R15). `State.now` counts the
same cycles without a bound (log 57). -/
def State.cyc (s : State) : Word := BitVec.ofNat 64 s.now

/-- The code of a level (R28). -/
def Priv.code : Priv → BitVec 2
  | .u => 0
  | .s => 1
  | .f => 3

/-- Levels in rising order (R30). -/
def Priv.rank : Priv → Nat
  | .u => 0
  | .s => 1
  | .f => 2

/-- The level that two bits name; 0b10 is never held (R28). -/
def Priv.ofCode (b : BitVec 2) : Option Priv :=
  match b.toNat with
  | 0 => some .u
  | 1 => some .s
  | 3 => some .f
  | _ => none

namespace State

def ctxAt (s : State) (a : Nat) : Ctx := Tbl.get {} s.ctxs a
def setCtx (s : State) (a : Nat) (c : Ctx) : State := { s with ctxs := Tbl.set {} s.ctxs a c }
def modCtx (s : State) (a : Nat) (f : Ctx → Ctx) : State := s.setCtx a (f (s.ctxAt a))

/-- The context that the instruction acts for. -/
def me (s : State) : Ctx := s.ctxAt s.cur
def setMe (s : State) (c : Ctx) : State := s.setCtx s.cur c
def modMe (s : State) (f : Ctx → Ctx) : State := s.setMe (f s.me)

def coreAt (s : State) (k : Nat) : Core := Tbl.get {} s.cores k
def setCore (s : State) (k : Nat) (c : Core) : State := { s with cores := Tbl.set {} s.cores k c }
def modCore (s : State) (k : Nat) (f : Core → Core) : State := s.setCore k (f (s.coreAt k))

/-- The number of the acting context's core (R170). -/
def cid (s : State) : Nat := s.cur / 16
def tid (s : State) : Nat := s.cur % 16
def myCore (s : State) : Core := s.coreAt s.cid

def vfAt (s : State) (v : Nat) : VF := Tbl.get {} s.vfs v
def setVf (s : State) (v : Nat) (f : VF) : State := { s with vfs := Tbl.set {} s.vfs v f }
def modVf (s : State) (v : Nat) (f : VF → VF) : State := s.setVf v (f (s.vfAt v))

def cluAt (s : State) (k : Nat) : Cluster := Tbl.get {} s.clus k
def setClu (s : State) (k : Nat) (c : Cluster) : State := { s with clus := Tbl.set {} s.clus k c }
def modClu (s : State) (k : Nat) (f : Cluster → Cluster) : State := s.setClu k (f (s.cluAt k))

def setMem (s : State) (m : Mem) : State := { s with mem := m }
def setOps (s : State) (o : List Op) : State := { s with ops := o }
def setSb (s : State) (b : List SEntry) : State := { s with sb := b }
def setFar (s : State) (b : List SEntry) : State := { s with far := b }
def setMoves (s : State) (m : List WMove) : State := { s with moves := m }
def setNet (s : State) (n : Net) : State := { s with net := n }
def setPkg (s : State) (p : Pkg) : State := { s with pkg := p }
def setLaunches (s : State) (l : List Launch) : State := { s with launches := l }
def setTeams (s : State) (t : List Team) : State := { s with teams := t }

/-- The partition that owns a core: the borrower of a lent cluster, else the owner (R351, R353). -/
def vfOfClu (s : State) (k : Nat) : Nat :=
  match (s.cluAt k).lentTo with
  | some b => b
  | none => (s.cluAt k).owner.getD 0

def vfOfCore (s : State) (k : Nat) : Nat := s.vfOfClu (k / 16)

end State

/-- The die of a core or cluster (R201). -/
def dieOfCore (k : Nat) : Nat := k / 320
def dieOfClu (c : Nat) : Nat := c / 20
/-- The die of a slice (R226). -/
def dieOfSlice (n : Nat) : Nat := n / 32

/-- Position of cluster `c` in a run of `n` clusters from `f` on one ring (R177). -/
def runPos (f n c : Nat) : Option Nat :=
  if dieOfClu f = dieOfClu c then
    let p := (c % 20 + 20 - f % 20) % 20
    if p < n then some p else none
  else none

/-- The cluster at position `p` of a run from `f` (R177). -/
def runClu (f p : Nat) : Nat := 20 * dieOfClu f + (f % 20 + p) % 20

/-- The team index of a core in a run (R177). -/
def Team.indexOf (t : Team) (core : Nat) : Option Nat :=
  (runPos t.first t.count (core / 16)).map (fun p => 16 * p + core % 16)

/-- The core with a team index (R177). -/
def Team.coreOf (t : Team) (i : Nat) : Nat := 16 * runClu t.first (i / 16) + i % 16

/-- The team is on the device: resident, or at the stop before it leaves. -/
def Team.onDevice (t : Team) : Bool :=
  match t.st with
  | .resident | .stopping _ => true
  | _ => false

/-- The cores of a team in ascending team index. -/
def Team.cores (t : Team) : List Nat := (List.range (16 * t.count)).map t.coreOf

namespace State

/-- The team that holds a core. -/
def teamOf (s : State) (core : Nat) : Option Team :=
  s.teams.find? (fun t => t.onDevice && (t.indexOf core).isSome)

def launchAt (s : State) (id : Nat) : Option Launch := s.launches.find? (fun l => l.id == id)

/-- The launch that a core's team belongs to. -/
def launchOf (s : State) (core : Nat) : Option Launch :=
  match s.teamOf core with
  | some t => s.launchAt t.launch
  | none => none

/-- The kernel header in force on a core (R172). -/
def hdrOf (s : State) (core : Nat) : Header :=
  match s.launchOf core with
  | some l => l.hdr
  | none => {}

def setTeam (s : State) (t : Team) : State :=
  { s with teams := s.teams.map (fun u => if u.id = t.id then t else u) }

def setLaunch (s : State) (l : Launch) : State :=
  { s with launches := s.launches.map (fun u => if u.id = l.id then l else u) }

/-- A core belongs to the team of another (R206, R327). -/
def sameTeam (s : State) (core other : Nat) : Bool :=
  match s.teamOf core with
  | some t => (t.indexOf other).isSome
  | none => false

def opAt (s : State) (id : Nat) : Option Op := s.ops.find? (fun o => o.id == id)
def setOp (s : State) (o : Op) : State := s.setOps (s.ops.map (fun u => if u.id = o.id then o else u))
def dropOp (s : State) (id : Nat) : State := s.setOps (s.ops.filter (fun u => u.id != id))

/-- A fresh identifier is `s.nid`; this takes it. -/
def bumpId (s : State) : State := { s with nid := s.nid + 1 }

def slotAt (s : State) (core n : Nat) : Slot := Tbl.get {} (s.coreAt core).slots n
def setSlot (s : State) (core n : Nat) (x : Slot) : State :=
  s.modCore core (fun c => { c with slots := Tbl.set {} c.slots n x })

/-- A slot as it stood before the well instructions of this cycle (R210). -/
def priorSlot (s : State) (core n : Nat) : Slot :=
  match (s.coreAt core).prior with
  | some (t, xs) => if t = s.now then Tbl.get {} xs n else s.slotAt core n
  | none => s.slotAt core n

/-- The slots of a core as they stand before the first well instruction of this cycle that changes one of them (R210). -/
def noteSlots (s : State) (core : Nat) : State :=
  s.modCore core (fun c => if c.prior.any (fun p => p.1 == s.now) then c else { c with prior := some (s.now, c.slots) })

/-- A well instruction changes a slot. -/
def putSlot (s : State) (core n : Nat) (x : Slot) : State := (s.noteSlots core).setSlot core n x

def bankAt (s : State) (w : Nat) : Bank := Tbl.get {} s.mem.banks w
def setBank (s : State) (w : Nat) (b : Bank) : State :=
  s.setMem { s.mem with banks := Tbl.set {} s.mem.banks w b }

def sliceAt (s : State) (n : Nat) : Slice := Tbl.get {} s.mem.slices n
def setSlice (s : State) (n : Nat) (x : Slice) : State :=
  s.setMem { s.mem with slices := Tbl.set {} s.mem.slices n x }

end State

/-- Bit `n` of `irqstat` is set; the host gets the function's message when `irqmask` enables it (R375). -/
def VF.irq (v : VF) (n : Nat) : VF :=
  { v with irqstat := v.irqstat ||| (1#64 <<< n), msgs := if v.irqmask.getLsbD n then v.msgs + 1 else v.msgs }

/-- The cluster whose pool holds a well (R201). -/
def wellClu (w : Nat) : Nat := w / 64

/-- A core in cluster `k` may hold a well of pool `p` (R201). -/
def reaches (k p : Nat) : Bool :=
  dieOfClu k == dieOfClu p && (k == p || (k % 20 + 1) % 20 == p % 20 || (p % 20 + 1) % 20 == k % 20)

/-- Access latency of a well from a core's cluster (R201). -/
def wellLat (k p : Nat) : Nat := if k = p then 12 else 20

/-- The physical offset in a well of byte `off` of its front-first view (R214, R328). -/
def bankOff (b : Bank) (off : Nat) : Nat := if b.swap then (off + 0x10000) % 0x20000 else off

namespace State

/-- Bytes of a well, in its front-first view. -/
def readWell (s : State) (w off n : Nat) : List Byte :=
  (List.range n).map (fun i => Memory.read s.mem.wells (w * 0x20000 + bankOff (s.bankAt w) (off + i)))

/-- Write bytes that are present into a well. -/
def writeWell (s : State) (w off : Nat) : List (Option Byte) → State
  | [] => s
  | none :: bs => writeWell s w (off + 1) bs
  | some b :: bs =>
    writeWell (s.setMem { s.mem with
      wells :=
      Memory.write s.mem.wells (w * 0x20000 + bankOff (s.bankAt w) off) b }) w (off + 1) bs

/-- Zero `n` bytes of a well from `off` in its front-first view. The whole well, or one half (R213). -/
def zeroWell (s : State) (w off n : Nat) : State :=
  if n = 0x20000 then s.setMem { s.mem with wells := Tbl.clear s.mem.wells (w * 0x20000) (w * 0x20000 + 0x20000) }
  else
    let lo := w * 0x20000 + bankOff (s.bankAt w) off
    s.setMem { s.mem with wells := Tbl.clear s.mem.wells lo (lo + n) }

end State

/-! ### Class counters (R286) -/

/-- The four classes of R286. -/
inductive Cls where
  | ld | st | cp | tl
  deriving DecidableEq, Repr

def Ctx.count (c : Ctx) : Cls → Nat
  | .ld => c.cnt.1
  | .st => c.cnt.2.1
  | .cp => c.cnt.2.2.1
  | .tl => c.cnt.2.2.2

def Ctx.withCount (c : Ctx) (k : Cls) (n : Nat) : Ctx :=
  match k with
  | .ld => { c with cnt := (n, c.cnt.2.1, c.cnt.2.2.1, c.cnt.2.2.2) }
  | .st => { c with cnt := (c.cnt.1, n, c.cnt.2.2.1, c.cnt.2.2.2) }
  | .cp => { c with cnt := (c.cnt.1, c.cnt.2.1, n, c.cnt.2.2.2) }
  | .tl => { c with cnt := (c.cnt.1, c.cnt.2.1, c.cnt.2.2.1, n) }

namespace State

def countUp (s : State) (a : Nat) (k : Cls) (n : Nat := 1) : State :=
  s.modCtx a (fun c => c.withCount k (c.count k + n))

def countDown (s : State) (a : Nat) (k : Cls) (n : Nat := 1) : State :=
  s.modCtx a (fun c => c.withCount k (c.count k - n))

end State

/-- Every operation in the engine queues of a core. -/
def Core.eops (c : Core) : List EOp := c.cq ++ c.aq ++ c.eq

/-- The class that an outstanding operation counts on (R286). -/
def OpKind.cls : OpKind → Option Cls
  | .alu | .pf | .fetch => none
  | .load _ | .lanes _ | .ldv _ | .verchk | .arm _ | .vamo _ | .vqtab => some .ld
  | .atom .red _ _ _ => some .st
  | .atom _ _ _ _ => some .ld
  | .store | .wb | .inv | .rfill _ _ _ | .tdec _ _ => some .st

end Sys2Proof.Machine
end

