-- ==== Sys2Proof/Machine/Translate.lean ====
section
/-!
DEFINITION. Where a global address lives: the home slice of an address (R226, R227), the two-stage walk of the page
tables (R268-R273), and the parameter window (R176, R412).
-/

namespace Sys2Proof.Machine

/-- A field of a 64-bit word: bits lo+n-1 down to lo. -/
def fieldOf (w : Word) (lo n : Nat) : Nat := (w.toNat >>> lo) % 2 ^ n

/-- The exclusive OR of the w-bit chunks of `h` (R227). -/
def hashChunks (w : Nat) : Nat → Nat → Nat
  | 0, _ => 0
  | fuel + 1, h => if w = 0 then 0 else (h % 2 ^ w) ^^^ hashChunks w fuel (h / 2 ^ w)

/-- The domain of an address group among `hmask1`-`hmask7` (R227). -/
def domainOf (hm : Tbl Word) (g : Nat) : List Nat → Nat
  | [] => 0
  | n :: ns =>
    let m := Tbl.get 0 hm n
    if fieldOf m 63 1 = 1 && fieldOf m 0 20 ≤ g && g ≤ fieldOf m 20 20 then n else domainOf hm g ns

/-- The home slice of a global address under a set of hash masks (R227). -/
def homeUnder (hm : Tbl Word) (va : Nat) : Nat :=
  let m := Tbl.get 0 hm (domainOf hm (va / 2 ^ 32 % 2 ^ 20) [1, 2, 3, 4, 5, 6, 7])
  (fieldOf m 53 7 + hashChunks (fieldOf m 60 3) 44 (va / 256 % 2 ^ 44)) % 128

def State.homeSlice (s : State) (vf va : Nat) : Nat := homeUnder (s.vfAt vf).hmask va

/-- The rights that an access needs (R272). -/
structure Acc where
  rd    : Bool := false
  wr    : Bool := false
  fetch : Bool := false
  user  : Bool := false
  ver   : Bool := false         -- `ldv`, `casv`, a `verchk` check
  win   : Bool := false         -- through the parameter window (R412)
  size  : Nat := 1              -- bytes (R273)
  deriving DecidableEq, Repr

/-- Why a translation fails: its cause, whether it may be delegated, whether the host is told (R272). -/
structure XFault where
  cause  : Nat
  deleg  : Bool := false
  report : Bool := false
  deriving DecidableEq, Repr

/-- A translation: target (R271), peer package, address, ordering kind, and the entries it came from with their levels. -/
structure Xlat where
  tgt  : Nat
  peer : Nat
  addr : Nat
  kind : PKind
  path : List (Nat × Word)
  deriving DecidableEq, Repr

/-! ### Memory under keys (R354)

`Mem` keeps what was written and the number of the key pair that encrypted each 64-byte sector: 0 for a sector that holds
what power-on or the Blotter left in it, which every key reads alike (log 59). -/

/-- The number of the key pair that is no key: what the host's second-tier aperture uses (R373). -/
def noKey : Nat := 1

/-- HBM, or the second tier. -/
def Mem.area (m : Mem) (tier : Bool) : Memory := if tier then m.tier else m.hbm
def Mem.setArea (m : Mem) (tier : Bool) (x : Memory) : Mem := if tier then { m with tier := x } else { m with hbm := x }

/-- The number of the sector of an address. -/
def sectorOf (tier : Bool) (a : Nat) : Nat := 2 * (a / 64) + tier.toNat

/-- The key pair under which the sector of an address was written. -/
def Mem.keyAt (m : Mem) (tier : Bool) (a : Nat) : Nat := Tbl.get 0 m.keys (sectorOf tier a)

/-- The sector of an address as key pair `key` reads it, where another wrote it. -/
def Mem.sectorUnder (m : Mem) (tier : Bool) (key a : Nat) : List Byte :=
  toBytes 64 (Config.otherKey key (m.keyAt tier a) (a / 64 % 2 ^ 46)
    (BitVec.ofNat 512 (ofBytes (Memory.readN (m.area tier) (a / 64 * 64) 64)))).toNat

/-- The key pair reads what was written. -/
def Mem.sameKey (m : Mem) (tier : Bool) (key a : Nat) : Bool := m.keyAt tier a == 0 || m.keyAt tier a == key

/-- One byte as key pair `key` reads it. -/
def Mem.byteUnder (m : Mem) (tier : Bool) (key a : Nat) : Byte :=
  if m.sameKey tier key a then Memory.read (m.area tier) a else (m.sectorUnder tier key a).getD (a % 64) 0

/-- The sector of an address is encrypted under key pair `key`, and holds what `key` read there before. -/
def Mem.rekey (m : Mem) (tier : Bool) (key a : Nat) : Mem :=
  let u := if m.sameKey tier key a then m
    else m.setArea tier (Memory.writeN (m.area tier) (a / 64 * 64) (m.sectorUnder tier key a))
  { u with keys := Tbl.set 0 m.keys (sectorOf tier a) key }

/-- Write one byte under key pair `key`. -/
def Mem.putUnder (m : Mem) (tier : Bool) (key a : Nat) (b : Byte) : Mem :=
  let u := m.rekey tier key a
  u.setArea tier (Memory.write (u.area tier) a b)

/-- Bytes under a key pair, upward from an address. -/
def Mem.readUnder (m : Mem) (tier : Bool) (key a n : Nat) : List Byte := (List.range n).map (fun i => m.byteUnder tier key (a + i))

def Mem.writeUnder (m : Mem) (tier : Bool) (key a : Nat) (bs : List Byte) : Mem :=
  (bs.zipIdx).foldl (fun m (b, i) => m.putUnder tier key (a + i) b) m

/-- Bytes of a sector that the Blotter zeroes: every key reads zero (log 59). -/
def Mem.zero (m : Mem) (lo hi : Nat) : Mem :=
  { m with hbm := Tbl.clear m.hbm lo hi, keys := m.keys.filter (fun p => p.1 % 2 == 1 || !(lo / 64 ≤ p.1 / 2 && p.1 / 2 < hi / 64)) }

/-- Eight bytes of HBM under a key pair. -/
def Mem.read8 (m : Mem) (key a : Nat) : Nat := ofBytes ((List.range 8).map (fun i => m.byteUnder false key (a + i)))

/-- Bytes of HBM: 128 channels of 6 GB (R2, R7). -/
def hbmBytes : Nat := 768 * 10 ^ 9

/-- Bytes of the second tier at most (R2, R378). -/
def tierBytes : Nat := 12288 * 10 ^ 9

/-- Bytes behind one CXL port: an eighth of the second tier (DESIGN CHOICE, log 49: R378 gives the sum of the eight alone). -/
def portBytes : Nat := tierBytes / 8

/-- Bytes of the second-tier address space: the interleave sets, one after the other (R378, R400; log 49). -/
def Pkg.tierSize (p : Pkg) : Nat := p.cxl.flatten.length * portBytes

/-- The CXL port that serves an address of the second tier: the ports of its interleave set take turns, 256 bytes each (R378). -/
def portIn : List (List Nat) → Nat → Option Nat
  | [], _ => none
  | x :: xs, a => if a < x.length * portBytes then x[a / 256 % x.length]? else portIn xs (a - x.length * portBytes)

def Pkg.tierPort (p : Pkg) (a : Nat) : Option Nat := portIn p.cxl a

/-- Stage two for the carve-out (R273); no address lies beyond HBM, wherever the carve-out ends (R2; log 49). -/
def stage2 (v : VF) (ia size : Nat) : Except XFault Nat :=
  if ia + size > v.segn.toNat || hbmBytes < v.segb.toNat + ia + size then .error { cause := 0x0B } else .ok (v.segb.toNat + ia)

/-- The index of an address at a level (R270). -/
def levelIndex (lvl va : Nat) : Nat := va / 2 ^ (43 - 9 * lvl) % 512

/-- A leaf breaks its layout at a level (R271, R272). -/
def leafBad (lvl : Nat) (e : Word) : Bool :=
  lvl < 2 || fieldOf e 60 4 != 0 || fieldOf e 12 4 != 0 || fieldOf e 9 1 != 0 || fieldOf e 2 2 == 3 ||
  (lvl == 2 && fieldOf e 16 9 != 0) || fieldOf e 52 8 > 143 || (fieldOf e 52 8 != 0 && fieldOf e 10 2 != 2)

/-- A pointer breaks its layout at a level. -/
def pointerBad (lvl : Nat) (e : Word) : Bool :=
  lvl == 3 || fieldOf e 52 12 != 0 || fieldOf e 2 10 != 0

/-- The table that a pointer names (R271). -/
def nextTable (e : Word) : Nat := fieldOf e 12 40 * 4096

/-- The walk of the tables to a leaf, from level `lvl` with `fuel` levels left (R272); `rd` reads eight bytes. Gives the entries
read with their levels, the leaf first. -/
def walk (rd : Nat → Nat) (v : VF) (va : Nat) : Nat → Nat → Nat → Except XFault (List (Nat × Word))
  | 0, _, _ => .error { cause := 0x0A }
  | fuel + 1, lvl, t => do
    let a ← stage2 v (t + 8 * levelIndex lvl va) 8
    let e : Word := BitVec.ofNat 64 (rd a)
    if fieldOf e 0 1 = 0 then .error { cause := 0x0A, deleg := fieldOf e 8 1 == 1 }
    else if fieldOf e 1 1 = 1 then
      if leafBad lvl e then .error { cause := 0x0A, report := true } else .ok [(lvl, e)]
    else if pointerBad lvl e then .error { cause := 0x0A, report := true }
    else (walk rd v va fuel (lvl + 1) (nextTable e)).map (fun es => es ++ [(lvl, e)])

/-- The ordering kind of a leaf (R271). -/
def leafKind (e : Word) : PKind :=
  match fieldOf e 2 2 with
  | 1 => .so
  | 2 => .un
  | _ => .rc

/-- The rights check of a leaf, and stage two (R272, R273, R412). -/
def useLeaf (v : VF) (va : Nat) (acc : Acc) (e : Word) (big : Bool) (path : List (Nat × Word)) : Except XFault Xlat :=
  if acc.win && (acc.wr || acc.fetch) then .error { cause := 0x0A }
  else if (acc.wr && fieldOf e 5 1 == 0) || (acc.rd && fieldOf e 4 1 == 0) || (acc.fetch && fieldOf e 6 1 == 0) ||
      (acc.user && fieldOf e 7 1 == 0) then .error { cause := 0x0A }
  else
    let tgt := fieldOf e 10 2
    if acc.ver && tgt == 1 then .error { cause := 0x0C }
    else
      let size := if big then 2 ^ 25 else 2 ^ 16
      let a := fieldOf e 16 36 * 65536 + va % size
      let x := fun (addr : Nat) => ({ tgt, peer := fieldOf e 52 8, addr, kind := leafKind e, path } : Xlat)
      if tgt == 0 then
        if a + acc.size > v.segn.toNat then .error { cause := 0x0B } else .ok (x (v.segb.toNat + a))
      else if tgt == 1 then
        if a + acc.size > v.t2n.toNat then .error { cause := 0x0B } else .ok (x (v.t2b.toNat + a))
      else .ok (x a)

/-- The translation at the end of a walk. -/
def useEntries (v : VF) (va : Nat) (acc : Acc) (es : List (Nat × Word)) : Except XFault Xlat :=
  match es with
  | (lvl, e) :: _ => useLeaf v va acc e (lvl == 2) es
  | [] => .error { cause := 0x0A }

/-- What the walks of a function's accesses read (R272, R354). -/
def State.tableRead (s : State) (vf a : Nat) : Nat := s.mem.read8 (s.vfAt vf).key a

/-- The walk by the tables as they stand, from the root (R272). -/
def State.walkRoot (s : State) (vf va : Nat) : Except XFault (List (Nat × Word)) :=
  walk (s.tableRead vf) (s.vfAt vf) va 4 0 (nextTable (s.vfAt vf).root)

/-- The entry is the one of its level for an address of a function. -/
def TEnt.names (t : TEnt) (vf lvl va : Nat) : Bool := t.vf == vf && t.lvl == lvl && t.tag == va / 2 ^ (43 - 9 * lvl)

/-- The entry that an NI keeps for an address at a level (R274). -/
def Slice.cached (x : Slice) (vf lvl va : Nat) : Option Word := (x.tc.find? (fun t => t.names vf lvl va)).map (·.e)

/-- The entries of a translation at a slice: an entry that the NI keeps is used, the deepest first, and the walk goes on from
there by the tables (R274, log 7). -/
def State.entriesAt (s : State) (slice vf va : Nat) : Except XFault (List (Nat × Word)) :=
  let x := s.sliceAt slice
  let go := walk (s.tableRead vf) (s.vfAt vf) va
  match x.cached vf 3 va, x.cached vf 2 va, x.cached vf 1 va, x.cached vf 0 va with
  | some e, _, _, _ => .ok [(3, e)]
  | none, some e, _, _ => if fieldOf e 1 1 = 1 then .ok [(2, e)] else go 1 3 (nextTable e)
  | none, none, some e, _ => go 2 2 (nextTable e)
  | none, none, none, some e => go 3 1 (nextTable e)
  | none, none, none, none => s.walkRoot vf va

/-- The memory that a translation names exists: HBM and the second tier end somewhere, and a peer is reached by an enabled port
(R2, R378, R379, R400; log 49). -/
def State.inMemory (s : State) (x : Xlat) (size : Nat) : Bool :=
  if x.tgt = 1 then decide (x.addr + size ≤ s.pkg.tierSize)
  else if x.tgt = 2 then !s.pkg.ports.isEmpty
  else decide (x.addr + size ≤ hbmBytes)

/-- A translation at a slice (R272-R274). -/
def State.translateAt (s : State) (slice vf va : Nat) (acc : Acc) : Except XFault Xlat := do
  let es ← s.entriesAt slice vf va
  let x ← useEntries (s.vfAt vf) va acc es
  if s.inMemory x acc.size then .ok x else .error { cause := 0x0B }

/-- The NI keeps an entry that it has read, dropping the oldest beyond 2,048 (R274, log 7). -/
def Slice.keep (x : Slice) (vf va : Nat) (p : Nat × Word) : Slice :=
  if x.tc.any (fun t => t.names vf p.1 va) then x
  else { x with tc := ({ vf, lvl := p.1, tag := va / 2 ^ (43 - 9 * p.1), e := p.2 } :: x.tc).take 2048 }

/-- The NI of a slice keeps the entries of a translation (R274). -/
def State.keepPath (s : State) (slice vf va : Nat) (x : Xlat) : State :=
  s.setSlice slice (x.path.foldl (fun sl p => sl.keep vf va p) (s.sliceAt slice))

/-- The parameter window (R176). -/
def inWindow (va : Nat) : Bool := 0x100000000 ≤ va && va ≤ 0x10000FFFF

/-- The address that the NI sends for a global address (R412). -/
def State.relocate (s : State) (core va : Nat) : Nat :=
  if inWindow va then ((s.coreAt core).pblock.toNat + (va - 0x100000000)) % 2 ^ 64 else va

end Sys2Proof.Machine
end

