-- ==== Sys2Proof/Machine/Access.lean ====
section
/-!
DEFINITION. Memory accesses on their way in: the check of the local window (R36-R38), the parts of an access (R113,
R225, R253), store entries (R249, R251), and the conditions under which an access may issue (R233, R259, R286).
-/

namespace Sys2Proof.Machine

/-- Why an instruction does not complete: it parks, or it traps with a cause and a value (R39, R154). `next`: the trap
resumes after the instruction (0x13). -/
inductive Stop where
  | park (w : Wait)
  | trap (cause : Nat) (val : Word) (next : Bool := false)
  deriving DecidableEq, Repr

abbrev Eff := Except Stop State

/-- Where an access lies: global, or at an offset of a well that a slot maps. -/
inductive Place where
  | global
  | local (slot : Nat) (well : Nat) (off : Nat)
  deriving DecidableEq, Repr

/-- The check of R36 and R37 on `size` bytes from `ea`, made at issue for an access at level `p`. -/
def checkLocal (s : State) (core : Nat) (p : Priv) (ea : Word) (size : Nat) (wr : Bool) : Except Stop Place :=
  let a := ea.toNat
  let last := a + size - 1
  if last ≥ 2 ^ 52 then .error (.trap 0x0B ea)
  else if a ≥ 0x100000000 then .ok .global
  else if last ≥ 0x200000 then .error (.trap 0x08 ea)
  else if a / 0x20000 != last / 0x20000 then .error (.trap 0x08 ea)
  else
    let n := a / 0x20000
    let x := s.slotAt core n
    let off := a % 0x20000
    let bad := (if wr then !x.wr else !x.rd) || (x.exch && last % 0x20000 ≥ 0x10000)
    match x.st with
    | .detached => .error (.trap 0x08 ea)
    | .incoming => .error (.park .incoming)
    | .held => if p == .u || bad then .error (.trap 0x08 ea) else .ok (.local n x.well off)
    | .attached => if bad then .error (.trap 0x08 ea) else .ok (.local n x.well off)

/-- Cut bytes at the boundaries that `lim` gives (bytes left before the next one). -/
def cutBytes (lim : Nat → Nat) : Nat → Nat → Nat → List (Option Byte) → List (Nat × Nat × List (Option Byte))
  | 0, _, _, _ => []
  | fuel + 1, a, dst, bs =>
    if bs.isEmpty then []
    else
      let n := lim a
      (a, dst, bs.take n) :: cutBytes lim fuel (a + n) (dst + n) (bs.drop n)

/-- Bytes left in the 256-byte line of an address (R225). -/
def lineLeft (a : Nat) : Nat := 256 - a % 256

/-- Bytes left before the end of the parameter window, which has its own place (R412). -/
def windowLeft (a : Nat) : Nat := if inWindow a then 0x100010000 - a else 0x10000

/-- The ordering kind that a core's NI holds for the page of an address (R410). -/
def State.kindOf (s : State) (core a : Nat) : Option PKind :=
  ((s.coreAt core).kinds.find? (fun e => e.page == a / 65536)).map (·.kind)

/-- The line parts of a global access (R225, R253): relocated, cut at lines, parts without an active byte left out. -/
def State.globalParts (s : State) (core acc a dst : Nat) (data : List (Option Byte)) : List Part :=
  (cutBytes windowLeft 4 a dst data).flatMap (fun (a, dst, bs) =>
    let b := s.relocate core a
    ((cutBytes lineLeft 4 b dst bs).filter (fun (_, _, cs) => cs.any Option.isSome)).map (fun (c, dst, cs) =>
      ({ acc, va := c, dst, data := cs, win := inWindow a, pk := s.kindOf core c } : Part)))

/-- The parts of an access at a place. -/
def State.partsAt (s : State) (core acc : Nat) (pl : Place) (ea : Word) (dst : Nat) (data : List (Option Byte)) : List Part :=
  match pl with
  | .global => s.globalParts core acc ea.toNat dst data
  | .local _ w off => [{ acc, va := ea.toNat, dst, data, well := some w, off }]

/-- Payload of the path from a core to the home of an address (R249): 32 bytes on one die, 16 otherwise and to peers. -/
def State.payload (s : State) (core a : Nat) : Nat :=
  let vf := s.vfOfCore core
  let sl := s.homeSlice vf a
  match s.translateAt sl vf a {} with
  | .ok x => if x.tgt == 2 || dieOfSlice sl != dieOfCore core then 16 else 32
  | .error _ => if dieOfSlice sl != dieOfCore core then 16 else 32

/-- The reference latency of a global access from a core (R96). -/
def State.globalLat (s : State) (core a : Nat) : Nat :=
  if dieOfSlice (s.homeSlice (s.vfOfCore core) a) = dieOfCore core then 200 else 260

/-- The reference latency of one part (R96, R201). -/
def State.partLat (s : State) (core : Nat) (p : Part) : Nat :=
  match p.well with
  | some w => wellLat (core / 16) (wellClu w)
  | none => s.globalLat core p.va

/-- The largest reference latency of the parts. -/
def State.opLat (s : State) (core : Nat) (ps : List Part) : Nat :=
  ps.foldl (fun n p => Nat.max n (s.partLat core p)) 0

/-- The entries of one line part of a store (R249). -/
def State.piecesOf (s : State) (o : Op) (k : Nat) (p : Part) : List SEntry :=
  let core := o.ctx / 16
  let P := s.payload core p.va
  let vf := s.vfOfCore core
  let cut := cutBytes (fun a => P - a % P) 20 p.va 0 p.data
  let live := if p.data.isEmpty then [(p.va, 0, [])] else cut.filter (fun (_, _, cs) => cs.any Option.isSome)
  (live.zipIdx).map (fun ((a, _, cs), i) =>
    { id := s.nid + i, op := o.id, part := k, piece := i, ctx := o.ctx, place := o.ctx, vf, line := a / 256, lo := a % 256,
      data := cs, level := .csq, due := s.now + s.globalLat core p.va })

/-- Append the entries of those global parts of a store that `f` names to the tail of its context's queue (R251). -/
def State.appendEntries (s : State) (o : Op) (f : Nat → Part → Bool := fun _ _ => true) : State :=
  (o.parts.zipIdx).foldl (fun s (p, k) =>
    if p.well.isSome || p.st != .todo || !f k p then s
    else
      let es := s.piecesOf o k p
      { s with sb := s.sb ++ es, nid := s.nid + es.length }) s

/-- An operation puts entries into the ordering machine (R251). -/
def OpKind.isStore : OpKind → Bool
  | .store | .wb | .inv => true
  | _ => false

/-- The memory accesses of R233: what a later access is to an acquire or a release. -/
def OpKind.isMem : OpKind → Bool
  | .alu | .rfill _ _ _ | .tdec _ _ | .fetch | .pf => false
  | _ => true

/-- The part is still to be performed. -/
def PartSt.pending (x : PartSt) : Bool := x == .todo || x == .wait

/-- Every part that has not been discarded has been performed. -/
def Op.allDone (o : Op) : Bool := o.parts.all (fun p => p.st == .done || p.st == .gone)
def Op.anyHeld (o : Op) : Bool := o.parts.any (fun p => p.st == .held)

/-- A part of an access of the operation is still to be performed. -/
def Op.out (o : Op) (acc : Nat) : Bool := o.parts.any (fun p => p.acc == acc && p.st.pending)

/-- The accesses of an operation with a held part that `f` names. An access that spans pages is held once its other part has
been performed or has faulted as well, so a replay performs that part again (R42, R113; DEDUCED, log 58). -/
def Op.heldAccs (o : Op) (f : Part → Bool) : List Nat :=
  ((o.parts.filter (fun p => p.st == .held && f p && !(o.out p.acc))).map (·.acc)).eraseDups

/-- The held accesses of an operation that an `eret` replays: those of which no part awaits the host (R42, R45, R275; log 58). -/
def Op.eretAccs (o : Op) : List Nat :=
  (o.heldAccs (fun p => !p.deleg)).filter (fun a => !(o.parts.any (fun p => p.acc == a && p.st == .held && p.deleg)))

/-- A held part in a page awaits the host (R275). -/
def Part.awaits (p : Part) (page : Nat) : Bool := p.st == .held && p.deleg && p.va / 65536 == page

/-- The accesses of an operation that await the host's answer for a page (R276, R277). -/
def Op.awaitAccs (o : Op) (page : Nat) : List Nat := ((o.parts.filter (fun p => p.awaits page)).map (·.acc)).eraseDups

def OpKind.isVamo : OpKind → Bool
  | .vamo _ => true
  | _ => false

/-- The operation has a held access that is still to be reported, to S or F or by an upcall (R42, R275). A lane of `vamo` is not held
(R240). -/
def Op.unreported (o : Op) : Bool := !o.kind.isVamo && !(o.heldAccs (fun p => !p.rep)).isEmpty

/-- The upcall for the part has been taken, or the part has joined one for which that is so: it waits for the host alone (R275, R276). -/
def Part.told (p : Part) : Bool := p.deleg && p.rep

/-! ### Strongly ordered accesses (R259) -/

/-- The access is ordered as strongly ordered: its page's kind is SO or not known (R259, R410). -/
def Part.asSO (p : Part) : Bool := p.well.isNone && (p.pk == none || p.pk == some .so)

/-- Two parts of an operation belong to one access: the halves of one that spans two pages are two (R113, R141). -/
def Part.sameAccess (p q : Part) : Bool := p.acc == q.acc && p.va / 65536 == q.va / 65536

/-- An operation that fills a register when its loads have been performed: it reaches a scope when the register fills (R256). -/
def OpKind.fills : OpKind → Bool
  | .load _ | .lanes _ | .vqtab => true
  | _ => false

/-- An operation that reads by load parts (R253). -/
def OpKind.byParts : OpKind → Bool
  | .load _ | .lanes _ | .vqtab => true
  | _ => false

/-- The place of part `k` in the order of issue: its issue number, the operation, the part (R45, R225). -/
def Op.key (o : Op) (k : Nat) : Nat × Nat × Nat := (((o.parts[k]?).map (·.seq)).getD 0, o.id, k)

/-- One place in the order of issue is before another. -/
def issuedBefore (x y : Nat × Nat × Nat) : Bool :=
  decide (x.1 < y.1) || (x.1 == y.1 && (decide (x.2.1 < y.2.1) || (x.2.1 == y.2.1 && decide (x.2.2 < y.2.2))))

/-- A part of the context for the same line that issued earlier, of an operation that `f` names, is in a state that `g` names
(R225, R253). A replayed access is a new issue (R45). -/
def State.lineBefore (s : State) (o : Op) (k line : Nat) (f : OpKind → Bool) (g : PartSt → Bool) : Bool :=
  s.ops.any (fun u => u.ctx == o.ctx && f u.kind && (u.parts.zipIdx).any (fun (p, j) =>
    p.well.isNone && g p.st && p.va / 256 == line && issuedBefore (u.key j) (o.key k)))

/-- A load part is kept from being performed by an earlier held one of its line (R253), or waits for its turn behind such a part. -/
def State.stuckPart (s : State) (o : Op) (k : Nat) (p : Part) : Bool :=
  o.kind.byParts && p.st.pending && s.lineBefore o k (p.va / 256) OpKind.byParts (fun x => x == .held)

/-- A strongly ordered access of the operation has not reached `.dev` (R256, R259). A held access has left the machine (R252); what
only a held one keeps from being performed, and from filling a register, holds nothing back (DEDUCED, log 12). -/
def State.soPending (s : State) (o : Op) : Bool :=
  let stuck := fun (n : Nat) => ((o.parts.take n).zipIdx).any (fun (p, k) => s.stuckPart o k p)
  let fills := o.kind.fills && !o.arrived && !o.anyHeld && !(stuck o.parts.length)
  o.kind.isMem && (o.parts.zipIdx).any (fun (p, k) =>
    p.asSO && ((p.st.pending && !(s.stuckPart o k p) && !(p.st == .wait && stuck k)) || (p.st == .done && fills)))

/-- An outstanding acquire, or a release not yet sent, holds back later memory accesses of its context (R233, R258). -/
def State.accessBlocked (s : State) (a : Nat) : Bool :=
  s.ops.any (fun o => o.ctx == a && (o.order.isAcq || (o.order.isRel && !o.sent)))

/-- An access to an SO page waits for the context's earlier accesses to SO pages (R259). -/
def State.soBlocked (s : State) (a : Nat) (ps : List Part) : Bool :=
  ps.any Part.asSO && s.ops.any (fun o => o.ctx == a && s.soPending o)

/-- Of the parts of one instruction, a strongly ordered access after another one waits for its turn (R259). -/
def waitTurns (ps : List Part) : List Part :=
  (ps.zipIdx).map (fun (p, k) =>
    if p.st == .todo && p.asSO && (ps.take k).any (fun q => q.asSO && !(q.sameAccess p)) then { p with st := .wait } else p)

/-- Part `k` waits for its turn, and the turn has come (R259): the kind that the NI now holds for its page is not SO, or every
strongly ordered access before it has reached `.dev`, those of earlier operations too where it is a replay (R45). -/
def State.turnCome (s : State) (o : Op) (k : Nat) (p : Part) : Bool :=
  p.st == .wait && (!({ p with pk := s.kindOf (o.ctx / 16) p.va }).asSO ||
    ((o.parts.take k).all (fun q => !(q.asSO && q.st.pending) || q.sameAccess p) &&
      (!o.replay || s.ops.all (fun u => !(u.ctx == o.ctx && decide (u.id < o.id) && s.soPending u)))))

/-- The parts of an operation whose turn has come issue (R251, R259). -/
def State.sendWaiting (s : State) (o : Op) : State :=
  if !(o.parts.any (fun p => p.st == .wait)) then s
  else
    let go := (o.parts.zipIdx).map (fun (p, k) => s.turnCome o k p)
    let r := { o with parts := (o.parts.zip go).map (fun (p, g) => if g then { p with st := .todo, pk := s.kindOf (o.ctx / 16) p.va } else p) }
    let u := if go.any id then s.setOp r else s
    if o.kind.isStore && o.sent then u.appendEntries r (fun k _ => go.getD k false) else u

/-- The conditions under which a memory access may issue: R233, R259, and room in its class (R286). -/
def State.mayAccess (s : State) (a : Nat) (cls : Cls) (n : Nat) (ps : List Part) : Except Stop Unit :=
  if s.accessBlocked a || s.soBlocked a ps || (s.ctxAt a).count cls + n > 65535 then .error (.park .own) else .ok ()

/-! ### Scopes (R119, R256, R257, R260) -/

/-- An entry at a level has reached a scope (R256); an entry that has been performed is in no list. -/
def Level.reached (l : Level) : Scope → Bool
  | .ctx | .core => l != .csq
  | .clu => l == .clu || l == .die
  | .die => l == .die
  | .dev | .sys => false

/-- The kind that the core's NI holds for the page of a part says UN, and the wait leaves UN out (R260, R410). -/
def State.leftOut (s : State) (core : Nat) (un : Bool) (p : Part) : Bool :=
  !un && p.well.isNone && s.kindOf core p.va == some .un

/-- As `leftOut`, of an entry. -/
def State.entryOut (s : State) (core : Nat) (un : Bool) (e : SEntry) : Bool := !un && s.kindOf core (e.line * 256) == some .un

/-- A part of a store, `wb` or `inv` has reached a scope (R256). -/
def State.partReached (s : State) (o : Op) (k : Nat) (p : Part) (sc : Scope) : Bool :=
  match p.st with
  | .held | .lost | .wait => false
  | .gone => true
  | .done => !(sc == .sys && p.far && !(o.acked.contains p.acc))
  | .todo => p.well.isNone && o.sent && (s.sb.filter (fun e => e.op == o.id && e.part == k)).all (fun e => e.level.reached sc)

/-- An operation is a load or a slice-executed access, which reaches every scope when it is performed and its result
has arrived (R254, R256). -/
def OpKind.isLoad : OpKind → Bool
  | .load _ | .lanes _ | .ldv _ | .verchk | .arm _ | .vamo _ | .vqtab => true
  | .atom a _ _ _ => a != .red
  | _ => false

/-- An earlier access does not hold back a fence or a release of scope `sc` (R119, R233, R260). -/
def State.opReached (s : State) (o : Op) (sc : Scope) (un : Bool) : Bool :=
  let core := o.ctx / 16
  if o.kind.isStore then
    (o.parts.zipIdx).all (fun (p, k) => s.leftOut core un p || s.partReached o k p sc)
  else if o.kind.isLoad then
    o.arrived || (!o.parts.isEmpty && o.parts.all (s.leftOut core un))
  else
    match o.kind with
    | .atom .red _ _ _ => o.parts.all (fun p => s.leftOut core un p || (p.st == .done && !(sc == .sys && p.far)))
    | _ => true

/-- The operations that the saves of teams hold (R348). -/
def State.savedOps (s : State) : List Op := s.teams.flatMap (fun t => (t.saved.map (·.ops)).getD [])

/-- An observed entry has been performed in a peer package that has not acknowledged it (R256, R257). -/
def State.farOut (s : State) (x : Nat × Nat × Nat) : Bool :=
  (s.ops ++ s.savedOps).any (fun o => o.id == x.2.1 && (o.parts[x.2.2]?).any (fun p => p.st == .done && p.far && !(o.acked.contains p.acc)))

/-- The entries that a context has observed, and those before them, have reached a scope (R257). -/
def State.seenReached (s : State) (a : Nat) (sc : Scope) (un : Bool) : Bool :=
  (s.ctxAt a).seen.all (fun x =>
    match s.sb.find? (fun e => e.id == x.1) with
    | some e => e.level.reached sc || s.entryOut (a / 16) un e
    | none => sc != .sys || !(s.farOut x) || s.far.any (fun e => e.id == x.1 && s.entryOut (a / 16) un e))

/-- Every access of a context before identifier `before` has reached a scope, and so has what it has observed. -/
def State.orderedTo (s : State) (a before : Nat) (sc : Scope) (un : Bool) : Bool :=
  s.ops.all (fun o => o.ctx != a || before ≤ o.id || s.opReached o sc un) && s.seenReached a sc un

/-- A new operation enters the machine: its entries are appended, its class rises by `n`, its identifier is taken;
`due` is the reference time at which it ends. -/
def State.launchOp (s : State) (o : Op) (n due : Nat) : State :=
  let ps := o.parts.map (fun p => { p with seq := s.nid })
  let o := { o with id := s.nid, issued := s.now, due, parts := if o.kind.isMem then waitTurns ps else ps }
  let s := s.bumpId
  let s := match o.kind.cls with
    | some c => s.countUp o.ctx c n
    | none => s
  let s := if o.kind.isStore && o.sent then s.appendEntries o else s
  { s with ops := s.ops ++ [o] }

end Sys2Proof.Machine
end

