-- ==== Sys2Proof/Machine/Ops.lean ====
section
/-!
DEFINITION. The named operations of a context: scalar, vector and mask registers (R15-R27, R46), the end of an issue,
taking a trap and returning from one (R39-R45), the end of a context, revoke-on-trap and the error token (R195, R216).
-/

namespace Sys2Proof.Machine

/-! ### Scalar registers -/

/-- Register `n` of the main bank, or of the bank in force for 40-47 (R301). -/
def Ctx.xReg (c : Ctx) (shadow : Bool) (n : Nat) : Reg :=
  if shadow && 40 ≤ n then Tbl.get {} c.sh n else Tbl.get {} c.x n

def Ctx.setX (c : Ctx) (shadow : Bool) (n : Nat) (r : Reg) : Ctx :=
  if shadow && 40 ≤ n then { c with sh := Tbl.set {} c.sh n r } else { c with x := Tbl.set {} c.x n r }

/-- The context's register file takes a write: one a cycle (R171). A write at an issue that finds the cycle taken is applied in the next
free one; what the context itself sees of it is the same, since it issues four cycles later at the earliest (DEDUCED, log 64). -/
def Ctx.usesFile (c : Ctx) (now : Nat) : Ctx := { c with rfAt := Nat.max c.rfAt now + 1 }

/-- A write of a `c` register laid over a register. -/
def CWrite.onto (w : CWrite) (r : Reg) : Reg := { val := w.val.getD r.val, full := w.full, pend := w.pend }

/-- What an issue at cycle `t` sees in `c` register `n`: every write of cycle u with u + 3 ≤ t (R158). -/
def Core.cSeen (k : Core) (n t : Nat) : Reg :=
  k.cw.foldl (fun r w => if w.reg == n && w.at_ + 3 ≤ t then w.onto r else r) (Tbl.get {} k.c n)

/-- The state of `c` register `n` after every write, seen or not. -/
def Core.cNow (k : Core) (n : Nat) : Reg :=
  k.cw.foldl (fun r w => if w.reg == n then w.onto r else r) (Tbl.get {} k.c n)

/-- The order in which writes take effect: by cycle, and in one cycle by issue (R158). -/
def CWrite.before (v w : CWrite) : Bool := decide (v.at_ < w.at_) || (v.at_ == w.at_ && decide (v.by_ < w.by_))

/-- A write to a `c` register by issue number `by_` takes effect at cycle `t` (R158). Writes that every issue from `t` on sees
are folded in. -/
def Core.cWrite (k : Core) (t by_ n : Nat) (val : Option Word) (full pend : Bool) : Core :=
  let old := k.cw.takeWhile (fun w => w.at_ + 3 ≤ t)
  { k with
    c := old.foldl (fun c w => Tbl.set {} c w.reg (w.onto (Tbl.get {} c w.reg))) k.c
    cw := insertBy CWrite.before { at_ := t, by_, reg := n, val, full, pend } (k.cw.dropWhile (fun w => w.at_ + 3 ≤ t)) }

/-- The registers as numbers 0-62 name them (R15): what the acting context sees of one at its issue. -/
def State.regAt (s : State) (n : Nat) : Reg :=
  let c := s.me
  if n = 0 then {}
  else if n < 48 then c.xReg c.inH n
  else if n < 56 then s.myCore.cSeen (n - 48) s.now
  else if n < 60 then
    let q := Tbl.get {} c.qin (n - 56)
    { val := q.words.headD 0, full := !q.words.isEmpty }
  else if n = 60 then { val := BitVec.ofNat 64 s.tid }
  else if n = 61 then { val := BitVec.ofNat 64 s.cid }
  else { val := BitVec.ofNat 64 s.now }

/-- `ReadReg` (R46): the value of a scalar register. -/
def State.regVal (s : State) (n : SReg) : Word := (s.regAt n.val).val

/-- Those scalar registers among the sources that are empty. -/
def State.emptyOf (s : State) (ns : List SReg) : List Nat :=
  ns.filterMap (fun m => if m.val < 56 && !(s.regAt m.val).full then some m.val else none)

/-- Every source is full (R23); an empty queue port parks as well (R21). The park names every register that is empty (R170). -/
def State.needSrc (s : State) : List SReg → Except Stop Unit
  | [] => .ok ()
  | n :: ns =>
    if (s.regAt n.val).full then s.needSrc ns
    else .error (.park (if 56 ≤ n.val then .queue (n.val - 56) false (s.emptyOf ns) else .source (s.emptyOf (n :: ns))))

/-- The destination takes a result: no deferred result is outstanding (R24), and an output queue has room (R21). -/
def State.needDst (s : State) (d : Nat) : Except Stop Unit :=
  if d = 0 then .ok ()
  else if d < 56 then (if (s.regAt d).pend then .error (.park .dest) else .ok ())
  else if d < 60 then
    (if (Tbl.get {} s.me.qout (d - 56)).words.length < 16 then .ok () else .error (.park (.queue (d - 56) true)))
  else .ok ()

/-- Change the words of an input queue. -/
def Ctx.modIn (c : Ctx) (n : Nat) (f : List Word → List Word) : Ctx :=
  let q := Tbl.get {} c.qin n
  { c with qin := Tbl.set {} c.qin n { q with words := f q.words } }

/-- Change the words of an output queue. -/
def Ctx.modOut (c : Ctx) (n : Nat) (f : List Word → List Word) : Ctx :=
  let q := Tbl.get {} c.qout n
  { c with qout := Tbl.set {} c.qout n { q with words := f q.words } }

/-- Pop the queue ports that the sources name, each once (R19). -/
def State.popSrc (s : State) (ns : List SReg) : State :=
  [56, 57, 58, 59].foldl (fun s q =>
    if ns.any (fun n => n.val == q) then s.modMe (fun c => c.modIn (q - 56) (fun w => w.drop 1)) else s) s

/-- `WriteReg` (R46) by the acting context at its issue: writes and fills; `x0` discards; a queue port is pushed. -/
def State.writeReg (s : State) (d : Nat) (v : Word) : State :=
  if d = 0 then s
  else if d < 48 then s.modMe (fun c => (c.setX c.inH d { val := v }).usesFile s.now)
  else if d < 56 then s.modCore s.cid (fun k => k.cWrite s.now s.nid (d - 48) (some v) true false)
  else if d < 60 then
    s.modMe (fun c => { c.modOut (d - 56) (fun w => w ++ [v]) with pushes := c.pushes ++ [d - 56] })
  else s

/-- `MarkEmpty` (R46): empty with a deferred result outstanding. -/
def State.markEmpty (s : State) (d : Nat) : State :=
  if d = 0 then s
  else if d < 48 then s.modMe (fun c => c.setX c.inH d { c.xReg c.inH d with full := false, pend := true })
  else if d < 56 then s.modCore s.cid (fun k => k.cWrite s.now s.nid (d - 48) none false true)
  else s

/-- Where a deferred result of scalar register `d` goes (R301: into the bank in force at issue). -/
def State.dstOf (s : State) (d : Nat) : Dst :=
  if d = 0 then .nowhere
  else if d < 48 then .x d (s.me.inH && 40 ≤ d)
  else if d < 56 then .c (d - 48)
  else .nowhere

/-! ### Vector and mask registers -/

def State.vecAt (s : State) (n : VReg) : VecReg := Tbl.get {} s.me.v n.val
def State.vecVal (s : State) (n : VReg) : VWord := (s.vecAt n).val

/-- Every vector source is full (R23). -/
def State.needVec (s : State) : List VReg → Except Stop Unit
  | [] => .ok ()
  | n :: ns => if (s.vecAt n).full then s.needVec ns else .error (.park (.vsource n.val))

/-- No deferred result is outstanding for a vector destination (R24). -/
def State.needVDst (s : State) (n : VReg) : Except Stop Unit :=
  if (s.vecAt n).pend then .error (.park .dest) else .ok ()

def Ctx.setV (c : Ctx) (n : Nat) (r : VecReg) : Ctx := { c with v := Tbl.set {} c.v n r }

/-- `WriteVec` (R46): the bits of `m` are written, and the register is full. -/
def State.writeVec (s : State) (n : Nat) (v m : VWord) : State :=
  s.modMe (fun c => (c.setV n { val := (v &&& m) ||| ((Tbl.get {} c.v n).val &&& ~~~m) }).usesFile s.now)

def State.markVec (s : State) (n : Nat) : State :=
  s.modMe (fun c => c.setV n { Tbl.get {} c.v n with full := false, pend := true })

/-- `ReadMask` (R46, R17): `k0` reads all ones. -/
def State.maskVal (s : State) (k : Nat) : Word := if k = 0 then BitVec.allOnes 64 else Tbl.get 0 s.me.k k

/-- `Mask(i)` (R46). -/
def State.maskBit (s : State) (k : MReg) (i : Nat) : Bool := (s.maskVal k.val).getLsbD i

def State.writeMask (s : State) (k : Nat) (v : Word) : State :=
  if k = 0 then s else s.modMe (fun c => { c with k := Tbl.set 0 c.k k v })

/-! ### The end of an issue -/

/-- The cycle is the scribe's slot and the context is the scribe (R153). -/
def State.scribeSlot (s : State) : Bool :=
  s.tid == 15 && s.now % 16 == 15 && (s.hdrOf s.cid).scribe

/-- The context uses the core's issue slot of this cycle (R151, R152, R153, R413). -/
def State.useSlot (s : State) : State :=
  let rot := if s.scribeSlot then s.myCore.rot else s.tid
  (s.modCore s.cid (fun k => { k with rot, slotAt := s.now + 1 })).modMe (fun c =>
    { c with lastAt := some s.now, parked := none })

/-- The instruction of `len` bytes has issued: the pc stands behind it (R77). -/
def State.retire (s : State) (len : Nat) : State :=
  { (s.modMe (fun c => { c with pc := c.pc + BitVec.ofNat 64 len })).useSlot with last := .issued }

/-- The instruction has issued and the pc stands at a target, bits 1:0 cleared (R29, R106). -/
def State.retireTo (s : State) (target : Word) : State :=
  { (s.modMe (fun c => { c with pc := target &&& ~~~3#64 })).useSlot with last := .issued }

/-- Two waits are one for R335: the same, or at the same port. -/
def Wait.same (v w : Wait) : Bool :=
  match v, w with
  | .queue p o _, .queue q r _ => p == q && o == r
  | _, _ => v == w

/-- The context parks for `w` in a cycle; a wait at one port counts from its first cycle (R335). -/
def Ctx.parkFor (c : Ctx) (w : Wait) (now : Nat) : Ctx :=
  { c with parked := some w, parkAt := if c.parked.any (fun v => v.same w) then c.parkAt else now }

/-- The context parks at its instruction (R154). -/
def State.park (s : State) (w : Wait) : State := { (s.modMe (fun c => c.parkFor w s.now)) with last := .parked }

/-- Gating by the k field (R86): with bit 0 of `kk` clear the instruction only advances the pc. -/
def State.gated (s : State) (k : MReg) (len : Nat) (body : Eff) : Eff :=
  if s.maskBit k 0 then body else .ok (s.retire len)

/-! ### The error token (R195) and the end of a context (R150) -/

/-- Raise the launch's error token with a task number; only the first counts (R195). -/
def State.raiseToken (s : State) (lid task : Nat) : State :=
  match s.launchAt lid with
  | none => s
  | some l =>
    if l.token then s
    else
      let s := s.setLaunch { l with token := true, failt := some task, status := 1 }
      let s := s.modVf l.vf (fun v => VF.irq { v with
        queues := Tbl.set {} v.queues l.queue { Tbl.get {} v.queues l.queue with frozen := true } } 6)
      let cores := ((s.teams.filter (fun t => t.launch == lid && t.onDevice)).map Team.cores).flatten
      s.setNet { s.net with tokens := s.net.tokens ++ cores.map (fun c => { launch := lid, core := c, by_ := s.now + 260 }) }

/-- A core holds a task that it has taken and not ended. Of several it is the one with the lowest number that an error names (DESIGN
CHOICE, log 34: R195 speaks of one). -/
def State.holdsTask (s : State) (core : Nat) : Option (Nat × Nat) :=
  match s.teamOf core with
  | none => none
  | some t => (t.tstate.find? (fun (_, x) => match x with
      | .taken c _ _ => c / 16 == core
      | _ => false)).map (fun (n, _) => (t.launch, n))

/-- End a context with an exit value (R121, R150, R164). A freeze it caused ends (R216, R345). -/
def State.endCtx (s : State) (a : Nat) (v : Word) : State :=
  let s := s.modCtx a (fun c => { c with life := .ended, exitv := v, parked := none, post := .none })
  s.modCore (a / 16) (fun k => if k.frozen == some a then { k with frozen := none } else k)

/-- A trap at F while `fstat`.ktrap = 1: the context ends, the host is told, and a core that holds a taken task raises the
error token (R43, R150, R195). -/
def State.firmwareError (s : State) (a : Nat) (cause : Nat) (val epc : Word) : State :=
  let s := (s.endCtx a (BitVec.allOnes 64)).setPkg
    { s.pkg with fwErrs := s.pkg.fwErrs ++ [(a, cause, val, epc)] }
  match s.holdsTask (a / 16) with
  | some (lid, task) => s.raiseToken lid task
  | none => s

/-! ### Traps (R39-R45) -/

/-- Revoke-on-trap: the entry of context `a` into S or F freezes its core, and its attached slots become HELD (R44, R216). -/
def State.freeze (s : State) (a : Nat) : State :=
  let core := a / 16
  if (s.hdrOf core).traps.getLsbD 6 && (s.coreAt core).frozen.isNone then
    (s.noteSlots core).modCore core (fun k => { k with
      frozen := some a, frzAt := some s.now
      slots := k.slots.map (fun (n, x) => (n, if x.st == .attached then { x with st := .held } else x)) })
  else s

/-- The level that a trap of a context enters (R43): an upcall at U, S, or F. -/
def trapLevel (c : Ctx) (above deleg : Bool) : Priv :=
  if deleg && c.priv == .u then .u
  else if c.priv == .f || c.kstat.ktrap || above then .f
  else .s

/-- Trap entry of the acting context (R43): `epc` is what R39 gives for `kepc`, `cause` carries bit 63 of an interrupt. -/
def State.enterTrap (s : State) (cause val epc : Word) (above deleg : Bool) : State :=
  let c := s.me
  match trapLevel c above deleg with
  | .u => s.setMe { c with uepc := epc, ucause := cause, uval := val, pc := c.uvec &&& ~~~3#64, fetchF := none, sync := s.now + 1, post := .none, irqDue := false }
  | .s =>
    (s.setMe { c with
      ktr := { c.ktr with cause, epc, val }
      kstat := { c.kstat with ppriv := c.priv, pie := c.kstat.ie, ie := false, ktrap := true }
      priv := .s, pc := c.ktr.vec &&& ~~~3#64, fetchF := none, sync := s.now + 1, trapAt := s.now, post := .none, irqDue := false })
  | .f =>
    if c.priv == .f && c.fstat.ktrap then s.firmwareError s.cur cause.toNat val epc
    else
      s.setMe { c with
        ftr := { c.ftr with cause, epc, val }
        fstat := { c.fstat with ppriv := c.priv, pie := c.fstat.ie, ie := false, ktrap := true }
        priv := .f, pc := c.ftr.vec &&& ~~~3#64, fetchF := none, sync := s.now + 1, post := .none, irqDue := false }

/-- Take a trap: entry, the freeze of revoke-on-trap, and the issue slot (R43, R216, R413). -/
def State.takeTrap (s : State) (cause : Nat) (val epc : Word) (above deleg : Bool) : State :=
  let lvl := trapLevel s.me above deleg
  let stops := lvl == .f && s.me.priv == .f && s.me.fstat.ktrap
  let s := s.enterTrap (BitVec.ofNat 64 cause) val epc above deleg
  let s := if lvl == .u || stops then s else s.freeze s.cur
  { s.useSlot with last := .trapped }

/-- Take an interrupt: the entry of a trap with bit 63 of the cause set and value 0, without a freeze (R43, R216). -/
def State.takeInterrupt (s : State) (n : Nat) (epc : Word) : State :=
  { (s.enterTrap (BitVec.ofNat 64 (2 ^ 63 + n)) 0 epc false false).useSlot with last := .trapped }

/-- An operation with accesses that a level's `eret` replays (R42, R275). -/
def Op.replayable (o : Op) (a : Nat) : Bool := o.ctx == a && !o.kind.isVamo && !o.eretAccs.isEmpty

/-- Every part of some accesses is to be performed again, ordered under the kind that the NI now holds (R45, R113, R277, R410);
a strongly ordered one waits for its turn. It is a new issue, with a number of its own. -/
def Op.release (o : Op) (accs : List Nat) (now seq : Nat) (kind : Nat → Option PKind) : Op :=
  { o with
    parts := o.parts.map (fun p =>
      if accs.contains p.acc then
        let q := { p with st := .todo, deleg := false, rep := false, canDel := false, cause := 0, seq, pk := if p.well.isSome then p.pk else kind p.va }
        if o.kind.isMem && q.asSO then { q with st := .wait } else q
      else p)
    replay := true, sent := !o.order.isRel, issued := now, due := now + (o.due - o.issued) }

/-- The monitor of a context that names a line. -/
def Ctx.monOf (c : Ctx) (line : Nat) : Option (Nat × Monitor) := c.mon.find? (fun (_, m) => m.used && m.line == line)

/-- The lowest free monitor. -/
def Ctx.freeMon (c : Ctx) : Option Nat := [0, 1, 2, 3].find? (fun n => !(Tbl.get {} c.mon n).used)

def Ctx.setMon (c : Ctx) (n : Nat) (m : Monitor) : Ctx := { c with mon := Tbl.set {} c.mon n m }

/-- An `arm` of a line, that is not itself waiting for another, has a part that `f` names (R166). -/
def State.armWith (s : State) (a line : Nat) (f : PartSt → Bool) : Bool :=
  s.ops.any (fun o => o.ctx == a && (match o.kind with
    | .arm _ => o.parts.any (fun p => p.va / 256 == line && f p.st)
    | _ => false))

/-- An `arm` of a line is held (R166). -/
def State.armHeld (s : State) (a line : Nat) : Bool := s.armWith a line (fun x => x == .held)

/-- The number that stands for an `arm` of a line whose first `arm` is held: it waits for that one's registration (R166). -/
def armWaits : Nat := 15

/-- A held `arm` whose monitor a `disarm` removed is replayed as a new `arm` (R166, R167). -/
def State.rearm (s : State) (o : Op) : State × Op :=
  match o.kind, o.parts with
  | .arm m, p :: _ =>
    let line := p.va / 256
    let c := s.ctxAt o.ctx
    let mine := Tbl.get {} c.mon m
    let atOnce := fun (n : Nat) => (s, { o with kind := OpKind.arm n, parts := [{ p with st := .done }] })
    if mine.used && mine.op == o.id then (s, o)
    else
      match c.monOf line, c.freeMon with
      | some (n, _), _ => atOnce (if (s.setOp { o with parts := [] }).armHeld o.ctx line then armWaits else n)
      | none, none => atOnce 4
      | none, some n => (s.modCtx o.ctx (fun c => c.setMon n { used := true, op := o.id, line }), { o with kind := .arm n })
  | _, _ => (s, o)

/-- Held accesses of an operation are issued again: entries that they still have in the machine leave it, and they
enter it anew (R251, R252). -/
def State.reissue (s : State) (o : Op) (accs : List Nat) : State :=
  let gone := fun (e : SEntry) => e.op == o.id && ((o.parts[e.part]?).map (fun p => accs.contains p.acc)).getD false
  let (s, r) := s.bumpId.rearm (o.release accs s.now s.nid (s.kindOf (o.ctx / 16)))
  let s := (s.setOp r).setSb (s.sb.filter (fun e => !gone e))
  if r.kind.isStore && r.sent then s.appendEntries r (fun _ p => accs.contains p.acc) else s

/-- The operations with some numbers are issued again, those accesses that `accs` names. -/
def State.reissueAll (s : State) (ids : List Nat) (accs : Op → List Nat) : State :=
  ids.foldl (fun s id =>
    match s.opAt id with
    | none => s
    | some o => s.reissue o (accs o)) s

/-- `ReplayHeld` (R45): the held accesses are issued again in program order. -/
def State.replayHeld (s : State) (a : Nat) : State :=
  s.reissueAll ((s.ops.filter (fun o => o.replayable a)).map (·.id)) Op.eretAccs

/-- `Eret` (R45) at S or F: replay, level, interrupt enable, ktrap and pc; a freeze that this
context caused ends when it returns to U (R216); fetch sees earlier stores (R80). -/
def State.eretCore (s : State) : State :=
  let c0 := s.me
  let st := if c0.priv == .f then c0.fstat else c0.kstat
  let s := if st.late then s.replayHeld s.cur else s
  let c := s.me
  let c :=
    if c.priv == .f then
      { c with priv := c.fstat.ppriv, pc := c.ftr.epc &&& ~~~3#64, fetchF := none, sync := s.now + 1
               fstat := { c.fstat with late := false, ie := c.fstat.pie, ktrap := false } }
    else
      { c with priv := c.kstat.ppriv, pc := c.ktr.epc &&& ~~~3#64, fetchF := none, sync := s.now + 1
               kstat := { c.kstat with late := false, ie := c.kstat.pie, ktrap := false } }
  let s := s.setMe c
  if c.priv == .u then
    s.modCore s.cid (fun k => if k.frozen == some s.cur then { k with frozen := none } else k)
  else s

/-- The accesses of an operation that it counts on its class one by one: its lanes, or the checks of `verchk` (R111, R141). -/
def Op.accs (o : Op) : List Nat := ((o.parts.filter (fun p => p.st != .gone)).map (·.acc)).eraseDups

/-- How much an operation still counts on its class. -/
def Op.weight (o : Op) : Nat :=
  match o.kind with
  | .lanes _ | .store | .verchk => o.accs.length - o.acked.length
  | _ => 1

/-- A destination that stays empty, its result no longer outstanding (R22, R31). -/
def State.abandon (s : State) (a by_ : Nat) (o : Out) : State :=
  match o.dst with
  | .nowhere => s
  | .x n shadow => s.modCtx a (fun c => c.setX shadow n { c.xReg shadow n with pend := false })
  | .c n => s.modCore (a / 16) (fun k => k.cWrite s.now by_ n none false false)
  | .v n _ => s.modCtx a (fun c => c.setV n { Tbl.get {} c.v n with pend := false })

/-- The monitor that a held `arm` reserved is free once nothing can register it (R31, R166; DEDUCED). -/
def Ctx.freeMonOf (c : Ctx) (o : Op) : Ctx :=
  match o.kind with
  | .arm m =>
    let x := Tbl.get {} c.mon m
    if x.used && !x.reg && x.op == o.id then c.setMon m {} else c
  | _ => c

/-- Some accesses of an operation are discarded: they are never performed, and its registers stay empty (R31). Its other
accesses go on. -/
def Op.discard (o : Op) (accs : List Nat) : Op :=
  { o with parts := o.parts.map (fun p => if accs.contains p.acc then { p with st := .gone } else p), outs := [] }

/-- The held accesses of one operation are discarded, and its count falls by them (R31, R111). -/
def State.discardOp (s : State) (o : Op) : State :=
  let accs := o.eretAccs
  let s := (o.outs.foldl (fun s d => s.abandon o.ctx o.id d) s).modCtx o.ctx (fun c => c.freeMonOf o)
  let s := match o.kind.cls with
    | some c => if o.cnts then s.countDown o.ctx c accs.length else s
    | none => s
  let r := o.discard accs
  let s := s.setSb (s.sb.filter (fun e => !(e.op == o.id && ((o.parts[e.part]?).map (fun p => accs.contains p.acc)).getD false)))
  if r.parts.all (fun p => p.st == .gone) then s.dropOp o.id else s.setOp r

/-- Writing 0 to a late bit discards every held access of the context (R31). An access that awaits the host is not among them:
no late bit is set for it (R275; DEDUCED, log 58). -/
def State.discardHeld (s : State) (a : Nat) : State := (s.ops.filter (fun o => o.replayable a)).foldl State.discardOp s

/-! ### What an instruction comes to -/

/-- A context that its trap has ended stands behind the instruction, of `len` bytes, that trapped (R150, R365). -/
def State.endedPast (s : State) (len : Nat) : State :=
  if s.me.life == .ended then s.modMe (fun c => { c with pc := c.pc + BitVec.ofNat 64 len }) else s

/-- The outcome of an instruction: its effect, a park, or the trap it raises at issue, which changes nothing else (R41). -/
def State.finish (s : State) (len : Nat) (r : Eff) : Host.Outcome State Fault Refusal :=
  match r with
  | .ok t => .next t
  | .error (.park w) => .next (s.park w)
  | .error (.trap c v next) =>
    .next ((s.takeTrap c v (if next then s.me.pc + BitVec.ofNat 64 len else s.me.pc) false false).endedPast len)

/-- Wake latencies (R161). -/
def wakeTime (depth : Nat) : Nat := if depth = 0 then 2 else if depth = 1 then 40 else 400

/-- A wake begins (R161); one that runs is not started again (R197). -/
def Core.wake (k : Core) (now : Nat) : Core :=
  match k.sleep with
  | .asleep d => { k with sleep := .waking (now + wakeTime d) }
  | _ => k

/-- A write that reaches a core's register file: a sleeping core wakes, and the core keeps the write and applies it when the
wake ends (R161, R197). -/
def State.awakeFor (s : State) (core : Nat) (e : Arr) (r : Option State) : Option State :=
  let k := s.coreAt core
  if k.sleep == .awake then r
  else if k.late.contains e then none
  else r.map (fun _ => s.setCore core { k.wake s.now with late := k.late ++ [e] })

/-- An event: its effect, or no change where it is not able to happen. -/
def State.fired (s : State) (r : Option State) : Host.Outcome State Fault Refusal := .next (r.getD s)

/-- The 64 low bits of an instruction, for `kval` of causes 0x01 and 0x0F (R39). -/
def lowBits (w : Option (BitVec 128)) : Word :=
  match w with
  | some x => x.setWidth 64
  | none => 0

end Sys2Proof.Machine
end

