-- ==== Sys2Proof/Machine/Flags.lean ====
section
/-!
DEFINITION. `fpcsr` (R32): its fields, the adding of flags (R58, R59), and the precise floating-point trap (R60). Integer
arithmetic has no flags (R48).
-/

namespace Sys2Proof.Machine

/-- The rounding mode, bits 1:0 of `fpcsr` (R32). -/
def Ctx.rm (c : Ctx) : Rm := c.fpcsr.extractLsb' 0 2
/-- Flush to zero, bit 2. -/
def Ctx.ftz (c : Ctx) : Bool := c.fpcsr.getLsbD 2
/-- The sticky flags, bits 7:3. -/
def Ctx.fflags (c : Ctx) : Flags := c.fpcsr.extractLsb' 3 5
/-- The trap enables, bits 12:8. -/
def Ctx.fen (c : Ctx) : Flags := c.fpcsr.extractLsb' 8 5
/-- Divide by zero traps, bit 16. -/
def Ctx.idz (c : Ctx) : Bool := c.fpcsr.getLsbD 16

/-- Add flags; they are sticky (R32). -/
def Ctx.raise (c : Ctx) (f : Flags) : Ctx := { c with fpcsr := c.fpcsr ||| (f.setWidth 64 <<< 3) }

/-- The writable bits of `fpcsr` (R32). -/
def fpcsrMask : Word := 0x11FFF

/-- The initial `fpcsr` of a context: the enables and `idz` of the header's traps field (R20, R173). -/
def fpcsrInit (traps : BitVec 32) : Word :=
  ((traps.extractLsb' 1 5).setWidth 64 <<< 8) ||| ((traps.extractLsb' 0 1).setWidth 64 <<< 16)

/-- A floating-point instruction of the context has not delivered its result (R59, R60). -/
def State.fpBusy (s : State) (a : Nat) : Bool := s.ops.any (fun o => o.ctx == a && o.fp)

/-- The instruction raises a flag that is enabled (R60). -/
def State.fpTraps (s : State) (f : Flags) : Bool := (f &&& s.me.fen) != 0

/-- The trap of R60: cause 0x06, with every flag the instruction would raise. -/
def fpTrap (f : Flags) : Stop := .trap 0x06 (f.setWidth 64)

end Sys2Proof.Machine
end

