-- ==== Sys2Proof/Machine/Operands.lean ====
section
/-!
DEFINITION. The operand forms: scalar register and immediate forms (R97), deferred results (R22, R96), lanes and masks
of vector registers (R123-R126).
-/

namespace Sys2Proof.Machine

/-! ### Deferred results and queue pops (R22) -/

/-- A computed result that arrives `lat` cycles after the issue (R22, R46): the operation enters the machine. -/
def State.deferOuts (s : State) (outs : List Out) (fl : Flags) (fp : Bool) (lat : Nat) : State :=
  s.launchOp { id := 0, ctx := s.cur, kind := .alu, priv := s.me.priv, outs, flags := fl, fp, cnts := false } 0 (s.now + lat)

/-- A deferred scalar result of an integer operation (R96, R98). -/
def State.deferS (s : State) (d : SReg) (v : Word) (lat : Nat) : State :=
  (s.markEmpty d.val).deferOuts [{ dst := s.dstOf d.val, val := v.setWidth 512 }] 0 false lat

/-- Some source is a queue port. -/
def pops (ns : List SReg) : Bool := ns.any (fun n => 56 ≤ n.val && n.val < 60)

/-- Cycles from issue to the result of a queue pop, which R96 does not state (DESIGN CHOICE, log 62). -/
def popLat : Nat := 1

/-- The result `v` of an instruction with the scalar sources `ns`, which are popped: written at issue, but deferred where a queue was
popped into an `x` register (R22). -/
def State.putResult (s : State) (ns : List SReg) (d : SReg) (v : Word) : State :=
  if pops ns && 0 < d.val && d.val < 48 then (s.popSrc ns).deferS d v popLat else (s.popSrc ns).writeReg d.val v

/-- The result of a vector instruction with the scalar sources `ns`: as of a scalar one (R22). -/
def State.putVec (s : State) (ns : List SReg) (d : VReg) (v m : VWord) : State :=
  if pops ns then ((s.popSrc ns).markVec d.val).deferOuts [{ dst := .v d.val m, val := v }] 0 false popLat
  else (s.popSrc ns).writeVec d.val v m

/-! ### Scalar forms -/

/-- `op d, a, b`: read both, write before the next issue (R97). -/
def State.opRR (s : State) (k : MReg) (d a b : SReg) (f : Word → Word → Word) : Eff :=
  s.gated k 8 do
    s.needSrc [a, b]
    s.needDst d.val
    .ok ((s.putResult [a, b] d (f (s.regVal a) (s.regVal b))).retire 8)

/-- `op d, a, imm` (R97). -/
def State.opRI (s : State) (k : MReg) (d a : SReg) (i : Imm) (f : Word → Word → Word) : Eff :=
  s.gated k i.bytes do
    s.needSrc [a]
    s.needDst d.val
    .ok ((s.putResult [a] d (f (s.regVal a) i.value)).retire i.bytes)

/-- `op d, a`: one source (R101). -/
def State.opR (s : State) (k : MReg) (d a : SReg) (f : Word → Word) : Eff :=
  s.gated k 8 do
    s.needSrc [a]
    s.needDst d.val
    .ok ((s.putResult [a] d (f (s.regVal a))).retire 8)

/-- A deferred operation on two registers (R98). `chk` gives the trap it raises at issue. -/
def State.opRRd (s : State) (k : MReg) (d a b : SReg) (lat : Nat) (chk : Word → Option Stop) (f : Word → Word → Word) : Eff :=
  s.gated k 8 do
    s.needSrc [a, b]
    s.needDst d.val
    match chk (s.regVal b) with
    | some e => .error e
    | none => .ok (((s.popSrc [a, b]).deferS d (f (s.regVal a) (s.regVal b)) lat).retire 8)

/-- A deferred operation on a register and an immediate (R98). -/
def State.opRId (s : State) (k : MReg) (d a : SReg) (i : Imm) (lat : Nat) (chk : Word → Option Stop)
    (f : Word → Word → Word) : Eff :=
  s.gated k i.bytes do
    s.needSrc [a]
    s.needDst d.val
    match chk i.value with
    | some e => .error e
    | none => .ok (((s.popSrc [a]).deferS d (f (s.regVal a) i.value) lat).retire i.bytes)

/-! ### Lanes (R123, R124) -/

/-- Lane `i` of width `w`. -/
def laneOf (v : VWord) (w i : Nat) : Nat := (v.toNat >>> (w * i)) % 2 ^ w

/-- The lanes of width `w`. -/
def lanesOf (v : VWord) (w : Nat) : List Nat := (List.range (512 / w)).map (laneOf v w)

/-- Lanes packed from lane 0 upward. -/
def packNat (w : Nat) : List Nat → Nat
  | [] => 0
  | x :: xs => x % 2 ^ w + 2 ^ w * packNat w xs

def packLanes (w : Nat) (xs : List Nat) : VWord := BitVec.ofNat 512 (packNat w xs)

/-- The bits of the lanes that the k field leaves active (R124). -/
def State.laneMask (s : State) (k : MReg) (w : Nat) : VWord :=
  packLanes w ((List.range (512 / w)).map (fun i => if s.maskBit k i then 2 ^ w - 1 else 0))

/-- All bits. -/
def allBits : VWord := BitVec.allOnes 512

/-- The lanes of a lane-wise operation: value and the union of the flags of the active lanes (R59). -/
def State.mapLanes (s : State) (k : MReg) (w : Nat) (f : Nat → Nat × Flags) : VWord × Flags :=
  let rs := (List.range (512 / w)).map (fun i => if s.maskBit k i then f i else (0, 0))
  (packLanes w (rs.map (·.1)), rs.foldl (fun a r => a ||| r.2) 0)

/-- The second source of a binary vector instruction: a vector register, or a scalar in every lane (R127). -/
inductive VSrc where
  | v (b : VReg)
  | x (b : SReg)
  deriving DecidableEq, Repr

def VSrc.vecs : VSrc → List VReg
  | .v b => [b]
  | .x _ => []

def VSrc.regs : VSrc → List SReg
  | .v _ => []
  | .x b => [b]

/-- Lane `i` of the second source (R127). -/
def State.srcLane (s : State) (w : Nat) : VSrc → Nat → Nat
  | .v b, i => laneOf (s.vecVal b) w i
  | .x b, _ => (s.regVal b).toNat % 2 ^ w

/-- A vector operation that writes before the next issue (R126). -/
def State.vecNow (s : State) (k : MReg) (w : Nat) (d : VReg) (vs : List VReg) (xs : List SReg) (f : Nat → Nat) : Eff := do
  s.needSrc xs
  s.needVec vs
  s.needVDst d
  let r := (s.mapLanes k w (fun i => (f i, 0))).1
  .ok ((s.putVec xs d r (s.laneMask k w)).retire 8)

/-- A vector operation whose result arrives later (R25, R126); a floating-point one obeys R59 and R60. -/
def State.vecLater (s : State) (k : MReg) (w : Nat) (d : VReg) (vs : List VReg) (xs : List SReg) (fp : Bool) (lat : Nat)
    (f : Nat → Nat × Flags) : Eff := do
  s.needSrc xs
  s.needVec vs
  s.needVDst d
  let (r, fl) := s.mapLanes k w f
  if fp && s.fpTraps fl then .error (fpTrap fl)
  else
    .ok ((((s.popSrc xs).markVec d.val).deferOuts [{ dst := .v d.val (s.laneMask k w), val := r }] fl fp lat).retire 8)

end Sys2Proof.Machine
end

