-- ==== Sys2Proof/Machine/Scalar.lean ====
section
/-!
DEFINITION. Integer operations, multiply and divide, compares, counts, extensions, bit fields, select, constants and
addresses (R97-R105).
-/

namespace Sys2Proof.Machine

abbrev Out1 := Host.Outcome State Fault Refusal

/-- Shift left by y[5:0] (R97). -/
def shlW (x y : Word) : Word := x <<< (y.toNat % 64)
/-- Shift right by y[5:0], zeros entering (R97). -/
def shrW (x y : Word) : Word := x >>> (y.toNat % 64)
/-- Shift right by y[5:0], copies of bit 63 entering (R97). -/
def sraW (x y : Word) : Word := x.sshiftRight (y.toNat % 64)
/-- The smaller, as s64 or z64 (R97). -/
def minW (sg : Sign) (x y : Word) : Word :=
  match sg with
  | .s => if x.slt y then x else y
  | .z => if x.ult y then x else y
/-- The larger, as s64 or z64 (R97). -/
def maxW (sg : Sign) (x y : Word) : Word :=
  match sg with
  | .s => if x.slt y then y else x
  | .z => if x.ult y then y else x
/-- High 64 bits of the product (R98). -/
def mulhW (sg : Sign) (x y : Word) : Word :=
  match sg with
  | .s => BitVec.ofInt 64 (x.toInt * y.toInt / 2 ^ 64)
  | .z => BitVec.ofNat 64 (x.toNat * y.toNat / 2 ^ 64)
/-- Quotient, with the two corners of R99. -/
def divW (sg : Sign) (x y : Word) : Word :=
  if y = 0 then BitVec.allOnes 64
  else
    match sg with
    | .s => x.sdiv y
    | .z => x.udiv y
/-- Remainder, with the two corners of R99. -/
def remW (sg : Sign) (x y : Word) : Word :=
  if y = 0 then x
  else
    match sg with
    | .s => x.srem y
    | .z => x.umod y
/-- 1 where a condition holds, else 0 (R100). -/
def boolW (b : Bool) : Word := if b then 1 else 0
def sltW (x y : Word) : Word := boolW (x.slt y)
def sltuW (x y : Word) : Word := boolW (x.ult y)
def seqW (x y : Word) : Word := boolW (x == y)
def sneW (x y : Word) : Word := boolW (x != y)
/-- Zero bits above the highest set bit; 64 for 0 (R101). -/
def clzW (x : Word) : Word := if x = 0 then 64 else BitVec.ofNat 64 (63 - Nat.log2 x.toNat)
/-- Zero bits below the lowest set bit of the first `n`; `n` where none is set. -/
def ctzFrom (x : Word) : Nat → Nat → Nat
  | 0, i => i
  | n + 1, i => if x.getLsbD i then i else ctzFrom x n (i + 1)
def ctzW (x : Word) : Word := BitVec.ofNat 64 (ctzFrom x 64 0)
/-- The number of set bits (R101). -/
def popcW (x : Word) : Word := BitVec.ofNat 64 ((List.range 64).countP (fun i => x.getLsbD i))
/-- Sign extension of the low bits (R101). -/
def sextW (w : ExtW) (x : Word) : Word := (x.setWidth w.bits).signExtend 64
/-- Zero extension of the low bits (R101). -/
def zextW (w : ExtW) (x : Word) : Word := (x.setWidth w.bits).setWidth 64
/-- The field of `x` from bit `pos`, `wm1 + 1` bits wide (R102). -/
def bfxW (sg : Sign) (pos wm1 : Fin 64) (x : Word) : Word :=
  let f := x.extractLsb' pos.val (wm1.val + 1)
  match sg with
  | .s => f.signExtend 64
  | .z => f.setWidth 64
/-- `x` with that field replaced by the low bits of `y` (R102). -/
def bfiW (pos wm1 : Fin 64) (x y : Word) : Word :=
  let m : Word := ((BitVec.allOnes (wm1.val + 1)).setWidth 64) <<< pos.val
  (x &&& ~~~m) ||| ((y <<< pos.val) &&& m)

/-- Division by zero traps with cause 0x05 where `idz` is set (R99). -/
def State.divTrap (s : State) (y : Word) : Option Stop :=
  if y == 0 && s.me.idz then some (.trap 0x05 0) else none

/-- `add` (R97). -/
def execAdd (k : MReg) (d a b : SReg) (s : State) : Out1 := s.finish 8 (s.opRR k d a b (· + ·))
/-- `add` with an immediate (R97). -/
def execAddImm (k : MReg) (d a : SReg) (imm : Imm) (s : State) : Out1 := s.finish imm.bytes (s.opRI k d a imm (· + ·))
/-- `sub` (R97). -/
def execSub (k : MReg) (d a b : SReg) (s : State) : Out1 := s.finish 8 (s.opRR k d a b (· - ·))
/-- `sub` with an immediate (R97). -/
def execSubImm (k : MReg) (d a : SReg) (imm : Imm) (s : State) : Out1 := s.finish imm.bytes (s.opRI k d a imm (· - ·))
/-- `and` (R97). -/
def execAnd (k : MReg) (d a b : SReg) (s : State) : Out1 := s.finish 8 (s.opRR k d a b (· &&& ·))
/-- `and` with an immediate (R97). -/
def execAndImm (k : MReg) (d a : SReg) (imm : Imm) (s : State) : Out1 := s.finish imm.bytes (s.opRI k d a imm (· &&& ·))
/-- `or` (R97). -/
def execOr (k : MReg) (d a b : SReg) (s : State) : Out1 := s.finish 8 (s.opRR k d a b (· ||| ·))
/-- `or` with an immediate (R97). -/
def execOrImm (k : MReg) (d a : SReg) (imm : Imm) (s : State) : Out1 := s.finish imm.bytes (s.opRI k d a imm (· ||| ·))
/-- `xor` (R97). -/
def execXor (k : MReg) (d a b : SReg) (s : State) : Out1 := s.finish 8 (s.opRR k d a b (· ^^^ ·))
/-- `xor` with an immediate (R97). -/
def execXorImm (k : MReg) (d a : SReg) (imm : Imm) (s : State) : Out1 := s.finish imm.bytes (s.opRI k d a imm (· ^^^ ·))
/-- `shl` (R97). -/
def execShl (k : MReg) (d a b : SReg) (s : State) : Out1 := s.finish 8 (s.opRR k d a b shlW)
/-- `shl` with an immediate (R97). -/
def execShlImm (k : MReg) (d a : SReg) (imm : Imm) (s : State) : Out1 := s.finish imm.bytes (s.opRI k d a imm shlW)
/-- `shr` (R97). -/
def execShr (k : MReg) (d a b : SReg) (s : State) : Out1 := s.finish 8 (s.opRR k d a b shrW)
/-- `shr` with an immediate (R97). -/
def execShrImm (k : MReg) (d a : SReg) (imm : Imm) (s : State) : Out1 := s.finish imm.bytes (s.opRI k d a imm shrW)
/-- `sra` (R97). -/
def execSra (k : MReg) (d a b : SReg) (s : State) : Out1 := s.finish 8 (s.opRR k d a b sraW)
/-- `sra` with an immediate (R97). -/
def execSraImm (k : MReg) (d a : SReg) (imm : Imm) (s : State) : Out1 := s.finish imm.bytes (s.opRI k d a imm sraW)
/-- `min` (R97). -/
def execMin (k : MReg) (sg : Sign) (d a b : SReg) (s : State) : Out1 := s.finish 8 (s.opRR k d a b (minW sg))
/-- `min` with an immediate (R97). -/
def execMinImm (k : MReg) (sg : Sign) (d a : SReg) (imm : Imm) (s : State) : Out1 := s.finish imm.bytes (s.opRI k d a imm (minW sg))
/-- `max` (R97). -/
def execMax (k : MReg) (sg : Sign) (d a b : SReg) (s : State) : Out1 := s.finish 8 (s.opRR k d a b (maxW sg))
/-- `max` with an immediate (R97). -/
def execMaxImm (k : MReg) (sg : Sign) (d a : SReg) (imm : Imm) (s : State) : Out1 := s.finish imm.bytes (s.opRI k d a imm (maxW sg))
/-- `mul` (R98). -/
def execMul (k : MReg) (d a b : SReg) (s : State) : Out1 :=
  s.finish 8 (s.opRRd k d a b 8 (fun _ => none) (· * ·))
/-- `mul` with an immediate (R98). -/
def execMulImm (k : MReg) (d a : SReg) (imm : Imm) (s : State) : Out1 :=
  s.finish imm.bytes (s.opRId k d a imm 8 (fun _ => none) (· * ·))
/-- `mulh` (R98). -/
def execMulh (k : MReg) (sg : Sign) (d a b : SReg) (s : State) : Out1 :=
  s.finish 8 (s.opRRd k d a b 8 (fun _ => none) (mulhW sg))
/-- `mulh` with an immediate (R98). -/
def execMulhImm (k : MReg) (sg : Sign) (d a : SReg) (imm : Imm) (s : State) : Out1 :=
  s.finish imm.bytes (s.opRId k d a imm 8 (fun _ => none) (mulhW sg))
/-- `div` (R98, R99). -/
def execDiv (k : MReg) (sg : Sign) (d a b : SReg) (s : State) : Out1 :=
  s.finish 8 (s.opRRd k d a b 32 s.divTrap (divW sg))
/-- `div` with an immediate (R98, R99). -/
def execDivImm (k : MReg) (sg : Sign) (d a : SReg) (imm : Imm) (s : State) : Out1 :=
  s.finish imm.bytes (s.opRId k d a imm 32 s.divTrap (divW sg))
/-- `rem` (R98, R99). -/
def execRem (k : MReg) (sg : Sign) (d a b : SReg) (s : State) : Out1 :=
  s.finish 8 (s.opRRd k d a b 32 s.divTrap (remW sg))
/-- `rem` with an immediate (R98, R99). -/
def execRemImm (k : MReg) (sg : Sign) (d a : SReg) (imm : Imm) (s : State) : Out1 :=
  s.finish imm.bytes (s.opRId k d a imm 32 s.divTrap (remW sg))
/-- `slt` (R100). -/
def execSlt (k : MReg) (d a b : SReg) (s : State) : Out1 := s.finish 8 (s.opRR k d a b sltW)
/-- `slt` with an immediate (R100). -/
def execSltImm (k : MReg) (d a : SReg) (imm : Imm) (s : State) : Out1 := s.finish imm.bytes (s.opRI k d a imm sltW)
/-- `sltu` (R100). -/
def execSltu (k : MReg) (d a b : SReg) (s : State) : Out1 := s.finish 8 (s.opRR k d a b sltuW)
/-- `sltu` with an immediate (R100). -/
def execSltuImm (k : MReg) (d a : SReg) (imm : Imm) (s : State) : Out1 := s.finish imm.bytes (s.opRI k d a imm sltuW)
/-- `seq` (R100). -/
def execSeq (k : MReg) (d a b : SReg) (s : State) : Out1 := s.finish 8 (s.opRR k d a b seqW)
/-- `seq` with an immediate (R100). -/
def execSeqImm (k : MReg) (d a : SReg) (imm : Imm) (s : State) : Out1 := s.finish imm.bytes (s.opRI k d a imm seqW)
/-- `sne` (R100). -/
def execSne (k : MReg) (d a b : SReg) (s : State) : Out1 := s.finish 8 (s.opRR k d a b sneW)
/-- `sne` with an immediate (R100). -/
def execSneImm (k : MReg) (d a : SReg) (imm : Imm) (s : State) : Out1 := s.finish imm.bytes (s.opRI k d a imm sneW)
/-- `clz` (R101). -/
def execClz (k : MReg) (d a : SReg) (s : State) : Out1 := s.finish 8 (s.opR k d a clzW)
/-- `ctz` (R101). -/
def execCtz (k : MReg) (d a : SReg) (s : State) : Out1 := s.finish 8 (s.opR k d a ctzW)
/-- `popc` (R101). -/
def execPopc (k : MReg) (d a : SReg) (s : State) : Out1 := s.finish 8 (s.opR k d a popcW)
/-- `sext` (R101). -/
def execSext (k : MReg) (w : ExtW) (d a : SReg) (s : State) : Out1 := s.finish 8 (s.opR k d a (sextW w))
/-- `zext` (R101). -/
def execZext (k : MReg) (w : ExtW) (d a : SReg) (s : State) : Out1 := s.finish 8 (s.opR k d a (zextW w))
/-- `bfx` (R102). -/
def execBfx (k : MReg) (sg : Sign) (d a : SReg) (pos wm1 : Fin 64) (s : State) : Out1 :=
  s.finish 8 (s.opR k d a (bfxW sg pos wm1))
/-- `bfi` (R102). -/
def execBfi (k : MReg) (d a b : SReg) (pos wm1 : Fin 64) (s : State) : Out1 :=
  s.finish 8 (s.opRR k d a b (bfiW pos wm1))

/-- `sel`: reads all three sources, pops each queue port among them, and writes a where c is not zero, else b (R103). -/
def execSel (k : MReg) (d a b c : SReg) (s : State) : Out1 :=
  s.finish 8 (s.gated k 8 do
    s.needSrc [a, b, c]
    s.needDst d.val
    let v := if s.regVal c != 0 then s.regVal a else s.regVal b
    .ok ((s.putResult [a, b, c] d v).retire 8))

/-- `li` (R104). -/
def execLi (k : MReg) (d : SReg) (imm : Imm) (s : State) : Out1 :=
  s.finish imm.bytes (s.gated k imm.bytes do
    s.needDst d.val
    .ok ((s.writeReg d.val imm.value).retire imm.bytes))

/-- `lea`: the address of the instruction plus a byte count (R105). -/
def execLea (k : MReg) (d : SReg) (off : BitVec 32) (s : State) : Out1 :=
  s.finish 12 (s.gated k 12 do
    s.needDst d.val
    .ok ((s.writeReg d.val (s.me.pc + off.signExtend 64)).retire 12))

end Sys2Proof.Machine
end

