-- ==== Sys2Proof/Machine/Control.lean ====
section
/-!
DEFINITION. Branches, jumps and loops (R106, R107).
-/

namespace Sys2Proof.Machine

/-- The target of a control transfer: `Here` + 4 × the immediate (R83, R106). -/
def State.target (s : State) (imm : Imm) : Word := s.me.pc + 4 * imm.value

/-- The address of the next instruction (R77). -/
def State.nextPc (s : State) (len : Nat) : Word := s.me.pc + BitVec.ofNat 64 len

/-- The end of a control transfer: taken to its target, or on to the next instruction (R106). -/
def State.branch (s : State) (taken : Bool) (t : Word) (len : Nat) : State :=
  if taken then s.retireTo t else s.retire len

/-- The condition of `b.cc` (R106). -/
def ccHolds (cc : Cc) (x y : Word) : Bool :=
  match cc with
  | .eq => x == y
  | .ne => x != y
  | .lt => x.slt y
  | .ge => !(x.slt y)
  | .ltu => x.ult y
  | .geu => !(x.ult y)

/-- `b.cc` (R106). -/
def execBcc (k : MReg) (cc : Cc) (a b : SReg) (imm : Imm) (s : State) : Out1 :=
  s.finish imm.bytes (s.gated k imm.bytes do
    s.needSrc [a, b]
    .ok ((s.popSrc [a, b]).branch (ccHolds cc (s.regVal a) (s.regVal b)) (s.target imm) imm.bytes))

/-- `j` (R106). -/
def execJ (k : MReg) (imm : Imm) (s : State) : Out1 :=
  s.finish imm.bytes (s.gated k imm.bytes (.ok (s.retireTo (s.target imm))))

/-- `jal`: the return address goes to d (R77, R106). -/
def execJal (k : MReg) (d : SReg) (imm : Imm) (s : State) : Out1 :=
  s.finish imm.bytes (s.gated k imm.bytes do
    s.needDst d.val
    .ok ((s.writeReg d.val (s.nextPc imm.bytes)).retireTo (s.target imm)))

/-- `jr`: a is read before d is written (R106). -/
def execJr (k : MReg) (d a : SReg) (s : State) : Out1 :=
  s.finish 8 (s.gated k 8 do
    s.needSrc [a]
    s.needDst d.val
    .ok (((s.popSrc [a]).writeReg d.val (s.nextPc 8)).retireTo (s.regVal a)))

/-- `loop`: counts d down and branches until it reads 0 (R106, R107). -/
def execLoop (k : MReg) (d : SReg) (imm : Imm) (s : State) : Out1 :=
  s.finish imm.bytes (s.gated k imm.bytes do
    s.needSrc [d]
    let n := s.regVal d - 1
    .ok ((s.writeReg d.val n).branch (n != 0) (s.target imm) imm.bytes))

/-- A fill word (R78): fetch moves on 4 bytes; no issue slot is taken and nothing else changes. -/
def execFillWord (_bits : BitVec 30) (s : State) : Out1 := .next (s.modMe (fun c => { c with pc := c.pc + 4 }))

end Sys2Proof.Machine
end

