-- ==== Sys2Proof/Machine/LoadStore.lean ====
section
/-!
DEFINITION. Loads, stores and line maintenance (R109-R115). What an access does when it is performed stands with the
events of the memory.
-/

namespace Sys2Proof.Machine

/-- The bytes of a read, before they are read. -/
def readBytes (n : Nat) : List (Option Byte) := List.replicate n (some 0)

/-- The bytes of a value to be stored (R6, R110). -/
def valueBytes (n : Nat) (v : Nat) : List (Option Byte) := (toBytes n v).map some

/-- An access that begins below 2^52 and ends above meets the check of its own first: an address whose bits 63:52 are zero does not
raise cause 0x0B for `ld.acq` and `st.rel`, and there it is misaligned (R232). -/
def checkEnd (ea : Word) (size : Nat) (chk : Word → Except Stop Unit) : Except Stop Unit :=
  if ea.toNat < 2 ^ 52 && 2 ^ 52 < ea.toNat + size then chk ea else .ok ()

/-- A load of `size` bytes at `ea` (R109, R241): checks at issue, the destination empty, one on `ld`. -/
def State.loadOp (s : State) (k : MReg) (len : Nat) (d a : SReg) (disp : Word) (size : Nat) (sx : Bool) (ord : Order)
    (sc : Scope) (chk : Word → Except Stop Unit) : Eff :=
  s.gated k len do
    s.needSrc [a]
    s.needDst d.val
    let ea := s.regVal a + disp
    checkEnd ea size chk
    let pl ← checkLocal s s.cid s.me.priv ea size false
    chk ea
    let ps := s.partsAt s.cid 0 pl ea 0 (readBytes size)
    s.mayAccess s.cur .ld 1 ps
    .ok ((((s.popSrc [a]).markEmpty d.val).launchOp
      { id := 0, ctx := s.cur, kind := .load sx, priv := s.me.priv, order := ord, scope := sc, parts := ps,
        outs := [{ dst := s.dstOf d.val }], size } 1 (s.now + s.opLat s.cid ps)).retire len)

/-- A store of the low `size` bytes of b at `ea` (R110, R241): the data is read now, one on `st`; a release is sent at
once when nothing holds it back (R233). -/
def State.storeOp (s : State) (k : MReg) (len : Nat) (a b : SReg) (disp : Word) (size : Nat) (ord : Order) (sc : Scope)
    (chk : Word → Except Stop Unit) : Eff :=
  s.gated k len do
    s.needSrc [a, b]
    let ea := s.regVal a + disp
    checkEnd ea size chk
    let pl ← checkLocal s s.cid s.me.priv ea size true
    chk ea
    let ps := s.partsAt s.cid 0 pl ea 0 (valueBytes size (s.regVal b).toNat)
    s.mayAccess s.cur .st 1 ps
    let sent := !ord.isRel || s.orderedTo s.cur s.nid sc false
    .ok (((s.popSrc [a, b]).launchOp
      { id := 0, ctx := s.cur, kind := .store, priv := s.me.priv, order := ord, scope := sc, sent, parts := ps, size }
      1 (s.now + s.opLat s.cid ps)).retire len)

/-- No further check. -/
def noCheck (_ : Word) : Except Stop Unit := .ok ()

/-- `ld` (R109). -/
def execLd (k : MReg) (sz : Size) (sx : Bool) (d a : SReg) (imm : Imm) (s : State) : Out1 :=
  s.finish imm.bytes (s.loadOp k imm.bytes d a imm.value sz.bytes sx .relaxed .ctx noCheck)

/-- `st` (R110). -/
def execSt (k : MReg) (sz : Size) (a b : SReg) (imm : Imm) (s : State) : Out1 :=
  s.finish imm.bytes (s.storeOp k imm.bytes a b imm.value sz.bytes .relaxed .ctx noCheck)

/-- The part that names the line of an address and carries no byte (R115, R251). -/
def State.linePart (s : State) (ea : Word) : Part :=
  let va := s.relocate s.cid ea.toNat
  { acc := 0, va, dst := 0, data := [], win := inWindow ea.toNat, pk := s.kindOf s.cid va }

/-- The checks of a line's address: as a one-byte store, and every local address traps (R115). -/
def checkLine (ea : Word) : Except Stop Unit :=
  if 2 ^ 52 ≤ ea.toNat then .error (.trap 0x0B ea)
  else if ea.toNat < 0x100000000 then .error (.trap 0x08 ea)
  else .ok ()

/-- `wb` and `inv` enter the machine as one entry without bytes, and count on `st` (R115, R251). -/
def State.lineOp (s : State) (k : MReg) (a : SReg) (disp : Word) (kind : OpKind) : Eff :=
  s.gated k 8 do
    s.needSrc [a]
    let ea := s.regVal a + disp
    checkLine ea
    let p := s.linePart ea
    s.mayAccess s.cur .st 1 [p]
    .ok (((s.popSrc [a]).launchOp { id := 0, ctx := s.cur, kind, priv := s.me.priv, parts := [p] } 1
      (s.now + s.globalLat s.cid p.va)).retire 8)

/-- `pf`: a request to the home slice, without a check or a count; an address that cannot be a global one is dropped (R115). -/
def execPf (k : MReg) (a : SReg) (imm : BitVec 18) (s : State) : Out1 :=
  s.finish 8 (s.gated k 8 do
    s.needSrc [a]
    let ea := s.regVal a + imm.signExtend 64
    let t := s.popSrc [a]
    match checkLine ea with
    | .error _ => .ok (t.retire 8)
    | .ok () =>
      .ok ((t.launchOp { id := 0, ctx := s.cur, kind := .pf, priv := s.me.priv, parts := [s.linePart ea] } 0
        (s.now + s.globalLat s.cid (s.linePart ea).va)).retire 8))

/-- `wb` (R115). -/
def execWb (k : MReg) (a : SReg) (imm : BitVec 18) (s : State) : Out1 := s.finish 8 (s.lineOp k a (imm.signExtend 64) .wb)
/-- `inv` (R115). -/
def execInv (k : MReg) (a : SReg) (imm : BitVec 18) (s : State) : Out1 := s.finish 8 (s.lineOp k a (imm.signExtend 64) .inv)

end Sys2Proof.Machine
end

