-- ==== Sys2Proof/Machine/Slice.lean ====
section
/-!
DEFINITION. The slices: how a slice holds lines, sectors and written bytes (R222-R225), versions (R228), monitors
(R165), forwarding of moved pages (R360) and of the commons (R282). Every access to global memory is built from these.
-/

namespace Sys2Proof.Machine

/-- The number of a physical line: HBM lines are even, lines of the second tier odd, and lines of peer packages lie above both. -/
def physKey (x : Xlat) : Nat :=
  2 * ((if x.tgt == 2 then (x.peer + 1) * 2 ^ 52 else 0) + x.addr / 256) + (if x.tgt == 1 then 1 else 0)

/-- The address of the first byte of a physical line in its own memory. -/
def physAddr (pk : Nat) : Nat := pk / 2 * 256

namespace State

/-- One byte of backing memory under a key pair (R354). -/
def backing (s : State) (key pk i : Nat) : Byte := s.mem.byteUnder (pk % 2 == 1) key (physAddr pk + i)

/-- Write one byte of backing memory under a key pair. -/
def setBacking (s : State) (key pk i : Nat) (b : Byte) : State :=
  s.setMem (s.mem.putUnder (pk % 2 == 1) key (physAddr pk + i) b)

/-- The key pair that the tag of a function's request selects: its own, or that of the commons (R354). -/
def keyFor (s : State) (vf : Nat) (x : Xlat) : Nat := if x.tgt == 3 then s.pkg.ckey else (s.vfAt vf).key

/-- The line that some slice holds for a physical line (R223). -/
def lineOf (s : State) (pk : Nat) : Option Line := (s.mem.lines.find? (fun p => p.1 == pk)).map (·.2)

def setLine (s : State) (pk : Nat) (l : Line) : State :=
  s.setMem { s.mem with lines := Tbl.insert pk l (Tbl.erase s.mem.lines pk) }

def forgetLine (s : State) (pk : Nat) : State := s.setMem { s.mem with lines := Tbl.erase s.mem.lines pk }

/-- The version of a physical line; a line of the second tier has none (R228, R230). -/
def version (s : State) (pk : Nat) : Word := Tbl.get s.mem.base s.mem.vers (pk / 2)

def setVersion (s : State) (pk : Nat) (v : Word) : State :=
  if pk % 2 = 1 then s else s.setMem { s.mem with vers := Tbl.set s.mem.base s.mem.vers (pk / 2) v }

end State

def Line.byte (l : Line) (i : Nat) : Byte := l.data.extractLsb' (8 * i) 8
def Line.written (l : Line) (i : Nat) : Bool := l.wrtn.getLsbD i
/-- The line holds byte `i`: it is written, or its sector is valid (R224). -/
def Line.holds (l : Line) (i : Nat) : Bool := l.written i || l.valid.getLsbD (i / 64)

/-- Put a byte into the data of a line. -/
def putByte (d : BitVec 2048) (i : Nat) (b : Byte) : BitVec 2048 :=
  (d &&& ~~~((0xFF#2048) <<< (8 * i))) ||| (b.setWidth 2048 <<< (8 * i))

/-- Write bytes into a line from byte `lo` and set their written bits (R224). -/
def Line.write (l : Line) (lo : Nat) : List (Option Byte) → Line
  | [] => l
  | none :: bs => l.write (lo + 1) bs
  | some b :: bs => Line.write { l with data := putByte l.data lo b, wrtn := l.wrtn ||| (1#256 <<< lo) } (lo + 1) bs

namespace State

/-- `wb` and eviction write the written bytes to backing memory and clear their written bits (R224). -/
def writeBack (s : State) (pk : Nat) : State :=
  match s.lineOf pk with
  | none => s
  | some l =>
    let s := (List.range 256).foldl (fun s i => if l.written i then s.setBacking l.key pk i (l.byte i) else s) s
    s.setLine pk { l with wrtn := 0 }

/-- `inv`: as `wb`, then the line is dropped (R224). -/
def dropLine (s : State) (pk : Nat) : State := (s.writeBack pk).forgetLine pk

/-- Set the trigger bits of registered monitors that satisfy a condition on context and monitor (R165); without `keep`
the slice loses their entries. -/
def trigger (s : State) (f : Nat → Monitor → Bool) (keep : Bool) : State :=
  { s with ctxs := s.ctxs.map (fun (a, c) => (a, { c with mon := c.mon.map (fun (n, m) =>
      (n, if m.used && m.reg && f a m then { m with trig := true, reg := keep } else m)) })) }

/-- A write is performed at slice `n`: the version rises by one, and the slice's monitors of the line trigger (R165, R228). -/
def wrote (s : State) (n pk : Nat) : State :=
  (s.setVersion pk (s.version pk + 1)).trigger (fun _ m => m.phys == pk && m.slice == n) true

/-- Slice `n` loses its monitor entries of a physical line: they trigger without a write (R165). -/
def loseMonitors (s : State) (n pk : Nat) : State := s.trigger (fun _ m => m.phys == pk && m.slice == n) false

/-- The lines of slice `n` in the set of a virtual line: 1,024 sets of 16 ways (R222; that the set is the line number modulo
1,024 is a DESIGN CHOICE, log 7). -/
def setLines (s : State) (n vline : Nat) : List Nat :=
  (s.mem.lines.filter (fun p => p.2.slice == n && p.2.vline % 1024 == vline % 1024)).map (·.1)

/-- A full set gives up a line before another enters it (R222, R224; which one: log 7). -/
def makeWay (s : State) (n vline : Nat) : State :=
  match s.setLines n vline with
  | pk :: rest => if 16 ≤ rest.length + 1 then s.dropLine pk else s
  | [] => s

/-- Slice `n` holds the physical line under a virtual line: a line that another slice holds is recalled (R222, R223). -/
def openLine (s : State) (n vf vline pk key : Nat) : State :=
  let fresh : Line := { slice := n, vf, vline, valid := 0, wrtn := 0, data := 0, key }
  match s.lineOf pk with
  | none => (s.makeWay n vline).setLine pk fresh
  | some l =>
    if l.slice = n && l.vline % 1024 = vline % 1024 then s.setLine pk { l with vf, vline }
    else
      let u := s.dropLine pk
      ((if l.slice = n then u else u.loseMonitors l.slice pk).makeWay n vline).setLine pk fresh

/-- Fill sector `k` of a line from backing memory; written bytes keep their values (R224). -/
def fillSector (s : State) (pk k : Nat) : State :=
  match s.lineOf pk with
  | none => s
  | some l =>
    let d := (List.range 64).foldl (fun d j =>
      let i := 64 * k + j
      if l.written i then d else putByte d i (s.backing l.key pk i)) l.data
    s.setLine pk { l with data := d, valid := l.valid ||| (1#4 <<< k) }

/-- The sectors of bytes of a line are filled where a byte is in neither a valid sector nor written (R224). -/
def fillBytes (s : State) (pk : Nat) (is : List Nat) : State :=
  [0, 1, 2, 3].foldl (fun s k =>
    match s.lineOf pk with
    | none => s
    | some l => if is.any (fun i => i / 64 == k && !(l.holds i)) then s.fillSector pk k else s) s

/-- As `fillBytes`, of the bytes from `lo` to `lo + n - 1`. -/
def fillFor (s : State) (pk lo n : Nat) : State := s.fillBytes pk ((List.range n).map (fun j => lo + j))

/-- Bytes of a line that hold them. -/
def lineBytes (s : State) (pk lo n : Nat) : List Byte :=
  match s.lineOf pk with
  | none => List.replicate n 0
  | some l => (List.range n).map (fun j => l.byte (lo + j))

/-- Write bytes at the slice: written bits, version, monitors (R224, R228). A write of no byte changes nothing (R228). -/
def writeAt (s : State) (pk lo : Nat) (bs : List (Option Byte)) : State :=
  match s.lineOf pk with
  | none => s
  | some l => if bs.any Option.isSome then (s.setLine pk (l.write lo bs)).wrote l.slice pk else s

/-- A page move that runs gives the place of a line that has moved (R360). -/
def forward (s : State) (vf va : Nat) (x : Xlat) : Xlat :=
  match (s.vfAt vf).move with
  | some m =>
    if m.page == va / 65536 && !(m.lines.contains (va / 256)) then
      { x with tgt := m.tgt, addr := m.dst + va % 65536 }
    else x
  | none => x

/-- The slice that performs an access, and its translation: the home slice, or the commons slice that it forwards to
(R227, R268, R282). -/
def reach (s : State) (vf va : Nat) (acc : Acc) : Except XFault (Nat × Xlat) := do
  let home := s.homeSlice vf va
  let x ← s.translateAt home vf va acc
  let x := s.forward vf va x
  if x.tgt == 3 then .ok (homeUnder [(0, s.pkg.cmask)] x.addr, x) else .ok (home, x)

/-- The slice takes the function's tag: its owner's, or any at a commons slice (R351). -/
def takesTag (s : State) (n vf : Nat) : Bool := (s.sliceAt n).commons || (s.sliceAt n).owner == some vf

/-- The slice is brought to hold the line of a translated address; the leaf is kept in the home NI's cache (R222, R274). -/
def atSlice (s : State) (n vf va : Nat) (x : Xlat) : State :=
  (s.keepPath (s.homeSlice vf va) vf va x).openLine n vf (va / 256) (physKey x) (s.keyFor vf x)

/-- Read bytes of one line at the slice (R224). -/
def sliceRead (s : State) (n vf va len : Nat) (x : Xlat) : State × List Byte :=
  let s := (s.atSlice n vf va x).fillFor (physKey x) (va % 256) len
  (s, s.lineBytes (physKey x) (va % 256) len)

/-- Write bytes of one line at the slice (R224). -/
def sliceWrite (s : State) (n vf va : Nat) (bs : List (Option Byte)) (x : Xlat) : State :=
  (s.atSlice n vf va x).writeAt (physKey x) (va % 256) bs

/-- A fresh byte that the world outside returns (R378, R379; log 5). -/
def freeBytes (s : State) (n : Nat) : State × List Byte :=
  ({ s with nfree := s.nfree + n }, (List.range n).map (fun i => Config.outsideByte (s.nfree + i)))

/-! ### Peer packages (R283, R379)

A peer's memory is not this package's. What is known of it is what was last read from it or written to it from here; whether
somebody else has written since is a free value (log 60). -/

/-- The port of an address: A[51:8] mod 18, and where ports are disabled, the one of that number among those that are enabled (R379,
R400). -/
def peerPort (ports : List Nat) (addr : Nat) : Nat := ports.getD (addr / 256 % 2 ^ 44 % Nat.max 1 ports.length) 0

/-- A request leaves for the peer that a leaf names. -/
def sendPeer (s : State) (x : Xlat) (wr : List (Option Byte)) (rd : Nat) : State :=
  { s with peerOut := s.peerOut ++ [{ port := peerPort s.pkg.ports x.addr, peer := x.peer, addr := x.addr, wr, rd }] }

/-- Where a byte of a peer stands among what is known. -/
def peerAt (x : Xlat) (i : Nat) : Nat := x.peer * 2 ^ 52 + x.addr + i

def setPeer (s : State) (a : Nat) (b : Byte) : State := s.setMem { s.mem with peer := Tbl.set none s.mem.peer a (some b) }

/-- A byte of a peer: what is known of it, unless an agent outside has written it since. -/
def peerByte (s : State) (a : Nat) : State × Byte :=
  let known := if Config.outsideWrote s.nfree then none else Tbl.get none s.mem.peer a
  let b := known.getD (Config.outsideByte s.nfree)
  (({ s with nfree := s.nfree + 1 }).setPeer a b, b)

/-- Bytes upward from `a` where `want` asks for them; 0 elsewhere. -/
def peerBytes (s : State) (a : Nat) : List Bool → State × List Byte
  | [] => (s, [])
  | w :: ws =>
    let (s, b) := if w then s.peerByte a else (s, 0)
    let (s, bs) := s.peerBytes (a + 1) ws
    (s, b :: bs)

/-- Write bytes upward from `a`. -/
def peerWrite (s : State) (a : Nat) : List (Option Byte) → State
  | [] => s
  | none :: bs => s.peerWrite (a + 1) bs
  | some b :: bs => (s.setPeer a b).peerWrite (a + 1) bs

/-- Read bytes of one line, where `want` asks for them, wherever the address leads: a slice, or a peer package (R268, R283).
All that come from the slice are read at one instant (R253). -/
def readWanted (s : State) (n vf va : Nat) (want : List Bool) (x : Xlat) : State × List Byte :=
  if x.tgt == 2 then (s.sendPeer x [] want.length).peerBytes (peerAt x 0) want
  else if !want.any id then (s, want.map (fun _ => 0))
  else
    let u := (s.atSlice n vf va x).fillBytes (physKey x) ((want.zipIdx).filterMap (fun (w, i) => if w then some (va % 256 + i) else none))
    (u, ((u.lineBytes (physKey x) (va % 256) want.length).zip want).map (fun (b, w) => if w then b else 0))

/-- Read bytes of one line wherever its address leads. -/
def readGlobal (s : State) (n vf va len : Nat) (x : Xlat) : State × List Byte :=
  if x.tgt == 2 then s.readWanted n vf va (List.replicate len true) x else s.sliceRead n vf va len x

/-- Write bytes of one line wherever its address leads: a slice, or a peer package (R268, R283). The monitors of the slice that it
passes trigger (R165). -/
def writeGlobal (s : State) (n vf va : Nat) (bs : List (Option Byte)) (x : Xlat) : State :=
  if x.tgt == 2 then
    let u := (s.sendPeer x bs 0).peerWrite (peerAt x 0) bs
    if bs.any Option.isSome then u.trigger (fun _ m => m.phys == physKey x && m.slice == n) true else u
  else s.sliceWrite n vf va bs x

/-- The lines that satisfy a condition are written back and dropped, and their monitors are lost. -/
def dropLines (s : State) (f : Nat → Line → Bool) : State :=
  (s.mem.lines.filter (fun p => f p.1 p.2)).foldl (fun s p => (s.dropLine p.1).loseMonitors p.2.slice p.1) s

/-- The fields of a hash mask: bits 52:40 are reserved (R30, R226). -/
def hashBits : Word := ~~~(0x1FFF#64 <<< 40)

/-- The lines that leave their slices under a change of a hash mask are written back and dropped there, and their monitor entries are
lost (R361). A commons slice loses none: it is chosen under another partition's mask (R282). -/
def dropLeaving (s : State) (vf n : Nat) (v : Word) : State :=
  let new := Tbl.set 0 (s.vfAt vf).hmask n v
  let old := (s.vfAt vf).hmask
  (s.dropLines (fun _ l => l.vf == vf && !(s.sliceAt l.slice).commons &&
      homeUnder new (l.vline * 256) != homeUnder old (l.vline * 256))).trigger
    (fun a m => s.vfOfCore (a / 16) == vf && !(s.sliceAt m.slice).commons &&
      homeUnder new (m.line * 256) != homeUnder old (m.line * 256)) false

/-- Every NI takes a new mask and the next generation at one timebase count (R361). -/
def setMask (s : State) (vf n : Nat) (v : Word) : State :=
  let s := s.modVf vf (fun f => { f with hmask := Tbl.set 0 f.hmask n v, mapgen := (f.mapgen + 1) % 65536 })
  { s with cores := s.cores.map (fun (k, c) => (k, if s.vfOfCore k == vf then { c with mapgen := (s.vfAt vf).mapgen } else c)) }

/-- A hash mask changes at once (R361). -/
def changeMask (s : State) (vf n : Nat) (v : Word) : State :=
  (s.dropLeaving vf n (v &&& hashBits)).setMask vf n (v &&& hashBits)

/-- A change of a hash mask is announced (R361). -/
def announceMask (s : State) (vf n : Nat) (v : Word) : State :=
  (s.dropLeaving vf n (v &&& hashBits)).modVf vf (fun f => { f with newMask := some (n, v &&& hashBits) })

/-- The change that has been announced is made. What another change has put under it since leaves its slice too (R361). -/
def takeMask (s : State) (vf : Nat) : State :=
  match (s.vfAt vf).newMask with
  | none => s
  | some (n, v) => ((s.dropLeaving vf n v).setMask vf n v).modVf vf (fun f => { f with newMask := none })

end State

end Sys2Proof.Machine
end

