-- ==== Sys2Proof/Machine/System.lean ====
section
/-!
DEFINITION. Control registers (R30-R35, R116, R117), fences (R118, R119) and the system instructions (R120-R122, R45).
-/

namespace Sys2Proof.Machine

/-! ### Control registers -/

/-- `kstat` or `fstat` as a word, the level in bits 1:0 (R31). -/
def statWord (st : Status) (p : Priv) : Word :=
  BitVec.ofNat 64 (st.late.toNat * 128 + st.ktrap.toNat * 64 + st.pie.toNat * 32 + st.ppriv.code.toNat * 8 +
    st.ie.toNat * 4 + p.code.toNat)

/-- The status after a write of `v` at level `p`: priv is read-only, ppriv is restricted, and late only falls (R31). -/
def statWrite (st : Status) (p : Priv) (v : Word) : Status :=
  let pp :=
    match Priv.ofCode (v.extractLsb' 3 2) with
    | some .f => if p == .f then .f else st.ppriv
    | some q => q
    | none => st.ppriv
  { late := st.late && v.getLsbD 7, ktrap := v.getLsbD 6, pie := v.getLsbD 5, ppriv := pp, ie := v.getLsbD 2 }

/-- The writable bits of a cause register: bit 63 and bits 7:0 (R33). -/
def causeMask : Word := 0x80000000000000FF

/-- The pending bits of `kip`; the timer bit is pending exactly while `cyc` ≥ `ktcmp` (R34). -/
def State.pending (s : State) (a : Nat) : BitVec 3 :=
  let c := s.ctxAt a
  (c.kipP &&& 0b101#3) ||| (if c.ktcmp.toNat ≤ s.cyc.toNat then 0b010#3 else 0)

/-- A slot as `wtab` shows it (R35). -/
def Slot.word (x : Slot) : Word :=
  let code :=
    match x.st with
    | .detached => 0
    | .attached => 1
    | .incoming => 2
    | .held => 3
  if x.st == .detached then 0
  else BitVec.ofNat 64 (wellClu x.well * 65536 + x.well % 64 * 256 + x.wr.toNat * 8 + x.rd.toNat * 4 + code)

/-- `tinfo`: the team number and the core's team index (R30). -/
def State.tinfo (s : State) : Word :=
  match s.teamOf s.cid with
  | some t => BitVec.ofNat 64 (t.num * 65536 + (t.indexOf s.cid).getD 0)
  | none => 0

/-- `ReadCsr` (R30). -/
def State.readCsr (s : State) (n : Nat) : Word :=
  let c := s.me
  if n = 0x000 then c.fpcsr
  else if n = 0x001 then c.uvec
  else if n = 0x002 then c.uirqv
  else if n = 0x003 then c.uepc
  else if n = 0x004 then c.ucause
  else if n = 0x005 then c.uval
  else if n = 0x006 then c.vdone
  else if n = 0x007 then 0x101020
  else if n = 0x008 then s.tinfo
  else if 0x010 ≤ n && n ≤ 0x01F then (s.slotAt s.cid (n - 0x010)).word
  else if n = 0x400 then statWord c.kstat c.priv
  else if n = 0x401 then c.ktr.cause
  else if n = 0x402 then c.ktr.epc
  else if n = 0x403 then c.ktr.val
  else if n = 0x404 then c.ktr.vec
  else if n = 0x405 then c.kscr
  else if n = 0x406 then (s.pending s.cur).setWidth 64 ||| (c.kipE.setWidth 64 <<< 16)
  else if n = 0x407 then c.ktcmp
  else if n = 0x408 then (s.myCore.cSeen 8 s.now).val
  else if 0x410 ≤ n && n ≤ 0x417 then Tbl.get 0 (s.vfAt (s.vfOfCore s.cid)).hmask (n - 0x410)
  else if n = 0xC00 then statWord c.fstat c.priv
  else if n = 0xC01 then c.ftr.cause
  else if n = 0xC02 then c.ftr.epc
  else if n = 0xC03 then c.ftr.val
  else if n = 0xC04 then c.ftr.vec
  else if n = 0xC05 then s.pkg.bootlog
  else 0

/-- The depth that a value written to `sleepd` sets (R30). -/
def sleepDepth (v : Word) : Nat := Nat.min 2 (v.toNat % 4)

/-- `WriteCsr` with the field rules of R30-R35 (R116). -/
def State.writeCsr (s : State) (n : Nat) (v : Word) : State :=
  let c := s.me
  if n = 0x000 then s.setMe { c with fpcsr := v &&& fpcsrMask }
  else if n = 0x001 then s.setMe { c with uvec := v }
  else if n = 0x002 then s.setMe { c with uirqv := v &&& ~~~2#64 }
  else if n = 0x003 then s.setMe { c with uepc := v }
  else if n = 0x004 then s.setMe { c with ucause := v &&& causeMask }
  else if n = 0x005 then s.setMe { c with uval := v }
  else if n = 0x006 then s.setMe { c with vdone := v }
  else if n = 0x400 then
    let t := s.setMe { c with kstat := statWrite c.kstat c.priv v }
    if v.getLsbD 7 then t else t.discardHeld s.cur
  else if n = 0x401 then s.setMe { c with ktr := { c.ktr with cause := v &&& causeMask } }
  else if n = 0x402 then s.setMe { c with ktr := { c.ktr with epc := v } }
  else if n = 0x403 then s.setMe { c with ktr := { c.ktr with val := v } }
  else if n = 0x404 then s.setMe { c with ktr := { c.ktr with vec := v } }
  else if n = 0x405 then s.setMe { c with kscr := v }
  else if n = 0x406 then
    s.setMe { c with
      kipE := v.extractLsb' 16 3
      kipP := (c.kipP &&& 0b001#3 &&& v.extractLsb' 0 3) ||| (v.extractLsb' 0 3 &&& 0b100#3) }
  else if n = 0x407 then s.setMe { c with ktcmp := v }
  else if n = 0x408 then s.modCore s.cid (fun k => k.cWrite s.now s.nid 8 (some (BitVec.ofNat 64 (sleepDepth v))) true false)
  else if 0x410 ≤ n && n ≤ 0x417 then
    let vf := s.vfOfCore s.cid
    s.changeMask vf (n - 0x410) v
  else if n = 0xC00 then
    let t := s.setMe { c with fstat := statWrite c.fstat c.priv v }
    if v.getLsbD 7 then t else t.discardHeld s.cur
  else if n = 0xC01 then s.setMe { c with ftr := { c.ftr with cause := v &&& causeMask } }
  else if n = 0xC02 then s.setMe { c with ftr := { c.ftr with epc := v } }
  else if n = 0xC03 then s.setMe { c with ftr := { c.ftr with val := v } }
  else if n = 0xC04 then s.setMe { c with ftr := { c.ftr with vec := v } }
  else if n = 0xC05 then s.setPkg { s.pkg with bootlog := v }
  else s

/-- The lowest level that may access a register (R30). -/
def csrLevel (n : BitVec 12) : Priv :=
  match (n.extractLsb' 10 2).toNat with
  | 0 => .u
  | 1 => .s
  | _ => .f

/-- The privilege check of R116: cause 0x03 with the register's number. -/
def csrPriv (p : Priv) (n : BitVec 12) (writes : Bool) : Except Stop Unit :=
  if p.rank < (csrLevel n).rank || (writes && 0x410 ≤ n.toNat && n.toNat ≤ 0x417 && p != .f) then
    .error (.trap 0x03 (n.setWidth 64))
  else .ok ()

/-- Every access to `fpcsr` waits for earlier floating-point results (R59). -/
def State.csrReady (s : State) (n : BitVec 12) : Except Stop Unit :=
  if n == 0 && s.fpBusy s.cur then .error (.park .own) else .ok ()

/-- A control-register access (R116): `upd` gives the value to be written from the old value and the operand. -/
def State.csrOp (s : State) (k : MReg) (d : SReg) (a : Option SReg) (n : BitVec 12) (upd : Option (Word → Word → Word)) : Eff :=
  s.gated k 8 do
    csrPriv s.me.priv n upd.isSome
    s.needSrc a.toList
    s.needDst d.val
    s.csrReady n
    let old := s.readCsr n.toNat
    let x := (a.map s.regVal).getD 0
    let t := s.popSrc a.toList
    let t := match upd with
      | some f => t.writeCsr n.toNat (f old x)
      | none => t
    .ok ((t.writeReg d.val old).retire 8)

/-- `csrr` (R116). -/
def execCsrr (k : MReg) (d : SReg) (n : BitVec 12) (s : State) : Out1 := s.finish 8 (s.csrOp k d none n none)
/-- `csrw` (R116). -/
def execCsrw (k : MReg) (d a : SReg) (n : BitVec 12) (s : State) : Out1 :=
  s.finish 8 (s.csrOp k d (some a) n (some (fun _ x => x)))
/-- `csrs`; with a = 0 a plain read (R116). -/
def execCsrs (k : MReg) (d a : SReg) (n : BitVec 12) (s : State) : Out1 :=
  s.finish 8 (s.csrOp k d (some a) n (if a.val = 0 then none else some (fun o x => o ||| x)))
/-- `csrc`; with a = 0 a plain read (R116). -/
def execCsrc (k : MReg) (d a : SReg) (n : BitVec 12) (s : State) : Out1 :=
  s.finish 8 (s.csrOp k d (some a) n (if a.val = 0 then none else some (fun o x => o &&& ~~~x)))

/-! ### Fences and the system group -/

/-- `fence` (R119): it parks until every earlier access and every observed entry has reached the scope; `fence.sys` lets
later fetches see earlier stores (R80). -/
def execFence (k : MReg) (sc : Scope) (un : Bool) (s : State) : Out1 :=
  s.finish 8 (s.gated k 8 (
    if s.orderedTo s.cur s.nid sc un then
      .ok ((if sc == .sys then s.modMe (fun c => { c with sync := s.now + 1 }) else s).retire 8)
    else .error (.park .own)))

/-- `trap`: cause 0x13, and `kepc` names the next instruction (R120). -/
def execTrap (k : MReg) (imm : BitVec 18) (s : State) : Out1 :=
  s.finish 8 (s.gated k 8 (.error (.trap 0x13 (imm.signExtend 64) true)))

/-- `eret` (R45); at U cause 0x03. -/
def execEret (k : MReg) (s : State) : Out1 :=
  s.finish 8 (s.gated k 8 (
    if s.me.priv == .u then .error (.trap 0x03 0)
    else .ok { s.eretCore.useSlot with last := .issued }))

/-- `nop` (R120). -/
def execNop (k : MReg) (s : State) : Out1 := s.finish 8 (s.gated k 8 (.ok (s.retire 8)))

/-- The wait of `halt` and `exit`: the `ld` and `st` counts are zero (R121, R164). -/
def State.drained (s : State) : Except Stop Unit :=
  if s.me.count .ld == 0 && s.me.count .st == 0 then .ok () else .error (.park .own)

/-- `halt`: the context ends with exit value 0 (R121). -/
def execHalt (k : MReg) (s : State) : Out1 :=
  s.finish 8 (s.gated k 8 do
    s.drained
    .ok ((s.retire 8).endCtx s.cur 0))

/-- `brk` (R120). -/
def execBrk (k : MReg) (s : State) : Out1 := s.finish 8 (s.gated k 8 (.error (.trap 0x12 0)))

/-- A `kip` bit has pending and enable both 1 (R34). -/
def State.irqPending (s : State) (a : Nat) : Bool := (s.pending a &&& (s.ctxAt a).kipE) != 0

/-- A late trap is reported for the context: it waits for its next issue point (R42, R157). An access issued at U is
reported while `kstat`.ktrap = 0; one issued above U always. -/
def State.lateReady (s : State) (a : Nat) : Bool :=
  let c := s.ctxAt a
  !c.lates.isEmpty ||
    s.ops.any (fun o => o.ctx == a && o.unreported && (o.priv != .u || !c.kstat.ktrap))

/-- `wfi`: it issues and then waits, unless its condition holds already (R122). -/
def execWfi (k : MReg) (s : State) : Out1 :=
  s.finish 8 (s.gated k 8 (
    let t := s.retire 8
    if s.irqPending s.cur || s.lateReady s.cur then .ok t else .ok (t.modMe (fun c => { c with post := .wfi }))))

end Sys2Proof.Machine
end

