-- ==== Sys2Proof/Machine/Barrel.lean ====
section
/-!
DEFINITION. The barrel core: starting and ending contexts (R162-R164), address monitors (R165-R168), full/empty bits from
software (R169) and remote fills (R170, R171).
-/

namespace Sys2Proof.Machine

/-! ### Starting and ending contexts -/

/-- A context as it starts on a core (R20): what launch and spawn set beyond this, they set themselves. -/
def State.freshCtx (s : State) (core : Nat) (pc : Word) : Ctx :=
  { life := .running, pc, fpcsr := fpcsrInit (s.hdrOf core).traps, kstat := { ie := true },
    ktcmp := BitVec.allOnes 64, ftr := { vec := Config.firmwareVector } }

/-- What an earlier life of a context left in flight reports to nobody: its computed results and held accesses are dropped,
its other accesses are performed, its engine operations run on (R121, R162). So do its sequencers, whose later copies belong to no
context: they count on none, and a fault of theirs raises the error token (DESIGN CHOICE, log 26: R296 says nothing). -/
def State.orphan (s : State) (a : Nat) : State :=
  let f := fun (l : List EOp) => l.map (fun o => if o.ctx == a then { o with orphan := true } else o)
  { s.modCore (a / 16) (fun k => { k with
      cq := f k.cq, aq := f k.aq, eq := f k.eq
      seqs := k.seqs.map (fun (n, q) => (n, if q.ctx == a then { q with orphan := true } else q)) }) with
    ops := (s.ops.filter (fun o => !(o.ctx == a && (o.kind == .alu || o.anyHeld)))).map (fun o =>
      if o.ctx == a then { o with cnts := false, outs := [] } else o)
    sb := s.sb.filter (fun e => !(s.ops.any (fun o => o.id == e.op && o.ctx == a && o.anyHeld))) }

/-- The bits of an illegal instruction for `kval` (R39). -/
def illegal (i : Instr) : Stop := .trap 0x01 (lowBits (encodeWord i))

/-- `spawn` (R162): d receives the status, not the return address that R77 names (DEDUCED, log 63). -/
def execSpawn (k : MReg) (d a : SReg) (imm : Imm) (s : State) : Out1 :=
  s.finish imm.bytes (
    if s.tid != 0 then .error (illegal (.spawn k d a imm))
    else s.gated k imm.bytes do
      s.needSrc [a]
      s.needDst d.val
      let n := (s.regVal a).toNat
      let t := 16 * s.cid + n
      let u := s.popSrc [a]
      if n = 0 || 16 ≤ n || (s.hdrOf s.cid).contexts ≤ n then .ok ((u.writeReg d.val 2).retire imm.bytes)
      else if (s.ctxAt t).life != .free then .ok ((u.writeReg d.val 1).retire imm.bytes)
      else
        let c := s.freshCtx s.cid (s.target imm &&& ~~~3#64)
        let u := (u.orphan t).setCtx t { c with
          ktr := { c.ktr with vec := s.me.ktr.vec }
          uvec := s.me.uvec, uirqv := s.me.uirqv, kipE := s.me.kipE, holdTo := s.now + 3, sync := s.now }
        .ok ((u.writeReg d.val 0).retire imm.bytes))

/-- `reap` (R163). -/
def execReap (k : MReg) (d a : SReg) (s : State) : Out1 :=
  s.finish 8 (
    if s.tid != 0 then .error (illegal (.reap k d a))
    else s.gated k 8 do
      s.needSrc [a]
      s.needDst d.val
      let n := (s.regVal a).toNat
      let c := s.ctxAt (16 * s.cid + n)
      if n = 0 || 16 ≤ n || c.life == .free then .error (illegal (.reap k d a))
      else if c.life == .running then .error (.park .own)
      else
        .ok ((((s.popSrc [a]).setCtx (16 * s.cid + n) { c with life := .free }).writeReg d.val c.exitv).retire 8))

/-- `exit`: as `halt` waits; every monitor of the context is removed (R164). -/
def execExit (k : MReg) (a : SReg) (s : State) : Out1 :=
  s.finish 8 (s.gated k 8 do
    s.needSrc [a]
    s.drained
    .ok ((((s.popSrc [a]).retire 8).endCtx s.cur (s.regVal a)).modMe (fun c => { c with mon := [] })))

/-! ### Monitors -/

/-- The request of an `arm` for monitor `m`. -/
def State.armOp (s : State) (m d : Nat) (q : Part) : Op :=
  { id := 0, ctx := s.cur, kind := .arm m, priv := s.me.priv, parts := [q], outs := [{ dst := s.dstOf d }] }

/-- `arm` (R166). -/
def execArm (k : MReg) (d a : SReg) (imm : BitVec 18) (s : State) : Out1 :=
  s.finish 8 (s.gated k 8 do
    s.needSrc [a]
    s.needDst d.val
    let ea := s.regVal a + imm.signExtend 64
    checkLine ea
    let p := { s.linePart ea with data := [some 0] }
    s.mayAccess s.cur .ld 1 [p]
    let line := p.va / 256
    let u := s.popSrc [a]
    let due := s.now + s.globalLat s.cid p.va
    match s.me.monOf line with
    | some (m, _) =>
      if s.armHeld s.cur line then .ok (((u.markEmpty d.val).launchOp (s.armOp armWaits d.val { p with st := .done }) 1 due).retire 8)
      else .ok ((u.writeReg d.val (BitVec.ofNat 64 m)).retire 8)
    | none =>
      match s.me.freeMon with
      | none => .ok ((u.writeReg d.val 4).retire 8)
      | some m =>
        let u := (u.markEmpty d.val).modMe (fun c => c.setMon m { used := true, op := s.nid, line })
        .ok ((u.launchOp (s.armOp m d.val p) 1 due).retire 8))

/-- `disarm` (R167): the mask of the monitors removed. -/
def execDisarm (k : MReg) (d a : SReg) (imm : BitVec 18) (s : State) : Out1 :=
  s.finish 8 (s.gated k 8 do
    s.needSrc [a]
    s.needDst d.val
    let line := s.relocate s.cid (s.regVal a + imm.signExtend 64).toNat / 256
    let all := a.val = 0 && imm.toNat = 0
    let gone := s.me.mon.filter (fun (_, m) => m.used && (all || m.line == line))
    let mask := gone.foldl (fun x (n, _) => x + 2 ^ n) 0
    let u := (s.popSrc [a]).modMe (fun c => { c with mon := c.mon.filter (fun p => !(gone.contains p)) })
    .ok ((u.writeReg d.val (BitVec.ofNat 64 mask)).retire 8))

/-- The code and mask that an `mwait` returns, when one of its conditions holds (R168). Every late trap that waits counts as FAULT,
that of an engine and an aborted reduction too (DEDUCED, log 63). -/
def State.mwaitCode (s : State) (a issued timeout : Nat) : Option Word :=
  let c := s.ctxAt a
  let trig := (c.mon.filter (fun (_, m) => m.used && m.trig)).foldl (fun x (n, _) => x + 2 ^ n) 0
  if s.lateReady a then some 4
  else if s.irqPending a then some 3
  else if trig != 0 then some (BitVec.ofNat 64 (1 + 16 * trig))
  else if timeout != 0 && issued + timeout ≤ s.now then some 2
  else if timeout = 0 && !(c.mon.any (fun (_, m) => m.used)) then some 5
  else none

/-- Trigger bits are cleared where the wait returns WRITE, and kept otherwise (R168). -/
def Ctx.clearTriggers (c : Ctx) (code : Word) : Ctx :=
  if code.toNat % 16 = 1 then { c with mon := c.mon.map (fun (n, m) => (n, { m with trig := false })) } else c

/-- `mwait`: the conditions are checked at issue as well (R168). -/
def execMwait (k : MReg) (d a : SReg) (s : State) : Out1 :=
  s.finish 8 (s.gated k 8 do
    s.needSrc [a]
    s.needDst d.val
    let tmo := (s.regVal a).toNat
    let u := s.popSrc [a]
    match s.mwaitCode s.cur s.now tmo with
    | some code => .ok (((u.modMe (fun c => c.clearTriggers code)).writeReg d.val code).retire 8)
    | none => .ok (((u.retire 8).modMe (fun c => { c with post := .mwait d.val s.now tmo s.nid })).bumpId))

/-- Run an operation for another context. -/
def State.as (s : State) (a : Nat) (f : State → State) : State := { f { s with cur := a } with cur := s.cur }

/-- Run an operation that also answers a value for another context. -/
def State.as' (s : State) (a : Nat) (f : State → State × α) : State × α :=
  let (u, x) := f { s with cur := a }
  ({ u with cur := s.cur }, x)

/-- `WriteReg` by the acting context for issue number `by_`, which a `c` register orders by (R158). -/
def State.writeFor (s : State) (by_ d : Nat) (v : Word) : State :=
  if 48 ≤ d && d < 56 then s.modCore s.cid (fun k => k.cWrite s.now by_ (d - 48) (some v) true false) else s.writeReg d v

/-- The context may take an interrupt (R34). -/
def Ctx.takesIrq (c : Ctx) : Bool := c.priv == .u || (c.priv == .s && c.kstat.ie)

/-- An interrupt stands that the context may take (R34). -/
def State.irqStands (s : State) (a : Nat) : Bool := (s.ctxAt a).takesIrq && s.irqPending a

/-- The wait of a context is over; an interrupt that stands then is taken before its next instruction (R122, R168). -/
def State.endWait (s : State) (a : Nat) : State := s.modCtx a (fun c => { c with post := .none, irqDue := s.irqStands a })

/-- End the wait of a context that waits after its issue, where its condition holds (R122, R168, R186). -/
def State.settlePost (s : State) (a : Nat) : State :=
  let c := s.ctxAt a
  match c.post with
  | .none => s
  | .wfi => if s.irqPending a || s.lateReady a then s.endWait a else s
  | .mwait d t tmo by_ =>
    match s.mwaitCode a t tmo with
    | some code => (s.as a (fun s => (s.modMe (fun c => c.clearTriggers code)).writeFor by_ d code)).endWait a
    | none => s
  | .gbar g e _ =>
    match s.teamOf (a / 16) with
    | some t => if e < (Tbl.get {} t.groups g).ep then s.modCtx a (fun c => { c with post := .none }) else s
    | none => s

/-! ### Full/empty bits and remote fills -/

/-- Set or clear the full/empty bit of a register (R169). -/
def State.setFull (s : State) (k : MReg) (vec : Bool) (d : SReg) (full : Bool) : Eff :=
  s.gated k 8 (
    if vec then
      let r := Tbl.get {} s.me.v d.val
      if r.pend then .error (.park .dest) else .ok ((s.modMe (fun c => c.setV d.val { r with full })).retire 8)
    else if d.val = 0 then .ok (s.retire 8)
    else do
      s.needDst d.val
      if d.val < 48 then .ok ((s.modMe (fun c => c.setX c.inH d.val { c.xReg c.inH d.val with full })).retire 8)
      else .ok ((s.modCore s.cid (fun c => c.cWrite s.now s.nid (d.val - 48) none full false)).retire 8))

/-- `fset` (R169). -/
def execFset (k : MReg) (vec : Bool) (d : SReg) (s : State) : Out1 := s.finish 8 (s.setFull k vec d true)
/-- `fclr` (R169). -/
def execFclr (k : MReg) (vec : Bool) (d : SReg) (s : State) : Out1 := s.finish 8 (s.setFull k vec d false)

/-- The context is parked on register `n` of the main bank. -/
def Ctx.parkedOn (c : Ctx) (n : Nat) : Bool :=
  (match c.parked with
    | some (.source ns) | some (.queue _ _ ns) => ns.contains n
    | _ => false) && !(c.inH && 40 ≤ n)

/-- `Deliver` (R170): the main bank of the target; a refused fill writes nothing. A target on the same core that is parked on
the register is ready three cycles after the fill. -/
def State.deliverFill (s : State) (ta n : Nat) (v : Word) : State × Nat :=
  let c := s.ctxAt ta
  let r := Tbl.get {} c.x n
  if c.life != .running then (s, 3)
  else if r.full then (s, 1)
  else if r.pend then (s, 2)
  else
    let hold := if ta / 16 = s.cid && c.parkedOn n then Nat.max c.holdTo (s.now + 3) else c.holdTo
    (s.setCtx ta { c.usesFile s.now with x := Tbl.set {} c.x n { val := v }, holdTo := hold }, 0)

/-- `rfill` (R170). -/
def execRfill (k : MReg) (d a b : SReg) (n : BitVec 6) (s : State) : Out1 :=
  s.finish 8 (s.gated k 8 do
    s.needSrc [a, b]
    s.needDst d.val
    if s.me.count .st != 0 then .error (.park .own)
    else
      let ta := (s.regVal a).toNat
      let v := s.regVal b
      let u := s.popSrc [a, b]
      if 20480 ≤ ta || !(s.sameTeam s.cid (ta / 16)) then .ok ((u.writeReg d.val 4).retire 8)
      else if ta / 16 = s.cid then
        let (t, st) := u.deliverFill ta n.toNat v
        .ok ((t.writeReg d.val (BitVec.ofNat 64 st)).retire 8)
      else if 56 ≤ d.val then .error (illegal (.rfill k d a b n))
      else
        .ok (((u.markEmpty d.val).launchOp
          { id := 0, ctx := s.cur, kind := .rfill ta n.toNat v, priv := s.me.priv,
            parts := [{ acc := 0, va := 0, dst := 0, data := [] }], outs := [{ dst := s.dstOf d.val }] } 1
          (s.now + 100)).retire 8))

end Sys2Proof.Machine
end

