-- ==== Sys2Proof/Machine/Block.lean ====
section
/-!
DEFINITION. Block-scaled formats: MX (R63-R65), KB4 (R66-R68, R144), packed ternary (R69) and companding (R70-R72).
-/

namespace Sys2Proof.Machine

/-! ### Scales -/

/-- The value of an E8M0 code (R63). -/
def e8m0 (code : Nat) : FVal := if code = 255 then .nan false else .fin false 1 ((code : Int) - 127)

/-- The value of an E3M5 code: significand and exponent (R67). -/
def e3m5 (code : Nat) : Nat × Int :=
  let e := code / 32 % 8
  let m := code % 32
  if e = 0 then (m, -8) else (32 + m, (e : Int) - 9)

/-- n × 2^e ≥ n' × 2^e', exactly. -/
def geScaled (n : Nat) (e : Int) (n' : Nat) (e' : Int) : Bool :=
  let m := if e < e' then e else e'
  n * 2 ^ (e - m).toNat ≥ n' * 2 ^ (e' - m).toNat

/-- The code of the smallest E3M5 value ≥ n × 2^e / (dn × 2^de); none above 15.75 (R68, R144). -/
def e3m5Ceil (n : Nat) (e : Int) (dn : Nat) (de : Int) : Option Nat :=
  (List.range 256).find? (fun c => geScaled ((e3m5 c).1 * dn) ((e3m5 c).2 + de) n e)

/-- The larger magnitude of two finite values. -/
def maxMag (a b : Nat × Int) : Nat × Int := if geScaled a.1 a.2 b.1 b.2 then a else b

def topMag (vs : List FVal) : Nat × Int := vs.foldl (fun a v => maxMag a v.mag) (0, 0)

/-! ### MX -/

/-- An element of MX quantisation: an overflow delivers the largest finite value and NX only, a value that rounds to zero
raises NX but not UF (R65). -/
def mxElem (f : Fmt) (rm : Rm) (v : FVal) (E : Int) : Nat × Flags :=
  match v.scale (-E) with
  | FVal.fin s n e =>
    let (b, fl) := f.roundFin rm false s n e
    if (fl &&& fOF) != 0 then (f.maxBits s, fNX) else (b, fl &&& ~~~fUF)
  | _ => (0, 0)

/-- `MxQuant` (R65): the scale, the elements and the flags. -/
def mxQuant (f : Fmt) (rm : Rm) (vs : List FVal) : Nat × List Nat × Flags :=
  if vs.any (fun v => v.isNan || v.isInf) then (255, vs.map (fun _ => 0), fNV)
  else
    let (n, e) := topMag vs
    if n = 0 then (0, vs.map (fun _ => 0), 0)
    else
      let E := (Nat.log2 n : Int) + e - f.emax
      if E > 127 then
        (254, vs.map (fun v => if v.isZero then 0 else f.maxBits v.neg), fOF ||| fNX)
      else
        let E' := if E < -127 then -127 else E
        let rs := vs.map (fun v => mxElem f rm v E')
        ((E' + 127).toNat, rs.map (·.1), rs.foldl (fun a r => a ||| r.2) (if E < -127 then fUF else 0))

/-- What an MX element stands for (R64). -/
def mxValue (f : Fmt) (scale elem : Nat) : FVal :=
  match e8m0 scale, f.read false elem with
  | .fin _ _ k, v => v.scale k
  | w, _ => w

/-! ### KB4 -/

/-- `ElemRound` on the quotient n·2^e / (dn·2^de) of a value's sign (R68, R144). -/
def kb4Elem (rm : Rm) (s : Bool) (n : Nat) (e : Int) (dn : Nat) (de : Int) : Nat × Flags :=
  if n = 0 then (fmtE2M1.signBit s, 0)
  else
    let (x, y) := scale2 n dn (e - de)
    let (b, fl) := fmtE2M1.round rm false s x y
    if b % 8 = 0 then (b, fUF ||| fNX) else (b, fl &&& ~~~fUF)

/-- One block of `Kb4Group`: eight values under a finite band scale (R144). -/
def kb4Block (rm : Rm) (band : Nat × Int) (vs : List FVal) : Nat × List Nat × Flags :=
  let (n, e) := topMag vs
  if n = 0 then (0, vs.map (fun _ => 0), 0)
  else if band.1 = 0 then (255, vs.map (fun v => if v.isZero then 0 else fmtE2M1.maxBits v.neg), fOF ||| fNX)
  else
    let code := e3m5Ceil n e (6 * band.1) band.2
    let c := code.getD 255
    let rs := vs.map (fun v => kb4Elem rm v.neg v.mag.1 v.mag.2 (band.1 * (e3m5 c).1) (band.2 + (e3m5 c).2))
    (c, rs.map (·.1), rs.foldl (fun a r => a ||| r.2) (if code.isNone then fOF else 0))

/-- `Kb4Group` (R144): block scales, elements and flags of 32 values under a BF16 band scale. -/
def kb4Group (rm : Rm) (band : Nat) (vs : List FVal) : List Nat × List Nat × Flags :=
  let b := fmtB16.read false band
  if vs.any (fun v => v.isNan || v.isInf) || b.isNan || b.isInf || (b.neg && !b.isZero) then
    ([0, 0, 0, 0], vs.map (fun _ => 0), fNV)
  else
    let rs := [0, 1, 2, 3].map (fun g => kb4Block rm b.mag ((vs.drop (8 * g)).take 8))
    (rs.map (·.1), (rs.map (·.2.1)).flatten, rs.foldl (fun a r => a ||| r.2.2) 0)

/-- What a KB4 element stands for, with NV for a signalling or infinite band scale (R66, R145). -/
def kb4Value (band bscale elem : Nat) : FVal × Flags :=
  match fmtB16.read false band with
  | .nan s => (.nan false, if s then fNV else 0)
  | .inf _ => (.nan false, fNV)
  | .fin s n e =>
    match fmtE2M1.read false elem with
    | .fin t m k => (.fin (s != t) (n * (e3m5 bscale).1 * m) (e + (e3m5 bscale).2 + k), 0)
    | v => (v, 0)

/-! ### Packed ternary -/

/-- The trits of a legal byte as -1, 0, +1, t0 first (R69). -/
def trits (b : Nat) : List Int :=
  [b, b / 3, b / 9, b / 27, b / 81].map (fun x => if x % 3 = 0 then 0 else if x % 3 = 1 then 1 else -1)

/-- The code of a weight after saturation to -1..1 (R69, R148). -/
def tritCode (w : Int) : Nat := if w > 0 then 1 else if w < 0 then 2 else 0

/-- Pack weights five to a byte; missing trits are code 0 (R69). -/
def packTrits : Nat → List Int → List Nat
  | 0, _ => []
  | n + 1, ws =>
    (((ws.take 5).zipIdx).foldl (fun a (w, i) => a + tritCode w * 3 ^ i) 0) :: packTrits n (ws.drop 5)

/-! ### Companding -/

/-- The bits of a small number as FP32. -/
def f32Of (n : Nat) : BitVec 32 := BitVec.ofNat 32 (fmt32.roundFin 0 false false n 0).1

/-- The identity table of R72. -/
def identityTable : List Seg := (List.range 16).map (fun i => { x := f32Of i, s := f32Of 1, y := f32Of i, u := f32Of 1 })

/-- The table in force on a core: none loaded is the identity table (R72). -/
def Core.table (k : Core) : List Seg := if k.comp.isEmpty then identityTable else k.comp

def rd32 (b : BitVec 32) : FVal := fmt32.read false b.toNat

/-- base + (|v| - from) × slope, computed exactly: significand and exponent of a signed value. -/
def lineAt (base v frm slope : Nat × Int) : Int × Int :=
  let m := if v.2 < frm.2 then v.2 else frm.2
  let d : Int := (v.1 * 2 ^ (v.2 - m).toNat : Int) - (frm.1 * 2 ^ (frm.2 - m).toNat : Int)
  let pe := m + slope.2
  let q := if base.2 < pe then base.2 else pe
  ((base.1 * 2 ^ (base.2 - q).toNat : Int) + d * slope.1 * 2 ^ (pe - q).toNat, q)

/-- A point of a curve for a positive finite magnitude: the last segment whose bound is not above it, rounded once under
RNE; beyond the largest finite value it clamps and raises OF (R70, R146). -/
def curve (segs : List (FVal × FVal × FVal)) (neg : Bool) (v : Nat × Int) : Nat × Flags :=
  let seg := (segs.filter (fun g => geScaled v.1 v.2 g.1.mag.1 g.1.mag.2)).getLastD (.fin false 0 0, .fin false 0 0, .fin false 1 0)
  let (t, e) := lineAt seg.2.1.mag v seg.1.mag seg.2.2.mag
  let (b, fl) := fmt32.roundFin 0 false neg t.natAbs e
  if (fl &&& fOF) != 0 then (fmt32.maxBits neg, fOF ||| fNX) else (b, fl &&& fNX)

/-- c(v), or with `inverse` e(v), of an FP32 value (R70). -/
def compand (tab : List Seg) (inverse : Bool) (v : FVal) : Nat × Flags :=
  match v with
  | .nan s => fmt32.nanOut s
  | .inf neg => (fmt32.infBits neg, 0)
  | .fin neg n e =>
    if n = 0 then (fmt32.signBit neg, 0)
    else
      let segs := tab.map (fun g => if inverse then (rd32 g.y, rd32 g.x, rd32 g.u) else (rd32 g.x, rd32 g.y, rd32 g.s))
      curve segs neg (n, e)

/-- An entry of a table is finite, positive and normal. -/
def normalPos (b : BitVec 32) : Bool := b.getLsbD 31 == false && 0x00800000 ≤ b.toNat && b.toNat < 0x7F800000

/-- The slope's reciprocal u = RNE(1/s) (R70). -/
def recipSeg (s : BitVec 32) : BitVec 32 := BitVec.ofNat 32 (fmt32.rcp 0 false (rd32 s)).1

/-- y_i = RNE(y + (x_i - x) × s) from the segment before (R70). -/
def nextY (p : Seg) (x : BitVec 32) : BitVec 32 :=
  let (t, e) := lineAt (rd32 p.y).mag (rd32 x).mag (rd32 p.x).mag (rd32 p.s).mag
  BitVec.ofNat 32 (fmt32.roundFin 0 false (t < 0) t.natAbs e).1

/-- Validate a table entry by entry (R71): the segments, or the index of the first that fails. -/
def validate : Nat → List Seg → List (BitVec 32 × BitVec 32) → Except Nat (List Seg)
  | _, acc, [] => .ok acc.reverse
  | i, [], (x, s) :: es =>
    if x != 0 || !normalPos s || !normalPos (recipSeg s) then .error i
    else validate (i + 1) [{ x, s, y := 0, u := recipSeg s }] es
  | i, p :: acc, (x, s) :: es =>
    if !normalPos x || x.toNat ≤ p.x.toNat || !normalPos s then .error i
    else
      let y := nextY p x
      if y.toNat ≥ 0x7F800000 || y.toNat ≤ p.y.toNat || !normalPos (recipSeg s) then .error i
      else validate (i + 1) ({ x, s, y, u := recipSeg s } :: p :: acc) es

/-- The entries of a table in memory: x in bytes 3:0, s in bytes 7:4 (R70). -/
def tableEntries (bs : List Byte) : List (BitVec 32 × BitVec 32) :=
  (List.range 16).map (fun i =>
    (BitVec.ofNat 32 (ofBytes ((bs.drop (8 * i)).take 4)), BitVec.ofNat 32 (ofBytes ((bs.drop (8 * i + 4)).take 4))))

end Sys2Proof.Machine
end

