-- ==== Sys2Proof/Machine/VectorInt.lean ====
section
/-!
DEFINITION. Vector integer arithmetic and logic (R127), and moves, broadcasts, single lanes, permutes and selects
(R132-R136).
-/

namespace Sys2Proof.Machine

/-- Lane arithmetic on two lanes of a type (R127): `x` and `y` are the bits of the lanes. -/
def laneAdd (t : Ty) (x y : Nat) : Nat := (x + y) % 2 ^ t.width
def laneSub (t : Ty) (x y : Nat) : Nat := (x + 2 ^ t.width - y) % 2 ^ t.width
def laneMul (t : Ty) (x y : Nat) : Nat := x * y % 2 ^ t.width
/-- The smaller or larger, compared by the type's sign (R127). -/
def laneMin (t : Ty) (x y : Nat) : Nat := if t.toInt x < t.toInt y then x else y
def laneMax (t : Ty) (x y : Nat) : Nat := if t.toInt x < t.toInt y then y else x
def laneAnd (_ : Ty) (x y : Nat) : Nat := x &&& y
def laneOr (_ : Ty) (x y : Nat) : Nat := x ||| y
def laneXor (_ : Ty) (x y : Nat) : Nat := x ^^^ y
/-- Shifts by y mod W (R127). -/
def laneShl (t : Ty) (x y : Nat) : Nat := x * 2 ^ (y % t.width) % 2 ^ t.width
def laneShr (t : Ty) (x y : Nat) : Nat := x / 2 ^ (y % t.width)
/-- Copies of the top bit enter, whatever the type's sign (R127). -/
def laneSra (t : Ty) (x y : Nat) : Nat :=
  let v : Int := if x ≥ 2 ^ (t.width - 1) then (x : Int) - 2 ^ t.width else x
  intBits t.width (v / 2 ^ (y % t.width))

/-- A binary integer instruction: immediate result, or deferred by eight cycles for `vmul` (R126, R127). -/
def State.vecInt (s : State) (k : MReg) (t : Ty) (d a : VReg) (b : VSrc) (f : Ty → Nat → Nat → Nat) : Eff :=
  s.vecNow k t.width d (a :: b.vecs) b.regs (fun i => f t (laneOf (s.vecVal a) t.width i) (s.srcLane t.width b i))

def State.vecIntLater (s : State) (k : MReg) (t : Ty) (d a : VReg) (b : VSrc) (f : Ty → Nat → Nat → Nat) : Eff :=
  s.vecLater k t.width d (a :: b.vecs) b.regs false 8
    (fun i => (f t (laneOf (s.vecVal a) t.width i) (s.srcLane t.width b i), 0))

/-- `vadd` on integers (R127). -/
def execVaddInt (k : MReg) (t : Ty) (d a b : VReg) (s : State) : Out1 := s.finish 8 (s.vecInt k t d a (.v b) laneAdd)
def execVaddIntScalar (k : MReg) (t : Ty) (d a : VReg) (b : SReg) (s : State) : Out1 :=
  s.finish 8 (s.vecInt k t d a (.x b) laneAdd)
/-- `vsub` on integers (R127). -/
def execVsubInt (k : MReg) (t : Ty) (d a b : VReg) (s : State) : Out1 := s.finish 8 (s.vecInt k t d a (.v b) laneSub)
def execVsubIntScalar (k : MReg) (t : Ty) (d a : VReg) (b : SReg) (s : State) : Out1 :=
  s.finish 8 (s.vecInt k t d a (.x b) laneSub)
/-- `vmul` on integers (R126, R127). -/
def execVmulInt (k : MReg) (t : Ty) (d a b : VReg) (s : State) : Out1 := s.finish 8 (s.vecIntLater k t d a (.v b) laneMul)
def execVmulIntScalar (k : MReg) (t : Ty) (d a : VReg) (b : SReg) (s : State) : Out1 :=
  s.finish 8 (s.vecIntLater k t d a (.x b) laneMul)
/-- `vmin` on integers (R127). -/
def execVminInt (k : MReg) (t : Ty) (d a b : VReg) (s : State) : Out1 := s.finish 8 (s.vecInt k t d a (.v b) laneMin)
def execVminIntScalar (k : MReg) (t : Ty) (d a : VReg) (b : SReg) (s : State) : Out1 :=
  s.finish 8 (s.vecInt k t d a (.x b) laneMin)
/-- `vmax` on integers (R127). -/
def execVmaxInt (k : MReg) (t : Ty) (d a b : VReg) (s : State) : Out1 := s.finish 8 (s.vecInt k t d a (.v b) laneMax)
def execVmaxIntScalar (k : MReg) (t : Ty) (d a : VReg) (b : SReg) (s : State) : Out1 :=
  s.finish 8 (s.vecInt k t d a (.x b) laneMax)
/-- `vand` (R127). -/
def execVand (k : MReg) (t : Ty) (d a b : VReg) (s : State) : Out1 := s.finish 8 (s.vecInt k t d a (.v b) laneAnd)
def execVandScalar (k : MReg) (t : Ty) (d a : VReg) (b : SReg) (s : State) : Out1 :=
  s.finish 8 (s.vecInt k t d a (.x b) laneAnd)
/-- `vor` (R127). -/
def execVor (k : MReg) (t : Ty) (d a b : VReg) (s : State) : Out1 := s.finish 8 (s.vecInt k t d a (.v b) laneOr)
def execVorScalar (k : MReg) (t : Ty) (d a : VReg) (b : SReg) (s : State) : Out1 :=
  s.finish 8 (s.vecInt k t d a (.x b) laneOr)
/-- `vxor` (R127). -/
def execVxor (k : MReg) (t : Ty) (d a b : VReg) (s : State) : Out1 := s.finish 8 (s.vecInt k t d a (.v b) laneXor)
def execVxorScalar (k : MReg) (t : Ty) (d a : VReg) (b : SReg) (s : State) : Out1 :=
  s.finish 8 (s.vecInt k t d a (.x b) laneXor)
/-- `vshl` (R127). -/
def execVshl (k : MReg) (t : Ty) (d a b : VReg) (s : State) : Out1 := s.finish 8 (s.vecInt k t d a (.v b) laneShl)
def execVshlScalar (k : MReg) (t : Ty) (d a : VReg) (b : SReg) (s : State) : Out1 :=
  s.finish 8 (s.vecInt k t d a (.x b) laneShl)
/-- `vshr` (R127). -/
def execVshr (k : MReg) (t : Ty) (d a b : VReg) (s : State) : Out1 := s.finish 8 (s.vecInt k t d a (.v b) laneShr)
def execVshrScalar (k : MReg) (t : Ty) (d a : VReg) (b : SReg) (s : State) : Out1 :=
  s.finish 8 (s.vecInt k t d a (.x b) laneShr)
/-- `vsra` (R127). -/
def execVsra (k : MReg) (t : Ty) (d a b : VReg) (s : State) : Out1 := s.finish 8 (s.vecInt k t d a (.v b) laneSra)
def execVsraScalar (k : MReg) (t : Ty) (d a : VReg) (b : SReg) (s : State) : Out1 :=
  s.finish 8 (s.vecInt k t d a (.x b) laneSra)

/-! ### Moves -/

/-- `vsel`: lane i from va where bit i of kc is 1, else from vb (R132). -/
def execVsel (k : MReg) (w : LaneW) (d a b : VReg) (c : MReg) (s : State) : Out1 :=
  s.finish 8 (s.vecNow k w.bits d [a, b] [] (fun i =>
    if s.maskBit c i then laneOf (s.vecVal a) w.bits i else laneOf (s.vecVal b) w.bits i))

/-- `vmov` (R133). -/
def execVmov (k : MReg) (w : LaneW) (d a : VReg) (s : State) : Out1 :=
  s.finish 8 (s.vecNow k w.bits d [a] [] (fun i => laneOf (s.vecVal a) w.bits i))

/-- `vbcast`: the low bits of a scalar in every active lane (R134). -/
def execVbcast (k : MReg) (t : Ty) (d : VReg) (a : SReg) (s : State) : Out1 :=
  s.finish 8 (s.vecNow k t.width d [] [a] (fun _ => (s.regVal a).toNat % 2 ^ t.width))

/-- The lane that `vext` and `vins` name (R135). -/
def State.laneIndex (s : State) (t : Ty) (b : SReg) (imm : BitVec 18) : Nat :=
  (s.regVal b + imm.signExtend 64).toNat % (512 / t.width)

/-- A lane as a 64-bit value: sign-extended for s types, zero-extended otherwise (R135, R137). -/
def laneWord (t : Ty) (x : Nat) : Word :=
  if t.isInt && t.signed then BitVec.ofInt 64 (t.toInt x) else BitVec.ofNat 64 x

/-- `vext`: lane n to a scalar, where `Mask(n)` is 1 (R135). -/
def execVext (k : MReg) (t : Ty) (d : SReg) (a : VReg) (b : SReg) (imm : BitVec 18) (s : State) : Out1 :=
  s.finish 8 (do
    s.needSrc [b]
    s.needVec [a]
    s.needDst d.val
    let n := s.laneIndex t b imm
    let x := laneWord t (laneOf (s.vecVal a) t.width n)
    .ok ((if s.maskBit k n then s.putResult [b] d x else s.popSrc [b]).retire 8))

/-- `vins`: the low bits of a scalar into lane n, where `Mask(n)` is 1 (R135). -/
def execVins (k : MReg) (t : Ty) (d : VReg) (a b : SReg) (imm : BitVec 18) (s : State) : Out1 :=
  s.finish 8 (do
    s.needSrc [a, b]
    s.needVDst d
    let n := s.laneIndex t b imm
    let w := t.width
    let m := BitVec.ofNat 512 ((2 ^ w - 1) * 2 ^ (w * n))
    let v := BitVec.ofNat 512 ((s.regVal a).toNat % 2 ^ w * 2 ^ (w * n))
    .ok ((if s.maskBit k n then s.putVec [a, b] d v m else s.popSrc [a, b]).retire 8))

/-- `vperm`: lane i receives lane (lane i of vb mod L) of va (R136). -/
def execVperm (k : MReg) (t : Ty) (d a b : VReg) (s : State) : Out1 :=
  s.finish 8 (s.vecNow k t.width d [a, b] [] (fun i =>
    laneOf (s.vecVal a) t.width (laneOf (s.vecVal b) t.width i % (512 / t.width))))

end Sys2Proof.Machine
end

