-- ==== Sys2Proof/Machine/VectorFp.lean ====
section
/-!
DEFINITION. Vector floating point (R128-R130), compares (R131) and reductions (R137).
-/

namespace Sys2Proof.Machine

/-- A binary floating-point instruction: lanes read under R57, computed and rounded once (R128). -/
def State.vecFp2 (s : State) (k : MReg) (t : Ty) (d a : VReg) (b : VSrc) (lat : Nat)
    (f : Fmt → Rm → Bool → FVal → FVal → Nat × Flags) : Eff :=
  let rd := t.fmt.read s.me.ftz
  s.vecLater k t.width d (a :: b.vecs) b.regs true lat (fun i =>
    f t.fmt s.me.rm s.me.ftz (rd (laneOf (s.vecVal a) t.width i)) (rd (s.srcLane t.width b i)))

/-- Subtraction: the second operand negated (R128). -/
def fpSub (f : Fmt) (rm : Rm) (ftz : Bool) (a b : FVal) : Nat × Flags := f.add rm ftz a b.negate
def fpMin (f : Fmt) (_ : Rm) (_ : Bool) (a b : FVal) : Nat × Flags := f.minMax true a b
def fpMax (f : Fmt) (_ : Rm) (_ : Bool) (a b : FVal) : Nat × Flags := f.minMax false a b

/-- `vadd` (R128). -/
def execVaddFp (k : MReg) (t : Ty) (d a b : VReg) (s : State) : Out1 := s.finish 8 (s.vecFp2 k t d a (.v b) 8 Fmt.add)
def execVaddFpScalar (k : MReg) (t : Ty) (d a : VReg) (b : SReg) (s : State) : Out1 :=
  s.finish 8 (s.vecFp2 k t d a (.x b) 8 Fmt.add)
/-- `vsub` (R128). -/
def execVsubFp (k : MReg) (t : Ty) (d a b : VReg) (s : State) : Out1 := s.finish 8 (s.vecFp2 k t d a (.v b) 8 fpSub)
def execVsubFpScalar (k : MReg) (t : Ty) (d a : VReg) (b : SReg) (s : State) : Out1 :=
  s.finish 8 (s.vecFp2 k t d a (.x b) 8 fpSub)
/-- `vmul` (R128). -/
def execVmulFp (k : MReg) (t : Ty) (d a b : VReg) (s : State) : Out1 := s.finish 8 (s.vecFp2 k t d a (.v b) 8 Fmt.mul)
def execVmulFpScalar (k : MReg) (t : Ty) (d a : VReg) (b : SReg) (s : State) : Out1 :=
  s.finish 8 (s.vecFp2 k t d a (.x b) 8 Fmt.mul)
/-- `vmin` (R128). -/
def execVminFp (k : MReg) (t : Ty) (d a b : VReg) (s : State) : Out1 := s.finish 8 (s.vecFp2 k t d a (.v b) 8 fpMin)
def execVminFpScalar (k : MReg) (t : Ty) (d a : VReg) (b : SReg) (s : State) : Out1 :=
  s.finish 8 (s.vecFp2 k t d a (.x b) 8 fpMin)
/-- `vmax` (R128). -/
def execVmaxFp (k : MReg) (t : Ty) (d a b : VReg) (s : State) : Out1 := s.finish 8 (s.vecFp2 k t d a (.v b) 8 fpMax)
def execVmaxFpScalar (k : MReg) (t : Ty) (d a : VReg) (b : SReg) (s : State) : Out1 :=
  s.finish 8 (s.vecFp2 k t d a (.x b) 8 fpMax)
/-- `vdiv` (R128). -/
def execVdiv (k : MReg) (t : Ty) (d a b : VReg) (s : State) : Out1 := s.finish 8 (s.vecFp2 k t d a (.v b) 32 Fmt.div)
def execVdivScalar (k : MReg) (t : Ty) (d a : VReg) (b : SReg) (s : State) : Out1 :=
  s.finish 8 (s.vecFp2 k t d a (.x b) 32 Fmt.div)

/-- A fused multiply-add of three vectors (R129). -/
def State.vecFma (s : State) (k : MReg) (t : Ty) (d a b c : VReg) (neg : Bool) : Eff :=
  let rd := fun (v : VReg) i => t.fmt.read s.me.ftz (laneOf (s.vecVal v) t.width i)
  s.vecLater k t.width d [a, b, c] [] true 12 (fun i =>
    t.fmt.fma s.me.rm s.me.ftz (rd a i) (rd b i) (if neg then (rd c i).negate else rd c i))

/-- `vfma` (R129). -/
def execVfma (k : MReg) (t : Ty) (d a b c : VReg) (s : State) : Out1 := s.finish 8 (s.vecFma k t d a b c false)
/-- `vfms` (R129). -/
def execVfms (k : MReg) (t : Ty) (d a b c : VReg) (s : State) : Out1 := s.finish 8 (s.vecFma k t d a b c true)

/-- A unary floating-point instruction (R130). -/
def State.vecFp1 (s : State) (k : MReg) (t : Ty) (d a : VReg) (lat : Nat) (f : Fmt → Rm → Bool → FVal → Nat × Flags) : Eff :=
  s.vecLater k t.width d [a] [] true lat (fun i =>
    f t.fmt s.me.rm s.me.ftz (t.fmt.read s.me.ftz (laneOf (s.vecVal a) t.width i)))

/-- `vsqrt` (R130). -/
def execVsqrt (k : MReg) (t : Ty) (d a : VReg) (s : State) : Out1 := s.finish 8 (s.vecFp1 k t d a 32 Fmt.sqrt)
/-- `vrcp` (R130). -/
def execVrcp (k : MReg) (t : Ty) (d a : VReg) (s : State) : Out1 := s.finish 8 (s.vecFp1 k t d a 16 Fmt.rcp)
/-- `vrsq` (R130). -/
def execVrsq (k : MReg) (t : Ty) (d a : VReg) (s : State) : Out1 := s.finish 8 (s.vecFp1 k t d a 16 Fmt.rsq)

/-- A sign operation: a NaN gives the canonical NaN with NV for a signalling one; otherwise no flag (R130). -/
def fpSign (g : FVal → FVal) (f : Fmt) (_ : Rm) (_ : Bool) (a : FVal) : Nat × Flags :=
  if a.isNan then f.nanOut a.isSig else (f.exact (g a), 0)

/-- `vabs` (R130). -/
def execVabs (k : MReg) (t : Ty) (d a : VReg) (s : State) : Out1 :=
  s.finish 8 (
    if t.isInt then s.vecNow k t.width d [a] [] (fun i =>
      intBits t.width (t.toInt (laneOf (s.vecVal a) t.width i)).natAbs)
    else s.vecFp1 k t d a 8 (fpSign FVal.abs))
/-- `vneg` (R130). -/
def execVneg (k : MReg) (t : Ty) (d a : VReg) (s : State) : Out1 :=
  s.finish 8 (
    if t.isInt then s.vecNow k t.width d [a] [] (fun i => intBits t.width (-(t.toInt (laneOf (s.vecVal a) t.width i))))
    else s.vecFp1 k t d a 8 (fpSign FVal.negate))

/-! ### Compares -/

/-- An integer comparison (R131). -/
def intCompare (cc : VCc) (x y : Int) : Bool :=
  match cc with
  | .eq => x == y
  | .ne => x != y
  | .lt => x < y
  | .le => x ≤ y
  | .gt => x > y
  | .ge => x ≥ y

/-- A lane of `vcmp`, by the type (R131). -/
def laneCompare (cc : VCc) (t : Ty) (ftz : Bool) (x y : Nat) : Bool × Flags :=
  if t.isInt then (intCompare cc (t.toInt x) (t.toInt y), 0)
  else fpCompare cc (t.fmt.read ftz x) (t.fmt.read ftz y)

/-- `vcmp`: kd receives the condition of each active lane, every other bit 0; the context offers nothing until the mask is
written, eight cycles for floating point (R26, R126, R131). -/
def State.vecCmp (s : State) (k : MReg) (cc : VCc) (t : Ty) (d : MReg) (a : VReg) (b : VSrc) : Eff := do
  s.needSrc b.regs
  s.needVec (a :: b.vecs)
  let w := t.width
  let rs := (List.range (512 / w)).map (fun i =>
    if s.maskBit k i then laneCompare cc t s.me.ftz (laneOf (s.vecVal a) w i) (s.srcLane w b i) else (false, 0))
  let fl := rs.foldl (fun f r => f ||| r.2) 0
  if s.fpTraps fl then .error (fpTrap fl)
  else
    let bits := BitVec.ofNat 64 (packNat 1 (rs.map (fun r => r.1.toNat)))
    let u := ((s.popSrc b.regs).writeMask d.val bits).modMe (fun c => { c.raise fl with
      holdTo := if t.isInt then c.holdTo else s.now + 8 })
    .ok (u.retire 8)

/-- `vcmp` (R131). -/
def execVcmp (k : MReg) (cc : VCc) (t : Ty) (d : MReg) (a b : VReg) (s : State) : Out1 :=
  s.finish 8 (s.vecCmp k cc t d a (.v b))
def execVcmpScalar (k : MReg) (cc : VCc) (t : Ty) (d : MReg) (a : VReg) (b : SReg) (s : State) : Out1 :=
  s.finish 8 (s.vecCmp k cc t d a (.x b))

/-! ### Reductions -/

/-- One combination of an integer reduction (R137). -/
def redInt (op : RedOp) (t : Ty) (x y : Nat) : Nat :=
  match op with
  | .add => laneAdd t x y
  | .min => laneMin t x y
  | .max => laneMax t x y
  | .and => x &&& y
  | .or => x ||| y
  | .xor => x ^^^ y

/-- The result of an integer reduction with every lane omitted (R137). -/
def redIntEmpty (op : RedOp) (t : Ty) : Nat :=
  match op with
  | .add | .or | .xor => 0
  | .and => 2 ^ t.width - 1
  | .min => intBits t.width t.highest
  | .max => intBits t.width t.lowest

/-- One combination of a floating-point reduction, rounded at its node (R73, R137). -/
def redFp (op : RedOp) (f : Fmt) (rm : Rm) (ftz : Bool) (x y : Nat × Flags) : Nat × Flags :=
  let a := f.read ftz x.1
  let b := f.read ftz y.1
  let r := match op with
    | .min => f.minMax true a b
    | .max => f.minMax false a b
    | _ => f.add rm ftz a b
  (r.1, x.2 ||| y.2 ||| r.2)

/-- The identity of a floating-point reduction (R73). -/
def redFpEmpty (op : RedOp) (f : Fmt) : Nat :=
  match op with
  | .min => f.infBits false
  | .max => f.infBits true
  | _ => 0

/-- The value and flags of `vred` (R73, R137). A single active lane is delivered as its bits stand, with no flag (DEDUCED, log 63). -/
def State.reduced (s : State) (k : MReg) (op : RedOp) (t : Ty) (a : VReg) : Nat × Flags :=
  let w := t.width
  let leaf := fun i => if s.maskBit k i then some (laneOf (s.vecVal a) w i) else none
  let xs := (List.range (512 / w)).map leaf
  if t.isInt then ((treeFold (redInt op t) 6 xs).getD (redIntEmpty op t), 0)
  else
    (treeFold (redFp op t.fmt s.me.rm s.me.ftz) 6 (xs.map (fun o => o.map (fun x => (x, (0 : Flags)))))).getD
      (redFpEmpty op t.fmt, 0)

/-- `vred` (R137): deferred, 8 cycles for integers and 24 for floating point (R126). -/
def execVred (k : MReg) (op : RedOp) (t : Ty) (d : SReg) (a : VReg) (s : State) : Out1 :=
  s.finish 8 (do
    s.needVec [a]
    s.needDst d.val
    let r := s.reduced k op t a
    if !t.isInt && s.fpTraps r.2 then .error (fpTrap r.2)
    else
      .ok (((s.markEmpty d.val).deferOuts [{ dst := s.dstOf d.val, val := (laneWord t r.1).setWidth 512 }] r.2 (!t.isInt)
        (if t.isInt then 8 else 24)).retire 8))

end Sys2Proof.Machine
end

