-- ==== Sys2Proof/Machine/Convert.lean ====
section
/-!
DEFINITION. Conversions, quantisation, companding and ternary packing (R142-R149).
-/

namespace Sys2Proof.Machine

/-- Elements of width `w` placed at element indices: value and mask. -/
def placeElems (w : Nat) (es : List (Nat × Nat)) : VWord × VWord :=
  es.foldl (fun (v, m) (i, x) =>
    (v ||| BitVec.ofNat 512 (x % 2 ^ w * 2 ^ (w * i)), m ||| BitVec.ofNat 512 ((2 ^ w - 1) * 2 ^ (w * i)))) (0, 0)

/-- `vcvt` (R142): the elements converted, placed by the part where the destination is not wider. -/
def State.converted (s : State) (k : MReg) (dt st : Ty) (a : VReg) (p : Nat) : List (Nat × Nat) × Flags :=
  let L := 512 / Nat.max dt.width st.width
  let is := (List.range L).filter (s.maskBit k)
  let rs := is.map (fun i =>
    let x := laneOf (s.vecVal a) st.width (if dt.width ≤ st.width then i else p * L + i)
    (if dt.width ≤ st.width then p * L + i else i, convertElem dt st s.me.rm s.me.ftz x))
  (rs.map (fun r => (r.1, r.2.1)), rs.foldl (fun f r => f ||| r.2.2) 0)

/-- The end of a deferred instruction with vector and scalar outputs; a floating-point one obeys R59 and R60. -/
def State.deferAll (s : State) (vs : List (VReg × VWord × VWord)) (x : Option (SReg × Word)) (fl : Flags) (fp : Bool)
    (lat : Nat) : Except Stop State :=
  if fp && s.fpTraps fl then .error (fpTrap fl)
  else
    let outs := vs.map (fun (d, v, m) => ({ dst := .v d.val m, val := v } : Out)) ++
      (x.map (fun (d, w) => ({ dst := s.dstOf d.val, val := w.setWidth 512 } : Out))).toList
    let u := vs.foldl (fun u v => u.markVec v.1.val) s
    let u := match x with
      | some (d, _) => u.markEmpty d.val
      | none => u
    .ok (u.deferOuts outs fl fp lat)

/-- `vcvt` (R142): deferred by 8 cycles; between integers it is no floating-point instruction. -/
def execVcvt (k : MReg) (dt st : Ty) (d a : VReg) (p : BitVec 4) (s : State) : Out1 :=
  s.finish 8 (do
    s.needVec [a]
    s.needVDst d
    let (es, fl) := s.converted k dt st a p.toNat
    let (v, m) := placeElems dt.width es
    let u ← s.deferAll [(d, v, m)] none fl (!(dt.isInt && st.isInt)) 8
    .ok (u.retire 8))

/-! ### Quantise and dequantise -/

/-- The register after a vector register. -/
def VReg.succ (v : VReg) : VReg := v + 1

/-- The registers that hold 32 values of a type: a pair for FP32 (R125, R143). -/
def groupRegs (t : Ty) (a : VReg) : List VReg := if t == .f32 then [a, VReg.succ a] else [a]

/-- The 32 values of a group, read under R57. -/
def State.groupVals (s : State) (t : Ty) (a : VReg) : List FVal :=
  ((groupRegs t a).flatMap (fun v => lanesOf (s.vecVal v) t.width)).map (t.fmt.read s.me.ftz)

/-- The element format of a scheme (R91). -/
def schemeFmt : Scheme → Fmt
  | .mxe4m3 => fmtE4M3
  | .mxe5m2 => fmtE5M2
  | .mxfp4 | .kb4 => fmtE2M1

/-- Compand a list of values first, where the instruction asks for it (R143). -/
def compandAll (tab : List Seg) (cmp inverse : Bool) (vs : List FVal) : List FVal × Flags :=
  if cmp then
    let rs := vs.map (compand tab inverse)
    (rs.map (fun r => fmt32.read false r.1), rs.foldl (fun f r => f ||| r.2) 0)
  else (vs, 0)

/-- What `vq` makes of a group: the scale or the four block scales, the elements and the flags (R143, R144). -/
def State.quantised (s : State) (sch : Scheme) (cmp : Bool) (t : Ty) (a : VReg) (b : SReg) : Nat × List Nat × Flags :=
  let (vs, f0) := compandAll s.myCore.table cmp false (s.groupVals t a)
  let (res, es, f1) :=
    if sch == .kb4 then
      let (bs, es, f) := kb4Group s.me.rm ((s.regVal b).toNat % 65536) vs
      (packNat 8 bs, es, f)
    else mxQuant (schemeFmt sch) s.me.rm vs
  (res, es, f0 ||| f1)

/-- `vq` (R143, R144): elements into the part of vd, the scale or the four block scales into xc. -/
def execVq (k : MReg) (sch : Scheme) (cmp : Bool) (t : Ty) (d : VReg) (c : SReg) (a : VReg) (b : SReg) (p : BitVec 2)
    (s : State) : Out1 :=
  s.finish 8 (s.gated k 8 do
    s.needSrc [b]
    s.needVec (groupRegs t a)
    s.needVDst d
    s.needDst c.val
    let (res, es, fl) := s.quantised sch cmp t a b
    let (v, m) := placeElems (schemeFmt sch).width ((es.zipIdx).map (fun (x, j) => (32 * p.toNat + j, x)))
    let u ← (s.popSrc [b]).deferAll [(d, v, m)] (some (c, BitVec.ofNat 64 res)) fl true 12
    .ok (u.retire 8))

/-- One value of `vdq`: rounded to FP32, expanded where asked, rounded to the type, FP32 too (R57, R145). With ftz = 1 the first rounding
flushes a tiny value already, with UF and NX, and `.exp` then expands zero (DESIGN CHOICE, log 66: R145 says `under R53`, and R57 speaks
of the results of arithmetic and of conversion). -/
def State.dequant (s : State) (tab : List Seg) (sch : Scheme) (exp : Bool) (t : Ty) (scale band e j : Nat) : Nat × Flags :=
  let (y, f0) :=
    if sch == .kb4 then kb4Value band (scale / 256 ^ (j / 8) % 256) e else (mxValue (schemeFmt sch) (scale % 256) e, 0)
  let (b, f1) := fmt32.convert s.me.rm s.me.ftz y
  let (b, f2) := if exp then compand tab true (fmt32.read s.me.ftz b) else (b, 0)
  let (b, f3) := t.fmt.convert s.me.rm s.me.ftz (fmt32.read false b)
  (b, f0 ||| f1 ||| f2 ||| f3)

/-- The 32 values of `vdq` with their flags (R145). -/
def State.dequantised (s : State) (sch : Scheme) (exp : Bool) (t : Ty) (a : VReg) (b c : SReg) (p : BitVec 2) : List (Nat × Flags) :=
  (List.range 32).map (fun j => s.dequant s.myCore.table sch exp t (s.regVal b).toNat ((s.regVal c).toNat % 65536)
    (laneOf (s.vecVal a) (schemeFmt sch).width (32 * p.toNat + j)) j)

/-- `vdq` (R145). -/
def execVdq (k : MReg) (sch : Scheme) (exp : Bool) (t : Ty) (d a : VReg) (b c : SReg) (p : BitVec 2) (s : State) : Out1 :=
  s.finish 8 (s.gated k 8 do
    s.needSrc [b, c]
    s.needVec [a]
    (groupRegs t d).foldlM (fun _ v => s.needVDst v) ()
    let rs := s.dequantised sch exp t a b c p
    let fl := rs.foldl (fun f r => f ||| r.2) 0
    let n := 512 / t.width
    let outs := ((groupRegs t d).zipIdx).map (fun (v, i) => (v, packLanes t.width (((rs.drop (n * i)).take n).map (·.1)), allBits))
    let u ← (s.popSrc [b, c]).deferAll outs none fl true 12
    .ok (u.retire 8))

/-- `vcomp` (R146): the table is read whole at issue (R72). -/
def execVcomp (k : MReg) (inverse : Bool) (d a : VReg) (s : State) : Out1 :=
  let tab := s.myCore.table
  s.finish 8 (s.vecLater k 32 d [a] [] true 8 (fun i =>
    compand tab inverse (fmt32.read s.me.ftz (laneOf (s.vecVal a) 32 i))))

/-! ### Loading a companding table (R147) -/

/-- The read that a `vqtab` of the acting context has sent for a table at `ea`, at this level. -/
def State.tabOp (s : State) (ea : Nat) : Option Op :=
  s.ops.find? (fun o => o.ctx == s.cur && o.kind == .vqtab && o.priv == s.me.priv && o.ea == ea)

/-- Reads that have arrived and that no `vqtab` has taken are forgotten. -/
def State.forgetTabs (s : State) : State := s.setOps (s.ops.filter (fun o => !(o.ctx == s.cur && o.kind == .vqtab && o.arrived)))

/-- The value bytes that the parts of a load have collected. -/
def Op.valueBytes (o : Op) (n : Nat) : List Byte :=
  (List.range n).map (fun i =>
    match o.parts.find? (fun p => p.dst ≤ i && i < p.dst + p.data.length) with
    | some p => (p.data.getD (i - p.dst) none).getD 0
    | none => 0)

/-- `vqtab`: it sends its read and parks; when the bytes are there it validates and installs them, or traps with cause 0x0E
(R71, R147). A context that an interrupt or a notice takes out of the park finds its read again when it comes back to a
`vqtab` of the same table; `CheckLocal` is not made a second time then (DESIGN CHOICE, log 19). -/
def execVqtab (k : MReg) (a : SReg) (imm : Imm) (s : State) : Out1 :=
  s.finish imm.bytes (s.gated k imm.bytes do
    s.needSrc [a]
    let ea := s.regVal a + imm.value
    match s.tabOp ea.toNat with
    | some o =>
      if !o.arrived then .error (.park .own)
      else
        let u := s.dropOp o.id
        match validate 0 [] (tableEntries (o.valueBytes 128)) with
        | .ok tab => .ok (((u.popSrc [a]).modCore s.cid (fun c => { c with comp := tab })).retire imm.bytes)
        | .error i => .ok ((u.takeTrap 0x0E (BitVec.ofNat 64 i) s.me.pc false false).endedPast imm.bytes)
    | none =>
      let pl ← checkLocal s s.cid s.me.priv ea 128 false
      let ps := s.partsAt s.cid 0 pl ea 0 (readBytes 128)
      s.mayAccess s.cur .ld 1 ps
      .ok ((s.forgetTabs.launchOp
        { id := 0, ctx := s.cur, kind := .vqtab, priv := s.me.priv, parts := ps, size := 128, ea := ea.toNat } 1
        (s.now + s.opLat s.cid ps)).park .own))

/-! ### Packed ternary -/

/-- `t5pack` (R148): 128 s8 lanes, saturated to -1..1, into 26 bytes and six zero bytes of half p. -/
def execT5pack (k : MReg) (d a : VReg) (p : BitVec 1) (s : State) : Out1 :=
  s.finish 8 (s.gated k 8 do
    s.needVec [a, VReg.succ a]
    s.needVDst d
    let ws := (lanesOf (s.vecVal a) 8 ++ lanesOf (s.vecVal (VReg.succ a)) 8).map Ty.s8.toInt
    let bs := packTrits 26 ws ++ List.replicate 6 0
    let (v, m) := placeElems 8 ((bs.zipIdx).map (fun (x, j) => (32 * p.toNat + j, x)))
    .ok ((s.writeVec d.val v m).retire 8))

/-- `t5unpk` (R149): an illegal byte traps with cause 0x0D and its index in va. -/
def execT5unpk (k : MReg) (d a : VReg) (p : BitVec 1) (s : State) : Out1 :=
  s.finish 8 (s.gated k 8 do
    s.needVec [a]
    s.needVDst d
    s.needVDst (VReg.succ d)
    let bs := (List.range 26).map (fun j => laneOf (s.vecVal a) 8 (32 * p.toNat + j))
    match (bs.zipIdx).find? (fun (x, _) => x ≥ 243) with
    | some (_, j) => .error (.trap 0x0D (BitVec.ofNat 64 (32 * p.toNat + j)))
    | none =>
      let ws := (bs.flatMap trits).map (intBits 8)
      .ok (((s.writeVec d.val (packLanes 8 (ws.take 64)) allBits).writeVec (VReg.succ d).val
        (packLanes 8 ((ws.drop 64).take 64)) allBits).retire 8))

end Sys2Proof.Machine
end

