-- ==== Sys2Proof/Machine/Versions.lean ====
section
/-!
DEFINITION. Versioned reads, validate sets and atomics (R231-R246). What the slice does with them (`atomicStep`) stands
here; when it does it stands with the events of the memory.
-/

namespace Sys2Proof.Machine

/-! ### Checks and the launch of a slice-executed access -/

/-- The checks of R232 on the address of a slice-executed access: 0x0B, 0x08, 0x04. -/
def checkAtomic (ea : Word) (size : Nat) : Except Stop Unit := do
  checkLine ea
  if ea.toNat % size = 0 then .ok () else .error (.trap 0x04 ea)

/-- The alignment check of `ld.acq` and `st.rel` (R232). -/
def checkAligned (size : Nat) (ea : Word) : Except Stop Unit :=
  if ea.toNat % size = 0 then .ok () else .error (.trap 0x04 ea)

/-- A release may be sent at once; anything else is sent (R233). -/
def State.sendsNow (s : State) (ord : Order) (sc : Scope) : Bool := !ord.isRel || s.orderedTo s.cur s.nid sc false

/-- `cas`, `casv`, `amo`, `red`: the operands are read at issue, and the access is performed at the home slice (R235). -/
def State.atomicOp (s : State) (k : MReg) (a : AtomK) (op : AmoOp) (sz : Size) (ord : Order) (sc : Scope) (d : SReg)
    (addr y : SReg) (z : Option SReg) : Eff :=
  s.gated k 8 do
    let xs := [addr, y] ++ z.toList
    s.needSrc xs
    s.needDst d.val
    let ea := s.regVal addr
    checkAtomic ea sz.bytes
    let ps := s.globalParts s.cid 0 ea.toNat 0 (readBytes sz.bytes)
    let cls : Cls := if a == .red then .st else .ld
    s.mayAccess s.cur cls 1 ps
    let kind := OpKind.atom a op (s.regVal y) ((z.map s.regVal).getD 0)
    let lat := s.opLat s.cid ps + (if a == .red then 0 else 20)
    let u := (s.popSrc xs).markEmpty d.val
    .ok ((u.launchOp
      { id := 0, ctx := s.cur, kind, priv := s.me.priv, order := ord, scope := sc, sent := s.sendsNow ord sc,
        parts := ps, outs := [{ dst := s.dstOf d.val }], size := sz.bytes } 1 (s.now + lat)).retire 8)

/-- `cas` (R235). -/
def execCas (k : MReg) (sz : Size) (o : Order) (sc : Scope) (d a b c : SReg) (s : State) : Out1 :=
  s.finish 8 (s.atomicOp k .cas .swap sz o sc d a b (some c))
/-- `casv` (R235). -/
def execCasv (k : MReg) (sz : Size) (o : Order) (sc : Scope) (d a b c : SReg) (s : State) : Out1 :=
  s.finish 8 (s.atomicOp k .casv .swap sz o sc d a b (some c))
/-- `amo` (R235, R236). -/
def execAmo (k : MReg) (op : AmoOp) (sz : Size) (o : Order) (sc : Scope) (d a b : SReg) (s : State) : Out1 :=
  s.finish 8 (s.atomicOp k .amo op sz o sc d a b none)
/-- `red`: no value, one on `st` (R237). -/
def execRed (k : MReg) (op : AmoOp) (sz : Size) (o : Order) (sc : Scope) (a b : SReg) (s : State) : Out1 :=
  s.finish 8 (s.atomicOp k .red op sz o sc 0 a b none)

/-- `ld.acq` (R241), also at a well. -/
def execLdAcq (k : MReg) (sz : Size) (sc : Scope) (d a : SReg) (s : State) : Out1 :=
  s.finish 8 (s.loadOp k 8 d a 0 sz.bytes false .acq sc (checkAligned sz.bytes))
/-- `st.rel` (R241), also at a well. -/
def execStRel (k : MReg) (sz : Size) (sc : Scope) (a b : SReg) (s : State) : Out1 :=
  s.finish 8 (s.storeOp k 8 a b 0 sz.bytes .rel sc (checkAligned sz.bytes))

/-! ### Versioned reads and validate sets -/

/-- `ldv`, `ldv.set`: data into d and the line's version into c (R243). -/
def execLdv (k : MReg) (set : Bool) (d a c : SReg) (s : State) : Out1 :=
  s.finish 8 (s.gated k 8 do
    s.needSrc [a]
    s.needDst d.val
    s.needDst c.val
    let ea := s.regVal a
    checkAtomic ea 8
    let ps := s.globalParts s.cid 0 ea.toNat 0 (readBytes 8)
    s.mayAccess s.cur .ld 1 ps
    .ok (((((s.popSrc [a]).markEmpty d.val).markEmpty c.val).launchOp
      { id := 0, ctx := s.cur, kind := .ldv set, priv := s.me.priv, parts := ps,
        outs := [{ dst := s.dstOf d.val }, { dst := s.dstOf c.val }], size := 8 } 1
      (s.now + s.opLat s.cid ps)).retire 8))

/-- The result word of `verchk` (R244). -/
def verWord (chg : Nat) (mis ovf : Bool) : Word :=
  BitVec.ofNat 64 (chg * 256 + mis.toNat * 4 + ovf.toNat * 2 + (!mis && !ovf && chg == 0).toNat)

/-- One check for each entry of the acting context's validate set (R244), against the version and the generation of the slice that
gave it (R280, R362), ordered under the kind that the NI holds for its page (R410). -/
def State.checks (s : State) : List Part :=
  (s.me.vset.ents.zipIdx).map (fun (e, i) =>
    { acc := i, va := e.line * 256, dst := 0, data := [some 0], pk := s.kindOf s.cid (e.line * 256), y := e.ver, gen := e.gen
      slice := e.slice })

/-- `verchk` (R244). -/
def execVerchk (k : MReg) (d : SReg) (s : State) : Out1 :=
  s.finish 8 (s.gated k 8 do
    s.needDst d.val
    if s.me.count .ld != 0 then .error (.park .own)
    else
      let v := s.me.vset
      if v.ovf || v.mis then .ok ((s.writeReg d.val (verWord 0 v.mis v.ovf)).retire 8)
      else if v.ents.isEmpty then .ok ((s.writeReg d.val (verWord 0 false false)).retire 8)
      else
        let ps := s.checks
        s.mayAccess s.cur .ld ps.length ps
        .ok (((s.markEmpty d.val).launchOp
          { id := 0, ctx := s.cur, kind := .verchk, priv := s.me.priv, parts := ps, outs := [{ dst := s.dstOf d.val }] }
          ps.length (s.now + s.opLat s.cid ps)).retire 8))

/-- `verclr` (R245). -/
def execVerclr (k : MReg) (s : State) : Out1 :=
  s.finish 8 (s.gated k 8 (.ok ((s.modMe (fun c => { c with vset := {} })).retire 8)))

/-- `ldv.set` when its result returns (R243, R280). -/
def VSet.add (v : VSet) (e : VEntry) : VSet :=
  match v.ents.find? (fun x => x.line == e.line) with
  | some x => if x.ver == e.ver then v else { v with mis := true }
  | none => if 8 ≤ v.ents.length then { v with ovf := true } else { v with ents := v.ents ++ [e] }

/-! ### Vector atomics -/

/-- The lanes that a `vamo` sends: active, and not applied before (R238). -/
def State.vamoLanes (s : State) (k : MReg) (w : Nat) : List Nat :=
  (List.range (512 / w)).filter (fun i => s.maskBit k i && !(s.me.vdone.getLsbD i))

/-- The address of a lane (R238). -/
def State.vamoAddr (s : State) (w : Nat) (a : SReg) (b : VReg) (i : Nat) : Word :=
  s.regVal a + (BitVec.ofNat w (laneOf (s.vecVal b) w i)).signExtend 64

/-- Every lane that will be sent is checked, in ascending order (R232). -/
def checkLanes (size : Nat) (addr : Nat → Word) : List Nat → Except Stop Unit
  | [] => .ok ()
  | i :: is => do
    checkAtomic (addr i) size
    checkLanes size addr is

/-- Bits of a vector register that stand for a list of lanes. -/
def lanesMask (w : Nat) (ls : List Nat) : VWord :=
  packLanes w ((List.range (512 / w)).map (fun i => if ls.contains i then 2 ^ w - 1 else 0))

/-- `vamo` (R238, R239): with no lane to send it ends at once. -/
def execVamo (k : MReg) (op : AmoOp) (sz : Size) (o : Order) (sc : Scope) (d : VReg) (a : SReg) (b c : VReg) (s : State) : Out1 :=
  s.finish 8 (do
    let w := 8 * sz.bytes
    s.needSrc [a]
    s.needVec [b, c]
    s.needVDst d
    let ls := s.vamoLanes k w
    checkLanes sz.bytes (s.vamoAddr w a b) ls
    let u := s.popSrc [a]
    if ls.isEmpty then .ok (((u.writeVec d.val 0 0).modMe (fun c => { c with vdone := 0 })).retire 8)
    else
      let ps := ls.flatMap (fun i =>
        (s.globalParts s.cid i (s.vamoAddr w a b i).toNat (i * sz.bytes) (readBytes sz.bytes)).map (fun p =>
          { p with y := BitVec.ofNat 64 (laneOf (s.vecVal c) w i) }))
      s.mayAccess s.cur .ld 1 ps
      .ok (((u.markVec d.val).launchOp
        { id := 0, ctx := s.cur, kind := .vamo op, priv := s.me.priv, order := o, scope := sc, sent := s.sendsNow o sc,
          parts := ps, outs := [{ dst := .v d.val (lanesMask w ls) }], size := sz.bytes } 1
        (s.now + s.opLat s.cid ps + 20 + ls.length - 1)).retire 8))

/-! ### The slice's step -/

/-- The operations of R236 on `n`-byte values; no flag is raised. -/
def amoValue (op : AmoOp) (n old y : Nat) : Nat :=
  let w := 8 * n
  let m := 2 ^ w
  let y := y % m
  let less := fun (x y : Nat) => (BitVec.ofNat w x).slt (BitVec.ofNat w y)
  match op with
  | .add => (old + y) % m
  | .and => old &&& y
  | .or => old ||| y
  | .xor => old ^^^ y
  | .minS => if less old y then old else y
  | .minZ => if old < y then old else y
  | .maxS => if less old y then y else old
  | .maxZ => if old < y then y else old
  | .swap => y
  | .addF32 => (fmt32.add 0 false (fmt32.read false old) (fmt32.read false y)).1

/-- `AtomicAtSlice` (R235): what is returned, and the new bytes where the atomic succeeds. -/
def atomicStep (a : AtomK) (op : AmoOp) (n old : Nat) (ver y z : Word) : Word × Option (List (Option Byte)) :=
  match a with
  | .cas => (BitVec.ofNat 64 old, if old == y.toNat % 256 ^ n then some (valueBytes n z.toNat) else none)
  | .casv => (ver, if ver == y then some (valueBytes n z.toNat) else none)
  | .amo | .red => (BitVec.ofNat 64 old, some (valueBytes n (amoValue op n old y.toNat)))

end Sys2Proof.Machine
end

