-- ==== Sys2Proof/Machine/Order.lean ====
section
/-!
DEFINITION. The ordering machine (R247-R264): where a store entry stands, what a read sees of the buffers on its way out,
when a part may be performed, and the kind table (R410).
-/

namespace Sys2Proof.Machine

/-! ### Entries and buffers -/

/-- Two contexts feed the same queue or buffer of a level (R248). -/
def Level.same (l : Level) (a b : Nat) : Bool :=
  match l with
  | .csq => a == b
  | .core => a / 16 == b / 16
  | .clu => a / 256 == b / 256
  | .die => dieOfCore (a / 16) == dieOfCore (b / 16)

/-- The next part outward (R248). -/
def Level.next : Level → Level
  | .csq => .core
  | .core => .clu
  | .clu | .die => .die

/-- The entry stands in context a's queue or in a buffer of its core, cluster or die. -/
def SEntry.onPath (e : SEntry) (a : Nat) : Bool := e.level.same e.place a

/-- The entry names a line of a function. -/
def SEntry.names (e : SEntry) (vf line : Nat) : Bool := e.vf == vf && e.line == line

/-- The byte that an entry holds for byte `i` of its line. -/
def SEntry.byteAt (e : SEntry) (i : Nat) : Option Byte := if i < e.lo then none else e.data.getD (i - e.lo) none

/-- Two entries of one line share a byte. -/
def SEntry.overlaps (e f : SEntry) : Bool :=
  e.names f.vf f.line && (List.range e.data.length).any (fun j => (e.byteAt (e.lo + j)).isSome && (f.byteAt (e.lo + j)).isSome)

/-- When the entry was appended to the scope buffer in which it stands. -/
def SEntry.stamp (e : SEntry) (l : Level) : Nat :=
  match l with
  | .core => e.nCore
  | .clu => e.nClu
  | .die => e.nDie
  | _ => 0

/-- An entry that a reader sees: of context `a` only from operations before `id` (R112); of others, in a scope buffer. -/
def SEntry.seenBy (e : SEntry) (a : Option Nat) (id : Nat) : Bool := a != some e.ctx || e.op < id

/-- The newest entry of one level that covers a byte for a reader in context number `at_` (R253). An entry of the reader's own is seen
wherever it stands: its team may have been restored elsewhere (R112, R350). -/
def State.entryAt (s : State) (l : Level) (a : Option Nat) (at_ id vf va : Nat) : Option (SEntry × Byte) :=
  match (s.sb.filter (fun e => e.level == l && (e.onPath at_ || a == some e.ctx) && e.names vf (va / 256) && e.seenBy a id &&
      (e.byteAt (va % 256)).isSome)).getLast? with
  | some e => (e.byteAt (va % 256)).map (fun b => (e, b))
  | none => none

/-- The entry from which a byte is taken: the context's queue, then the buffers outward; an engine starts at its core's
buffer (R253, R261). -/
def State.entryFor (s : State) (a : Option Nat) (at_ id vf va : Nat) : Option (SEntry × Byte) :=
  ((if a.isSome then [Level.csq] else []) ++ [Level.core, Level.clu, Level.die]).findSome? (fun l => s.entryAt l a at_ id vf va)

/-- The entries that an observation of `e` makes the context wait for: `e` and those appended to its buffer before it
(R257), those among them that a peer has not acknowledged too; each with its operation and part. -/
def State.observed (s : State) (e : SEntry) : List (Nat × Nat × Nat) :=
  if e.level == .csq then []
  else
    let l := e.level
    ((s.sb ++ s.far).filter (fun f => f.id == e.id ||
      (l.same f.place e.place && f.stamp l != 0 && f.stamp l < e.stamp l))).map (fun f => (f.id, f.op, f.part))

/-- Entry `e` may not pass `f`, which stands before it in one queue or buffer (R251). -/
def SEntry.behind (e f : SEntry) : Bool := f.overlaps e || (f.ctx == e.ctx && f.names e.vf e.line)

/-- Entries that stand before `e` in its queue or buffer and that it may not pass (R251). -/
def State.blockers (s : State) (e : SEntry) : List SEntry :=
  (s.sb.takeWhile (fun f => f.id != e.id)).filter (fun f => f.level == e.level && e.level.same f.place e.place && e.behind f)

/-- The line parts whose entries stand before those of a line part, and which it may not pass. -/
def State.partsBefore (s : State) (x : Nat × Nat) : List (Nat × Nat) :=
  (((s.sb.filter (fun e => e.op == x.1 && e.part == x.2)).flatMap s.blockers).map (fun f => (f.op, f.part))).filter (fun y => y != x)

/-- The line parts that a list of them waits for, directly or through others. -/
def State.waitsFor (s : State) : Nat → List (Nat × Nat) → List (Nat × Nat)
  | 0, l => l
  | fuel + 1, l => s.waitsFor fuel (l ++ l.flatMap s.partsBefore).eraseDups

/-- Every entry of the line part stands in its die buffer, and no line part that it may not pass stands before it, but for
those that wait for it in turn: pieces of two stores may stand in opposite orders, and one of them is then performed first
(R247, R251; log 61). -/
def State.partArrived (s : State) (op part : Nat) : Bool :=
  let es := s.sb.filter (fun e => e.op == op && e.part == part)
  !es.isEmpty && es.all (fun e => e.level == .die) &&
  (s.waitsFor s.sb.length (s.partsBefore (op, part))).all (fun y =>
    (s.waitsFor s.sb.length (s.partsBefore y)).contains (op, part))

/-! ### Performing -/

/-- The bytes of a part; a line without bytes is checked as one (R115). -/
def Part.bytes (p : Part) : Nat := Nat.max 1 p.data.length

/-- The rights that an operation's parts need, and their size (R272, R273). -/
def Op.acc (o : Op) (p : Part) : Acc :=
  let user := o.priv == .u
  let size := p.bytes
  match o.kind with
  | .store | .wb | .inv => { wr := true, user, win := p.win, size }
  | .atom a _ _ _ => { rd := true, wr := true, user, ver := a == .casv, win := p.win, size }
  | .vamo _ => { rd := true, wr := true, user, win := p.win, size }
  | .ldv _ | .verchk => { rd := true, user, ver := true, win := p.win, size }
  | .fetch => { fetch := true, user, win := p.win, size }
  | _ => { rd := true, user, win := p.win, size }

/-- Where an access goes: `none` where the home slice does not take the function's tag (R351). -/
def State.reachFor (s : State) (vf va : Nat) (acc : Acc) : Except (Option XFault) (Nat × Xlat) :=
  if !s.takesTag (s.homeSlice vf va) vf then .error none
  else
    match s.reach vf va acc with
    | .ok r => .ok r
    | .error f => .error (some f)

/-! ### Refusals (R361, R362, R368, R369) -/

/-- The numbers of the NIs of the host's link, of the scale-up ports, of the device's own accesses and of other agents in a slice's list,
after those of the cores (log 33). -/
def hostNi : Nat := 1280
def peerNi : Nat := 1281
def devNi : Nat := 1282
def agentNi : Nat := 1283

/-- A map generation has reached that of a refusal. -/
def genReached (now g : Nat) : Bool := (now + 65536 - g) % 65536 < 32768

/-- The line of an address leaves its slice under hash masks that have been announced (R361). -/
def State.leaving (s : State) (vf va : Nat) : Bool :=
  match (s.vfAt vf).newMask with
  | some (i, v) => homeUnder (Tbl.set 0 (s.vfAt vf).hmask i v) va != homeUnder (s.vfAt vf).hmask va
  | none => false

/-- Slice `n` has room for a request: its buffer is not full, or an entry is kept for the NI, which sends a refused request again
(R368, R369). -/
def State.hasRoom (s : State) (n : Nat) (ni : Option Nat) : Bool :=
  let x := s.sliceAt n
  !x.recov && (!x.full || x.kept.any (fun (k, until_) => some k == ni && decide (s.now < until_)))

/-- The slice accepts a request (R361, R368); `ni` is the NI that sends a refused one again. -/
def State.accepts (s : State) (vf va n : Nat) (ni : Option Nat) : Bool := !(s.leaving vf va) && s.hasRoom n ni

/-- What a slice answers to a request of an NI that it does not accept: NORES, which enters the NI in the slice's list of 64, or GEN
with the announced generation; in recovery always NORES (R361, R368, R369). Gives the generation of a GEN, and whether a permit is
to come. -/
def State.refusal (s : State) (vf va n ni : Nat) : State × Option Nat × Bool :=
  let x := s.sliceAt n
  if s.leaving vf va && !x.recov then (s, some (((s.vfAt vf).mapgen + 1) % 65536), false)
  else if x.permits.contains ni then (s, none, true)
  else if x.permits.length < 64 then (s.setSlice n { x with permits := x.permits ++ [ni] }, none, true)
  else (s, none, false)

/-- The refused request is that of a part of an operation. -/
def Refused.isOf (r : Refused) (op part : Nat) : Bool := r.op == op && r.part == part

/-- A core's request is refused, and its NI holds it. -/
def State.refuse (s : State) (core op k n va : Nat) : State :=
  let (u, gen, permit) := s.refusal (s.vfOfCore core) va n core
  u.modCore core (fun c => { c with
    refu := c.refu.filter (fun r => !(r.isOf op k)) ++ [{ op, part := k, slice := n, gen, permit, at_ := s.now }] })

/-- Slice `n` has accepted no request in this slice cycle, which is two cycles, and none of the device waits for it (R225). -/
def State.slotFree (s : State) (n : Nat) : Bool := (s.sliceAt n).last.all (fun l => decide (l < s.now / 2))

/-- A request is accepted: it takes the next slice cycle that is free, and an entry that was kept for its NI; it is performed at once,
so that its entry of the buffer becomes free (R225, R369). -/
def State.admitted (s : State) (n : Nat) (ni : Option Nat) : State :=
  let x := s.sliceAt n
  let at_ := match x.last with
    | some l => if l < s.now / 2 then s.now / 2 else l + 1
    | none => s.now / 2
  let kept := match x.kept.find? (fun (k, _) => some k == ni) with
    | some e => x.kept.erase e
    | none => x.kept
  s.setSlice n { x with kept, last := some at_, freed := if x.permits.isEmpty then 0 else x.freed + 1 }

/-- The NI of a core, where the request is one that it sends again. -/
def State.resender (s : State) (core op k : Nat) : Option Nat :=
  if (s.coreAt core).refu.any (fun r => r.isOf op k) then some core else none

/-- Slice `n` has accepted a core's request; its NI holds it no more. -/
def State.acceptFrom (s : State) (core op k n : Nat) : State :=
  (s.admitted n (s.resender core op k)).modCore core (fun c => { c with refu := c.refu.filter (fun r => !(r.isOf op k)) })

/-- An access at its slice: it waits for a slice cycle, is refused, or is performed by `go`. -/
def State.orRefuse (s : State) (o : Op) (k : Nat) (p : Part) (n : Nat) (go : State) : Option State :=
  let core := o.ctx / 16
  if !(s.slotFree n) then none
  else if s.accepts (s.vfOfCore core) p.va n (s.resender core o.id k) then some (go.acceptFrom core o.id k n)
  else some (s.refuse core o.id k n p.va)

/-- An operation that a slice executes in one step (R254), a prefetch among them. -/
def OpKind.atSlice : OpKind → Bool
  | .atom _ _ _ _ | .vamo _ | .ldv _ | .verchk | .arm _ | .pf => true
  | _ => false

/-- Part (id, k) comes before part (id', k') in program order. -/
def earlier (id k id' k' : Nat) : Bool := decide (id < id') || (id == id' && decide (k < k'))

/-- The entry was issued before part `k` of an operation: a replay is a new issue (R45, R225). -/
def State.entryBefore (s : State) (e : SEntry) (o : Op) (k : Nat) : Bool :=
  match s.opAt e.op with
  | some u => issuedBefore (u.key e.part) (o.key k)
  | none => decide (e.op < o.id)

/-- An entry of the context's own earlier operations for the line has not been performed (R112, R253). -/
def State.ownEntry (s : State) (o : Op) (k vf line : Nat) : Bool :=
  s.sb.any (fun e => e.ctx == o.ctx && s.entryBefore e o k && e.names vf line)

/-- An entry of another context, which part `k` of `o` does not wait for: it waits for a slice-executed access of its own context
(R225), that one waits for an entry which `o`'s context has issued after the part, and the context has not observed the entry. Of two
such accesses one comes first, since every entry reaches its slice (R247; DEDUCED, log 27). -/
def State.mutual (s : State) (e : SEntry) (o : Op) (k vf line : Nat) : Bool :=
  (s.opAt e.op).any (fun u => s.lineBefore u e.part line OpKind.atSlice PartSt.pending) &&
  s.sb.any (fun f => f.ctx == o.ctx && f.names vf line && f.onPath e.place && !(s.entryBefore f o k)) &&
  !((s.ctxAt o.ctx).seen.any (fun x => x.1 == e.id))

/-- An entry for the line stands in the context's queue or in the scope buffers of its core, cluster and die (R254). -/
def State.pathEntry (s : State) (o : Op) (k vf line : Nat) : Bool :=
  s.sb.any (fun e => e.names vf line && e.onPath o.ctx && e.ctx != o.ctx && !(s.mutual e o k vf line)) || s.ownEntry o k vf line

/-- The page requests of a context that the host has not answered (R275, R277). -/
def State.requestsOf (s : State) (a : Nat) : List PageReq :=
  let f := s.vfAt (s.vfOfCore (a / 16))
  (f.prqs ++ f.asked).filter (fun r => r.ctx == a && !r.void)

/-- The access lies in a page for which the context awaits the host (R276): an earlier access is held for it, or a lane of an
earlier `vamo` has asked (R275). -/
def State.heldBehind (s : State) (o : Op) (k : Nat) (p : Part) : Bool :=
  p.well.isNone && (s.ops.any (fun u => u.ctx == o.ctx && (u.parts.zipIdx).any (fun (q, j) =>
    q.st == .held && q.deleg && q.va / 65536 == p.va / 65536 && earlier u.id j o.id k)) ||
    (s.requestsOf o.ctx).any (fun r => r.page == p.va / 65536 && decide (r.ord < o.id)))

/-- A byte of the part is to be read from the slice. -/
def State.fromSlice (s : State) (a : Option Nat) (at_ id vf va : Nat) (want : List Bool) : Bool :=
  (want.zipIdx).any (fun (w, i) => w && (s.entryFor a at_ id vf (va + i)).isNone)

/-- The requests of one context to one line are performed in the order of their issue (R225). -/
def State.requestTurn (s : State) (o : Op) (k line : Nat) : Bool :=
  !(s.lineBefore o k line (fun u => u.byParts || u.atSlice) PartSt.pending)

def OpKind.isLdv : OpKind → Bool
  | .ldv _ => true
  | _ => false

/-- What comes before a global part for its line has been performed, and it is sent (R225, R233, R251-R254). A load part waits for
every earlier load part of the line in a state that `g` names, for every earlier `ldv` of it (R246), and for other earlier requests
only where it reads the slice. -/
def State.partOpenBy (s : State) (g : PartSt → Bool) (o : Op) (k : Nat) (p : Part) : Bool :=
  let vf := s.vfOfCore (o.ctx / 16)
  let line := p.va / 256
  p.st == .todo && p.well.isNone && o.sent &&
  (if o.kind.byParts then
    !(s.lineBefore o k line OpKind.byParts g) && !(s.lineBefore o k line OpKind.isLdv PartSt.pending) &&
    (!(s.fromSlice (some o.ctx) o.ctx o.id vf p.va (p.data.map Option.isSome)) ||
      (s.requestTurn o k line && !(s.ownEntry o k vf line)))
  else if o.kind.isStore then
    !(s.lineBefore o k line (fun _ => true) PartSt.pending) && s.partArrived o.id k
  else
    o.kind.atSlice && s.requestTurn o k line && !(if o.kind == .pf then s.ownEntry o k vf line else s.pathEntry o k vf line))

/-- A global part may be performed now but for a refusal: a load part waits for earlier ones of its line that are held, too (R253). -/
def State.partOpen (s : State) (o : Op) (k : Nat) (p : Part) : Bool := s.partOpenBy (fun x => x.pending || x == .held) o k p

/-- The place of a refused request in the order of issue. -/
def State.refusedKey (s : State) (r : Refused) : Nat × Nat × Nat :=
  match s.opAt r.op with
  | some o => o.key r.part
  | none => (r.op, r.op, r.part)

/-- The request could go out now: of a part, of a fetch, or of the copy at the head of a core that no stop holds. -/
def State.refusedOpen (s : State) (core : Nat) (r : Refused) : Bool :=
  match s.opAt r.op with
  | some o =>
    (match o.parts[r.part]? with
      | some p => if o.kind == .fetch then p.st == .todo && !(s.heldBehind o 0 p) else s.partOpen o r.part p
      | none => false)
  | none => (s.coreAt core).stopAt.isNone && (s.coreAt core).cq.head?.any (fun o => o.id == r.op)

/-- The NI sends a refused request again: it has been told to, and no other one for that slice that has issued before it could go
(R362, R368, R369). -/
def State.mayResend (s : State) (core : Nat) (r : Refused) : Bool :=
  r.again && !((s.coreAt core).refu.any (fun q => q.again && q.slice == r.slice &&
    issuedBefore (s.refusedKey q) (s.refusedKey r) && s.refusedOpen core q))

/-- The request of a part of a core's operation has been refused, and its NI holds it. -/
def State.isRefused (s : State) (core op k : Nat) : Bool :=
  (s.coreAt core).refu.any (fun r => r.isOf op k && !(s.mayResend core r))

/-- A global part may be performed now. -/
def State.partReady (s : State) (o : Op) (k : Nat) (p : Part) : Bool := s.partOpen o k p && !(s.isRefused (o.ctx / 16) o.id k)

/-- It meets its fault: behind a held load part of its line, too, since it performs nothing (R42; DEDUCED, log 12). -/
def State.mayFault (s : State) (o : Op) (k : Nat) (p : Part) : Bool :=
  s.partReady o k p || (s.partOpenBy PartSt.pending o k p && !(s.isRefused (o.ctx / 16) o.id k))

/-- Replace part `k` of an operation. -/
def Op.setPart (o : Op) (k : Nat) (p : Part) : Op := { o with parts := o.parts.set k p }

/-- The part has been performed: its response carries the kind of the leaf and the slice's generation (R410). -/
def Part.performed (p : Part) (s : State) (n : Nat) (x : Xlat) : Part :=
  { p with st := .done, far := x.tgt == 2, rk := some (x.kind, n, (s.sliceAt n).gen), rAt := s.now + 1 }

/-- Remove the entries of some parts of an operation (R252). -/
def State.dropEntries (s : State) (o : Op) (f : Part → Bool) : State :=
  s.setSb (s.sb.filter (fun e => !(e.op == o.id && ((o.parts[e.part]?).map f).getD false)))

/-- A part faults: it is held with its cause and value, and its entries leave the machine (R42, R252). Other parts of its
access are performed, and again at the replay (R113). -/
def State.holdPart (s : State) (o : Op) (k : Nat) (p : Part) (cause : Nat) (val : Word) (canDel deleg : Bool) (rep : Bool := false) : State :=
  (s.setSb (s.sb.filter (fun e => !(e.op == o.id && e.part == k)))).setOp
    (o.setPart k { p with st := .held, cause, kval := val, canDel, deleg, rep })

/-- The access joins those that await the host (R276); its NI sends nothing of it again. -/
def State.joinHeld (s : State) (o : Op) (k : Nat) (p : Part) : State :=
  (s.holdPart o k p 0x0A (BitVec.ofNat 64 p.va) true true true).modCore (o.ctx / 16) (fun c =>
    { c with refu := c.refu.filter (fun r => !(r.op == o.id && r.part == k)) })

/-- A part that is out and lies in a page for which its context awaits the host. -/
def State.joins (s : State) (o : Op) (k : Nat) (p : Part) : Bool := p.st == .todo && o.sent && s.heldBehind o k p

/-- Every memory access of an operation that is to be held behind an awaited page is held (R276). -/
def State.joinOp (s : State) (id : Nat) : State :=
  match s.opAt id with
  | none => s
  | some o =>
    if !o.kind.isMem then s
    else (List.range o.parts.length).foldl (fun s k =>
      match s.opAt id with
      | some o =>
        (match o.parts[k]? with
          | some p => if s.joins o k p then s.joinHeld o k p else s
          | none => s)
      | none => s) s

/-- Every later access to a page for which a context awaits the host is held, whatever else it waits for (R276, R277). -/
def State.joinBehind (s : State) : State :=
  if s.vfs.all (fun (_, f) => f.prqs.isEmpty && f.asked.isEmpty) then s else (s.ops.map (·.id)).foldl State.joinOp s

/-- The value of one line part: each wanted byte from the nearest entry, the others from the slice (R253). Gives the entries
read in scope buffers too. -/
def State.readLine (s : State) (a : Option Nat) (at_ id vf va n : Nat) (x : Xlat) (want : List Bool) :
    State × List (Option Byte) × List SEntry :=
  let es := (want.zipIdx).map (fun (w, i) => if w then s.entryFor a at_ id vf (va + i) else none)
  let (s, bs) := s.readWanted n vf va ((want.zip es).map (fun (w, e) => w && e.isNone)) x
  (s, ((want.zip es).zip bs).map (fun ((w, e), b) =>
      if w then some ((e.map (·.2)).getD b) else none), (es.filterMap (fun e => e)).map (·.1))

/-! ### The kind table (R410) -/

/-- A response for a page of a core: a new generation drops what the slice reported before; the kind is entered, the oldest
of 256 entries leaving (log 7). -/
def Core.takeKind (c : Core) (page slice : Nat) (kind : PKind) (gen : BitVec 32) : Core :=
  let ks := if Tbl.get 0 c.gens slice == gen then c.kinds else c.kinds.filter (fun e => e.slice != slice)
  { c with
    kinds := ({ page, kind, slice, gen } :: ks.filter (fun e => e.page != page)).take 256
    gens := Tbl.set 0 c.gens slice gen }

/-- Responses one after the other: page, slice, kind and generation. -/
def Core.takeCode (c : Core) (ks : List (Nat × Nat × PKind × BitVec 32)) : Core :=
  ks.foldl (fun c (page, slice, kind, gen) => c.takeKind page slice kind gen) c

/-- The parts of some operations whose responses come from slice `n` after `lo` and up to `hi`, in the order of their sending. -/
def responses (os : List Op) (n lo hi : Nat) : List Part :=
  sortBy (fun (p q : Part) => decide (p.rAt ≤ q.rAt)) ((os.flatMap (·.parts)).filter (fun p =>
    p.rk.any (fun r => r.2.1 == n) && decide (lo < p.rAt) && decide (p.rAt ≤ hi)))

/-- A response of slice `n` sent at `hi` reaches the core's NI, and so have those that the slice sent the core before it (R367,
R410). -/
def State.takeFrom (s : State) (o : Op) (n hi : Nat) : State :=
  let core := o.ctx / 16
  let lo := Tbl.get 0 (s.coreAt core).kAt n
  let ps := responses (o :: s.ops.filter (fun u => u.ctx / 16 == core && u.id != o.id)) n lo hi
  let u := ps.foldl (fun s p =>
    match p.rk with
    | some (kind, n, gen) => s.modCore core (fun c => c.takeKind (p.va / 65536) n kind gen)
    | none => s) s
  u.modCore core (fun c => { c with kAt := Tbl.set 0 c.kAt n (Nat.max lo hi) })

/-- The responses of an operation's parts reach the core's NI. -/
def State.takeKinds (s : State) (o : Op) : State :=
  o.parts.foldl (fun s p =>
    match p.rk with
    | some (_, n, _) => s.takeFrom o n p.rAt
    | none => s) s

/-- Those that have come before the operation ends: each is taken once. -/
def State.takeResponses (s : State) (o : Op) : Option State :=
  if o.parts.any (fun p => p.rk.isSome) then
    some ((s.takeKinds o).setOp { o with parts := o.parts.map (fun p => { p with rk := none }) })
  else none

end Sys2Proof.Machine
end

