-- ==== Sys2Proof/Machine/MemEvents.lean ====
section
/-!
DEFINITION. The events of the memory: store entries and load parts (R251-R253), slice-executed steps (R254), well ports
(R203), late faults (R42, R240, R275, R343), evictions, and the arrival of results (R22-R25, R111).
-/

namespace Sys2Proof.Machine

/-- A request that bears a foreign tag is discarded and reported to F (R351). -/
def State.lose (s : State) (o : Op) (k vf : Nat) (p : Part) : State :=
  ((s.dropEntries o (fun q => q == p)).setOp (o.setPart k { p with st := .lost })).modVf vf (fun v => { v with foreign := true })

/-- A malformed table entry is reported to the host (R272). -/
def State.reportTo (s : State) (vf va : Nat) (f : XFault) : State :=
  if f.report then s.modVf vf (fun v => { v with reports := v.reports ++ [va] }) else s

/-- A global part at its turn: it joins the accesses held before it, is discarded, meets a fault, which `bad` answers, or is
performed by `go` at the slice that it reaches. -/
def State.atTurnOr (s : State) (o : Op) (k : Nat) (p : Part) (bad : XFault → Option State) (go : Nat → Xlat → State) : Option State :=
  let vf := s.vfOfCore (o.ctx / 16)
  if s.joins o k p then some (s.joinHeld o k p)
  else if !s.partReady o k p then none
  else
    match s.reachFor vf p.va (o.acc p) with
    | .error none => some (s.lose o k vf p)
    | .error (some f) => bad f
    | .ok (n, x) => s.orRefuse o k p n (go n x)

/-- A global part at its turn, whose fault is a late fault of its own (LATE_FAULT). -/
def State.atTurn (s : State) (o : Op) (k : Nat) (p : Part) (go : Nat → Xlat → State) : Option State :=
  s.atTurnOr o k p (fun _ => none) go

/-- A part of an operation, by number. -/
def State.partAt (s : State) (id k : Nat) : Option (Op × Part) :=
  match s.opAt id with
  | some o => (o.parts[k]?).map (fun p => (o, p))
  | none => none

/-! ### Stores -/

/-- Nothing appended before the entry in its queue or buffer overlaps it or belongs to the same context and line (R251). -/
def State.mayMove (s : State) (e : SEntry) : Bool := (s.blockers e).isEmpty

/-- The entry in the next part outward, stamped with its place in the order of appending (R248, R257). -/
def SEntry.outward (e : SEntry) (stamp : Nat) : SEntry :=
  match e.level with
  | .csq => { e with level := .core, nCore := stamp }
  | .core => { e with level := .clu, nClu := stamp }
  | .clu | .die => { e with level := .die, nDie := stamp }

/-- ENTRY_MOVE_OUTWARD (R251). From the die buffer an entry goes to its slice with its whole line part, in LINE_PART_PERFORM, so
that it stays visible to its die until it is performed (R263; log 61). -/
def execEntryMoveOutward (op part piece : Nat) (s : State) : Out1 :=
  s.fired (
    match s.sb.find? (fun e => e.op == op && e.part == part && e.piece == piece) with
    | some e =>
      if e.level != .die && s.mayMove e then
        some (s.bumpId.setSb (s.sb.filter (fun f => f.id != e.id) ++ [e.outward s.nid]))
      else none
    | none => none)

/-- What a store, `wb` or `inv` does at its slice (R115, R224, R251). -/
def State.storeAtSlice (s : State) (o : Op) (p : Part) (n : Nat) (x : Xlat) : State :=
  let vf := s.vfOfCore (o.ctx / 16)
  let held := (s.lineOf (physKey x)).any (fun l => l.slice == n)
  match o.kind with
  | .wb => if held then s.writeBack (physKey x) else s
  | .inv => if held then s.dropLine (physKey x) else s
  | _ => s.writeGlobal n vf p.va p.data x

/-- LINE_PART_PERFORM (R251). -/
def execLinePartPerform (op part : Nat) (s : State) : Out1 :=
  s.fired (
    match s.partAt op part with
    | some (o, p) =>
      if !o.kind.isStore then none
      else s.atTurn o part p (fun n x =>
        let mine := fun (e : SEntry) => e.op == op && e.part == part
        let u := (s.storeAtSlice o p n x).setSb (s.sb.filter (fun e => !mine e))
        let u := if x.tgt == 2 then u.setFar (u.far ++ s.sb.filter mine) else u
        u.setOp (o.setPart part (p.performed u n x)))
    | none => none)

/-! ### Loads -/

/-- LOAD_PART_PERFORM (R253). -/
def execLoadPartPerform (op part : Nat) (s : State) : Out1 :=
  s.fired (
    match s.partAt op part with
    | some (o, p) =>
      let vf := s.vfOfCore (o.ctx / 16)
      if !o.kind.byParts then none
      else s.atTurn o part p (fun n x =>
        let (u, bs, es) := s.readLine (some o.ctx) o.ctx op vf p.va n x (p.data.map Option.isSome)
        let seen := es.flatMap s.observed
        let u := u.modCtx o.ctx (fun c => { c with seen := (c.seen ++ seen).eraseDups })
        u.setOp (o.setPart part { p.performed u n x with data := bs }))
    | none => none)

/-! ### Slice-executed accesses -/

/-- Bytes and version for a slice-executed access; a peer package's are its own to say (R283). -/
def State.readVersioned (s : State) (n vf va len : Nat) (x : Xlat) : State × Nat × Word :=
  let (u, bs) := s.readGlobal n vf va len x
  if x.tgt == 2 then
    let (u, vs) := u.freeBytes 8
    (u, ofBytes bs, BitVec.ofNat 64 (ofBytes vs))
  else (u, ofBytes bs, u.version (physKey x))

/-- An atomic or one lane of `vamo` at its slice (R235). -/
def State.atomicAtSlice (s : State) (a : AtomK) (op : AmoOp) (y z : Word) (vf : Nat) (p : Part) (n : Nat) (x : Xlat) :
    State × Part :=
  let len := p.data.length
  let (u, old, ver) := s.readVersioned n vf p.va len x
  let (r, new) := atomicStep a op len old ver y z
  let u := match new with
    | some bs => u.writeGlobal n vf p.va bs x
    | none => u
  (u, { p.performed u n x with res := r })

/-- Monitors that slice `n` has registered (R165). -/
def State.monitorsAt (s : State) (n : Nat) : Nat :=
  ((s.ctxs.map (fun (_, c) => c.mon.countP (fun (_, m) => m.used && m.reg && m.slice == n)))).sum

/-- The registration of an `arm` at slice `n` (R165, R166). -/
def State.register (s : State) (a op m n : Nat) (x : Xlat) : State :=
  let c := s.ctxAt a
  let mon := Tbl.get {} c.mon m
  let full := decide (4096 ≤ s.monitorsAt n)
  if mon.used && mon.op == op then
    s.setCtx a (c.setMon m { mon with reg := !full, trig := full, phys := physKey x, slice := n })
  else s

/-- A check of `verchk` at slice `n`: 1 where the line has changed, its slice's generation has, or its home (R244, R280, R362). -/
def State.checkAtSlice (s : State) (p : Part) (n : Nat) (x : Xlat) : State × Part :=
  if (s.sliceAt n).gen != p.gen || n != p.slice then (s, { p.performed s n x with res := 1 })
  else if x.tgt == 2 then
    let (u, b) := (s.sendPeer x [] 0).freeBytes 1
    (u, { p.performed u n x with res := BitVec.ofNat 64 (ofBytes b % 2) })
  else (s, { p.performed s n x with res := if s.version (physKey x) == p.y then 0 else 1 })

/-- SLICE_STEP (R254). -/
def execSliceStep (op part : Nat) (s : State) : Out1 :=
  s.fired (
    match s.partAt op part with
    | some (o, p) =>
      let vf := s.vfOfCore (o.ctx / 16)
      match o.kind with
      | .atom a f y z => s.atTurn o part p (fun n x =>
          let (u, q) := s.atomicAtSlice a f y z vf p n x
          u.setOp (o.setPart part q))
      | .vamo f => s.atTurn o part p (fun n x =>
          let (u, q) := s.atomicAtSlice .amo f p.y 0 vf p n x
          u.setOp (o.setPart part q))
      | .ldv _ => s.atTurn o part p (fun n x =>
          let (u, v, ver) := s.readVersioned n vf p.va p.data.length x
          u.setOp (o.setPart part { p.performed u n x with
            res := BitVec.ofNat 64 v, ver, gen := (u.sliceAt n).gen, slice := n }))
      | .arm m => s.atTurn o part p (fun n x =>
          let u := (s.keepPath (s.homeSlice vf p.va) vf p.va x).register o.ctx o.id m n x
          u.setOp (o.setPart part (p.performed u n x)))
      | .verchk =>
        s.atTurnOr o part p (fun f => some ((s.reportTo vf p.va f).setOp (o.setPart part { p with st := .done, res := 1 })))
          (fun n x =>
            let (u, q) := s.checkAtSlice p n x
            u.setOp (o.setPart part q))
      | .pf =>
        s.atTurnOr o part p (fun f => some ((s.reportTo vf p.va f).dropOp op)) (fun n x =>
          (if x.tgt == 2 then s else (s.atSlice n vf p.va x).fillFor (physKey x) 0 256).dropOp op)
      | _ => none
    | none => none)

/-! ### Well ports -/

/-- An earlier access of the core to the well is still to be performed at the port (R203). -/
def State.portBefore (s : State) (o : Op) (k w : Nat) : Bool :=
  s.ops.any (fun u => u.ctx / 16 == o.ctx / 16 && (u.parts.zipIdx).any (fun (p, j) =>
    p.well == some w && p.st == .todo && issuedBefore (u.key j) (o.key k)))

/-- The port of a well is free in this cycle: it performs one access per cycle (R203). -/
def State.portFree (s : State) (w : Nat) : Bool := decide (Tbl.get 0 s.mem.ports w ≤ s.now)

/-- The port has performed an access in this cycle. -/
def State.usePort (s : State) (w : Nat) : State := s.setMem { s.mem with ports := Tbl.set 0 s.mem.ports w (s.now + 1) }

/-- WELL_PORT_ACCESS (R203). -/
def execWellPortAccess (op part : Nat) (s : State) : Out1 :=
  s.fired (
    match s.partAt op part with
    | some (o, p) =>
      match p.well with
      | some w =>
        if p.st != .todo || !o.sent || s.portBefore o part w || !(s.portFree w) then none
        else if o.kind.isStore then
          some (((s.writeWell w p.off p.data).usePort w).setOp (o.setPart part { p with st := .done }))
        else
          let bs := s.readWell w p.off p.data.length
          let data := (p.data.zip bs).map (fun (d, b) => d.map (fun _ => b))
          some ((s.usePort w).setOp (o.setPart part { p with st := .done, data }))
      | none => none
    | none => none)

/-! ### Evictions -/

/-- EVICTION (R224). -/
def execEviction (line : Nat) (s : State) : Out1 :=
  s.fired ((s.lineOf line).map (fun _ => s.dropLine line))

/-! ### Late faults -/

/-- `kval` of a data error in a well (R343). -/
def State.wellErr (s : State) (w off : Nat) : Word :=
  let o := bankOff (s.bankAt w) off
  BitVec.ofNat 64 (2 ^ 63 + o / 0x10000 * 2 ^ 60 + wellClu w * 2 ^ 22 + w % 64 * 2 ^ 16 + o % 0x10000)

/-- A fetch fails: its trap waits at the instruction (R108). -/
def State.failFetch (s : State) (o : Op) (cause : Nat) (val : Word) : State :=
  (s.modCtx o.ctx (fun c => { c with
    parked := if c.parked == some .fetch then none else c.parked
    fetchF := some (o.size, cause, val) })).dropOp o.id

/-- The block that a fetch reads is lost (R343), or the peer package that holds it refuses the request (R379). -/
def State.fetchErr (s : State) (o : Op) (p : Part) : Option State :=
  if s.isRefused (o.ctx / 16) o.id 0 || s.heldBehind o 0 p || p.st != .todo then none
  else
    match s.reachFor (s.vfOfCore (o.ctx / 16)) p.va (o.acc p) with
    | .ok (n, x) =>
      s.orRefuse o 0 p n (if x.tgt == 2 then s.failFetch o 0x0B (BitVec.ofNat 64 o.size)
        else s.failFetch o 0x15 (BitVec.ofNat 64 (x.addr / 256 * 256)))
    | .error _ => none

/-- A fault at U is delegated: the header and the context allow it (R275). -/
def State.delegates (s : State) (a : Nat) (p : Priv) : Bool :=
  (s.hdrOf (a / 16)).traps.getLsbD 7 && p == .u && (s.ctxAt a).priv == .u && (s.ctxAt a).ucause == 0

/-- The page request that a delegated fault sends the host, once (R275, R375). -/
def State.askHost (s : State) (a va : Nat) (wr : Bool) (ord : Nat) : State :=
  if (s.requestsOf a).any (fun r => r.page == va / 65536 && r.ord == ord) then s
  else s.modVf (s.vfOfCore (a / 16)) (fun v =>
    VF.irq { v with prqs := v.prqs ++ [{ wr, page := va / 65536, tok := a, ctx := a, va, ord, team := (s.teamOf (a / 16)).map (·.id) }] } 1)

/-- A part meets its fault. Where that is delegated as things stand, the slice's NI sends the host its request at once; the upcall comes
at the next issue point (R42, R275; log 38). -/
def State.faultPart (s : State) (o : Op) (k : Nat) (p : Part) (f : XFault) : State :=
  let can := f.deleg && o.priv == .u
  let asks := can && !o.kind.isVamo && s.delegates o.ctx o.priv
  let u := (s.holdPart o k p f.cause (BitVec.ofNat 64 p.va) can asks).reportTo (s.vfOfCore (o.ctx / 16)) p.va f
  if asks then u.askHost o.ctx p.va (o.acc p).wr o.id else u

/-- LATE_FAULT (R42): the translation of a part fails, or its data is lost (R343); a peer package that has no binding
refuses it (R379). The value is the address of the part that faults (DEDUCED where the access spans lines, log 58). -/
def execLateFault (op part : Nat) (dataError : Bool) (s : State) : Out1 :=
  s.fired (
    match s.partAt op part with
    | some (o, p) =>
      let vf := s.vfOfCore (o.ctx / 16)
      match p.well with
      | some w =>
        if dataError && p.st == .todo && o.sent && o.kind.byParts && !(s.portBefore o part w) && s.portFree w then
          some ((s.holdPart o part p 0x15 (s.wellErr w p.off) false false).usePort w)
        else none
      | none =>
        if o.kind == .fetch then (if dataError then s.fetchErr o p else none)
        else if !s.mayFault o part p || o.kind == .verchk || o.kind == .pf || s.heldBehind o part p then none
        else
          match s.reachFor vf p.va (o.acc p) with
          | .error (some f) => some (s.faultPart o part p f)
          | .error none => none
          | .ok (n, x) =>
            if !dataError || !s.partReady o part p then none
            else
              s.orRefuse o part p n (if x.tgt == 2 then s.holdPart o part p 0x0B (BitVec.ofNat 64 p.va) false false
                else s.holdPart o part p 0x15 (BitVec.ofNat 64 (x.addr / 256 * 256)) false false)
    | none => none)

/-- The register file of a context takes a fill in this cycle: it has taken no other write (R171). -/
def State.fileFree (s : State) (a : Nat) : Bool := decide ((s.ctxAt a).rfAt ≤ s.now)

/-- A result goes into the register file of its context. -/
def Op.usesFile (o : Op) : Bool :=
  o.outs.any (fun d => match d.dst with
    | .x _ _ | .v _ _ => true
    | .c _ | .nowhere => false)

/-- The result has to wait: the register file of its context has taken its write of this cycle (R171, log 64). -/
def State.fileBusy (s : State) (o : Op) : Bool := o.usesFile && (s.coreAt (o.ctx / 16)).sleep == .awake && !(s.fileFree o.ctx)

/-- The lanes of a `vamo` that were applied: value and mask of vd, and bits of `vdone` (R240). -/
def Op.appliedLanes (o : Op) : VWord × VWord × Word :=
  let ps := o.parts.filter (fun p => p.st == .done)
  let w := 8 * o.size
  let (v, m) := placeElems w (ps.map (fun p => (p.acc, p.res.toNat)))
  (v, m, BitVec.ofNat 64 ((ps.map (fun p => 2 ^ p.acc)).sum))

/-- What VAMO_LANE_FAULT does (R240): the trap comes before what else is to be reported, at the `vamo`, behind which the context
still stands. A lane that awaits the host is waited for (R276). `kval` of a lost line is the physical address that R39 and R343 give cause
0x15, not the lane's address of which R240 speaks (DEDUCED, log 58). -/
def State.vamoFault (s : State) (o : Op) : Option State :=
  match o.kind, o.parts.find? (fun p => p.st == .held && !p.deleg) with
  | .vamo _, some p =>
    if o.parts.any (fun q => q.st.pending || (q.st == .held && q.deleg)) then none
    else
      let (v, m, bits) := o.appliedLanes
      let u := (s.takeKinds o).as o.ctx (fun s =>
        match o.outs with
        | { dst := .v n _, .. } :: _ => s.writeVec n v m
        | _ => s)
      let u := u.modCtx o.ctx (fun c => { c with
        vdone := c.vdone ||| bits
        lates := { cause := p.cause, val := p.kval, above := o.priv != .u, at_ := some (c.pc - 8), deleg := p.canDel, wr := true, ord := o.id } :: c.lates })
      let u := if p.canDel && s.delegates o.ctx o.priv then u.askHost o.ctx p.va true o.id else u
      some ((u.countDown o.ctx .ld).dropOp o.id)
  | _, _ => none

/-- VAMO_LANE_FAULT (R240): every lane has been applied or has faulted; the context takes the trap of the lowest faulting
lane. On a sleeping core it starts a wake and is applied when that ends (R161, R197). -/
def execVamoLaneFault (op : Nat) (s : State) : Out1 :=
  s.fired (
    match s.opAt op with
    | some o => if s.fileBusy o then none else s.awakeFor (o.ctx / 16) (.vamo op) (s.vamoFault o)
    | none => none)

/-! ### Arrivals -/

/-- Write and fill the destination of a deferred result of context `a`, made by issue number `by_` (R22, R25, R158, R301). -/
def State.deliver (s : State) (a by_ : Nat) (o : Out) : State :=
  match o.dst with
  | .nowhere => s
  | .x n shadow => s.modCtx a (fun c => (c.setX shadow n { val := o.val.setWidth 64 }).usesFile s.now)
  | .c n => s.modCore (a / 16) (fun k => k.cWrite s.now by_ n (some (o.val.setWidth 64)) true false)
  | .v n m => s.as a (fun s => s.writeVec n o.val m)

def State.deliverAll (s : State) (a by_ : Nat) (os : List Out) : State := os.foldl (fun s o => s.deliver a by_ o) s

/-- Give the outputs their values in order. -/
def Op.withVals (o : Op) (vs : List VWord) : List Out := (o.outs.zip vs).map (fun (x, v) => { x with val := v })

/-- The value of a load, extended from its size (R109, R241). -/
def Op.loadValue (o : Op) (sx : Bool) : VWord :=
  let v := ofBytes (o.valueBytes o.size)
  if sx then BitVec.ofNat 512 ((BitVec.ofNat (8 * o.size) v).signExtend 64).toNat else BitVec.ofNat 512 v

/-- A `vamo` ends: `vdone` is 0 (R239). -/
def State.vamoDone (s : State) (o : Op) : State := s.modCtx o.ctx (fun c => { c with vdone := 0 })

/-- What an operation's arrival delivers and changes in its context, where it may arrive. A second `arm` of a held line fills d with the
number that the replay registers; where the held one is discarded and never registers, with 4 (DESIGN CHOICE, log 24: R166 says
nothing). -/
def State.arrival (s : State) (o : Op) : Option State :=
  let a := o.ctx
  let p := o.parts.headD { acc := 0, va := 0, dst := 0, data := [] }
  let ready := o.allDone
  match o.kind with
  | .alu => some ((s.deliverAll a o.id o.outs).modCtx a (fun c => c.raise o.flags))
  | .load sx => if ready then some (s.deliverAll a o.id (o.withVals [o.loadValue sx])) else none
  | .lanes _ => if ready then some (s.deliverAll a o.id (o.withVals [o.loadValue false])) else none
  | .atom .red _ _ _ => none
  | .atom _ _ _ _ => if ready then some (s.deliverAll a o.id (o.withVals [p.res.setWidth 512])) else none
  | .ldv set =>
    if ready then
      let u := s.deliverAll a o.id (o.withVals [p.res.setWidth 512, p.ver.setWidth 512])
      let e : VEntry := { line := p.va / 256, ver := p.ver, gen := p.gen, slice := p.slice }
      some (if set then u.modCtx a (fun c => { c with vset := c.vset.add e }) else u)
    else none
  | .verchk =>
    if ready then
      let chg := (o.parts.map (fun q => q.res.toNat * 2 ^ q.acc)).sum
      some (s.deliverAll a o.id (o.withVals [(verWord chg false false).setWidth 512]))
    else none
  | .arm m =>
    if !ready || (m == armWaits && s.armWith a (p.va / 256) (fun x => x.pending || x == .held)) then none
    else
      let n := if m == armWaits then
          (match (s.ctxAt a).monOf (p.va / 256) with
            | some (n, _) => n
            | none => 4)
        else m
      some (s.deliverAll a o.id (o.withVals [BitVec.ofNat 512 n]))
  | .vamo _ =>
    if ready then some ((s.deliverAll a o.id (o.withVals [o.appliedLanes.1])).vamoDone o) else none
  | .rfill _ _ _ => if ready && o.issued < s.now then some (s.deliverAll a o.id (o.withVals [p.res.setWidth 512])) else none
  | .store | .wb | .inv | .pf | .tdec _ _ | .vqtab | .fetch => none

/-- What RESULT_ARRIVAL does: the operation ends, where every access of it has been performed. -/
def State.resultArrival (s : State) (o : Op) : Option State :=
  if o.kind == .vqtab then
    if o.allDone && !o.arrived then
      some (((s.takeKinds o).setOp { o with arrived := true, cnts := false }).countDown o.ctx .ld (if o.cnts then 1 else 0))
    else none
  else match s.arrival o with
  | some u =>
    let u := u.takeKinds o
    let u := match o.kind.cls with
      | some c => if o.cnts then u.countDown o.ctx c o.weight else u
      | none => u
    some (u.dropOp o.id)
  | none => none

/-- The operation ends with an acknowledge, and not with a result (R111). -/
def OpKind.acks : OpKind → Bool
  | .store | .wb | .inv => true
  | .atom .red _ _ _ => true
  | _ => false

/-- RESULT_ARRIVAL (R22-R25, R59, R111): the destination fills, flags are added, the class count falls. On a sleeping core
the arrival starts a wake and is applied when it ends (R197); one that finds the register file taken comes a cycle later (R171). Before that, responses of single parts reach the NI (R410). -/
def execResultArrival (op : Nat) (s : State) : Out1 :=
  s.fired (
    match s.opAt op with
    | some o =>
      if o.kind.acks then none
      else
        match s.resultArrival o with
        | some u => if s.fileBusy o then none else s.awakeFor (o.ctx / 16) (.result op) (some u)
        | none => s.takeResponses o
    | none => none)

/-- The accesses of a store that have been performed and not yet acknowledged. -/
def Op.toAck (o : Op) : List Nat :=
  o.accs.filter (fun a => !(o.acked.contains a) && (o.parts.filter (fun p => p.acc == a)).all (fun p => p.st == .done))

/-- STORE_ACKNOWLEDGE (R111): accesses of a store, `wb`, `inv` or `red` have been performed, and its count falls by them. -/
def execStoreAcknowledge (op : Nat) (s : State) : Out1 :=
  s.fired (
    match s.opAt op with
    | some o =>
      if !o.kind.acks then none
      else if o.toAck.isEmpty then s.takeResponses o
      else
        let r := { o with acked := o.acked ++ o.toAck, parts := o.parts.map (fun p => { p with rk := none }) }
        let u := s.takeKinds o
        let u := if o.cnts then u.countDown o.ctx .st o.toAck.length else u
        some (if r.acked.length == r.accs.length then u.dropOp op else u.setOp r)
    | none => none)

/-! ### Page requests -/

/-- Queue a completion notice; one that finds sixteen is dropped (R300). -/
def Ctx.notify (c : Ctx) (n : Notice) : Ctx :=
  if c.notes.length < 16 then { c with notes := c.notes ++ [n] } else { c with lost := true }

/-- The team that a page request came from is on the device (R348). -/
def State.asker (s : State) (r : PageReq) : Bool := r.team.all (fun i => s.teams.any (fun t => t.id == i && t.onDevice))

/-- An operation keeps the notice of a resolved page back: an access of it to the page has not been performed, or its register is about
to fill (R277). What it still does in other pages does not. -/
def PageReq.blocked (r : PageReq) (o : Op) : Bool :=
  r.ops.contains o.id && (o.parts.any (fun p => p.va / 65536 == r.page && !(p.st == .done || p.st == .gone)) || (!o.kind.acks && o.allDone))

/-- PAGE_RESOLVED (R277): every replayed access of the page has filled or been performed. -/
def execPageResolved (vf page token : Nat) (s : State) : Out1 :=
  s.fired (
    match (s.vfAt vf).answers.find? (fun r => r.page == page && r.tok == token) with
    | some r =>
      if r.late || !(s.asker r) || s.ops.any r.blocked then none
      else
        let u := s.modVf vf (fun v => { v with answers := v.answers.erase r })
        some (u.modCtx r.ctx (fun c => c.notify { kind := 3, tag := 0, addr := BitVec.ofNat 64 r.va }))
    | none => none)

end Sys2Proof.Machine
end

