-- ==== Sys2Proof/Machine/Groups.lean ====
section
/-!
DEFINITION. Groups and barriers (R185-R188) and tasks (R191-R195).
-/

namespace Sys2Proof.Machine

/-! ### Groups -/

/-- The members of a group as the acting core sees them: team indices, where the entry is valid and the core is one (R186). -/
def State.groupMembers (s : State) (g : Nat) : Option (Team × Nat × List Nat) :=
  match s.teamOf s.cid, s.launchOf s.cid with
  | some t, some l =>
    match t.indexOf s.cid with
    | some i =>
      let ms := Tbl.get [] l.groups g
      if g < 256 && ms.contains i then some (t, i, ms) else none
    | none => none
  | _, _ => none

/-- Not a member: cause 0x11 with the group (R186). -/
def notMember (g : Nat) : Stop := .trap 0x11 (BitVec.ofNat 64 g)

/-- The exchange-mode wells attached at a core, which a swap marks (R187, R328). -/
def State.exchWells (s : State) (core : Nat) : List Nat :=
  ((s.coreAt core).slots.filter (fun (_, x) => x.exch && x.st != .detached)).map (fun (_, x) => x.well)

/-- The episode that an arrival of team index `i` counts in; none on a third arrival (R186). -/
def GroupSt.episodeOf (g : GroupSt) (i : Nat) : Option Nat :=
  if !(g.arr.contains i) then some g.ep
  else if !(g.nxt.contains i) then some (g.ep + 1)
  else none

/-- Record an arrival at cycle `now` with the wells it marks (R186, R328). -/
def GroupSt.arrive (g : GroupSt) (i now : Nat) (wells : List Nat) : GroupSt :=
  if !(g.arr.contains i) then { g with arr := i :: g.arr, swp := wells ++ g.swp, last := now }
  else { g with nxt := i :: g.nxt, swpN := wells ++ g.swpN, lastN := now }

/-- `Arrive` (R186): the group, the episode, and the state with the arrival recorded and d written. -/
def State.arrive (s : State) (d a : SReg) (swap : Bool) : Except Stop (Nat × Nat × State) := do
  s.needSrc [a]
  s.needDst d.val
  let g := (s.regVal a).toNat
  match s.groupMembers g with
  | none => .error (notMember g)
  | some (t, i, _) =>
    if s.me.count .st != 0 then .error (.park .own)
    else
      let gs := Tbl.get {} t.groups g
      match gs.episodeOf i with
      | none => .error (.park .own)
      | some e =>
        let wells := if swap then s.exchWells s.cid else []
        let t := { t with groups := Tbl.set {} t.groups g (gs.arrive i s.now wells) }
        .ok (g, e, ((s.popSrc [a]).setTeam t).writeReg d.val (BitVec.ofNat 64 e))

/-- `garrive` (R186). -/
def execGarrive (k : MReg) (d a : SReg) (s : State) : Out1 :=
  s.finish 8 (s.gated k 8 do
    let (_, _, u) ← s.arrive d a false
    .ok (u.retire 8))

/-- `gbar`: arrives, writes d, and then waits for the episode; an interrupt of the wait names the `gbar` (R186-R188). -/
def execGbar (k : MReg) (swap : Bool) (d a : SReg) (s : State) : Out1 :=
  s.finish 8 (s.gated k 8 do
    let (g, e, u) ← s.arrive d a swap
    .ok ((u.retire 8).modMe (fun c => { c with post := .gbar g e s.me.pc })))

/-- `gwait`: parks until the episode has completed (R186). -/
def execGwait (k : MReg) (a b : SReg) (s : State) : Out1 :=
  s.finish 8 (s.gated k 8 do
    s.needSrc [a, b]
    let g := (s.regVal a).toNat
    match s.groupMembers g with
    | none => .error (notMember g)
    | some (t, _, _) =>
      if (s.regVal b).toNat < (Tbl.get {} t.groups g).ep then .ok ((s.popSrc [a, b]).retire 8) else .error (.park .own))

/-- `GroupMember` (R186): 2^32 + member count × 2^16 + member index, or 0. -/
def State.memberWord (s : State) (g : Nat) : Word :=
  match s.groupMembers g with
  | some (_, i, ms) => BitVec.ofNat 64 (2 ^ 32 + ms.length * 65536 + ms.countP (fun j => decide (j < i)))
  | none => 0

/-- `gmem` (R186). -/
def execGmem (k : MReg) (d a : SReg) (s : State) : Out1 :=
  s.finish 8 (s.gated k 8 do
    s.needSrc [a]
    s.needDst d.val
    .ok (((s.popSrc [a]).writeReg d.val (s.memberWord (s.regVal a).toNat)).retire 8))

/-! ### Tasks -/

/-- The task table of the acting core's launch (R191). -/
def State.taskTable (s : State) : List Task :=
  match s.launchOf s.cid with
  | some l => l.tasks
  | none => []

/-- Latency of a decrement to the home core (R192). -/
def decLat (core home : Nat) : Nat :=
  if core / 16 = home / 16 then 12 else if reaches (core / 16) (home / 16) then 20 else 200

/-- `Decrement` (R192): it waits for the `st` count, carries the cancel flag of an arrived token, and counts on `st`. -/
def State.decrement (s : State) (k : MReg) (d a : SReg) (cancel : Bool) : Eff :=
  s.gated k 8 do
    s.needSrc [a]
    s.needDst d.val
    let t := (s.regVal a).toNat
    match s.taskTable[t]?, s.teamOf s.cid with
    | some task, some team =>
      if s.me.count .st != 0 then .error (.park .own)
      else
        .ok ((((s.popSrc [a]).launchOp
          { id := 0, ctx := s.cur, kind := .tdec t (cancel || s.myCore.token), priv := s.me.priv,
            parts := [{ acc := 0, va := 0, dst := 0, data := [] }] } 1
          (s.now + decLat s.cid (team.coreOf task.home))).writeReg d.val 0).retire 8)
    | _, _ => .ok (((s.popSrc [a]).writeReg d.val 1).retire 8)

/-- `tdec` (R192). -/
def execTdec (k : MReg) (d a : SReg) (s : State) : Out1 := s.finish 8 (s.decrement k d a false)
/-- `tcancel` (R192). -/
def execTcancel (k : MReg) (d a : SReg) (s : State) : Out1 := s.finish 8 (s.decrement k d a true)

/-- Some task homed on a core is PENDING (R192). -/
def State.somePending (s : State) (core : Nat) : Bool :=
  match s.teamOf core, s.launchOf core with
  | some t, some l => (l.tasks.zipIdx).any (fun (x, n) =>
      t.coreOf x.home == core && Tbl.get .pending t.tstate n == .pending)
  | _, _ => false

/-- Set the state of a task of a team. -/
def State.setTask (s : State) (t : Team) (n : Nat) (x : TaskSt) : State :=
  s.setTeam { t with tstate := Tbl.set .pending t.tstate n x }

/-- `tnext` (R192): context 0 only; it parks while the run list is empty and a task of this core is PENDING. -/
def execTnext (k : MReg) (d : SReg) (s : State) : Out1 :=
  s.finish 8 (
    if s.tid != 0 then .error (illegal (.tnext k d))
    else s.gated k 8 do
      s.needDst d.val
      match s.myCore.runl with
      | [] =>
        if s.somePending s.cid then .error (.park .own)
        else .ok ((s.writeReg d.val (BitVec.allOnes 64)).retire 8)
      | t :: ts =>
        let u := s.modCore s.cid (fun c => { c with runl := ts })
        let u := match s.teamOf s.cid with
          | some team => u.setTask team t (.taken s.cur s.now false)
          | none => u
        .ok ((u.writeReg d.val (BitVec.ofNat 64 t)).retire 8))

/-- The task is TAKEN on a core (R192). -/
def TaskSt.takenOn (x : TaskSt) (core : Nat) : Bool :=
  match x with
  | .taken c _ _ => c / 16 == core
  | _ => false

/-- `tdone` (R192): a failed task raises the error token (R195). -/
def execTdone (k : MReg) (d a b : SReg) (s : State) : Out1 :=
  s.finish 8 (s.gated k 8 do
    s.needSrc [a, b]
    s.needDst d.val
    let t := (s.regVal a).toNat
    let u := s.popSrc [a, b]
    match s.taskTable[t]?, s.teamOf s.cid, s.launchOf s.cid with
    | some _, some team, some l =>
      if !((Tbl.get .pending team.tstate t).takenOn s.cid) then .ok ((u.writeReg d.val 2).retire 8)
      else
        let u := (u.setTask team t .done).setLaunch { l with ntdone := l.ntdone + 1 }
        let u := if s.regVal b == 0 then u else u.raiseToken l.id t
        .ok ((u.writeReg d.val 0).retire 8)
    | _, _, _ => .ok ((u.writeReg d.val 1).retire 8))

end Sys2Proof.Machine
end

