-- ==== Sys2Proof/Machine/Wells.lean ====
section
/-!
DEFINITION. Well instructions (R204-R217). A change that takes time is scheduled with the well controller; its end is an
event.
-/

namespace Sys2Proof.Machine

/-- The accesses to a well that contexts of a core have issued and that are not performed (the first part of P, R207). -/
def State.wellOps (s : State) (core w : Nat) : List Nat :=
  (s.ops.filter (fun o => o.ctx / 16 == core && o.parts.any (fun p => p.well == some w && p.st != .done && p.st != .gone))).map (·.id)

/-- The engine operations of a core that name a well, a sequencer that runs its program there among them (the second
part of P, R207, R411). -/
def State.wellEops (s : State) (core w : Nat) : List Nat :=
  let k := s.coreAt core
  (k.eops.filter (fun o => !o.done && o.binds.any (fun b => b.well == w))).map (·.id) ++
    (k.seqs.filter (fun (_, q) => q.running && q.binds.any (fun b => b.well == w))).map (fun (_, q) => q.id)

/-- Schedule a change of a well for a slot: it waits for P and, with `st`, for Q, then for `delay` cycles (R207). -/
def State.schedule (s : State) (kind : MoveKind) (w core slot delay : Nat) (wait st : Bool) : State :=
  let m : WMove :=
    { id := s.nid, kind, well := w, core, slot, ops := if wait then s.wellOps s.cid w else [],
      eops := if wait then s.wellEops s.cid w else [],
      stOf := if st && s.me.count .st != 0 then some s.cur else none, base := s.now, delay }
  s.bumpId.setMoves (s.moves ++ [m])

/-- A well instruction: the status is written before the next issue (R204). `body` gives the status and the new state. -/
def State.wellOp (s : State) (k : MReg) (sup : Bool) (d : SReg) (xs : List SReg) (body : State → Nat × State) : Eff :=
  s.gated k 8 (
    if sup && s.me.priv == .u then .error (.trap 0x03 0)
    else do
      s.needSrc xs
      s.needDst d.val
      let (st, u) := body (s.popSrc xs)
      .ok ((u.writeReg d.val (BitVec.ofNat 64 st)).retire 8))

/-- A cluster belongs to the team of the acting core. -/
def State.teamHolds (s : State) (clu : Nat) : Bool :=
  match s.teamOf s.cid with
  | some t => (runPos t.first t.count clu).isSome
  | none => false

/-- `Wpass` (R206): the checks in their order, then the hand-over. -/
def State.wpass (s : State) (src dst tc : Nat) (ro : Bool) : Nat × State :=
  let x := s.slotAt s.cid src
  if x.st != .attached || x.exch then (5, s)
  else if 1280 ≤ tc || !(s.sameTeam s.cid tc) then (3, s)
  else if !(reaches (tc / 16) (wellClu x.well)) then (1, s)
  else if (s.coreAt tc).frozen.isSome then (4, s)
  else if (s.slotAt tc dst).st != .detached then (2, s)
  else
    let u := s.schedule .pass x.well tc dst 24 true true
    let u := u.putSlot s.cid src {}
    (0, u.putSlot tc dst { st := .incoming, well := x.well, rd := x.rd, wr := x.wr && !ro })

/-- `wpass` (R206). -/
def execWpass (k : MReg) (ro : Bool) (d a : SReg) (src dst : Fin 16) (s : State) : Out1 :=
  s.finish 8 (s.wellOp k false d [a] (fun u => u.wpass src.val dst.val (s.regVal a).toNat ro))

/-- The state of a slot by its code (R210). -/
def Slot.code (x : Slot) : Nat :=
  match x.st with
  | .detached => 0
  | .attached => 1
  | .incoming => 2
  | .held => 3

/-- `wpoll`: the state that well instructions of earlier cycles have left (R210). -/
def execWpoll (k : MReg) (d : SReg) (n : Fin 16) (s : State) : Out1 :=
  s.finish 8 (s.wellOp k false d [] (fun u => ((s.priorSlot s.cid n.val).code, u)))

/-- `wdetach` (R211). -/
def execWdetach (k : MReg) (d : SReg) (n : Fin 16) (s : State) : Out1 :=
  s.finish 8 (s.wellOp k false d [] (fun u =>
    let x := u.slotAt u.cid n.val
    if x.st != .attached || x.exch then (5, u)
    else (0, (u.schedule .detach x.well u.cid n.val 24 true true).putSlot u.cid n.val {})))

/-- `wattach` (R212). -/
def State.wattach (s : State) (n : Nat) (desc : Word) (keep : Bool) : Nat × State :=
  let clu := fieldOf desc 16 7
  let w := 64 * clu + fieldOf desc 8 6
  if (s.slotAt s.cid n).st != .detached then (2, s)
  else if 79 < clu || !(s.teamHolds clu) then (3, s)
  else if !(reaches (s.cid / 16) clu) then (1, s)
  else if (s.bankAt w).bound then (2, s)
  else
    let u := s.schedule (.attach keep) w s.cid n (if keep then 24 else 1024) false false
    let u := u.setBank w { u.bankAt w with bound := true }
    (0, u.putSlot s.cid n { st := .incoming, well := w, rd := desc.getLsbD 2, wr := desc.getLsbD 3 })

/-- `wattach`, at S or F (R205, R212). -/
def execWattach (k : MReg) (keep : Bool) (d a : SReg) (n : Fin 16) (s : State) : Out1 :=
  s.finish 8 (s.wellOp k true d [a] (fun u => u.wattach n.val (s.regVal a) keep))

/-- `wrel`, at S or F (R205, R217). -/
def execWrel (k : MReg) (free : Bool) (d : SReg) (n : Fin 16) (s : State) : Out1 :=
  s.finish 8 (s.wellOp k true d [] (fun u =>
    let x := u.slotAt u.cid n.val
    if x.st != .held then (5, u)
    else if free then (0, (u.schedule .free x.well u.cid n.val 24 true false).putSlot u.cid n.val {})
    else (0, u.putSlot u.cid n.val { x with st := .attached })))

/-- The slots of a core that are in exchange mode or have asked for it (R215). -/
def State.exchCount (s : State) (core : Nat) : Nat :=
  (List.range 16).countP (fun n => (s.slotAt core n).exch || s.moves.any (fun m =>
    m.core == core && m.slot == n && m.kind == .mode true))

/-- `wmode` (R215). -/
def execWmode (k : MReg) (m : Bool) (d : SReg) (n : Fin 16) (s : State) : Out1 :=
  s.finish 8 (s.wellOp k false d [] (fun u =>
    let x := u.slotAt u.cid n.val
    if x.st != .attached then (5, u)
    else if !x.wr then (6, u)
    else if x.exch == m then (0, u)
    else if m && 4 ≤ u.exchCount u.cid then (7, u)
    else (0, (u.schedule (.mode m) x.well u.cid n.val 2 true false).putSlot u.cid n.val { x with st := .incoming })))

/-- `wclr` (R213): the whole well, or the front half only in exchange mode. -/
def execWclr (k : MReg) (d : SReg) (n : Fin 16) (s : State) : Out1 :=
  s.finish 8 (s.wellOp k false d [] (fun u =>
    let x := u.slotAt u.cid n.val
    if x.st != .attached then (5, u)
    else if !x.wr then (6, u)
    else
      (0, (u.schedule .clear x.well u.cid n.val (if x.exch then 512 else 1024) true false).putSlot u.cid n.val
        { x with st := .incoming })))

end Sys2Proof.Machine
end

