-- ==== Sys2Proof/Machine/Engines.lean ====
section
/-!
DEFINITION. Engine queues and their instructions (R284-R302, R411): bindings, the accesses of engines, copies, queue
fences, waits, sequencers and the return from a notice handler.
-/

namespace Sys2Proof.Machine

/-! ### Queues and bindings -/

/-- The three queues of a core, by the bits of R294: 0 copy, 1 array, 2 exchange. -/
def Core.queue (c : Core) (q : Nat) : List EOp := if q = 0 then c.cq else if q = 1 then c.aq else c.eq

def Core.setQueue (c : Core) (q : Nat) (l : List EOp) : Core :=
  if q = 0 then { c with cq := l } else if q = 1 then { c with aq := l } else { c with eq := l }

/-- Capacities (R284). -/
def queueCap (q : Nat) : Nat := if q = 1 then 16 else 32

/-- The class of a queue's operations (R286). -/
def queueCls (q : Nat) : Cls := if q = 0 then .cp else if q = 1 then .tl else .st

/-- What the slot of a window address binds an operation to (R411). A slot whose mode changes gives the mode it will take. -/
def State.bindAt (s : State) (core addr : Nat) : Option Bind :=
  let n := addr / 0x20000
  let x := s.slotAt core n
  if 0x200000 ≤ addr || x.st == .detached then none
  else
    let exch := match s.moves.find? (fun m => m.core == core && m.slot == n && x.st == .incoming) with
      | some m => (match m.kind with
        | .mode e => e
        | _ => x.exch)
      | none => x.exch
    some { slot := n, well := x.well, rd := x.rd, wr := x.wr, exch }

def State.bindsOf (s : State) (core : Nat) (addrs : List Nat) : List Bind := (addrs.filterMap (s.bindAt core)).eraseDups

/-- The operations that a queue's entry waits for, by the fences of its context (R294). -/
def State.fencedBy (s : State) (a q : Nat) : List Nat :=
  ((s.ctxAt a).marks.filter (fun m => m.queues.getLsbD q)).flatMap (·.ops)

/-- The queue has room, and the count may rise (R284, R286). -/
def State.mayEnqueue (s : State) (a q : Nat) : Except Stop Unit :=
  if ((s.coreAt (a / 16)).queue q).length < queueCap q && (s.ctxAt a).count (queueCls q) < 65535 then .ok ()
  else .error (.park .own)

/-- A fault of the context's queue waits for its trap: what enters the queue before is cancelled at once (R293). -/
def State.cancelsNow (s : State) (a q : Nat) : Bool := (s.ctxAt a).lates.any (fun l => l.queue == some q)

/-- Put an operation into a queue: its identifier, its fences, its count (R284-R286, R294). One of an earlier life of its context
(log 26) has neither fences nor a count. -/
def State.enqueue (s : State) (q : Nat) (o : EOp) : State :=
  let o := { o with id := s.nid, after := if o.orphan then [] else s.fencedBy o.ctx q }
  let u := if o.orphan then s.bumpId else s.bumpId.countUp o.ctx (queueCls q)
  u.modCore (o.ctx / 16) (fun c => c.setQueue q (c.queue q ++ [o]))

/-- An operation of a context's instruction: its level, its command word, its rounding (R287, R289). -/
def State.newEop (s : State) (kind : EKind) (cmd : Word) (addrs : List Nat) : EOp :=
  { id := 0, ctx := s.cur, priv := s.me.priv, kind, cmd, binds := s.bindsOf s.cid addrs, rm := s.me.rm, ftz := s.me.ftz }

/-- Window addresses of R288 and of the engine operands. -/
def inLocal (w : Word) : Bool := w.toNat < 0x200000

/-- The cause 0x0F of an instruction: `kval` is the low 64 bits of the command (R39). -/
def badCommand (i : Instr) : Stop := .trap 0x0F (lowBits (encodeWord i))

/-! ### Copies: the instruction -/

/-- The registers that a fill form names, as where the fills go, with their values now (R290). -/
def State.fillDsts (s : State) (d r : Nat) (k : CpyDst) : List Out :=
  match k with
  | .mem => []
  | .xfill => (List.range r).map (fun i => { dst := s.dstOf (d + i), val := (s.regAt (d + i)).val.setWidth 512 })
  | .vfill => (List.range r).map (fun i => { dst := .v (d + i) allBits, val := (Tbl.get {} s.me.v (d + i)).val })

/-- No deferred result is outstanding for the registers of a fill (R24). -/
def State.needFill (s : State) (d r : Nat) (k : CpyDst) : Except Stop Unit :=
  match k with
  | .mem => .ok ()
  | .xfill => (List.range r).foldlM (fun _ i => s.needDst (d + i)) ()
  | .vfill => if (List.range r).any (fun i => (Tbl.get {} s.me.v (d + i)).pend) then .error (.park .dest) else .ok ()

/-- Mark the registers of a fill empty (R290). -/
def State.markFill (s : State) (d r : Nat) (k : CpyDst) : State :=
  match k with
  | .mem => s
  | .xfill => (List.range r).foldl (fun s i => s.markEmpty (d + i)) s
  | .vfill => (List.range r).foldl (fun s i => s.markVec (d + i)) s

/-- The checks of the shape block's address and of a follow-on destination (R288), cause 0x08 before cause 0x0F (R40). -/
def State.checkCopy (s : State) (bad : Stop) (dst shape : Word) (fon : Nat) : Except Stop Unit :=
  if !(inLocal shape) then .error bad
  else
    let st := (s.slotAt s.cid (shape.toNat / 0x20000)).st
    if st == .detached then .error (.trap 0x08 shape)
    else if shape.toNat % 8 != 0 || (fon != 0 && !(inLocal dst)) then .error bad
    else if st == .incoming then .error (.park .incoming)
    else .ok ()

/-- `cpy` (R287-R291). -/
def execCpy (k : MReg) (d : Fin 64) (a b c : SReg) (r : BitVec 18) (ext : CpyExt) (s : State) : Out1 :=
  s.finish 16 (s.gated k 16 do
    s.needSrc [a, b, c]
    s.needFill d.val r.toNat ext.dk
    let src := s.regVal a
    let dst := s.regVal b
    let shape := s.regVal c
    let i := Instr.cpy k d a b c r ext
    s.checkCopy (badCommand i) dst shape ext.fon.toNat
    s.mayEnqueue s.cur 0
    if ext.fon != 0 && 65535 ≤ s.me.count .tl then .error (.park .own)
    else
      let u := s.popSrc [a, b, c]
      if s.cancelsNow s.cur 0 then .ok (u.retire 16)
      else
        let o := s.newEop (.cpy src dst shape d.val r.toNat ext) (lowBits (encodeWord i)) [src.toNat, dst.toNat, shape.toNat]
        let o := { o with irq := ext.irq, tag := ext.tag, keep := s.fillDsts d.val r.toNat ext.dk
                          binds := s.bindsOf s.cid (if ext.dk == .mem then [src.toNat, dst.toNat, shape.toNat]
                            else [src.toNat, shape.toNat]) }
        let u := (u.markFill d.val r.toNat ext.dk).enqueue 0 o
        let u := if ext.fon == 0 then u else u.countUp s.cur .tl
        .ok (u.retire 16))

/-! ### Queue fences, waits, the end of a handler -/

/-- The context's operations that stand in the queues of a mask (R294). -/
def State.inQueues (s : State) (a : Nat) (m : BitVec 3) : List Nat :=
  ((([0, 1, 2].filter (fun q => m.getLsbD q)).flatMap ((s.coreAt (a / 16)).queue)).filter (fun o => o.ctx == a)).map (·.id)

/-- Place a marker in each queue of a mask; markers that hold nothing any more are forgotten (R294). -/
def State.placeMark (s : State) (a : Nat) (m : BitVec 3) : State :=
  let live := (s.coreAt (a / 16)).eops.map (·.id)
  s.modCtx a (fun c => { c with
    marks := c.marks.filter (fun f => f.ops.any live.contains) ++ [{ queues := m, ops := s.inQueues a m }] })

/-- `qfence` (R294): it does not park. -/
def execQfence (k : MReg) (m : BitVec 3) (s : State) : Out1 :=
  s.finish 8 (s.gated k 8 (.ok ((s.placeMark s.cur m).retire 8)))

/-- A count is at most its limit; 0xFF is no limit (R295). -/
def within (n : Nat) (lim : BitVec 8) : Bool := lim == 0xFF || n ≤ lim.toNat

/-- `wait` (R295). -/
def execWait (k : MReg) (tl cp st ld : BitVec 8) (s : State) : Out1 :=
  s.finish 12 (s.gated k 12 (
    let c := s.me
    if within (c.count .tl) tl && within (c.count .cp) cp && within (c.count .st) st && within (c.count .ld) ld then
      .ok (s.retire 12)
    else .error (.park .own)))

/-- `uiret` (R302): back to the main bank and to shadow `x40`; outside a handler cause 0x01. A shadow `x40` that is empty is not waited
for: the value that it holds is taken (DESIGN CHOICE, log 26). -/
def execUiret (k : MReg) (s : State) : Out1 :=
  s.finish 8 (
    if !s.me.inH then .error (illegal (.uiret k))
    else s.gated k 8 (.ok ((s.modMe (fun c => { c with inH := false })).retireTo (s.me.xReg true 40).val)))

/-! ### Sequencers: the instructions -/

/-- A sequencer has not stopped, or operations that it issued are outstanding (R297, R298). -/
def Core.seqBusy (c : Core) (i : Nat) : Bool :=
  (Tbl.get {} c.seqs i).running || c.eops.any (fun o => o.seq == some i)

/-- Addresses in the slots that the records of a sequencer's program may fall in: 64 records of 64 bytes, and a 65th, which is read
before it is refused (R296, R411). -/
def programAddrs (p : Nat) : List Nat := [p, p + 4096]

/-- `fork` (R297). -/
def execFork (k : MReg) (d a b : SReg) (imm : Imm) (s : State) : Out1 :=
  s.finish imm.bytes (s.gated k imm.bytes do
    s.needSrc [a, b]
    s.needDst d.val
    let p := s.regVal a + imm.value
    if !(inLocal p) || p.toNat % 64 != 0 then .error (.trap 0x0F p)
    else
      let n := (s.regVal b).toNat
      let u := s.popSrc [a, b]
      if 4 ≤ n then .ok ((u.writeReg d.val 2).retire imm.bytes)
      else if s.myCore.seqBusy n then .ok ((u.writeReg d.val 1).retire imm.bytes)
      else
        let q : Sequencer :=
          { running := true, pc := p, ctx := s.cur, priv := s.me.priv, id := s.nid, binds := s.bindsOf s.cid (programAddrs p.toNat) }
        let u := u.bumpId.modCore s.cid (fun c => { c with seqs := Tbl.set {} c.seqs n q })
        .ok ((u.writeReg d.val 0).retire imm.bytes))

/-- `rdv` (R298): the named sequencers that stopped on a fault; their fault bits are cleared. -/
def execRdv (k : MReg) (d a : SReg) (s : State) : Out1 :=
  s.finish 8 (s.gated k 8 do
    s.needSrc [a]
    s.needDst d.val
    let named := [0, 1, 2, 3].filter (fun i => (s.regVal a).getLsbD i)
    if named.any s.myCore.seqBusy then .error (.park .own)
    else
      let bad := named.filter (fun i => (Tbl.get {} s.myCore.seqs i).fault)
      let u := (s.popSrc [a]).modCore s.cid (fun c =>
        { c with seqs := bad.foldl (fun t i => Tbl.set {} t i { Tbl.get {} t i with fault := false }) c.seqs })
      .ok ((u.writeReg d.val (BitVec.ofNat 64 ((bad.map (fun i => 2 ^ i)).sum))).retire 8))

/-! ### The accesses of engines (R261, R272, R411) -/

/-- Why an engine's access ends its operation: a fault with cause and value, and whether the host is told of a malformed entry
(R272), or a request that was discarded (R351). -/
inductive EFail where
  | fault (cause : Nat) (val : Word) (report : Bool := false)
  | lost
  | refused                      -- its port or slice takes nothing of it now (R203, R225), or its NI holds it: it is tried again
  | nores (slice va : Nat)       -- its slice refuses it (R361, R368)
  deriving DecidableEq, Repr

/-- A well that an operation is bound to is still on its way (R411): a change that was scheduled before the operation. -/
def State.bindWaits (s : State) (id : Nat) (bs : List Bind) : Bool :=
  bs.any (fun b => s.moves.any (fun m => m.well == b.well && decide (m.id < id)))

/-- An engine access through the window: the well and offset that the binding gives; none for a global address (R289, R411). -/
def engPlace (bs : List Bind) (addr n : Nat) (wr : Bool) : Except EFail (Option (Nat × Nat)) :=
  let last := addr + n - 1
  let f := .error (.fault 0x08 (BitVec.ofNat 64 addr))
  if 2 ^ 52 ≤ addr || 2 ^ 52 ≤ last then .error (.fault 0x0B (BitVec.ofNat 64 addr))
  else if 0x100000000 ≤ addr then .ok none
  else if 0x200000 ≤ last || addr / 0x20000 != last / 0x20000 then f
  else
    match bs.find? (fun b => b.slot == addr / 0x20000) with
    | none => f
    | some b =>
      if (if wr then !b.wr else !b.rd) || (b.exch && 0x10000 ≤ last % 0x20000) then f
      else .ok (some (b.well, addr % 0x20000))

namespace State

/-- Where one global line part of an engine operation goes; a slice that has taken a request in this slice cycle takes it later, and
one that has no room refuses it (R225, R368). -/
def engReach (s : State) (o : EOp) (p : Part) (wr : Bool) : Except EFail (Nat × Xlat) :=
  let core := o.ctx / 16
  let vf := s.vfOfCore core
  match s.reachFor vf p.va { rd := !wr, wr, user := o.priv == .u, win := p.win, size := p.bytes } with
  | .ok (n, x) =>
    if s.isRefused core o.id 0 || !(s.slotFree n) then .error .refused
    else if s.accepts vf p.va n (s.resender core o.id 0) then .ok (n, x)
    else .error (.nores n p.va)
  | .error none => .error .lost
  | .error (some f) => .error (.fault f.cause (BitVec.ofNat 64 p.va) f.report)

/-- The bytes that a read of an engine operation would give, without an access at the port. -/
def engLook (s : State) (bs : List Bind) (addr n : Nat) : Except EFail (List Byte) := do
  match ← engPlace bs addr n false with
  | some (w, off) => .ok (s.readWell w off n)
  | none => .error (.fault 0x08 (BitVec.ofNat 64 addr))

/-- An access of an engine at a well's port, which performs one a cycle (R203): it is tried again where the port is not free. -/
def atPort (s : State) (w : Nat) (r : State → State) : Except EFail State :=
  if s.portFree w then .ok ((r s).usePort w) else .error .refused

/-- Read `n` bytes of a well for an engine operation, in one access (R203). -/
def engRead (s : State) (bs : List Bind) (addr n : Nat) : Except EFail (State × List Byte) := do
  match ← engPlace bs addr n false with
  | some (w, off) => return (← s.atPort w id, s.readWell w off n)
  | none => .error (.fault 0x08 (BitVec.ofNat 64 addr))

/-- Write bytes of a well for an engine operation, in one access (R203). -/
def engWrite (s : State) (bs : List Bind) (addr : Nat) (data : List Byte) : Except EFail State := do
  match ← engPlace bs addr data.length true with
  | some (w, off) => s.atPort w (fun s => s.writeWell w off (data.map some))
  | none => .error (.fault 0x08 (BitVec.ofNat 64 addr))

/-- The slice's response to a line part of an engine operation reaches the core's NI, in the step itself (R410; DEDUCED, log 17). -/
def engKind (s : State) (o : EOp) (p : Part) (n : Nat) (x : Xlat) : State :=
  s.takeKinds { id := o.id, ctx := o.ctx, kind := .pf, priv := o.priv, parts := [p.performed s n x] }

/-- The next read of a copy, of the bytes that `want` asks for from `lo` on: at a well's port, or line part number `part` in the
view of the core (R261). Gives what it reads and whether it is the last. An entry that an engine reads in a scope buffer is not observed by
the context that queued the operation (DESIGN CHOICE, log 28: R257 and R261 do not say). -/
def copyLoad (s : State) (o : EOp) (lo : Nat) (want : List (Option Byte)) (part : Nat) : Except EFail (State × List Byte × Bool) := do
  match ← engPlace o.binds lo want.length false with
  | some (w, off) => return (← s.atPort w id, s.readWell w off want.length, true)
  | none =>
    let ps := s.globalParts (o.ctx / 16) 0 lo 0 want
    match ps[part]? with
    | some p => do
      let (n, x) ← s.engReach o p false
      let (u, bs, _) := s.readLine none o.ctx 0 (s.vfOfCore (o.ctx / 16)) p.va n x (p.data.map Option.isSome)
      .ok ((u.engKind o p n x).acceptFrom (o.ctx / 16) o.id 0 n, bs.map (·.getD 0), part + 1 == ps.length)
    | none => .ok (s, [], true)

/-- Bytes written under masks over old ones. -/
def maskOver (mv : List (Byte × Byte)) (old : List Byte) : List (Option Byte) :=
  (mv.zip old).map (fun ((m, v), b) => if m == 0 then none else some ((b &&& ~~~m) ||| v))

/-- The next write of a copy, of bytes under masks from `lo` on: at the port, or line part number `part` at its slice in one step,
the other nibble of a byte being kept (R255, R289). Gives whether it is the last. -/
def copyStore (s : State) (o : EOp) (lo : Nat) (mv : List (Byte × Byte)) (part : Nat) : Except EFail (State × Bool) := do
  match ← engPlace o.binds lo mv.length true with
  | some (w, off) => return (← s.atPort w (fun s => s.writeWell w off (maskOver mv (s.readWell w off mv.length))), true)
  | none =>
    let ps := s.globalParts (o.ctx / 16) 0 lo 0 (mv.map (fun (m, _) => if m == 0 then none else some 0))
    match ps[part]? with
    | some p => do
      let (n, x) ← s.engReach o p true
      let vf := s.vfOfCore (o.ctx / 16)
      let mine := (mv.drop p.dst).take p.data.length
      let (u, old) := s.readWanted n vf p.va (mine.map (fun (m, _) => m != 0 && m != 0xFF)) x
      .ok (((u.writeGlobal n vf p.va (maskOver mine old) x).engKind o p n x).acceptFrom (o.ctx / 16) o.id 0 n, part + 1 == ps.length)
    | none => .ok (s, true)

end State

/-! ### Performing a copy (R289, R290)

A copy is performed element by element. Elements that follow one another within one aligned unit of 64 bytes of either side may go
together, as one line part of reads and one of writes: how many do is the turn's to say (log 28). -/

/-- The dimensions of the 24-byte records of a shape block, where each extent is 1 to 2^32 (R288). -/
def dimsOf : Nat → List Byte → Option (List Dim)
  | 0, _ => some []
  | n + 1, bs =>
    let at_ := fun i => BitVec.ofNat 64 (ofBytes ((bs.drop i).take 8))
    let ext := (at_ 0).toNat
    if ext = 0 || 2 ^ 32 < ext then none
    else (dimsOf n (bs.drop 24)).map (fun r => { ext, ss := (at_ 8).toInt, ds := (at_ 16).toInt } :: r)

/-- The number of elements. -/
def dimCount (ds : List Dim) : Nat := ds.foldl (fun n d => n * d.ext) 1

/-- The shape block has been read: it is checked (R288). A fill whose elements overflow its registers fails before it writes anything
(R290). -/
def EOp.shaped (o : EOp) (r : Nat) (ext : CpyExt) (n : Nat) (bs : List Byte) : Except EFail EOp :=
  match dimsOf n (bs.drop 8) with
  | some ds =>
    if ext.dk != .mem && (if ext.dk == .xfill then 64 else 512) * r < dimCount ds * ext.dfmt.width then .error (.fault 0x0F o.cmd)
    else .ok { o with cp := { o.cp with dims := some ds, bytes := [] } }
  | none => .error (.fault 0x0F o.cmd)

/-- The part of a shape block of `n` dimensions that the next access reads: 128 bytes, then the rest (R203, R288). -/
def EOp.shapeSpan (o : EOp) (shape n : Nat) : Nat × Nat :=
  if o.cp.bytes.isEmpty then (shape, 8 + 24 * Nat.min n 5) else (shape + 128, 24 * (n - 5))

/-- The next access to the shape block of a copy, and after the last its check (R288). -/
def State.readShape (s : State) (o : EOp) (shape r : Nat) (ext : CpyExt) : Except EFail (State × EOp) := do
  let h ← if o.cp.bytes.isEmpty then s.engLook o.binds shape 8 else .ok (o.cp.bytes.take 8)
  let n := ofBytes h
  if n = 0 || 10 < n then .error (.fault 0x0F o.cmd)
  else
    let (at_, len) := o.shapeSpan shape n
    let (u, bs) ← s.engRead o.binds at_ len
    let bs := o.cp.bytes ++ bs
    if bs.length < 8 + 24 * n then .ok (u, { o with cp := { o.cp with bytes := bs } })
    else return (u, ← o.shaped r ext n bs)

/-- Source and destination offsets of element `j` in linear order, dimension 0 fastest (R289). -/
def elemOff : List Dim → Nat → Int × Int
  | [], _ => (0, 0)
  | d :: ds, j =>
    let i : Int := (j % d.ext : Nat)
    let (so, dof) := elemOff ds (j / d.ext)
    (i * d.ss + so, i * d.ds + dof)

/-- `Addr` (R289): the byte address of an element and, for 4-bit elements, its nibble. -/
def elemAddr (base : Word) (off : Int) (w : Nat) : Nat × Nat :=
  let b := if w = 4 then off / 2 else off * (w / 8 : Nat)
  ((base + BitVec.ofInt 64 b).toNat, if w = 4 then (off % 2).toNat else 0)

/-- Bytes of an element. -/
def elemBytes (w : Nat) : Nat := if w = 4 then 1 else w / 8

/-- One side of a copy: where its elements lie, and how wide they are. -/
structure Side where
  base : Word
  w    : Nat
  offs : Nat → Int

/-- Element `j` of a side. -/
def Side.at_ (x : Side) (j : Nat) : Nat × Nat := elemAddr x.base (x.offs j) x.w

/-- The two sides of a copy. -/
def srcSide (src : Word) (ext : CpyExt) (ds : List Dim) : Side := { base := src, w := ext.sfmt.width, offs := fun j => (elemOff ds j).1 }
def dstSide (dst : Word) (ext : CpyExt) (ds : List Dim) : Side := { base := dst, w := ext.dfmt.width, offs := fun j => (elemOff ds j).2 }

/-- The lowest address of `n` elements from number `j` on, and the bytes from there to their end. -/
def Side.span (x : Side) (j n : Nat) : Nat × Nat :=
  let as := (List.range n).map (fun i => (x.at_ (j + i)).1)
  let lo := as.foldl Nat.min (x.at_ j).1
  (lo, as.foldl Nat.max 0 + elemBytes x.w - lo)

/-- Element `j + i` lies in the unit of 64 bytes in which element `j` starts. -/
def Side.near (x : Side) (j i : Nat) : Bool :=
  (x.at_ (j + i)).1 / 64 == (x.at_ j).1 / 64 && ((x.at_ (j + i)).1 + elemBytes x.w - 1) / 64 == (x.at_ j).1 / 64

/-- The bytes of the span that the elements occupy. -/
def Side.wants (x : Side) (j n lo len : Nat) : List (Option Byte) :=
  let as := (List.range n).map (fun i => (x.at_ (j + i)).1)
  (List.range len).map (fun i => if as.any (fun a => a ≤ lo + i && lo + i < a + elemBytes x.w) then some 0 else none)

/-- Element `j` in the bytes of a span from `lo` on. -/
def Side.elem (x : Side) (lo : Nat) (bs : List Byte) (j : Nat) : Nat :=
  let (a, nib) := x.at_ j
  ofBytes ((bs.drop (a - lo)).take (elemBytes x.w)) / 16 ^ nib % 2 ^ x.w

/-- What the elements from number `j` on write into byte `b`: a mask and a value. Of two, the later one remains (R289). -/
def Side.bitsAt (x : Side) (j : Nat) (vals : List Nat) (b : Nat) : Byte × Byte :=
  (vals.zipIdx).foldl (fun (m, v) (e, i) =>
    let (a, nib) := x.at_ (j + i)
    if x.w = 4 then
      let k : Byte := 0xF#8 <<< (4 * nib)
      if a = b then (m ||| k, (v &&& ~~~k) ||| (BitVec.ofNat 8 e <<< (4 * nib))) else (m, v)
    else if a ≤ b && b < a + x.w / 8 then (0xFF, BitVec.ofNat 8 (e / 256 ^ (b - a))) else (m, v)) (0, 0)

/-- The values of a fill: the elements packed into registers of `w` bits (R290). -/
def fillVals (w r dw : Nat) (elems : List Nat) : List VWord :=
  let img := packNat dw elems
  (List.range r).map (fun i => BitVec.ofNat 512 (img / 2 ^ (w * i) % 2 ^ w))

/-- One element converted (R142, R289). -/
def EOp.conv (o : EOp) (ext : CpyExt) (x : Nat) : Nat × Flags :=
  if ext.cvt then convertElem ext.dfmt ext.sfmt o.rm o.ftz x else (x, 0)

/-- The flags that some elements raise. -/
def EOp.convFlags (o : EOp) (ext : CpyExt) (xs : List Nat) : Flags := xs.foldl (fun f x => f ||| (o.conv ext x).2) 0

namespace State

/-- Two addresses of a copy lead to one unit of 64 bytes of one memory. -/
def sameUnit (s : State) (o : EOp) (a b : Nat) : Bool :=
  match engPlace o.binds a 1 false, engPlace o.binds b 1 true with
  | .ok (some (w, i)), .ok (some (v, j)) => w == v && i / 64 == j / 64
  | .ok none, .ok none =>
    match s.globalParts (o.ctx / 16) 0 a 0 [some 0], s.globalParts (o.ctx / 16) 0 b 0 [some 0] with
    | p :: _, q :: _ =>
      (match s.engReach o p false, s.engReach o q true with
        | .ok (_, x), .ok (_, y) => x.tgt == y.tgt && x.peer == y.peer && x.addr / 64 == y.addr / 64
        | _, _ => true)
    | _, _ => true
  | _, _ => false

/-- How many elements from number `j` on may go together: those of one unit of either side, and one alone where reads and writes
meet in a unit. -/
def groupMax (s : State) (o : EOp) (x y : Side) (mem : Bool) (j count : Nat) : Nat :=
  if mem && s.sameUnit o (x.at_ j).1 (y.at_ j).1 then 1
  else Nat.max 1 (((List.range (Nat.min 128 (count - j))).takeWhile (fun i => x.near j i && (!mem || y.near j i))).length)

/-- A value reaches a register of a context: a sleeping core wakes, keeps the value and applies it when the wake ends, while the
engine goes on (R161, R197). -/
def engPut (s : State) (a by_ : Nat) (o : Out) : State :=
  if (s.coreAt (a / 16)).sleep == .awake then s.deliver a by_ o
  else s.modCore (a / 16) (fun k => { k.wake s.now with late := k.late ++ [.put a by_ o] })

/-- A value for a register that an operation marked empty; nothing reaches a later life of its context. -/
def fillReg (s : State) (o : EOp) (i : Nat) (v : VWord) : State :=
  match o.keep[i]? with
  | some x => if o.orphan then s else s.engPut o.ctx o.id { x with val := v }
  | none => s

/-- Values for the registers that an operation marked empty, in order. -/
def fillKept (s : State) (o : EOp) (vals : List VWord) : State :=
  (vals.zipIdx).foldl (fun s (v, i) => s.fillReg o i v) s

/-- The next read of the elements under way, and what follows the last: the values of a fill are converted, those of a copy to
memory wait for their writes. -/
def copyRead (s : State) (o : EOp) (x : Side) (ext : CpyExt) : Except EFail (State × EOp) := do
  let c := o.cp
  let (lo, len) := x.span c.pos c.num
  let (u, bs, last) ← s.copyLoad o lo (x.wants c.pos c.num lo len) c.part
  let bytes := c.bytes ++ bs
  if !last then .ok (u, { o with cp := { c with bytes, part := c.part + 1 } })
  else
    let vals := (List.range c.num).map (fun i => x.elem lo bytes (c.pos + i))
    if ext.dk == .mem then
      .ok (u, { o with cp := { c with part := 0, bytes := [], read := true, vals }, flags := o.flags ||| o.convFlags ext (vals.take 1) })
    else
      .ok (u, { o with cp := { c with part := 0, bytes := [], pos := c.pos + c.num, num := 0, vals := c.vals ++ vals.map (fun e => (o.conv ext e).1) }
                       flags := o.flags ||| o.convFlags ext vals })

/-- The next write of the elements under way; after the last the copy goes on behind them. -/
def copyWrite (s : State) (o : EOp) (y : Side) (ext : CpyExt) (count : Nat) : Except EFail (State × EOp) := do
  let c := o.cp
  let (lo, len) := y.span c.pos c.num
  let vals := c.vals.map (fun e => (o.conv ext e).1)
  let (u, last) ← s.copyStore o lo ((List.range len).map (fun i => y.bitsAt c.pos vals (lo + i))) c.part
  if !last then .ok (u, { o with cp := { c with part := c.part + 1 } })
  else
    .ok (u, { o with cp := { c with part := 0, pos := c.pos + c.num, num := 0, read := false, vals := [] }
                     flags := o.flags ||| o.convFlags ext c.vals, done := c.pos + c.num == count, fin := s.now })

/-- The next register of a fill can be written now: its context's register file takes one write a cycle (R171). -/
def fillFree (s : State) (o : EOp) : Bool :=
  (s.coreAt (o.ctx / 16)).sleep != .awake || (match o.keep[o.cp.put]? with
    | some x => (match x.dst with
      | .c _ | .nowhere => true
      | _ => s.fileFree o.ctx)
    | none => true)

/-- The next register of a fill, not before cycle `fin` (R171, R290, R292). -/
def copyFill (s : State) (o : EOp) (r : Nat) (ext : CpyExt) : Except EFail (State × EOp) :=
  if s.now < o.fin || !(s.fillFree o) then .error .refused
  else
    let c := o.cp
    let w := if ext.dk == .xfill then 64 else 512
    .ok (s.fillReg o c.put ((fillVals w r ext.dfmt.width c.vals).getD c.put 0),
      { o with cp := { c with put := c.put + 1 }, done := c.put + 1 == r, fin := if c.put + 1 = r then s.now else s.now + 1 })

/-- One step of a copy: an access to its shape block, a read, a write, or one register of a fill; `n` is how many elements go together
where some begin. -/
def copyStep (s : State) (o : EOp) (n : Nat) : Except EFail (State × EOp) :=
  match o.kind with
  | .cpy src dst shape _ r ext =>
    match o.cp.dims with
    | none => s.readShape o shape.toNat r ext
    | some ds =>
      let x := srcSide src ext ds
      let y := dstSide dst ext ds
      let count := dimCount ds
      let c := o.cp
      if c.num = 0 then
        if ext.dk != .mem && c.pos = count then s.copyFill o r ext
        else if n = 0 || s.groupMax o x y (ext.dk == .mem) c.pos count < n then .error .refused
        else
          match s.copyRead { o with cp := { c with num := n } } x ext with
          | .ok (u, p) => .ok (u, if ext.dk != .mem && p.cp.pos = count then { p with fin := s.now + 1 } else p)
          | .error e => .error e
      else if !c.read then
        match s.copyRead o x ext with
        | .ok (u, p) => .ok (u, if ext.dk != .mem && p.cp.pos = count then { p with fin := s.now + 1 } else p)
        | .error e => .error e
      else
        match s.copyWrite o y ext count with
        | .error (.fault cause v rep) =>
          if c.num = 1 then .error (.fault cause v rep)
          else s.copyWrite { o with cp := { c with num := 1, vals := c.vals.take 1 } } y ext count
        | r => r
  | _ => .error .refused

/-- The latency of one side of a copy (R96, R292). -/
def sideLat (s : State) (o : EOp) (a : Word) : Nat :=
  if a.toNat < 0x100000000 then
    (match o.binds.find? (fun b => b.slot == a.toNat / 0x20000) with
      | some b => wellLat (o.ctx / 256) (wellClu b.well)
      | none => 12)
  else s.globalLat (o.ctx / 16) a.toNat

/-- Cycles in which the first `e` elements of a copy stream (R292). -/
def streamTime (src dst : Word) (ext : CpyExt) (e : Nat) : Nat :=
  let w := if ext.dk == .mem then Nat.max ext.sfmt.width ext.dfmt.width else ext.sfmt.width
  let bytes := (e * w + 7) / 8
  if src.toNat < 0x100000000 && (ext.dk != .mem || dst.toNat < 0x100000000) then (bytes + 127) / 128 else 2 * ((bytes + 63) / 64)

/-- The reference time of the next step of a copy, and how many elements go together in it (R292). -/
def copyDue (s : State) (o : EOp) : Nat × Nat :=
  let S := o.start.getD 0
  match o.kind, o.cp.dims with
  | .cpy src dst _ _ _ ext, some ds =>
    let c := o.cp
    let count := dimCount ds
    let n := if c.num = 0 then s.groupMax o (srcSide src ext ds) (dstSide dst ext ds) (ext.dk == .mem) c.pos count else c.num
    if ext.dk != .mem && c.pos = count then (o.fin, 0)
    else (S + 12 + s.sideLat o src + streamTime src dst ext (c.pos + n) + (if c.read && c.pos + c.num == count then s.sideLat o dst else 0), n)
  | _, _ => (S + 12, 0)

end State

/-! ### The copy engine of a cluster (R285) -/

/-- The operation at the head of a queue may start: its fences have passed, and its wells have arrived (R294, R411). -/
def State.mayStart (s : State) (core : Nat) (o : EOp) : Bool :=
  !(o.after.any (fun i => (s.coreAt core).eops.any (fun u => u.id == i))) && !(s.bindWaits o.id o.binds) && !o.lost

/-- A synchronized stop holds the core (R347). -/
def State.stopped (s : State) (core : Nat) : Bool :=
  match (s.coreAt core).stopAt with
  | some t => decide (t ≤ s.now)
  | none => false

/-- Less than 20,000 cycles have passed since the stop of a core: what a well change waits for still goes on (R347). -/
def State.inTime (s : State) (core : Nat) : Bool := (s.coreAt core).stopAt.all (fun t => decide (s.now < t + 20000))

/-- A well change in progress waits for operation `o` of a queue, or for one behind it, which a stop lets finish with the change (R207,
R218, R346; log 43). -/
def State.needed (s : State) (core q : Nat) (o : EOp) : Bool :=
  (((s.coreAt core).queue q).dropWhile (fun x => x.id != o.id)).any (fun x => !x.done && s.moves.any (fun m =>
    m.eops.contains x.id || (q == 2 && m.stOf == some x.ctx)))

/-- A stop keeps operation `o` of a queue from going on (R347). -/
def State.halts (s : State) (core q : Nat) (o : EOp) : Bool := s.stopped core && !(s.inTime core && s.needed core q o)

/-- A stop keeps a sequencer from going on (R347): unless a well change waits for its program. -/
def State.haltsSeq (s : State) (core : Nat) (q : Sequencer) : Bool :=
  s.stopped core && !(s.inTime core && s.moves.any (fun m => m.eops.contains q.id))

/-- The next core that a free copy engine serves: round-robin from the core after the last one, over queues that are not empty
(R285) and that no stop holds (R347). -/
def State.nextCopy (s : State) (clu : Nat) : Option Nat :=
  ((List.range 16).map (fun i => ((s.cluAt clu).cpyPos + 1 + i) % 16)).find? (fun i =>
    (s.coreAt (16 * clu + i)).cq.head?.any (fun o => !(s.halts (16 * clu + i) 0 o)))

/-- Change the operation at the head of a queue. -/
def State.modHead (s : State) (core q : Nat) (f : EOp → EOp) : State :=
  s.modCore core (fun c => c.setQueue q (match c.queue q with
    | o :: r => f o :: r
    | [] => []))

/-- A free copy engine takes the next copy once that may start (R285); it starts nothing for a core that a stop holds (R347). -/
def State.pickCopy (s : State) (clu : Nat) : State :=
  if (s.cluAt clu).cpyBusy.isSome then s
  else
    match s.nextCopy clu with
    | none => s
    | some i =>
      let core := 16 * clu + i
      match (s.coreAt core).cq with
      | o :: _ =>
        if !(s.mayStart core o) then s
        else
          let u := s.modClu clu (fun c => { c with cpyBusy := some i, cpyPos := i })
          u.modHead core 0 (fun o => { o with start := some s.now })
      | [] => s

/-- The copy that the engine of a core's cluster serves, when it is this core's. -/
def State.servedCopy (s : State) (core : Nat) : Option EOp :=
  if (s.cluAt (core / 16)).cpyBusy == some (core % 16) then (s.coreAt core).cq.head? else none

/-- The copy is inside a unit of 64 bytes of its source, or its registers are being filled (R347). -/
def EOp.midUnit (o : EOp) : Bool :=
  match o.kind, o.cp.dims with
  | .cpy src _ _ _ _ ext, some ds =>
    let x := srcSide src ext ds
    o.cp.num != 0 || (ext.dk != .mem && o.cp.pos == dimCount ds) ||
      (o.cp.pos != 0 && o.cp.pos != dimCount ds && x.near (o.cp.pos - 1) 1)
  | _, _ => false

/-- The copy that may take a step now; at a stop it goes on to the end of its unit (R347). -/
def State.copyAtWork (s : State) (core : Nat) : Option EOp :=
  match s.servedCopy core with
  | some o => if o.done || o.lost || o.start.isNone || (s.halts core 0 o && !o.midUnit) then none else some o
  | none => none

/-- A request of the head operation bore a foreign tag (R351): the operation never ends. -/
def State.loseHead (s : State) (core q : Nat) : State :=
  (s.modHead core q (fun o => { o with lost := true })).modVf (s.vfOfCore core) (fun v => { v with foreign := true })

/-- ENGINE_COPY (R289, R290): the next step of the copy that the engine performs for the core; a request that its slice refuses is
held by the NI (R368). -/
def execEngineCopy (w : CopyTurn) (s : State) : Out1 :=
  s.fired (
    match s.copyAtWork w.core with
    | some o =>
      match s.copyStep o w.num with
      | .ok (u, p) => some (u.modHead w.core 0 (fun _ => p))
      | .error .lost => some (s.loseHead w.core 0)
      | .error (.nores n va) => some (s.refuse w.core o.id 0 n va)
      | .error _ => none
    | none => none)

/-! ### Sequencers (R296) -/

/-- The extension of a copy record (R287, R296): a type or a kind that does not exist, or a reserved bit set, gives none. -/
def extOf (w : Word) : Option CpyExt :=
  match Ty.ofCode (w.extractLsb' 60 4), Ty.ofCode (w.extractLsb' 56 4), CpyDst.ofCode (w.extractLsb' 53 2) with
  | some sfmt, some dfmt, some dk =>
    if w.extractLsb' 0 36 != 0 then none
    else
      some { sfmt, dfmt, cvt := w.getLsbD 55, dk, irq := w.getLsbD 52, fon := w.extractLsb' 44 8, tag := w.extractLsb' 36 8 }
  | _, _, _ => none

/-- Change a sequencer. -/
def State.modSeq (s : State) (core i : Nat) (f : Sequencer → Sequencer) : State :=
  s.modCore core (fun c => { c with seqs := Tbl.set {} c.seqs i (f (Tbl.get {} c.seqs i)) })

/-- An engine fault is raised in the issuing context as a late trap of a queue; when that context has ended, it raises the
launch's error token (R195, R293). -/
def State.engineTrap (s : State) (a q cause : Nat) (val : Word) (above orphan : Bool) : State :=
  if orphan || (s.ctxAt a).life != .running then
    match s.launchOf (a / 16) with
    | some l => s.raiseToken l.id 0xFFFFFFFF
    | none => s
  else s.modCtx a (fun c => { c with lates := c.lates ++ [{ cause, val, above, queue := some q }] })

/-- A sequencer stops with a fault (R296). -/
def State.seqFault (s : State) (core i : Nat) (q : Sequencer) (cause : Nat) (val : Word) : State :=
  (s.modSeq core i (fun q => { q with running := false, fault := true })).engineTrap q.ctx 0 cause val (q.priv != .u) q.orphan

/-- The copy that a COPY record issues at its `k`-th repetition (R296); none where it fails R288. One whose shape block lies in a DETACHED
slot is queued, and meets cause 0x08 at the engine (DESIGN CHOICE, log 28: R296 says neither). -/
def State.seqCopy (s : State) (core i : Nat) (q : Sequencer) (rec_ : Nat → Word) : Option EOp :=
  let k := BitVec.ofNat 64 q.repNo
  let src := rec_ 24 + k * rec_ 48
  let dst := rec_ 32 + k * rec_ 56
  let shape := rec_ 40
  match extOf (rec_ 16) with
  | none => none
  | some ext =>
    if !(cpyOk 0 0 0 ext) || ext.dk != .mem || !(inLocal shape) || shape.toNat % 8 != 0 ||
        (ext.fon != 0 && !(inLocal dst)) then none
    else
      let c := s.ctxAt q.ctx
      let addrs := [src.toNat, dst.toNat, shape.toNat]
      some { id := 0, ctx := q.ctx, priv := q.priv, kind := .cpy src dst shape 0 0 ext, irq := ext.irq, tag := ext.tag
             cmd := rec_ 0, binds := s.bindsOf core addrs, rm := c.rm, ftz := c.ftz, seq := some i, orphan := q.orphan }

/-- SEQUENCER_RECORD (R296): the sequencer reads its record and issues one operation of it, one per cycle. It reads a COPY record anew at
each of its repetitions (DESIGN CHOICE, log 28: R296 does not say). -/
def execSequencerRecord (core seq : Nat) (s : State) : Out1 :=
  s.fired (
    let q := Tbl.get {} (s.coreAt core).seqs seq
    if !q.running || s.now < q.next || s.haltsSeq core q ||
        s.bindWaits q.id (q.binds.filter (fun b => b.slot == q.pc.toNat / 0x20000)) then none
    else
      match s.engRead q.binds q.pc.toNat 64 with
      | .error (.fault cause val _) => some (s.seqFault core seq q cause val)
      | .error _ => none
      | .ok (s, bs) =>
        let rec_ := fun i => BitVec.ofNat 64 (ofBytes ((bs.drop i).take 8))
        let h := rec_ 0
        let kind := fieldOf h 0 8
        let rep := fieldOf h 32 32
        let on := fun (s : State) => s.modSeq core seq (fun q =>
          { q with pc := q.pc + 64, recNo := q.recNo + 1, repNo := 0, next := s.now + 1 })
        if 64 ≤ q.recNo || 2 < kind || fieldOf h 11 5 != 0 || fieldOf h 16 16 != 0 || rec_ 8 != 0 || (kind = 1 && rep = 0) then
          some (s.seqFault core seq q 0x0F h)
        else if kind = 0 then some (s.modSeq core seq (fun q => { q with running := false }))
        else if kind = 2 then some (on (if q.orphan then s else s.placeMark q.ctx (h.extractLsb' 8 3)))
        else
          match s.seqCopy core seq q rec_ with
          | none => some (s.seqFault core seq q 0x0F h)
          | some o =>
            let next := fun (s : State) => if q.repNo + 1 < rep then s.modSeq core seq (fun q => { q with repNo := q.repNo + 1, next := s.now + 1 })
              else on s
            if !q.orphan && s.cancelsNow q.ctx 0 then some (next s)
            else
              match (if q.orphan then .ok () else s.mayEnqueue q.ctx 0), o.kind with
              | .ok (), .cpy _ _ _ _ _ ext =>
                if 32 ≤ (s.coreAt core).cq.length then none
                else
                  let u := s.enqueue 0 o
                  some (next (if ext.fon == 0 || q.orphan then u else u.countUp q.ctx .tl))
              | _, _ => none)

end Sys2Proof.Machine
end

