-- ==== Sys2Proof/Machine/Calamus.lean ====
section
/-!
DEFINITION. The Calamus (R303-R321): weight tiles and their recoding, activation records, exact column sums, drain and foot
buffer, and the array instructions. When an operation starts and ends stands with the events of the engines.
-/

namespace Sys2Proof.Machine

/-! ### Weight tiles (R303-R305) -/

/-- Bytes of a column and of a whole tile (R303). -/
def colBytes : WFmt → Nat
  | .t5 => 26
  | .mxfp4 => 68
  | .e4m3 | .e5m2 => 128
  | .bf16 => 256
  | .kb4 => 80

def tileBytes : WFmt → Nat
  | .kb4 => 10304
  | f => 128 * (colBytes f)

/-- A byte of a list. -/
def byteOf (bs : List Byte) (i : Nat) : Nat := (bs.getD i 0).toNat

/-- Element `i` of 4-bit elements packed under R64. -/
def nibbleOf (bs : List Byte) (i : Nat) : Nat := byteOf bs (i / 2) / 16 ^ (i % 2) % 16

/-- A 16-bit little-endian value. -/
def halfOf (bs : List Byte) (i : Nat) : Nat := byteOf bs i + 256 * byteOf bs (i + 1)

/-- A trit as a value. -/
def tritVal (t : Int) : FVal := .fin (decide (t < 0)) t.natAbs 0

/-- A KB4 element times its block scale (R66, R304). -/
def kb4Weight (scale elem : Nat) : FVal :=
  match fmtE2M1.read false elem with
  | .fin s n e => .fin s (n * (e3m5 scale).1) (e + (e3m5 scale).2)
  | v => v

/-- The 128 weights of a column from its bytes (R303). -/
def weightsOf (f : WFmt) (bs : List Byte) : List FVal :=
  (List.range 128).map (fun k =>
    match f with
    | .t5 => tritVal ((trits (byteOf bs (k / 5))).getD (k % 5) 0)
    | .mxfp4 => mxValue fmtE2M1 (byteOf bs (64 + k / 32)) (nibbleOf bs k)
    | .e4m3 => fmtE4M3.read false (byteOf bs k)
    | .e5m2 => fmtE5M2.read false (byteOf bs k)
    | .bf16 => fmtB16.read false (halfOf bs (2 * k))
    | .kb4 => kb4Weight (byteOf bs (64 + k / 8)) (nibbleOf bs k))

/-- Not finite. -/
def wild (v : FVal) : Bool := v.isNan || v.isInf

/-- floor(log2 |v|) of a non-zero finite value (R304, R308). -/
def topBit (v : FVal) : Int := (Nat.log2 v.mag.1 : Int) + v.mag.2

/-- The greatest topBit of the non-zero values, where there is one. -/
def topOf (vs : List FVal) : Option Int :=
  vs.foldl (fun a v => if v.isZero then a
    else match a with
      | some t => some (if t < topBit v then topBit v else t)
      | none => some (topBit v)) none

/-- v / 2^e rounded to an integer under RNE, and whether it was exact. -/
def scaledInt (v : FVal) (e : Int) : Int × Bool :=
  let (x, y) := scale2 v.mag.1 1 (v.mag.2 - e)
  let (q, exact) := roundInt 0 v.neg x y
  (sgn v.neg q, exact)

/-- `RecodeColumn` (R304): the column and whether a weight was rounded. -/
def recode (f : WFmt) (ws : List FVal) (gs bs : Nat) (bandBad : Bool) : Col × Bool :=
  let col := fun (g : Int) (n : List Int) (poison : Bool) =>
    ({ g, n, gs := BitVec.ofNat 16 gs, bs := BitVec.ofNat 16 bs, poison } : Col)
  if f == .t5 then (col 0 (ws.map (fun w => (scaledInt w 0).1)) false, false)
  else if bandBad || ws.any wild then (col 0 [] true, false)
  else
    match topOf ws with
    | none => (col 0 (ws.map (fun _ => 0)) false, false)
    | some t =>
      let rs := ws.map (fun w => scaledInt w (t - 22))
      (col (t - 22) (rs.map (·.1)) false, rs.any (fun r => !r.2))

/-- The number of non-zero digits of `Naf` (R304, R305). -/
def nafCount : Nat → Nat → Nat
  | 0, _ => 0
  | fuel + 1, n =>
    if n = 0 then 0
    else if n % 2 = 0 then nafCount fuel (n / 2)
    else if n % 4 = 1 then 1 + nafCount fuel ((n - 1) / 2)
    else 1 + nafCount fuel ((n + 1) / 2)

/-- The live plane count of a set of columns (R305). -/
def planesOf (cols : List Col) : Nat :=
  cols.foldl (fun p c => c.n.foldl (fun p w => Nat.max p (nafCount 25 w.natAbs)) p) 0

/-- A tile from its bytes: without a scale block every group scale is 1.0 (R303). -/
def tileOf (f : WFmt) (sc : Bool) (bs : List Byte) : Tile × Flags :=
  let rs := (List.range 128).map (fun n =>
    let gs := if sc then halfOf bs ((tileBytes f) + 2 * n) else 0x3F80
    let band := if f == .kb4 then halfOf bs (10240 + 2 * (n / 64)) else 0x3F80
    recode f (weightsOf f ((bs.drop ((colBytes f) * n)).take (colBytes f))) gs band (wild (fmtB16.read false band)))
  let cols := rs.map (·.1)
  ({ fmt := f, p := planesOf cols, cols }, if rs.any (·.2) then fNX else 0)

/-- The lowest offset of an illegal byte of a packed ternary tile (R313). -/
def badTrit (f : WFmt) (bs : List Byte) : Option Nat :=
  if f == .t5 then (List.range (tileBytes f)).find? (fun i => 243 ≤ byteOf bs i) else none

/-! ### Activations (R307, R308) -/

/-- Stride and beats of a record (R307). -/
def stride : AFmt → Nat
  | .e4m3 | .e5m2 => 128
  | .bf16 => 256
  | .mxe4m3 | .mxe5m2 => 132
  | .mxfp4 => 68
  | .kb4 => 96

def beats : AFmt → Nat
  | .bf16 | .mxe4m3 | .mxe5m2 => 2
  | _ => 1

/-- The exact values of a record; with `band` a KB4 band scale is folded in (R308). -/
def recordVals (f : AFmt) (band : Bool) (bs : List Byte) : List FVal :=
  (List.range 128).map (fun k =>
    match f with
    | .e4m3 => fmtE4M3.read false (byteOf bs k)
    | .e5m2 => fmtE5M2.read false (byteOf bs k)
    | .bf16 => fmtB16.read false (halfOf bs (2 * k))
    | .mxe4m3 => mxValue fmtE4M3 (byteOf bs (128 + k / 32)) (byteOf bs k)
    | .mxe5m2 => mxValue fmtE5M2 (byteOf bs (128 + k / 32)) (byteOf bs k)
    | .mxfp4 => mxValue fmtE2M1 (byteOf bs (64 + k / 32)) (nibbleOf bs k)
    | .kb4 =>
      if band then (kb4Value (halfOf bs 80) (byteOf bs (64 + k / 8)) (nibbleOf bs k)).1
      else kb4Weight (byteOf bs (64 + k / 8)) (nibbleOf bs k))

/-- Round to FP32 without flushing and expand under a table (R308). -/
def expand (tab : List Seg) (v : FVal) : FVal × Flags :=
  let (b, f0) := fmt32.convert 0 false v
  let (b, f1) := compand tab true (fmt32.read false b)
  (fmt32.read false b, f0 ||| f1)

/-- What a record comes to (R308): poisoned, zero, or mantissas under one exponent; with the flags raised. -/
inductive Fed where
  | poisoned
  | zero
  | ms (a : Int) (m : List Int)
  deriving DecidableEq, Repr

/-- The mantissas under an exponent, and whether all are exact. -/
def mantissas (a : Int) (vs : List FVal) : List Int × Bool :=
  let rs := vs.map (fun v => scaledInt v a)
  (rs.map (·.1), rs.all (·.2))

/-- The feeder (R308). -/
def feed (f : AFmt) (tab : Option (List Seg)) (bs : List Byte) : Fed × Flags :=
  let vs0 := recordVals f tab.isSome bs
  let rs := match tab with
    | some t => vs0.map (expand t)
    | none => vs0.map (fun v => (v, 0))
  let vs := rs.map (·.1)
  let fl := rs.foldl (fun a r => a ||| r.2) 0
  if vs.any wild || (f == .kb4 && wild (fmtB16.read false (halfOf bs 80))) then (.poisoned, fl ||| fNV)
  else
    match topOf vs with
    | none => (.zero, fl)
    | some t =>
      let (m, ex) := mantissas (t - 14) vs
      let (a, m, ex) := if m.any (fun x => x.natAbs = 32768) then
          (t - 13, (mantissas (t - 13) vs).1, (mantissas (t - 13) vs).2)
        else (t - 14, m, ex)
      (.ms a m, fl ||| (if ex then 0 else fNX))

/-! ### Sums and drain (R309-R311) -/

/-- The exact sum of a column (R309): each plane adds digit × shifted mantissa, which together is weight × mantissa. -/
def colSum (c : Col) (m : List Int) : Int := ((c.n.zip m).map (fun (w, x) => w * x)).sum

/-- The factor g × b (R309). -/
def factor (c : Col) : FVal × Flags :=
  let g := fmtB16.read false c.gs.toNat
  let b := fmtB16.read false c.bs.toNat
  match g, b with
  | .fin s n e, .fin t k d => (.fin (s != t) (n * k) (e + d), 0)
  | .inf s, .fin t k _ => if k = 0 then (.nan false, fNV) else (.inf (s != t), 0)
  | _, _ => (.nan false, if g.isSig || b.isSig then fNV else 0)

/-- y of one column for one vector (R309-R311). -/
def colOut (c : Col) (a : Int) (m : List Int) : Nat × Flags :=
  if c.poison then (fmt32.cnan, fNV)
  else
    let S := colSum c m
    let (f, fl) := factor c
    match f with
    | .nan _ => (fmt32.cnan, fl)
    | .inf neg => if S = 0 then (fmt32.cnan, fl ||| fNV) else (fmt32.infBits (neg != decide (S < 0)), fl)
    | .fin neg n e =>
      if S = 0 then (0, fl)
      else
        let (y, fr) := fmt32.roundFin 0 false (neg != decide (S < 0)) (S.natAbs * n) (a + c.g + e)
        (y, fl ||| fr)

/-- A column of a tile; a tile without columns has all weights zero (R319). -/
def Tile.col (t : Tile) (n : Nat) : Col := t.cols.getD n { g := 0, n := [], gs := 0x3F80, bs := 0x3F80, poison := false }

/-- What the end of an array operation comes to: the state, its flags, the planes of a tile, and the fault that ended it. -/
structure ArrRun where
  s      : State
  flags  : Flags := 0
  planes : Nat := 0
  fail   : Option EFail := none
  deriving DecidableEq, Repr

/-- The next access that an operation of the array or the exchange queue makes to a well of its issuing core: where, how many bytes,
and whether it writes; none after the last. One access moves up to 128 bytes (R203): of a pass, one beat of a record (R307, R320). -/
def EOp.nextAccess (o : EOp) : Option (Nat × Nat × Bool) :=
  let block := fun (a n : Nat) (wr : Bool) =>
    if 128 * o.pos < n then some (a + 128 * o.pos, Nat.min 128 (n - 128 * o.pos), wr) else none
  match o.kind with
  | .cpass a n _ f _ =>
    let i := o.pos / beats f
    let b := o.pos % beats f
    if i < n then some (a.toNat + i * stride f + 128 * b, Nat.min 128 (stride f - 128 * b), false) else none
  | .cdrain a n _ => block a.toNat (512 * n) true
  | .cstk a _ n => block a.toNat n false
  | .xst a _ n => block a.toNat n false
  | .nmc a _ n _ _ => block a.toNat n false
  | .nred _ a _ n _ _ => if o.bad then none else block a.toNat n false
  | _ => none

namespace State

/-- The foot buffer (R310). -/
def foot (s : State) (core row col : Nat) : BitVec 32 := Tbl.get 0 s.mem.foot ((core * 256 + row) * 128 + col)

def setFoot (s : State) (core row col : Nat) (v : BitVec 32) : State :=
  s.setMem { s.mem with foot := Tbl.set 0 s.mem.foot ((core * 256 + row) * 128 + col) v }

/-- The band tag of a row (R310). -/
def bandTag (s : State) (core row : Nat) : BitVec 16 := Tbl.get 0x3F80 s.mem.tags (core * 256 + row)

def setTag (s : State) (core row : Nat) (v : BitVec 16) : State :=
  s.setMem { s.mem with tags := Tbl.set 0x3F80 s.mem.tags (core * 256 + row) v }

/-- Add y to a foot cell (R310). -/
def addFoot (s : State) (core row col y : Nat) : State × Flags :=
  let (v, f) := fmt32.add 0 false (fmt32.read false (s.foot core row col).toNat) (fmt32.read false y)
  (s.setFoot core row col (BitVec.ofNat 32 v), f)

/-- One vector into one row (R310, R311). -/
def feedRow (s : State) (core row : Nat) (t : Tile) (f : AFmt) (tab : Option (List Seg)) (bs : List Byte) : State × Flags :=
  let (x, fl) := feed f tab bs
  let s := if f == .kb4 && tab.isNone then s.setTag core row (BitVec.ofNat 16 (halfOf bs 80)) else s
  match x with
  | .zero => (s, fl)
  | .poisoned =>
    (List.range 128).foldl (fun (s, fl) n =>
      let (s, f) := s.addFoot core row n fmt32.cnan
      (s, fl ||| f)) (s, fl)
  | .ms a m =>
    (List.range 128).foldl (fun (s, fl) n =>
      let (y, f0) := colOut (t.col n) a m
      let (s, f1) := s.addFoot core row n y
      (s, fl ||| f0 ||| f1)) (s, fl)

/-- One row out and cleared (R316). -/
def drainRow (s : State) (core row : Nat) : List Byte × Flags :=
  (List.range 128).foldl (fun (bs, fl) n =>
    let (v, f) := fmt32.mul 0 false (fmt32.read false (s.foot core row n).toNat)
      (fmtB16.read false (s.bandTag core row).toNat)
    (bs ++ toBytes 4 v, fl ||| f)) ([], 0)

/-- A drained row is +0 with tag 1.0 (R316). -/
def clearRow (s : State) (core row : Nat) : State :=
  let k := (core * 256 + row) * 128
  (s.setMem { s.mem with foot := Tbl.clear s.mem.foot k (k + 128) }).setTag core row 0x3F80

/-- Bytes of a core's stacked slice (R303). -/
def readStack (s : State) (core off n : Nat) : List Byte := Memory.readN s.mem.stack (core * 0x300000 + off) n

/-- Put bytes into a core's stacked slice. -/
def writeStack (s : State) (core off : Nat) (bs : List Byte) : State :=
  s.setMem { s.mem with stack := Memory.writeN s.mem.stack (core * 0x300000 + off) bs }

/-- The next access of a pass, a drain or a `cstk` at the port, and what the array does with it (R310, R315-R317): the last beat of a
record is fed into its row; a row is read as it leaves, and cleared with its last access. -/
def arrayAccess (s : State) (o : EOp) : Except EFail (State × EOp) := do
  let core := o.ctx / 16
  let on := { o with pos := o.pos + 1 }
  match o.kind, o.nextAccess with
  | .cpass _ _ row f tab, some (at_, len, _) =>
    let (u, bs) ← s.engRead o.binds at_ len
    if (o.pos + 1) % beats f = 0 then
      let (u, fl) := u.feedRow core (row + o.pos / beats f) (u.coreAt core).live f tab (o.data ++ bs)
      return (u, { on with data := [], flags := o.flags ||| fl })
    else return (u, { on with data := o.data ++ bs })
  | .cdrain _ _ row, some (at_, _, _) =>
    let r := row + o.pos / 4
    let (bs, fl) := s.drainRow core r
    let u ← s.engWrite o.binds at_ ((bs.drop (128 * (o.pos % 4))).take 128)
    if o.pos % 4 = 3 then return (u.clearRow core r, { on with flags := o.flags ||| fl }) else return (u, on)
  | .cstk _ off _, some (at_, len, _) =>
    let (u, bs) ← s.engRead o.binds at_ len
    return (u.writeStack core (off + 128 * o.pos) bs, on)
  | _, _ => .error .refused

/-- The end of an array operation whose accesses are over, apart from its completion: the state, the flags, what `clw` fills d with,
and the fault that ended it (R311, R313, R314). A load that fails leaves no valid shadow (R313). -/
def arrayEnd (s : State) (o : EOp) : ArrRun :=
  let core := o.ctx / 16
  match o.kind with
  | .clw f sc off _ =>
    let bs := s.readStack core off ((tileBytes f) + (if sc then 256 else 0))
    match badTrit f bs with
    | some i => { s := s.modCore core (fun k => { k with shadow := none }), fail := some (.fault 0x0D (BitVec.ofNat 64 i)) }
    | none =>
      let (t, flags) := tileOf f sc bs
      { s := s.modCore core (fun c => { c with shadow := some t }), flags, planes := t.p }
  | .cflip =>
    match (s.coreAt core).shadow with
    | none => { s, fail := some (.fault 0x0F o.cmd) }
    | some t => { s := s.modCore core (fun c => { c with live := t, shadow := none }) }
  | _ => { s, flags := o.flags }

/-- `kval` of a data error at an offset of the stacked slice, or at a cell of the foot buffer (R343). -/
def bankErr (bank off : Nat) : Word := BitVec.ofNat 64 (2 ^ 63 + bank * 2 ^ 61 + off)

/-- `kval` of a data error at offset `off` of the well that the next access of an operation reads (R293, R343); the port has made that access (R203). -/
def accessErr (s : State) (o : EOp) (off : Nat) : Option (State × Word) :=
  match o.nextAccess with
  | some (at_, len, false) =>
    match engPlace o.binds at_ len false with
    | .ok (some (w, base)) => if base ≤ off && off < base + len && s.portFree w then some (s.usePort w, s.wellErr w off) else none
    | _ => none
  | _ => none

/-- An array operation meets a data error at offset `off` of a bank: in a well through its next access, in the stacked slice, or in a
cell of the foot buffer that it reads now (R293, R343): the state and `kval`. A load leaves no valid shadow (log 28). -/
def arrayErr (s : State) (o : EOp) (bank off : Nat) : Option (State × Word) :=
  match o.kind, bank with
  | .clw f sc base _, 1 =>
    if base ≤ off && off < base + (tileBytes f) + (if sc then 256 else 0) then
      some (s.modCore (o.ctx / 16) (fun k => { k with shadow := none }), bankErr 1 off)
    else none
  | .cpass _ n r f _, 2 =>
    if o.pos < n * beats f && (o.pos + 1) % beats f = 0 && off / 512 = r + o.pos / beats f && off % 4 = 0 then some (s, bankErr 2 off)
    else none
  | .cdrain _ n r, 2 =>
    if o.pos < 4 * n && off / 512 = r + o.pos / 4 && off % 512 / 128 = o.pos % 4 && off % 4 = 0 then some (s, bankErr 2 off) else none
  | _, 0 => s.accessErr o off
  | _, _ => none

/-- The cost of a pass's vector phase (R320): a vector that is zero costs nothing. On a die that is throttled every cycle of it is
followed by an idle one (R405). -/
def passCost (s : State) (o : EOp) : Nat :=
  match o.kind with
  | .cpass a n _ f tab =>
    let p := Nat.max (s.coreAt (o.ctx / 16)).live.p (beats f)
    let live := (List.range n).countP (fun i =>
      match s.engLook o.binds (a.toNat + i * (stride f)) (stride f) with
      | .ok bs => (feed f tab bs).1 != .zero
      | .error _ => true)
    let v := Nat.max (live * p) (n * (beats f) - 128)
    if s.pkg.therm.getLsbD (dieOfCore (o.ctx / 16)) then 2 * v else v
  | _ => 0

end State

/-! ### The array instructions (R312-R318) -/

/-- The range of records, rows or bytes of an array or exchange operation (R315-R317, R326): a global address is cause 0x0F,
one that crosses a slot, the window's end or the hole is cause 0x08. -/
def checkRange (bad : Stop) (a : Word) (size : Nat) : Except Stop Unit :=
  let last := a.toNat + size - 1
  if 0x100000000 ≤ a.toNat then .error bad
  else if 0x200000 ≤ last || a.toNat / 0x20000 != last / 0x20000 then .error (.trap 0x08 a)
  else .ok ()

/-- An array operation enters its queue (R284, R293). -/
def State.arrayOp (s : State) (xs : List SReg) (o : EOp) (mark : State → State) : Except Stop State := do
  s.mayEnqueue s.cur 1
  let u := s.popSrc xs
  if s.cancelsNow s.cur 1 then .ok (u.retire 8) else .ok (((mark u).enqueue 1 o).retire 8)

/-- `clw` (R313). -/
def execClw (k : MReg) (f : WFmt) (sc : Bool) (d a : SReg) (s : State) : Out1 :=
  s.finish 8 (s.gated k 8 do
    s.needSrc [a]
    s.needDst d.val
    let off := (s.regVal a).toNat
    let i := Instr.clw k f sc d a
    if off % 64 != 0 || 0x300000 < off + (tileBytes f) + (if sc then 256 else 0) then .error (badCommand i)
    else
      let o := { s.newEop (.clw f sc off d.val) (lowBits (encodeWord i)) [] with
        keep := [{ dst := s.dstOf d.val, val := (s.regAt d.val).val.setWidth 512 }] }
      s.arrayOp [a] o (fun u => u.markEmpty d.val))

/-- `cflip` (R314). -/
def execCflip (k : MReg) (s : State) : Out1 :=
  s.finish 8 (s.gated k 8 (s.arrayOp [] (s.newEop .cflip (lowBits (encodeWord (.cflip k))) []) (fun u => u)))

/-- The counts of `cpass` and `cdrain` (R315, R316). -/
def rowsOk (n row : Nat) : Bool := 1 ≤ n && n ≤ 256 && row + n ≤ 256

/-- `cpass`: it captures the format and, with `.cmp`, the companding table (R306, R315). -/
def execCpass (k : MReg) (a b c : SReg) (irq : Bool) (tag : BitVec 8) (s : State) : Out1 :=
  s.finish 8 (s.gated k 8 do
    s.needSrc [a, b, c]
    let n := (s.regVal b).toNat
    let row := (s.regVal c).toNat
    let i := Instr.cpass k a b c irq tag
    if !(rowsOk n row) then .error (badCommand i)
    else
      checkRange (badCommand i) (s.regVal a) (n * (stride s.me.afmt))
      let tab := if s.me.acmp then some s.myCore.table else none
      let o := s.newEop (.cpass (s.regVal a) n row s.me.afmt tab) (lowBits (encodeWord i)) [(s.regVal a).toNat]
      s.arrayOp [a, b, c] { o with irq, tag } (fun u => u))

/-- `cdrain` (R316). -/
def execCdrain (k : MReg) (a b c : SReg) (irq : Bool) (tag : BitVec 8) (s : State) : Out1 :=
  s.finish 8 (s.gated k 8 do
    s.needSrc [a, b, c]
    let n := (s.regVal b).toNat
    let row := (s.regVal c).toNat
    let i := Instr.cdrain k a b c irq tag
    if !(rowsOk n row) then .error (badCommand i)
    else
      checkRange (badCommand i) (s.regVal a) (512 * n)
      let o := s.newEop (.cdrain (s.regVal a) n row) (lowBits (encodeWord i)) [(s.regVal a).toNat]
      s.arrayOp [a, b, c] { o with irq, tag } (fun u => u))

/-- `cstk` (R317). -/
def execCstk (k : MReg) (a b c : SReg) (s : State) : Out1 :=
  s.finish 8 (s.gated k 8 do
    s.needSrc [a, b, c]
    let off := (s.regVal b).toNat
    let n := (s.regVal c).toNat
    let i := Instr.cstk k a b c
    if n = 0 || n % 64 != 0 || 0x20000 < n then .error (badCommand i)
    else
      checkRange (badCommand i) (s.regVal a) n
      if off % 64 != 0 || 0x300000 < off + n then .error (badCommand i)
      else
        let o := s.newEop (.cstk (s.regVal a) off n) (lowBits (encodeWord i)) [(s.regVal a).toNat]
        s.arrayOp [a, b, c] o (fun u => u))

/-- `cfmt`: the context's activation format (R306). -/
def execCfmt (k : MReg) (f : AFmt) (cmp : Bool) (s : State) : Out1 :=
  s.finish 8 (s.gated k 8 (.ok ((s.modMe (fun c => { c with afmt := f, acmp := cmp })).retire 8)))

/-- `cstat` (R318): without a valid shadow its fields are not stated by the manual. -/
def execCstat (k : MReg) (d : SReg) (s : State) : Out1 :=
  s.finish 8 (s.gated k 8 do
    s.needDst d.val
    let c := s.myCore
    let sh := match c.shadow with
      | some t => t.fmt.code.toNat * 16 + t.p
      | none => (Config.unstatedByte s.nfree).toNat
    let v := c.aq.length * 2 ^ 32 + c.shadow.isSome.toNat * 2 ^ 24 + sh * 2 ^ 16 + s.me.acmp.toNat * 2 ^ 12 +
      s.me.afmt.code.toNat * 2 ^ 8 + c.live.fmt.code.toNat * 16 + c.live.p
    let u := if c.shadow.isSome then s else { s with nfree := s.nfree + 1 }
    .ok ((u.writeReg d.val (BitVec.ofNat 64 v)).retire 8))

end Sys2Proof.Machine
end

