-- ==== Sys2Proof/Machine/Exchange.lean ====
section
/-!
DEFINITION. The exchange group (R325-R338): `xst`, `nmc`, `nred`, `smark`, and the binding of queue ports to streams. What
happens after an operation has entered its queue stands with the events of the engines.
-/

namespace Sys2Proof.Machine

/-! ### Operations of the exchange queue -/

/-- The count of bytes is legal (R326). -/
def countOk (n : Nat) : Bool := n % 64 == 0 && 64 ≤ n && n ≤ 0x10000

/-- A source range crosses a slot, the window's end or the hole (R326). -/
def crosses (a n : Nat) : Bool :=
  decide (a < 0x100000000) && (decide (0x200000 ≤ a + n - 1) || a / 0x20000 != (a + n - 1) / 0x20000)

/-- An exchange operation enters its queue (R284, R293). -/
def State.exchangeOp (s : State) (xs : List SReg) (o : EOp) : Except Stop State := do
  s.mayEnqueue s.cur 2
  let u := s.popSrc xs
  if s.cancelsNow s.cur 2 then .ok (u.retire 8) else .ok ((u.enqueue 2 o).retire 8)

/-- The descriptor of `xst` is legal for a count (R326, R327). -/
def descOk (w : Word) (n : Nat) : Bool :=
  fieldOf w 48 16 == 0 && fieldOf w 20 12 == 0 && fieldOf w 11 5 == 0 && fieldOf w 32 16 % 64 == 0 &&
  fieldOf w 32 16 + n ≤ 0x10000

/-- `xst` (R327). -/
def execXst (k : MReg) (a b c : SReg) (s : State) : Out1 :=
  s.finish 8 (s.gated k 8 do
    s.needSrc [a, b, c]
    let src := s.regVal a
    let n := (s.regVal c).toNat
    let i := Instr.xst k a b c
    if countOk n && crosses src.toNat n then .error (.trap 0x08 src)
    else if !(countOk n) || 0x100000000 ≤ src.toNat || !(descOk (s.regVal b) n) then .error (badCommand i)
    else s.exchangeOp [a, b, c] (s.newEop (.xst src (s.regVal b) n) (lowBits (encodeWord i)) [src.toNat]))

/-- The checks and the queueing that `nred` and `nmc` share (R326). -/
def State.collective (s : State) (k : MReg) (i : Instr) (a b c : SReg) (off : Nat) (kind : Word → Nat → Nat → EKind) : Eff :=
  s.gated k 8 do
    s.needSrc [a, b, c]
    let src := s.regVal a
    let g := (s.regVal b).toNat
    let n := (s.regVal c).toNat
    if countOk n && crosses src.toNat n then .error (.trap 0x08 src)
    else if (s.groupMembers g).isNone then .error (notMember g)
    else if !(countOk n) || 0x100000000 ≤ src.toNat || 0x20000 < off + n then .error (badCommand i)
    else s.exchangeOp [a, b, c] (s.newEop (kind src g n) (lowBits (encodeWord i)) [src.toNat])

/-- `nred` (R337). -/
def execNred (k : MReg) (op : NredOp) (a b c : SReg) (slot : Fin 16) (off64 : BitVec 11) (s : State) : Out1 :=
  s.finish 8 (s.collective k (.nred k op a b c slot off64) a b c (64 * off64.toNat) (fun src g n =>
    .nred op src g n slot.val (64 * off64.toNat)))

/-- `nmc` (R336). -/
def execNmc (k : MReg) (a b c : SReg) (slot : Fin 16) (off64 : BitVec 11) (s : State) : Out1 :=
  s.finish 8 (s.collective k (.nmc k a b c slot off64) a b c (64 * off64.toNat) (fun src g n =>
    .nmc src g n slot.val (64 * off64.toNat)))

/-- `smark` (R334): every word now in the queue goes before the marker. -/
def execSmark (k : MReg) (n : Fin 4) (s : State) : Out1 :=
  s.finish 8 (s.gated k 8 (
    let q := Tbl.get {} s.me.qout n.val
    let i := Instr.smark k n
    if q.bound.isNone then .error (badCommand i)
    else s.exchangeOp [] { s.newEop (.smark n.val) (lowBits (encodeWord i)) [] with ahead := q.words.length }))

/-! ### Streams (R333) -/

/-- The entry of a stream in the slot table of a core's launch (R329). -/
def State.streamOf (s : State) (core n : Nat) : Option Stream :=
  match s.launchOf core with
  | some l => l.streams.find? (fun x => x.num == n)
  | none => none

/-- The team indices that a port set of a stream reaches: the members of its group, without the source (R329). -/
def Stream.reachesOf (x : Stream) (l : Launch) (i : Nat) : List Nat :=
  (Tbl.get [] l.groups (x.sets.getD i 0)).filter (fun m => m != x.src)

/-- The core may take that part in the stream (R333). -/
def State.roleOk (s : State) (core : Nat) (x : Stream) (rx : Bool) : Bool :=
  match s.teamOf core, s.launchOf core with
  | some t, some l =>
    match t.indexOf core with
    | some i => if rx then (List.range x.sets.length).any (fun j => (x.reachesOf l j).contains i) else i == x.src
    | none => false
  | _, _ => false

/-- A port of a context. -/
def Ctx.port (c : Ctx) (rx : Bool) (n : Nat) : Port := Tbl.get {} (if rx then c.qin else c.qout) n

def Ctx.setPort (c : Ctx) (rx : Bool) (n : Nat) (p : Port) : Ctx :=
  if rx then { c with qin := Tbl.set {} c.qin n p } else { c with qout := Tbl.set {} c.qout n p }

/-- The words of output queue `n` that were pushed before every word of the context's other queues that are bound to its stream
(R333). -/
def Ctx.lead (c : Ctx) (n : Nat) : Nat :=
  ((c.pushes.filter (fun m => (c.port false m).bound == (c.port false n).bound)).takeWhile (fun m => m == n)).length

/-- The first `k` words of output queue `n` have left. -/
def dropPushes : Nat → Nat → List Nat → List Nat
  | 0, _, l => l
  | k + 1, n, l => dropPushes k n (l.erase n)

/-- A context of the core is bound to the stream in a direction (R333). -/
def State.boundTo (s : State) (core : Nat) (rx : Bool) (n : Nat) : Option (Nat × Nat) :=
  ((List.range 16).flatMap (fun t => (List.range 4).map (fun q => (16 * core + t, q)))).find? (fun (a, q) =>
    ((s.ctxAt a).port rx q).bound == some n)

/-- A context of the core other than `a` is bound to the stream in a direction (R333). -/
def State.boundElse (s : State) (core : Nat) (rx : Bool) (n a : Nat) : Bool :=
  ((List.range 16).map (fun t => 16 * core + t)).any (fun b => b != a && [0, 1, 2, 3].any (fun q =>
    ((s.ctxAt b).port rx q).bound == some n))

/-- `sopen` (R333). A second binding of a stream for receiving on one core is refused; for sending, the issuing context itself may bind a
second queue (DEDUCED, log 31). -/
def execSopen (k : MReg) (rx : Bool) (d a : SReg) (n : Fin 4) (s : State) : Out1 :=
  s.finish 8 (s.gated k 8 do
    s.needSrc [a]
    s.needDst d.val
    let num := (s.regVal a).toNat
    let u := s.popSrc [a]
    let status : Nat :=
      match s.streamOf s.cid num with
      | none => 2
      | some x =>
        if (s.me.port rx n.val).bound.isSome || (if rx then (s.boundTo s.cid rx num).isSome else s.boundElse s.cid rx num s.cur) then 1
        else if !(s.roleOk s.cid x rx) then 3
        else 0
    let u := if status = 0 then
        u.modMe (fun c => c.setPort rx n.val { c.port rx n.val with bound := some num })
      else u
    .ok ((u.writeReg d.val (BitVec.ofNat 64 status)).retire 8))

/-- A marker of the context's queue waits in the exchange queue (R334). -/
def State.markerWaits (s : State) (a n : Nat) : Bool :=
  (s.coreAt (a / 16)).eq.any (fun o => o.ctx == a && o.kind == .smark n)

/-- `sclose` (R333): the send form waits until its queue is empty and no marker is outstanding; the receive form discards
the words that stand in the queue. -/
def execSclose (k : MReg) (rx : Bool) (d : SReg) (n : Fin 4) (s : State) : Out1 :=
  s.finish 8 (s.gated k 8 do
    s.needDst d.val
    let p := s.me.port rx n.val
    if !rx && (!p.words.isEmpty || s.markerWaits s.cur n.val) then .error (.park .own)
    else
      let status : Nat := if p.bound.isNone then 5 else 0
      let u := if status = 0 then s.modMe (fun c => c.setPort rx n.val {}) else s
      .ok ((u.writeReg d.val (BitVec.ofNat 64 status)).retire 8))

end Sys2Proof.Machine
end

