-- ==== Sys2Proof/Machine/EngineEvents.lean ====
section
/-!
DEFINITION. The events of the engines: the end and the cancellation of operations (R286, R291, R293, R300), the array's
starts and ends (R320, R321), the exchange queue (R327, R336-R340), words and markers of streams (R332-R334), and lockstep
stalls (R335).
-/

namespace Sys2Proof.Machine

/-! ### Leaving a queue -/

namespace State

/-- An operation leaves its queue; its count falls (R286). -/
def leaveQueue (s : State) (core q : Nat) (o : EOp) : State :=
  let u := s.modCore core (fun c => c.setQueue q ((c.queue q).filter (fun x => x.id != o.id)))
  if o.orphan then u else u.countDown o.ctx (queueCls q)

/-- Flags of an operation are added to its context (R289, R311). -/
def addFlags (s : State) (o : EOp) (f : Flags) : State := if o.orphan then s else s.modCtx o.ctx (fun c => c.raise f)

/-- The notice that an operation asks for (R300). -/
def giveNotice (s : State) (o : EOp) (kind : Nat) : State :=
  if o.irq && !o.orphan then s.modCtx o.ctx (fun c => c.notify { kind, tag := o.tag, addr := 0 }) else s

/-- The copy engine of a core's cluster is free again (R285). -/
def freeEngine (s : State) (core : Nat) : State := s.modClu (core / 16) (fun c => { c with cpyBusy := none })

/-- An operation is cancelled: it leaves its queue, the registers it marked empty are filled again with their values at
issue, the flags that a copy has raised are added, those of an array operation are not, and the count of a pass that a copy would have
placed falls (R289, R291, R293, R311). -/
def cancelOne (s : State) (core q : Nat) (o : EOp) : State :=
  let u := (s.leaveQueue core q o).fillKept o (o.keep.map (·.val))
  match o.kind with
  | .cpy _ _ _ _ _ ext =>
    let u := u.addFlags o o.flags
    if ext.fon == 0 || o.orphan then u else u.countDown o.ctx .tl
  | _ => u

/-- The operation that met a fault and every later one of its context in the queue are cancelled; a sequencer that issued it
stops (R293, R296). -/
def cancelFrom (s : State) (core q : Nat) (o : EOp) : State :=
  let gone := ((s.coreAt core).queue q).filter (fun x => x.ctx == o.ctx && x.orphan == o.orphan && decide (o.id ≤ x.id))
  let u := gone.foldl (fun s x => s.cancelOne core q x) s
  match o.seq with
  | some i => u.modSeq core i (fun x => { x with running := false, fault := true })
  | none => u

/-- Cancellation and report (R293). -/
def failOp (s : State) (core q : Nat) (o : EOp) (cause : Nat) (val : Word) : State :=
  (s.cancelFrom core q o).engineTrap o.ctx q cause val (o.priv != .u) o.orphan

/-- A value for a register of the operation waits for a wake to end (R197). -/
def putHeld (s : State) (core : Nat) (o : EOp) : Bool :=
  (s.coreAt core).late.any (fun x => match x with
    | .put _ i _ => i == o.id
    | _ => false)

end State

/-! ### Copies -/

/-- The follow-on pass of a copy, as `cpass` of its context at this cycle (R291, R306). -/
def State.followOn (s : State) (core : Nat) (o : EOp) (dst : Word) (n : Nat) : EOp :=
  let c := s.ctxAt o.ctx
  let tab := if c.acmp then some (s.coreAt core).table else none
  { id := s.nid, ctx := o.ctx, priv := o.priv, kind := .cpass dst n 0 c.afmt tab, cmd := o.cmd
    binds := s.bindsOf core [dst.toNat], after := s.fencedBy o.ctx 1, orphan := o.orphan }

/-- The copy engine places the pass: its record range is checked now; a fault cancels what the context has queued behind
(R291, R293). -/
def State.placePass (s : State) (core : Nat) (o : EOp) (dst : Word) (n : Nat) : State :=
  let p := s.followOn core o dst n
  let fall := fun (s : State) => if o.orphan then s else s.countDown o.ctx .tl
  if s.cancelsNow o.ctx 1 then fall s
  else if crosses dst.toNat (n * stride (s.ctxAt o.ctx).afmt) then
    (fall s).engineTrap o.ctx 1 0x08 dst (o.priv != .u) o.orphan
  else s.bumpId.modCore core (fun c => { c with aq := c.aq ++ [p] })

/-- COPY_COMPLETE (R286, R289, R291, R300). While the array queue is full, a copy with a follow-on pass waits; a fill waits for a
wake that holds its registers back. -/
def execCopyComplete (core : Nat) (s : State) : Out1 :=
  s.fired (
    match s.servedCopy core with
    | some o =>
      match o.kind with
      | .cpy _ dst _ _ _ ext =>
        if !o.done || s.putHeld core o || (ext.fon != 0 && 16 ≤ (s.coreAt core).aq.length) then none
        else
          let u := (((s.leaveQueue core 0 o).addFlags o o.flags).giveNotice o 1).freeEngine core
          some (if ext.fon == 0 then u else u.placePass core o dst ext.fon.toNat)
      | _ => none
    | none => none)

/-! ### The array -/

/-- The latency of the well that an array operation is bound to (R320). -/
def EOp.wellLat (o : EOp) : Nat :=
  match o.binds with
  | b :: _ => Machine.wellLat (o.ctx / 256) (wellClu b.well)
  | [] => 12

/-- E − start of an operation that starts alone (R320), and the vector cost of a pass. -/
def State.arrayTime (s : State) (o : EOp) : Nat × Nat :=
  match o.kind with
  | .cpass _ _ _ _ _ => (256 + s.passCost o, s.passCost o)
  | .clw _ _ _ _ => (32, 0)
  | .cdrain _ n _ => (o.wellLat + 4 * n, 0)
  | .cstk _ _ n => (o.wellLat + (n + 127) / 128, 0)
  | _ => (0, 0)

/-- The end of a `clw` that joins a pass at cycle `b` (R321). -/
def joinEnd (pass : EOp) (b : Nat) : Nat :=
  let S := pass.start.getD 0
  let b := Nat.max b (S + 128)
  let L := S + 128 + pass.lives - b
  if 32 ≤ L then b + 32 else pass.fin + 32 - L

def EOp.isClw (o : EOp) : Bool :=
  match o.kind with
  | .clw _ _ _ _ => true
  | _ => false

def EOp.isPass (o : EOp) : Bool :=
  match o.kind with
  | .cpass _ _ _ _ _ => true
  | _ => false

/-- Change an operation of the array queue. -/
def State.modArray (s : State) (core id : Nat) (f : EOp → EOp) : State :=
  s.modCore core (fun c => { c with aq := c.aq.map (fun o => if o.id = id then f o else o) })

/-- ARRAY_OP_START (R320, R321): the head starts, or the one `clw` that may join a pass that runs: the one that followed it in the
queue. It loads from the pass's vector phase on. None starts at a stop, but for a well change that waits for it (R347, log 43). -/
def execArrayOpStart (core : Nat) (s : State) : Out1 :=
  s.fired (
    match (s.coreAt core).aq with
    | o :: rest =>
      if o.start.isNone then
        if s.mayStart core o && !(s.halts core 1 o) then
          let (t, v) := s.arrayTime o
          some (s.modArray core o.id (fun o => { o with start := some s.now, fin := s.now + t, lives := v }))
        else none
      else
        match rest with
        | c :: _ =>
          if o.isPass && o.mate.isNone && c.isClw && c.start.isNone && s.mayStart core c && !(s.halts core 1 c) && o.start.getD 0 + 128 ≤ s.now then
            some ((s.modArray core o.id (fun o => { o with mate := some c.id })).modArray core c.id (fun c =>
              { c with start := some s.now, fin := joinEnd o s.now }))
          else none
        | [] => none
    | [] => none)

/-- The operation of the array that goes on or ends next: of a pass and the `clw` beside it, the `clw` where it ends earlier and its
end has come, or the pass has made its accesses. -/
def Core.endsNext (c : Core) (now : Nat) : Option EOp :=
  match c.aq with
  | o :: w :: _ =>
    if o.start.isNone then none
    else if w.start.isSome && w.fin < o.fin && (decide (w.fin ≤ now) || o.nextAccess.isNone) then some w
    else some o
  | [o] => if o.start.isNone then none else some o
  | [] => none

/-- The next access of an array operation, or its completion: its effect, its count, its flags, d of a `clw`, its notice. Of all this,
only d waits for the wake of a sleeping core (R161, R197). -/
def State.arrayStep (s : State) (core : Nat) (o : EOp) : Option State :=
  if o.lost then none
  else if o.nextAccess.isSome then
    match s.arrayAccess o with
    | .ok (u, p) => some (u.modArray core o.id (fun _ => p))
    | .error _ => none
  else
    let r := s.arrayEnd o
    if r.fail.isSome then none
    else some ((((r.s.leaveQueue core 1 o).addFlags o r.flags).fillKept o [BitVec.ofNat 512 r.planes]).giveNotice o 2)

/-- ARRAY_OP_COMPLETE (R203, R261, R320): the operation makes its accesses to a well one by one, and completes after the last. -/
def execArrayOpComplete (core : Nat) (s : State) : Out1 :=
  s.fired (((s.coreAt core).endsNext s.now).bind (s.arrayStep core))

/-! ### Exchange -/

/-- The cores that an exchange operation writes (R327, R336). -/
def State.targets (s : State) (core : Nat) (o : EOp) : List Nat :=
  match o.kind, s.teamOf core, s.launchOf core with
  | .xst _ w _, _, _ => [fieldOf w 0 11]
  | .nmc _ g _ _ _, some t, some l => ((Tbl.get [] l.groups g).map t.coreOf).filter (fun c => c != core)
  | .nred _ _ _ _ _ _, _, _ => [core]
  | _, _, _ => []

/-- Bytes, target slot and offset of an exchange operation; whether a plain slot is allowed. -/
def EOp.landing (o : EOp) : Nat × Nat × Nat × Bool :=
  match o.kind with
  | .xst _ w n => (n, fieldOf w 16 4, fieldOf w 32 16, false)
  | .nmc _ _ n slot off => (n, slot, off, true)
  | .nred _ _ _ n slot off => (n, slot, off, true)
  | _ => (0, 0, 0, false)

/-- What a target slot does to a landing (R327, R336). -/
inductive Land where
  | wait
  | bad
  | place (well off : Nat)
  deriving DecidableEq, Repr

/-- The checks of R327 and R336 at a target: the well and the offset in its front-first view. -/
def State.landAt (s : State) (core target : Nat) (o : EOp) : Land :=
  let (n, slot, off, plain) := o.landing
  let x := s.slotAt target slot
  if !(s.sameTeam core target) || x.st == .detached then .bad
  else if x.st == .incoming then .wait
  else if x.exch then (if off + n ≤ 0x10000 then .place x.well (0x10000 + off) else .bad)
  else if plain then .place x.well off
  else .bad

/-- The head of the exchange queue after it has started. -/
def State.movingExch (s : State) (core : Nat) : Option EOp :=
  match (s.coreAt core).eq.head? with
  | some o => if o.start.isSome && !o.lost then some o else none
  | none => none

/-- The source of an exchange operation. -/
def EOp.source (o : EOp) : Option (Word × Nat) :=
  match o.kind with
  | .xst a _ n => some (a, n)
  | .nmc a _ n _ _ => some (a, n)
  | .nred _ a _ n _ _ => some (a, n)
  | _ => none

/-- The last write of an operation in the reference timing (R340). -/
def State.exchTime (s : State) (core : Nat) (o : EOp) : Nat :=
  let (n, _, _, _) := o.landing
  match o.kind with
  | .nred _ _ _ _ _ _ => 160 + n / 16
  | .smark _ => 0
  | _ => (if (s.targets core o).all (fun c => c / 16 == core / 16) then 24 else 100) + n / 16

/-- The head of the exchange queue, when it may start (R294, R340, R347). -/
def State.startingExch (s : State) (core : Nat) : Option EOp :=
  match (s.coreAt core).eq.head? with
  | some o => if o.start.isSome || !(s.mayStart core o) || s.halts core 2 o then none else some o
  | none => none

/-- The head of the exchange queue starts; a reduction takes its number on its group (R337). -/
def State.startExch (s : State) (core : Nat) (o : EOp) : State :=
  let fin := s.now + s.exchTime core o
  match o.kind with
  | .nred _ _ g _ _ _ =>
    let k := Tbl.get 0 (s.coreAt core).nredK g
    (s.modCore core (fun c => { c with nredK := Tbl.set 0 c.nredK g (k + 1) })).modHead core 2 (fun o =>
      { o with start := some s.now, fin, k })
  | _ => s.modHead core 2 (fun o => { o with start := some s.now, fin })

/-- The next read of the source of an exchange operation that has started (R203, R327). A reduction whose source faults is to be
aborted (R338); an `nmc` with nobody to write to ends with its last read (R336, log 31). -/
def State.exchRead (s : State) (core : Nat) (o : EOp) : Option State :=
  match o.nextAccess, o.kind with
  | some (at_, len, _), k =>
    (match s.engRead o.binds at_ len, k with
    | .ok (u, bs), _ =>
      let p := { o with pos := o.pos + 1, data := o.data ++ bs }
      some (if p.nextAccess.isNone && (s.targets core o).isEmpty then u.leaveQueue core 2 p else u.modHead core 2 (fun _ => p))
    | .error (.fault _ _ _), .nred _ _ _ _ _ _ => some (s.modHead core 2 (fun o => { o with bad := true }))
    | .error _, _ => none)
  | none, _ => none

/-- EXCHANGE_OP_START (R327, R337, R340): the head of the queue starts, and then reads its source at the port, access by access. -/
def execExchangeOpStart (core : Nat) (s : State) : Out1 :=
  s.fired (
    match s.startingExch core with
    | some o => some (s.startExch core o)
    | none => (s.movingExch core).bind (fun o => if s.halts core 2 o then none else s.exchRead core o))

/-- Where a unit of an exchange operation lands at a target: of a matched reduction, where the match has found it (R337). -/
def State.landUnit (s : State) (core target : Nat) (o : EOp) : Option (Nat × Nat) :=
  match o.kind, o.dest with
  | .nred _ _ _ _ _ _, d => d
  | _, _ =>
    match s.landAt core target o with
    | .place w off => some (w, off)
    | _ => none

/-- UNIT_LANDING (R327, R336): the next unit of 64 bytes that has been read lands whole, in one access at the port; the last one ends
the operation. At a stop no further unit lands, but for a well change that waits for it (R347, log 43). -/
def execUnitLanding (core target : Nat) (s : State) : Out1 :=
  s.fired (
    match (s.movingExch core).filter (fun o => !(s.halts core 2 o)) with
    | some o =>
      let i := Tbl.get 0 o.landed target
      let units := o.landing.1 / 64
      if !((s.targets core o).contains target) || units ≤ i || o.data.length < 64 * (i + 1) then none
      else
        match s.landUnit core target o with
        | some (w, off) =>
          if !(s.portFree w) then none
          else
            let u := (s.writeWell w (off + 64 * i) (((o.data.drop (64 * i)).take 64).map some)).usePort w
            let o' := { o with landed := Tbl.set 0 o.landed target (i + 1) }
            let u := u.modHead core 2 (fun _ => o')
            some (if (s.targets core o).all (fun c => Tbl.get 0 o'.landed c == units) then u.leaveQueue core 2 o' else u)
        | none => none
    | none => none)

/-! ### Reductions (R337, R338) -/

/-- Combine two FP32 patterns (R337). -/
def combine (op : NredOp) (a b : Nat) : Nat :=
  let x := fmt32.read false a
  let y := fmt32.read false b
  match op with
  | .add => (fmt32.add 0 false x y).1
  | .min => (fmt32.minMax true x y).1
  | .max => (fmt32.minMax false x y).1

/-- Element `e` of the result over the members' data in member order (R73, R337). -/
def reduceElem (op : NredOp) (datas : List (List Byte)) (e : Nat) : Nat :=
  (treeFold (combine op) 11 (datas.map (fun d => some (ofBytes ((d.drop (4 * e)).take 4))))).getD 0

/-- The result bytes. -/
def reduceAll (op : NredOp) (n : Nat) (datas : List (List Byte)) : List Byte :=
  (List.range (n / 4)).flatMap (fun e => toBytes 4 (reduceElem op datas e))

/-- Every context of a core is FREE or ENDED (R150). -/
def State.coreDone (s : State) (core : Nat) : Bool :=
  (List.range 16).all (fun t => (s.ctxAt (16 * core + t)).life != .running)

/-- A started reduction of a group at a core that has not been matched. -/
def State.nredAt (s : State) (core g : Nat) : Option EOp :=
  match s.movingExch core with
  | some o =>
    match o.kind with
    | .nred _ _ h _ _ _ => if h = g && o.dest.isNone then some o else none
    | _ => none
  | none => none

/-- A member core has completed and will not issue its `k`-th reduction on the group (R338). -/
def State.missesNred (s : State) (core g k : Nat) : Bool :=
  s.coreDone core && Tbl.get 0 (s.coreAt core).nredK g ≤ k && !((s.coreAt core).eq.any (fun o =>
    match o.kind with
    | .nred _ _ h _ _ _ => h == g
    | _ => false))

/-- The operation and count that must agree (R337). -/
def EOp.nredKey (o : EOp) : Option (NredOp × Nat) :=
  match o.kind with
  | .nred op _ _ n _ _ => some (op, n)
  | _ => none

/-- Abort the match: every member present is cancelled and traps with 0x10 (R338). -/
def State.abortNred (s : State) (t : Team) (g k : Nat) (present : List (Nat × EOp)) : State :=
  let gs := Tbl.get {} t.groups g
  let u := s.setTeam { t with groups := Tbl.set {} t.groups g { gs with aborts := (k :: gs.aborts).eraseDups } }
  present.foldl (fun s (core, o) => s.failOp core 2 o 0x10 (BitVec.ofNat 64 g)) u

/-- The members of a team's group on the device that have started their lowest outstanding reduction on it: its number, and the
members that have reached it, in member order. -/
def State.nredsOf (s : State) (t : Team) (ms : List Nat) (group : Nat) : Option (Nat × List (Nat × EOp)) :=
  let cores := (sortBy (fun a b => decide (a ≤ b)) ms).map t.coreOf
  let here := cores.filterMap (fun c => (s.nredAt c group).map (fun o => (c, o)))
  match (here.map (fun p => p.2.k)).min? with
  | some k => if t.onDevice then some (k, here.filter (fun p => p.2.k == k)) else none
  | none => none

/-- NETWORK_REDUCTION (R337, R338): the lowest-numbered match of the group is aborted, or decided when every member has started it and
its data has come (R340). Every member then holds the result, which lands at its own destination (UNIT_LANDING). -/
def execNetworkReduction (team group : Nat) (s : State) : Out1 :=
  s.fired (
    match s.teams.find? (fun t => t.id == team) with
    | some t =>
      match s.launchAt t.launch with
      | some l =>
        let ms := Tbl.get [] l.groups group
        match s.nredsOf t ms group with
        | none => none
        | some (k, present) =>
          let bad := ((Tbl.get {} t.groups group).aborts.contains k) ||
            present.any (fun (c, o) => o.bad || s.landAt c c o == .bad || o.nredKey != (present.head?.map (·.2)).bind EOp.nredKey) ||
            ms.any (fun i => s.missesNred (t.coreOf i) group k)
          if bad then some (s.abortNred t group k present)
          else if present.length < ms.length ||
              present.any (fun (c, o) => o.nextAccess.isSome || s.now + o.landing.1 / 16 < o.fin || s.landAt c c o == .wait) then none
          else
            match (present.head?.map (·.2)).bind EOp.nredKey with
            | none => none
            | some (op, n) =>
              let bytes := reduceAll op n (present.map (fun p => p.2.data))
              let last := present.foldl (fun m p => Nat.max m p.2.fin) 0
              some (present.foldl (fun u (c, o) =>
                match s.landAt c c o with
                | .place w off => u.modHead c 2 (fun o => { o with data := bytes, dest := some (w, off), fin := last })
                | _ => u) s)
      | none => none
    | none => none)

/-! ### Engine faults -/

/-- Cause and `kval` of a data error that the next read of a copy meets (R293, R343): in its shape block or another well at offset
`off`, or in the line of global memory that it reads; or the refusal of the peer package that its next access goes to (R379). -/
def State.copyErr (s : State) (o : EOp) (off : Nat) : Option (State × Nat × Word) :=
  let inWell := fun (lo len : Nat) => match engPlace o.binds lo len false with
    | .ok (some (w, base)) => if base ≤ off && off < base + len && s.portFree w then some (s.usePort w, 0x15, s.wellErr w off) else none
    | _ => none
  match o.kind, o.cp.dims with
  | .cpy _ _ shape _ _ _, none =>
    match s.engLook o.binds shape.toNat 8 with
    | .ok h =>
      let (at_, len) := o.shapeSpan shape.toNat (Nat.min 10 (ofBytes (if o.cp.bytes.isEmpty then h else o.cp.bytes.take 8)))
      inWell at_ len
    | .error _ => none
  | .cpy src dst _ _ _ ext, some ds =>
    let x := if o.cp.read then dstSide dst ext ds else srcSide src ext ds
    let n := Nat.max 1 o.cp.num
    let (lo, len) := x.span o.cp.pos n
    let reads := !o.cp.read || x.w == 4
    if o.cp.pos = dimCount ds then none
    else
      match engPlace o.binds lo len o.cp.read with
      | .ok none =>
        match (s.globalParts (o.ctx / 16) 0 lo 0 (x.wants o.cp.pos n lo len))[o.cp.part]? with
        | some p =>
          (match s.engReach o p o.cp.read with
            | .ok (n, y) =>
              let u := s.acceptFrom (o.ctx / 16) o.id 0 n
              if y.tgt == 2 then some (u, 0x0B, BitVec.ofNat 64 p.va)
              else if reads then some (u, 0x15, BitVec.ofNat 64 (y.addr / 256 * 256))
              else none
            | .error _ => none)
        | none => none
      | _ => if reads then inWell lo len else none
  | _, _ => none

/-- A copy ends in a fault: it and those behind it are cancelled, and its engine is free (R285, R293); a malformed table entry is
reported (R272). -/
def State.failCopy (s : State) (core : Nat) (o : EOp) (cause : Nat) (val : Word) (report : Bool) : State :=
  ((s.reportTo (s.vfOfCore core) val.toNat { cause, report }).failOp core 0 o cause val).freeEngine core

/-- The fault of the copy that the engine performs for the core, where it meets one in its next step, or a data error. -/
def State.copyFault (s : State) (core : Nat) (err : Option Nat) : Option State :=
  match s.copyAtWork core with
  | some o =>
    match err with
    | some off => (s.copyErr o off).map (fun (s, c, v) => s.failCopy core o c v false)
    | none =>
      match s.copyStep o 1 with
      | .error (.fault c v rep) => some (s.failCopy core o c v rep)
      | _ => none
  | none => none

/-- The fault that an array operation meets: in its next access, when the array reaches it; of a bad t5 byte in the cycle in which the
load would have ended (R324), and of a `cflip` at its start (R293). -/
def State.arrayMeets (s : State) (core : Nat) (o : EOp) : Option State :=
  if o.nextAccess.isSome then
    match s.arrayAccess o with
    | .error (.fault c v _) => some (s.failOp core 1 o c v)
    | _ => none
  else if s.now < o.fin then none
  else
    let r := s.arrayEnd o
    match r.fail with
    | some (.fault c v _) => some (r.s.failOp core 1 o c v)
    | _ => none

/-- The fault of the array: of the operation at its head, or of the `clw` beside it, or with a data error. -/
def State.arrayFault (s : State) (core : Nat) (err : Option (Nat × Nat)) : Option State :=
  let next := (s.coreAt core).endsNext s.now
  match err with
  | some (bank, off) => next.bind (fun o => (s.arrayErr o bank off).map (fun (u, v) => u.failOp core 1 o 0x15 v))
  | none =>
    let head := ((s.coreAt core).aq.head?).filter (fun o => o.start.isSome && o.nextAccess.isSome)
    head.bind (s.arrayMeets core) <|> next.bind (s.arrayMeets core)

/-- A data error at offset `off` of the well that the next read of an exchange operation reaches (R293, R343); a reduction is then
aborted (R338). -/
def State.exchErr (s : State) (core off : Nat) : Option State :=
  match s.movingExch core with
  | some o => (s.accessErr o off).map (fun (s, v) =>
      match o.kind with
      | .nred _ _ _ _ _ _ => s.modHead core 2 (fun o => { o with bad := true })
      | _ => s.failOp core 2 o 0x15 v)
  | none => none

/-- The cause and value with which a read of an engine fails. -/
def State.readFault (s : State) (bs : List Bind) (addr n : Nat) : Option (Nat × Word) :=
  match s.engRead bs addr n with
  | .error (.fault c v _) => some (c, v)
  | _ => none

/-- The fault that an exchange operation meets: in its next read, or at a target where units are still to land (R326, R327, R336). -/
def State.exchFault (s : State) (core : Nat) : Option State :=
  match s.movingExch core with
  | some o =>
    (match o.kind with
    | .nred _ _ _ _ _ _ => none
    | _ =>
      match o.nextAccess.bind (fun (at_, len, _) => s.readFault o.binds at_ len) with
      | some (c, v) => some (s.failOp core 2 o c v)
      | none =>
        if (s.targets core o).any (fun c => Tbl.get 0 o.landed c < o.landing.1 / 64 && s.landAt core c o == .bad) then
          some (s.failOp core 2 o 0x0F o.cmd)
        else none)
  | none => none

/-- A data error in the record that a sequencer reads (R296, R343). -/
def State.seqErr (s : State) (core i off : Nat) : Option State :=
  let q := Tbl.get {} (s.coreAt core).seqs i
  if !q.running then none
  else
    match engPlace q.binds q.pc.toNat 64 false with
    | .ok (some (w, base)) =>
      if base ≤ off && off < base + 64 && s.portFree w then some ((s.usePort w).seqFault core i q 0x15 (s.wellErr w off)) else none
    | _ => none

/-- ENGINE_FAULT (R293): an operation of the array, the head of the exchange queue, or the copy served meets its
fault; it and the later operations of its context in that queue are cancelled. -/
def execEngineFault (f : EngFault) (s : State) : Out1 :=
  s.fired (
    match f.err with
    | none => s.arrayFault f.core none <|> s.exchFault f.core <|> s.copyFault f.core none
    | some (0, _, off) => s.copyFault f.core (some off)
    | some (1, bank, off) => s.arrayFault f.core (some (bank, off))
    | some (2, _, off) => s.exchErr f.core off
    | some (i + 3, _, off) => if i < 4 then s.seqErr f.core i off else none)

/-! ### Words and markers (R332-R334) -/

/-- Words of an output queue that stand before its first marker (R334). -/
def State.freeWords (s : State) (a n : Nat) : Nat :=
  let all := ((s.ctxAt a).port false n).words.length
  ((s.coreAt (a / 16)).eq.filter (fun o => o.ctx == a && o.kind == .smark n)).foldl (fun m o => Nat.min m o.ahead) all

/-- Hops of a path (R330). -/
def hopsTo (a b : Nat) : Nat := if a / 16 = b / 16 then 1 else 3

/-- The destination cores of a stream under its port set in force (R329, R334). -/
def Team.destsOf (t : Team) (l : Launch) (x : Stream) : List Nat :=
  (x.reachesOf l (Tbl.get 0 t.setIx x.num)).map t.coreOf

/-- Word positions that a stream has in this cycle: four of a reserved slot at its start, less those used; a best-effort stream has
four at any time (R330, R332, R334). -/
def State.positions (s : State) (t : Team) (x : Stream) : Nat :=
  if x.slots == 0 then 4
  else if s.now % 32 == 0 && x.slots.getLsbD (s.now % 2048 / 32) then
    let (at_, k) := Tbl.get (0, 0) t.inj x.num
    if at_ = s.now then 4 - k else 4
  else 0

/-- The stream has used `k` word positions in this cycle. -/
def Team.used (t : Team) (x : Stream) (now k : Nat) : Team :=
  if x.slots == 0 then t
  else
    let (at_, j) := Tbl.get (0, 0) t.inj x.num
    { t with inj := Tbl.set (0, 0) t.inj x.num (now, if at_ = now then j + k else k) }

/-- A word on its way to some destinations, apart by hops: each has its own bound (R330, R332). -/
def flitsFor (t : Team) (x : Stream) (core now : Nat) (dests : List Nat) (w : Word) : List Flit :=
  if x.slots == 0 then [{ id := 0, team := t.id, stream := x.num, word := w, dests, due := now + 100 }]
  else
    ([1, 3].map (fun h => ({ id := 0, team := t.id, stream := x.num, word := w, dests := dests.filter (fun c => hopsTo core c == h)
                             due := now + h * 2048 + 800 } : Flit))).filter (fun f => !f.dests.isEmpty)

/-- WORD_INJECTION (R332): up to four words, in a reserved slot at its start; a best-effort stream at any time. Of two queues that a
context has bound to one stream, the words go in the order of their pushes (R333). The network takes them however many words it holds
behind a full receive buffer, and a word stays in its output queue until the step that injects it (DESIGN CHOICE, log 31: R332 and R333
say neither). -/
def execWordInjection (core tid : Nat) (n : Fin 4) (s : State) : Out1 :=
  s.fired (
    let a := 16 * core + tid
    let p := (s.ctxAt a).port false n.val
    match p.bound, s.teamOf core, s.launchOf core with
    | some num, some t, some l =>
      match s.streamOf core num with
      | some x =>
        let k := Nat.min (s.positions t x) (Nat.min (s.freeWords a n.val) ((s.ctxAt a).lead n.val))
        if k = 0 then none
        else
          let fl := (p.words.take k).flatMap (flitsFor t x core s.now (t.destsOf l x))
          let u := { s with nid := s.nid + fl.length }
          let u := u.modCtx a (fun c => { c.setPort false n.val { p with words := p.words.drop k } with pushes := dropPushes k n.val c.pushes })
          let u := u.modCore core (fun c => { c with
            eq := c.eq.map (fun o => if o.ctx == a && o.kind == .smark n.val then { o with ahead := o.ahead - k } else o) })
          some ((u.setTeam (t.used x s.now k)).setNet { u.net with
            flits := u.net.flits ++ (fl.zipIdx).map (fun (f, i) => { f with id := s.nid + i }) })
      | none => none
    | _, _, _ => none)

/-- A core's receive buffer of a stream (R333). -/
def Core.rxOf (c : Core) (num : Nat) : List Word := ((c.rx.find? (fun b => b.stream == num)).map (·.words)).getD []

def Core.setRx (c : Core) (num : Nat) (ws : List Word) : Core :=
  { c with rx := (if ws.isEmpty then [] else [{ stream := num, words := ws }]) ++ c.rx.filter (fun b => b.stream != num) }

/-- Words of a receive buffer go to the queue that is bound to the stream, while it has room (R19, R333). -/
def State.drainRx (s : State) (core num : Nat) : State :=
  match s.boundTo core true num with
  | some (a, q) =>
    let p := (s.ctxAt a).port true q
    let ws := (s.coreAt core).rxOf num
    let k := Nat.min ws.length (16 - p.words.length)
    if k = 0 then s
    else (s.modCtx a (fun c => c.setPort true q { p with words := p.words ++ ws.take k })).modCore core (fun c => c.setRx num (ws.drop k))
  | none => s

/-- WORD_DELIVERY (R332, R333): the word reaches those of its destinations that have room and that no earlier word of the
stream is still on its way to. -/
def execWordDelivery (flit : Nat) (s : State) : Out1 :=
  s.fired (
    match s.net.flits.find? (fun f => f.id == flit) with
    | some f =>
      let before := (s.net.flits.takeWhile (fun g => g.id != flit)).filter (fun g => g.team == f.team && g.stream == f.stream)
      let now := f.dests.filter (fun c => ((s.coreAt c).rxOf f.stream).length < 64 && !(before.any (fun g => g.dests.contains c)))
      if now.isEmpty then none
      else
        let u := now.foldl (fun s c =>
          (s.modCore c (fun k => k.setRx f.stream (k.rxOf f.stream ++ [f.word]))).drainRx c f.stream) s
        let rest := f.dests.filter (fun c => !(now.contains c))
        some (u.setNet { u.net with
          flits := u.net.flits.filterMap (fun g => if g.id != flit then some g else if rest.isEmpty then none else some { g with dests := rest }) })
    | none => none)

/-- MARKER_SEND (R334): the marker at the head of the exchange queue is sent once every earlier word has been injected, in one word
position of the stream; the stream goes on to its next port set. -/
def execMarkerSend (core : Nat) (s : State) : Out1 :=
  s.fired (
    match s.movingExch core, s.teamOf core with
    | some o, some t =>
      match o.kind with
      | .smark n =>
        match ((s.ctxAt o.ctx).port false n).bound with
        | some num =>
          match s.streamOf core num with
          | some x =>
            if o.ahead != 0 || s.positions t x = 0 then none
            else
              let i := (Tbl.get 0 t.setIx num + 1) % Nat.max 1 x.sets.length
              some ((s.leaveQueue core 2 o).setTeam { t.used x s.now 1 with setIx := Tbl.set 0 t.setIx num i })
          | none => none
        | none => none
      | _ => none
    | _, _ => none)

/-! ### Lockstep (R335) -/

/-- The context waits at a port that is bound to a reserved stream of a lockstep team. -/
def State.lockWait (s : State) (a : Nat) : Bool :=
  match (s.ctxAt a).parked with
  | some (.queue n out _) =>
    (s.hdrOf (a / 16)).lockstep &&
    (match ((s.ctxAt a).port (!out) n).bound with
      | some num => (s.streamOf (a / 16) num).any (fun x => x.slots != 0)
      | none => false)
  | _ => false

/-- The condition of a wait at a port has cleared (R21). -/
def State.portClear (s : State) (a : Nat) : Bool :=
  match (s.ctxAt a).parked with
  | some (.queue n out _) =>
    let ws := ((s.ctxAt a).port (!out) n).words
    if out then ws.length < 16 else !ws.isEmpty
  | _ => true

/-- A core stops from cycle `lo` up to, not including, `hi`, beside the stalls that are not over (R335). -/
def Core.stallFor (c : Core) (now lo hi : Nat) : Core := { c with stall := c.stall.filter (fun w => decide (now < w.2)) ++ [(lo, hi)] }

/-- A lockstep team of the core stalls: one of its contexts has waited at a reserved stream for sixteen cycles (R335). -/
def State.lockHeld (s : State) (core : Nat) : Bool :=
  (s.hdrOf core).lockstep && (match s.teamOf core with
    | some t => t.cores.any (fun c => (List.range 16).any (fun i =>
        s.lockWait (16 * c + i) && decide ((s.ctxAt (16 * c + i)).parkAt + 16 ≤ s.now)))
    | none => false)

/-- LOCKSTEP_STALL (R335): the condition of a trigger clears at this cycle, which fixes the length of the stall: the smallest multiple
of 32 that covers the wait. It is counted from the cycle in which the port became the first source that is missing, inside a stall too;
a trigger that an interrupt, a notice or a late trap takes out of its wait before makes none (DESIGN CHOICE, log 65: R335 says nothing
of either). -/
def execLockstepStall (core tid : Nat) (s : State) : Out1 :=
  s.fired (
    let a := 16 * core + tid
    match s.teamOf core with
    | some t =>
      if !(s.lockWait a && s.portClear a) then none
      else
        let u := (s.ctxAt a).parkAt
        let L := (s.now - u + 31) / 32 * 32
        let r := if L = 0 then s else t.cores.foldl (fun s c => s.modCore c (fun k => k.stallFor s.now (u + 16) (u + 16 + L))) s
        some (r.modCtx a (fun c => { c with parked := none, holdTo := Nat.max c.holdTo (u + 16 + L) }))
    | none => none)

end Sys2Proof.Machine
end

