-- ==== Sys2Proof/Machine/CoreEvents.lean ====
section
/-!
DEFINITION. The events of a core: fetch (R80, R108), entry into traps, interrupts and notice handlers (R34, R42, R43, R275,
R301), sleep (R161, R197), remote fills (R170), waits with a time limit (R168), episodes (R186), and tasks (R192-R195).
-/

namespace Sys2Proof.Machine

/-! ### Issue points -/

/-- A `vamo` of the context is in flight (R238). -/
def State.vamoBusy (s : State) (a : Nat) : Bool :=
  s.ops.any (fun o => o.ctx == a && (match o.kind with
    | .vamo _ => true
    | _ => false))

/-- The core gives a slot in this cycle: it is awake, its slot is unused, and no stop or stall holds it (R151, R216, R335,
R347). -/
def Core.gives (k : Core) (a now : Nat) : Bool :=
  k.sleep == .awake && decide (k.slotAt ≤ now) && (k.frozen.isNone || k.frozen == some a) &&
  (match k.stopAt with
    | some t => decide (now < t)
    | none => true) &&
  !(k.stall.any (fun (lo, hi) => decide (lo ≤ now) && decide (now < hi)))

/-- The context may take an issue point in this cycle, leaving out the reason for which it is parked (R26, R60, R151, R238). Where the
port of a lockstep team's trigger has cleared, the stall comes first (R335). -/
def State.atIssue (s : State) (a : Nat) : Bool :=
  let c := s.ctxAt a
  c.life == .running && (s.coreAt (a / 16)).gives a s.now && !(s.lockHeld (a / 16)) &&
  (match c.lastAt with
    | some t => decide (t + 4 ≤ s.now)
    | none => true) &&
  decide (c.holdTo ≤ s.now) && !(s.fpBusy a && c.fpcsr.extractLsb' 8 5 != 0) && !(s.vamoBusy a) &&
  !(s.lockWait a && s.portClear a)

/-- The instruction that a trap or an interrupt names: the one that would issue next; a `gbar` that waits (R157, R188). -/
def Ctx.resumePc (c : Ctx) : Word :=
  match c.post with
  | .gbar _ _ at_ => at_
  | _ => c.pc

/-! ### Late traps (R42, R157, R275) -/

/-- The requests of a context for some pages go void: their faults are taken to S after all (R275; log 38). -/
def State.voidAsks (s : State) (a : Nat) (pages : List Nat) : State :=
  let f := fun (r : PageReq) => if r.ctx == a && pages.contains r.page then { r with void := true } else r
  s.modVf (s.vfOfCore (a / 16)) (fun v => { v with prqs := v.prqs.map f, asked := v.asked.map f })

/-- A late trap that an engine, a collective, a watchdog or a `vamo` has left (R157, R240, R293). -/
def State.takeLate (s : State) (l : Late) : State :=
  let c := s.me
  let epc := l.at_.getD c.resumePc
  let deleg := l.deleg && s.delegates s.cur (if l.above then .s else .u)
  let u := s.setMe { c with lates := c.lates.drop 1 }
  let u := if deleg then u.askHost s.cur l.val.toNat l.wr l.ord
    else if l.deleg then u.voidAsks s.cur [l.val.toNat / 65536] else u
  u.takeTrap l.cause l.val epc l.above deleg

/-- An operation of the acting context with a held access that is still to be reported (R42). -/
def State.unreported (s : State) (o : Op) : Bool :=
  o.ctx == s.cur && o.unreported && (o.priv != .u || !s.me.kstat.ktrap)

/-- Some held accesses of the operation are changed. -/
def Op.mark (o : Op) (f : Part → Bool) (g : Part → Part) : Op :=
  let accs := o.heldAccs f
  { o with parts := o.parts.map (fun p => if p.st == .held && accs.contains p.acc then g p else p) }

/-- The parts of the operation whose fault in a page may be delegated now await the host, and their upcall is taken (R275, R276). -/
def Op.delegate (o : Op) (page : Nat) : Op :=
  { o with parts := o.parts.map (fun p =>
      if p.st == .held && p.canDel && p.va / 65536 == page then { p with deleg := true, rep := true } else p) }

/-- The pages for which held accesses of the operation have asked the host, their upcall still to come. -/
def Op.askedPages (o : Op) : List Nat := ((o.parts.filter (fun p => p.st == .held && p.deleg && !p.rep)).map (fun p => p.va / 65536)).eraseDups

/-- What awaits the host in some pages is taken to S instead (R275). -/
def Op.undelegate (o : Op) (pages : List Nat) : Op :=
  { o with parts := o.parts.map (fun p =>
      if p.st == .held && p.deleg && pages.contains (p.va / 65536) then { p with deleg := false, rep := false } else p) }

/-- A level's late bit is set (R31, R42). -/
def Ctx.setLate (c : Ctx) (p : Priv) : Ctx :=
  match p with
  | .u => c
  | .s => { c with kstat := { c.kstat with late := true } }
  | .f => { c with fstat := { c.fstat with late := true } }

/-- Report the held accesses of the acting context, of which `p` of `o` is the first; `above`: those that were issued above U (R42,
R275). -/
def State.reportHeld (s : State) (above : Bool) (o : Op) (p : Part) : State :=
  let epc := s.me.resumePc
  if !above && p.canDel && s.delegates s.cur o.priv then
    let page := p.va / 65536
    let u := s.setOps (s.ops.map (fun q => if q.ctx == s.cur && q.priv == .u && !q.kind.isVamo then q.delegate page else q))
    (u.askHost s.cur p.va (o.acc p).wr o.id).takeTrap p.cause p.kval epc false true
  else
    let mine := fun (q : Op) => s.unreported q && (q.priv != .u) == above
    let pages := ((s.ops.filter mine).flatMap Op.askedPages).eraseDups
    let u := (s.setOps (s.ops.map (fun q =>
      let r := if q.ctx == s.cur then q.undelegate pages else q
      if mine q then r.mark (fun p => !p.deleg) (fun p => { p with rep := true }) else r))).voidAsks s.cur pages
    (u.modMe (fun c => c.setLate (trapLevel c above false))).takeTrap p.cause p.kval epc above false

/-- The late trap that the acting context takes at this issue point: those left for it in their order, then its held
accesses. The value names the first in program order of all that are held then, one reported before included (R42); the cause is
that of the same access (DEDUCED, log 58). -/
def State.lateTrap (s : State) : Option State :=
  match s.me.lates with
  | l :: _ => some (s.takeLate l)
  | [] =>
    match s.ops.find? s.unreported, s.ops.find? (fun o => o.ctx == s.cur && !o.kind.isVamo && !(o.heldAccs (fun p => !p.told)).isEmpty) with
    | some q, some o => (o.parts.find? (fun p => p.st == .held && !p.told && !(o.out p.acc))).map (s.reportHeld (q.priv != .u) o)
    | _, _ => none

/-- TRAP_ENTRY (R43, R157): a late trap at an issue point of the context. -/
def execTrapEntry (core tid : Nat) (s : State) : Out1 :=
  let a := 16 * core + tid
  s.fired (
    if s.atIssue a && s.lateReady a then
      let u := s.settlePost a
      ((({ u with cur := a } : State).lateTrap).map (fun u => { u with cur := s.cur }))
    else none)

/-! ### Interrupts and notices -/

/-- The lowest interrupt that is pending and enabled (R34). -/
def State.lowestIrq (s : State) (a : Nat) : Option Nat :=
  [0, 1, 2].find? (fun n => (s.pending a &&& (s.ctxAt a).kipE).getLsbD n)

/-- The interrupt that the acting context takes at this issue point. -/
def State.irqEntry (s : State) : Option State :=
  if s.me.takesIrq then (s.lowestIrq s.cur).map (fun n => s.takeInterrupt n s.me.resumePc) else none

/-- INTERRUPT_ENTRY (R34, R122, R168, R188). Late traps come first (R157). It is an issue point of the context at which the interrupt is
taken before the instruction there, a `wfi` or `mwait` too, which then is what `kepc` names; that the instruction issues first is the
other order that R117 and R122 leave (DESIGN CHOICE, log 22). -/
def execInterruptEntry (core tid : Nat) (s : State) : Out1 :=
  let a := 16 * core + tid
  s.fired (
    if s.atIssue a && !(s.lateReady a) then
      let u := s.settlePost a
      ((({ u with cur := a } : State).irqEntry).map (fun u => { u with cur := s.cur }))
    else none)

/-- Interrupts of a context that have become pending and enabled: a sleeping core wakes once for each rise (R161). -/
def State.noteIrq (s : State) (a : Nat) : State :=
  let now := s.pending a &&& (s.ctxAt a).kipE
  let rise := now &&& ~~~(s.ctxAt a).kipS
  if (s.ctxAt a).life != .running || now == (s.ctxAt a).kipS then s
  else
    let u := s.modCtx a (fun c => { c with kipS := now })
    if rise == 0 then u else u.modCore (a / 16) (fun k => k.wake s.now)

/-- TIMER_PENDING (R34): the timer bit is computed from `ktcmp`; its rise wakes the core and ends a wait of the context (R122,
R161, R168). -/
def execTimerPending (core tid : Nat) (s : State) : Out1 :=
  let a := 16 * core + tid
  s.fired (
    if (s.ctxAt a).life == .running && (s.pending a).getLsbD 1 then
      let u := s.noteIrq a
      some (if (u.coreAt core).sleep == .awake then u.settlePost a else u)
    else none)

/-- A notice as `x41` shows it (R300). -/
def Notice.word (n : Notice) (lost : Bool) : Word :=
  BitVec.ofNat 64 (lost.toNat * 2 ^ 63 + n.tag.toNat * 256 + n.kind)

/-- The acting context enters its notice handler (R301). -/
def State.noticeEntry (s : State) : Option State :=
  let c := s.me
  match c.notes with
  | [] => none
  | n :: ns =>
    if c.priv == .u && c.uirqv.getLsbD 0 && !c.inH && c.ucause == 0 && c.post == .none then
      let sh := Tbl.set {} (Tbl.set {} (Tbl.set {} c.sh 40 { val := c.pc }) 41 { val := n.word c.lost }) 42 { val := n.addr }
      let u := s.setMe { c with sh, inH := true, notes := ns, lost := false, pc := c.uirqv &&& ~~~3#64, fetchF := none }
      some { u.useSlot with last := .trapped }
    else none

/-- NOTICE_DELIVERY (R301). Traps and interrupts come first. -/
def execNoticeDelivery (core tid : Nat) (s : State) : Out1 :=
  let a := 16 * core + tid
  s.fired (
    if s.atIssue a && !(s.lateReady a) && !((s.ctxAt a).takesIrq && s.irqPending a) then
      ((({ s with cur := a } : State).noticeEntry).map (fun u => { u with cur := s.cur }))
    else none)

/-! ### Fetch (R80, R108) -/

/-- A block is put into the buffer; the least recently fetched of 2,048 leaves (R108). -/
def Core.addBlock (k : Core) (b : IBlk) : Core :=
  { k with ibuf := (b :: k.ibuf.filter (fun x => x.va != b.va)).take 2048 }

/-- Read a block at its home slice; no scope buffer is searched (R80, R255). -/
def State.readBlock (s : State) (o : Op) (p : Part) : Except (Option XFault) (State × Xlat × Nat × List Byte) := do
  let vf := s.vfOfCore (o.ctx / 16)
  let (n, x) ← s.reachFor vf p.va (o.acc p)
  let (u, bs) := s.readGlobal n vf p.va p.data.length x
  .ok (u, x, n, bs)

/-- FETCH_MISS (R108): the block arrives, or the fetch faults and the trap waits at the instruction; `kval` is then the address of
the block (DEDUCED, log 58). A fetch from a page for which the context awaits the host waits as well (R276). -/
def execFetchMiss (core tid : Nat) (s : State) : Out1 :=
  let a := 16 * core + tid
  s.fired (
    match s.ops.find? (fun o => o.ctx == a && o.kind == .fetch) with
    | some o =>
      match o.parts with
      | p :: _ =>
        let wake := fun (c : Ctx) => { c with parked := if c.parked == some .fetch then none else c.parked }
        if s.isRefused core o.id 0 || s.heldBehind o 0 p then none
        else match s.readBlock o p with
        | .ok (u, x, n, bs) =>
          let blk : IBlk := { va := o.size, data := BitVec.ofNat 256 (ofBytes bs), at_ := o.issued }
          let u := (u.modCore core (fun k => k.addBlock blk)).modCtx a wake
          s.orRefuse o 0 p n ((u.takeKinds { o with parts := [p.performed u n x] }).dropOp o.id)
        | .error (some f) =>
          some ((s.reportTo (s.vfOfCore core) p.va f).failFetch o f.cause (BitVec.ofNat 64 o.size))
        | .error none =>
          if p.st == .lost then none
          else some ((s.setOp (o.setPart 0 { p with st := .lost })).modVf (s.vfOfCore core) (fun v => { v with foreign := true }))
      | [] => none
    | none => none)

/-! ### Sleep (R161, R197) -/

/-- A wait after the issue goes on: no late trap and no interrupt ends it. -/
def State.waitsOn (s : State) (a : Nat) : Bool :=
  (s.ctxAt a).post != .none && !(s.lateReady a) && !((s.ctxAt a).takesIrq && s.irqPending a)

/-- The context cannot issue: FREE, ENDED, parked, waiting after its issue, or held back without parking (R161). -/
def State.resting (s : State) (a : Nat) : Bool :=
  let c := s.ctxAt a
  c.life != .running || (c.parked.isSome && !(s.lockWait a && s.portClear a)) || s.waitsOn a || s.now < c.holdTo || s.vamoBusy a ||
    (s.fpBusy a && c.fpcsr.extractLsb' 8 5 != 0)

/-- REGISTER_FILE_SLEEP (R161). -/
def execRegisterFileSleep (core : Nat) (s : State) : Out1 :=
  s.fired (
    let k := s.coreAt core
    if k.sleep == .awake && (List.range 16).all (fun t => s.resting (16 * core + t)) then
      some (s.modCore core (fun k => { k with sleep := .asleep (k.cSeen 8 s.now).val.toNat }))
    else none)

/-- An earlier fill of the same context to the same core is still on its way (R170). -/
def State.fillBefore (s : State) (o : Op) (core : Nat) : Bool :=
  s.ops.any (fun u => u.ctx == o.ctx && decide (u.id < o.id) && !u.allDone && (match u.kind with
    | .rfill ta _ _ => ta / 16 == core
    | _ => false))

/-- What REMOTE_FILL_DELIVERY does: the fill is applied, and the status travels back. -/
def State.remoteFill (s : State) (o : Op) : Option State :=
  match o.kind with
  | .rfill ta n v =>
    if o.allDone || s.fillBefore o (ta / 16) || s.now ≤ o.issued then none
    else
      let (u, st) := s.as' o.ctx (fun s => s.deliverFill ta n v)
      some (u.setOp { o with
        parts := o.parts.map (fun p => { p with st := .done, res := BitVec.ofNat 64 st })
        issued := s.now
        due := Nat.max s.now (o.due + 100) })
  | _ => none

/-- REMOTE_FILL_DELIVERY (R170, R171): applied at the target, a sleeping target waking first (R161, R197). -/
def execRemoteFillDelivery (op : Nat) (s : State) : Out1 :=
  s.fired (
    match s.opAt op with
    | some o =>
      match o.kind with
      | .rfill ta _ _ =>
        if (s.coreAt (ta / 16)).sleep == .awake && !(s.fileFree ta) then none
        else s.awakeFor (ta / 16) (.fill op) (s.remoteFill o)
      | _ => none
    | none => none)

/-- Apply a write that a wake has held (R197). -/
def State.applyLate (s : State) (x : Arr) : State :=
  match x with
  | .result op => (((s.opAt op).bind s.resultArrival).getD s)
  | .vamo op => (((s.opAt op).bind s.vamoFault).getD s)
  | .fill op => (((s.opAt op).bind s.remoteFill).getD s)
  | .put a by_ o => s.deliver a by_ o

/-- WAKE_END (R197): the core is awake, and the writes that the wake has held are applied in their order. -/
def execWakeEnd (core : Nat) (s : State) : Out1 :=
  s.fired (
    match (s.coreAt core).sleep with
    | .waking t =>
      if t ≤ s.now then
        let k := s.coreAt core
        some (k.late.foldl State.applyLate (s.setCore core { k with sleep := .awake, late := [] }))
      else none
    | _ => none)

/-- MWAIT_TIMEOUT (R168). On a sleeping core it starts a wake, at whose end the wait ends. -/
def execMwaitTimeout (core tid : Nat) (s : State) : Out1 :=
  let a := 16 * core + tid
  s.fired (
    match (s.ctxAt a).post with
    | .mwait _ t tmo _ =>
      if tmo != 0 && t + tmo ≤ s.now then
        some (if (s.coreAt core).sleep == .awake then s.settlePost a else s.modCore core (fun k => k.wake s.now))
      else none
    | _ => none)

/-! ### Episodes (R186, R187, R328) -/

/-- The next episode's arrivals move up; the halves of the wells that were marked are exchanged (R186, R187). -/
def GroupSt.complete (g : GroupSt) : GroupSt :=
  { g with ep := g.ep + 1, arr := g.nxt, nxt := [], swp := g.swpN, swpN := [], last := g.lastN, lastN := 0 }

/-- EPISODE_COMPLETE (R186): seen by every member 60 cycles after the last arrival, while the team is on the device (R348). -/
def execEpisodeComplete (team group : Nat) (s : State) : Out1 :=
  s.fired (
    match s.teams.find? (fun t => t.id == team) with
    | some t =>
      let g := Tbl.get {} t.groups group
      match (s.launchAt t.launch).map (fun l => Tbl.get [] l.groups group) with
      | some ms =>
        if !t.onDevice || ms.isEmpty || !(ms.all g.arr.contains) || s.now < g.last + 60 then none
        else
          let u := s.setTeam { t with groups := Tbl.set {} t.groups group g.complete }
          some (g.swp.eraseDups.foldl (fun u w => u.setBank w { u.bankAt w with swap := !(u.bankAt w).swap }) u)
      | none => none
    | none => none)

/-! ### Tasks (R192-R195) -/

/-- An earlier decrement to the same slot of the home core is still to be applied (R192, R193). -/
def State.decBefore (s : State) (o : Op) (home slot : Nat) : Bool :=
  s.ops.any (fun u => decide (u.id < o.id) && (match u.kind with
    | .tdec t _ =>
      decide (u.due ≤ o.due) &&
      (match s.teamOf (u.ctx / 16), s.launchOf (u.ctx / 16) with
        | some tm, some l => (l.tasks[t]?).any (fun x => tm.coreOf x.home == home && x.slot == slot)
        | _, _ => false)
    | _ => false))

/-- Add to a launch's counts. -/
def State.modLaunch (s : State) (id : Nat) (f : Launch → Launch) : State :=
  match s.launchAt id with
  | some l => s.setLaunch (f l)
  | none => s

/-- `AtHome` (R192): the counter of task `n` at byte `off` of a well is counted down; at zero the task is listed or cancelled. -/
def State.atHome (s : State) (t : Team) (n home w off : Nat) (cancel : Bool) : State :=
  let x := BitVec.ofNat 64 (ofBytes (s.readWell w off 8))
  if x.extractLsb' 0 31 == 0 then (s.usePort w).modLaunch t.launch (fun l => { l with nunder := l.nunder + 1 })
  else
    let y := (x - 1) ||| (if cancel then 0x8000000000000000#64 else 0)
    let u := (s.writeWell w off ((toBytes 8 y.toNat).map some)).usePort w
    if y.extractLsb' 0 31 != 0 then u
    else if y.getLsbD 63 || (s.coreAt home).token then
      (u.setTask t n .cancelled).modLaunch t.launch (fun l => { l with ncanc := l.ncanc + 1 })
    else (u.setTask t n .listed).modCore home (fun k => { k with runl := k.runl ++ [n] })

/-- DECREMENT_AT_HOME (R192, R193). A HELD slot in exchange mode meets two clauses of R193 where the offset is 0x1_0000 or above: the
decrement is discarded there (DESIGN CHOICE, log 35). -/
def execDecrementAtHome (op : Nat) (s : State) : Out1 :=
  s.fired (
    match s.opAt op with
    | some o =>
      match o.kind, s.teamOf (o.ctx / 16), s.launchOf (o.ctx / 16) with
      | .tdec n cancel, some t, some l =>
        match l.tasks[n]? with
        | some task =>
          let home := t.coreOf task.home
          let x := s.slotAt home task.slot
          let done := fun (s : State) => (if o.cnts then s.countDown o.ctx .st else s).dropOp op
          if s.decBefore o home task.slot || x.st == .incoming then none
          else if x.st == .detached || (x.exch && 0x10000 ≤ task.off) then some (done (s.raiseToken l.id n))
          else if !(s.portFree x.well) then none
          else some (done (s.atHome t n home x.well task.off cancel))
        | none => none
      | _, _, _ => none
    | none => none)

/-- The limit of a task's watchdog in cycles; none when it is 0 (R173, R194). -/
def Header.watchdog (h : Header) : Option Nat :=
  let n := (h.traps.extractLsb' 16 16).toNat
  if n = 0 then none else some (4096 * n)

/-- WATCHDOG_EXPIRY (R194): the taking context traps with cause 0x14 and the error token is raised. It expires once. Where the context
that took the task has ended, no trap is left, and the token alone is raised (DESIGN CHOICE, log 35: R194 says nothing). -/
def execWatchdogExpiry (team task : Nat) (s : State) : Out1 :=
  s.fired (
    match s.teams.find? (fun t => t.id == team) with
    | some t =>
      match s.launchAt t.launch, Tbl.get .pending t.tstate task with
      | some l, .taken a since false =>
        match l.hdr.watchdog with
        | some lim =>
          if !t.onDevice || s.now ≤ since + lim then none
          else
            let u := s.setTask t task (.taken a since true)
            let u := if (s.ctxAt a).life == .running then
                u.modCtx a (fun c => { c with lates := c.lates ++ [{ cause := 0x14, val := BitVec.ofNat 64 s.now, above := false }] })
              else u
            some (u.raiseToken l.id task)
        | none => none
      | _, _ => none
    | none => none)

/-- ERROR_TOKEN_ARRIVAL (R195): the core knows the token; the tasks listed there are cancelled. -/
def execErrorTokenArrival (launch core : Nat) (s : State) : Out1 :=
  s.fired (
    match s.net.tokens.find? (fun m => m.launch == launch && m.core == core) with
    | some m =>
      let u := s.setNet { s.net with tokens := s.net.tokens.erase m }
      match s.teamOf core with
      | some t =>
        if t.launch != launch then some u
        else
          let gone := (s.coreAt core).runl
          let t := { t with tstate := gone.foldl (fun ts n => Tbl.set .pending ts n .cancelled) t.tstate }
          some (((u.setTeam t).modLaunch launch (fun l => { l with ncanc := l.ncanc + gone.length })).modCore core
            (fun k => { k with token := true, runl := [] }))
      | none => some u
    | none => none)

end Sys2Proof.Machine
end

