-- ==== Sys2Proof/Machine/WellEvents.lean ====
section
/-!
DEFINITION. The ends of the changes that the well controller has scheduled (R207, R211-R217).
-/

namespace Sys2Proof.Machine

/-- What a scheduled change still waits for; `base` follows the latest of i, P and Q (R207). -/
def State.settleMove (s : State) (m : WMove) : WMove :=
  let ops := m.ops.filter (fun id => (s.opAt id).any (fun o => o.parts.any (fun p => p.well == some m.well && p.st != .done && p.st != .gone)))
  let live := (s.cores.flatMap (fun (_, c) => (c.eops.filter (fun o => !o.done)).map (·.id) ++ (c.seqs.filter (fun (_, q) => q.running)).map (fun (_, q) => q.id)))
  let eops := if m.eops.isEmpty then [] else m.eops.filter live.contains
  let stOf := m.stOf.filter (fun a => (s.ctxAt a).count .st != 0)
  if m.ops == ops && m.eops == eops && m.stOf == stOf then m else { m with ops, eops, stOf, base := s.now }

/-- Bring every scheduled change up to date. -/
def State.settleMoves (s : State) : State := s.setMoves (s.moves.map s.settleMove)

/-- The change is due: nothing that it waits for is left, and its delay is over. -/
def WMove.dueAt (m : WMove) (now : Nat) : Bool :=
  m.ops.isEmpty && m.eops.isEmpty && m.stOf.isNone && decide (m.base + m.delay ≤ now)

/-- The slot that ends a change: ATTACHED, or HELD while its core is frozen (R216). -/
def State.landed (s : State) (core : Nat) (x : Slot) : Slot :=
  { x with st := if (s.coreAt core).frozen.isSome then .held else .attached }

/-- The scheduled change with a number, when its kind is one of those that `f` names and it is due; the state without it. -/
def State.dueMove (s : State) (id : Nat) (f : MoveKind → Bool) : Option (WMove × State) :=
  match s.moves.find? (fun m => m.id == id) with
  | some m =>
    if f m.kind && (s.settleMove m).dueAt s.now then some (m, s.setMoves (s.moves.filter (fun x => x.id != id))) else none
  | none => none

/-- The slot of a change lands, changed by `f`. -/
def State.landSlot (s : State) (m : WMove) (f : Slot → Slot) : State :=
  let x := s.landed m.core (f (s.slotAt m.core m.slot))
  (s.setSlot m.core m.slot x).modCore m.core (fun c => { c with prior := c.prior.map (fun (t, xs) => (t, Tbl.set {} xs m.slot x)) })

/-- WELL_MOVE_COMPLETE (R207, R216). -/
def execWellMoveComplete (mv : Nat) (s : State) : Out1 :=
  s.fired ((s.dueMove mv (fun k => k == .pass)).map (fun (m, u) => u.landSlot m id))

/-- WELL_ATTACH_COMPLETE (R212): without `.keep` the well holds zeros. -/
def execWellAttachComplete (mv : Nat) (s : State) : Out1 :=
  s.fired ((s.dueMove mv (fun k => k == .attach true || k == .attach false)).map (fun (m, u) =>
    (if m.kind == .attach false then u.zeroWell m.well 0 0x20000 else u).landSlot m id))

/-- WELL_CLEAR_COMPLETE (R213): the whole well, or the front half in exchange mode: the half that is the front when the clear ends, also
where an episode has exchanged the halves meanwhile (DESIGN CHOICE, log 25: R213 and R328 do not say). -/
def execWellClearComplete (mv : Nat) (s : State) : Out1 :=
  s.fired ((s.dueMove mv (fun k => k == .clear)).map (fun (m, u) =>
    (u.zeroWell m.well 0 (if (u.slotAt m.core m.slot).exch then 0x10000 else 0x20000)).landSlot m id))

/-- WELL_MODE_CHANGE (R215). -/
def execWellModeChange (mv : Nat) (s : State) : Out1 :=
  s.fired ((s.dueMove mv (fun k => k == .mode true || k == .mode false)).map (fun (m, u) =>
    u.landSlot m (fun x => { x with exch := m.kind == .mode true })))

/-- WELL_FREE (R211, R217): the well keeps its bytes. -/
def execWellFree (mv : Nat) (s : State) : Out1 :=
  s.fired ((s.dueMove mv (fun k => k == .detach || k == .free)).map (fun (m, u) =>
    u.setBank m.well { u.bankAt m.well with bound := false }))

end Sys2Proof.Machine
end

