-- ==== Sys2Proof/Machine/Launch.lean ====
section
/-!
DEFINITION. Launch records, kernel headers and their tables (R172-R185, R191, R329, R395), admission of streams (R330, R331),
placement (R178), the preparation of a team's cores (R179) and completion records (R184).
-/

namespace Sys2Proof.Machine

/-! ### Accesses of the device for a function -/

/-- Every part has been performed or has not translated; a read ends with the first that does not. -/
def DevAcc.over (a : DevAcc) (wr : Bool) : Bool := decide (a.n ≤ a.pos) || (a.bad && !wr)

/-- The bytes that a read has given, where all of them came. -/
def DevAcc.bytes (a : DevAcc) : Option (List Byte) := if a.bad then none else some a.got

namespace State

/-- The device's NI may send the held request again (R362, R368, R369). -/
def devMay (s : State) (vf : Nat) (h : DevHold) : Bool :=
  h.again || (match h.gen with
    | some g => genReached (s.vfAt vf).mapgen g
    | none => !h.permit && decide (h.at_ + 1024 ≤ s.now))

/-- The address and length of an access's next line part, and the rights that it needs. -/
def devNext (a : DevAcc) (wr : Bool) : Nat × Nat × Acc :=
  let va := a.va + a.pos
  let len := Nat.min (lineLeft va) (a.n - a.pos)
  (va, len, if wr then { wr := true, size := len } else { rd := true, size := len })

/-- The next line part of an access of the device, a read, or a write of what `wr` gives for each byte: at its home slice, in a slice
cycle of its own, or refused there (R225, R255, R268, R368). A part that does not translate, or lies beyond the address space, is left out
(R36). None where it has to wait. -/
def devStep (s : State) (vf : Nat) (a : DevAcc) (wr : Option (Nat → Byte)) : Option (State × DevAcc) :=
  let (va, len, acc) := devNext a wr.isSome
  let skip := fun (u : State) => some (u, { a with pos := a.pos + len, bad := true, hold := none })
  if 2 ^ 52 < va + len then skip s
  else
    match s.reachFor vf va acc with
    | .error (some f) => skip (s.reportTo vf va f)
    | .error none => skip (s.modVf vf (fun v => { v with foreign := true }))
    | .ok (k, x) =>
      let ni := a.hold.map (fun _ => devNi)
      if !(s.slotFree k) || a.hold.any (fun h => !(s.devMay vf h)) then none
      else if s.accepts vf va k ni then
        let (u, bs) := match wr with
          | some f => (s.writeGlobal k vf va ((List.range len).map (fun i => some (f (a.pos + i)))) x, [])
          | none => s.readGlobal k vf va len x
        some (u.admitted k ni, { a with pos := a.pos + len, got := a.got ++ bs, hold := none })
      else
        let (u, gen, permit) := s.refusal vf va k devNi
        some (u, { a with hold := some { slice := k, gen, permit, at_ := s.now } })

end State

/-- A little-endian field of bytes. -/
def leAt (bs : List Byte) (off n : Nat) : Nat := ofBytes ((bs.drop off).take n)

/-- Bytes are all zero. -/
def zeroAt (bs : List Byte) (off n : Nat) : Bool := leAt bs off n == 0

/-! ### Records and headers -/

/-- A launch record (R181). -/
def parseRec (bs : List Byte) : LRec :=
  { image := BitVec.ofNat 64 (leAt bs 0 8), params := BitVec.ofNat 64 (leAt bs 8 8), teams := leAt bs 16 2,
    clusters := leAt bs 18 1, irq := leAt bs 19 1 % 2 == 1, done := BitVec.ofNat 64 (leAt bs 24 8), graph := leAt bs 32 8,
    isize := leAt bs 40 4, cend := leAt bs 44 4,
    clean := zeroAt bs 20 4 && zeroAt bs 48 16 && leAt bs 19 1 < 2 && leAt bs 16 2 != 0 }

/-- The fields of the first 64 bytes of an image (R172). -/
def parseHeader (bs : List Byte) : Header :=
  { contexts := leAt bs 18 1, wells := leAt bs 21 1, xwells := leAt bs 22 1, sregs := leAt bs 16 1, vregs := leAt bs 17 1,
    scribe := leAt bs 19 2 / 2 ^ 15 == 1, lockstep := leAt bs 6 2 % 2 == 1, stack := leAt bs 23 4,
    traps := BitVec.ofNat 32 (leAt bs 27 4), upcall := leAt bs 31 8, entry := leAt bs 8 8 }

def parseTabs (bs : List Byte) : Tabs := { group := leAt bs 39 8, slot := leAt bs 47 8, task := leAt bs 55 8 }

/-- An offset inside the code (R172). -/
def inCode (off cend : Nat) : Bool := off % 4 == 0 && 0x140 ≤ off && off < cend

/-- A table offset: absent, or a multiple of `n`. -/
def tabOk (off n : Nat) : Bool := off == 0 || off % n == 0

/-- Entry n of the well directory: image offset and length (R395). -/
def wellDir (bs : List Byte) (n : Nat) : Nat × Nat := (leAt bs (0x40 + 16 * n) 8, leAt bs (0x48 + 16 * n) 8)

/-- Check 1 of R183 on the first 0x140 bytes of an image. -/
def headerOk (r : LRec) (bs : List Byte) : Bool :=
  let h := parseHeader bs
  let t := parseTabs bs
  let traps := h.traps
  r.clean && 0x144 ≤ r.isize && r.isize ≤ 0x7FFFFFFF && r.cend % 4 == 0 && 0x140 < r.cend && r.cend ≤ r.isize &&
  leAt bs 0 4 == 0x484B394B && leAt bs 4 2 == 1 && leAt bs 6 2 < 2 && inCode h.entry r.cend &&
  h.sregs ≤ 47 && h.vregs ≤ 32 && 1 ≤ h.contexts && h.contexts ≤ 16 &&
  leAt bs 19 2 % 2 ^ 15 == 0 && (!h.scribe || h.contexts == 16) && h.wells ≤ 4 && h.xwells ≤ h.wells &&
  h.stack ≤ 0x100000 && h.stack % 256 == 0 && traps.extractLsb' 8 8 == 0 &&
  (h.upcall == 0 || inCode h.upcall r.cend) && (!(traps.getLsbD 7) || h.upcall != 0) &&
  tabOk t.group 64 && tabOk t.slot 8 && tabOk t.task 8 && zeroAt bs 63 1 &&
  0x200000000 + (5120 * (r.teams - 1) + 256 * r.clusters) * h.stack ≤ 2 ^ 52 &&
  (List.range 16).all (fun n =>
    let (off, len) := wellDir bs n
    len == 0 || (n < h.wells && len ≤ 0x20000 && off + len ≤ r.isize))

/-! ### Group, slot and task tables -/

/-- The team indices that the bits of a member set name. -/
def memberList (m : Nat) : List Nat := (List.range 320).filter (fun i => m.testBit i)

/-- The groups of a table of 256 entries, entry 0 being every core; none where the table is refused (R185). -/
def parseGroups (cores : Nat) (bs : List Byte) : Option (Tbl (List Nat)) :=
  let ents := (List.range 255).map (fun i =>
    let e := (bs.drop (64 * (i + 1))).take 64
    (i + 1, leAt e 40 1, leAt e 0 40, zeroAt e 41 23))
  let bad := ents.any (fun (_, v, m, z) => !z || 1 < v || (v == 1 && m == 0) || (v == 0 && m != 0) || 2 ^ cores ≤ m)
  let all := (0, List.range cores) :: (ents.filter (fun (_, v, _, _) => v == 1)).map (fun (g, _, m, _) => (g, memberList m))
  let many := (List.range cores).any (fun i => 5 < all.countP (fun (_, ms) => ms.contains i))
  if bad || many then none else some all

/-- One entry of a slot table (R329); none where a field lies outside its range. -/
def parseStream (cores : Nat) (groups : Tbl (List Nat)) (e : List Byte) : Option Stream :=
  let n := leAt e 9 1
  let src := leAt e 10 2
  let sets := (List.range n).map (fun i => leAt e (12 + i) 1)
  let ok := 1 ≤ n && n ≤ 4 && leAt e 8 1 != 0 && src < cores && zeroAt e 16 16 && zeroAt e (12 + n) (4 - n) &&
    sets.all (fun g => (Tbl.get [] groups g).any (fun i => i != src))
  if ok then some { num := leAt e 8 1, src, sets, slots := BitVec.ofNat 64 (leAt e 0 8) } else none

/-- A slot table; none where it is not well formed (R329). -/
def parseStreams (cores : Nat) (groups : Tbl (List Nat)) (bs : List Byte) : Option (List Stream) :=
  let m := leAt bs 0 4
  match (List.range m).mapM (fun i => parseStream cores groups ((bs.drop (8 + 32 * i)).take 32)) with
  | some xs => if (xs.map (·.num)).eraseDups.length == xs.length && zeroAt bs 4 4 then some xs else none
  | none => none

/-- One entry of a task table (R191). -/
def parseTask (cores wells : Nat) (e : List Byte) : Option Task :=
  let t : Task := { home := leAt e 0 2, slot := leAt e 2 1, off := leAt e 4 4, init := leAt e 8 4 }
  if zeroAt e 3 1 && zeroAt e 12 4 && t.home < cores && t.slot < wells && t.off % 8 == 0 && t.off < 0x20000 && t.init < 2 ^ 31
  then some t else none

/-- A task table; none where it is refused (R191). -/
def parseTasks (cores wells : Nat) (bs : List Byte) : Option (List Task) :=
  match (List.range (leAt bs 0 4)).mapM (fun i => parseTask cores wells ((bs.drop (8 + 16 * i)).take 16)) with
  | some ts =>
    let places := ts.map (fun t => (t.home, t.slot, t.off))
    let crowded := (List.range cores).any (fun i => 4096 < ts.countP (fun t => t.home == i))
    if places.eraseDups.length == places.length && !crowded && zeroAt bs 4 4 then some ts else none
  | none => none

/-! ### Admission (R330, R331) -/

/-- The links of the network that streams use: a core's link to its cluster switch and back, and the links between a cluster
switch and the eight stage-two switches of its die (R366). -/
def linkOut (core : Nat) : Nat := core
def linkIn (core : Nat) : Nat := 2000 + core
def linkUp (clu z : Nat) : Nat := 4000 + 8 * clu + z
def linkDown (clu z : Nat) : Nat := 5000 + 8 * clu + z

/-- The slots may be taken on a link: no admitted team and no other stream of the team holds one (R330, R331). -/
def linkFree (held : List Resv) (mine : List Resv) (link : Nat) (slots : BitVec 64) (stream : Nat) : Bool :=
  held.all (fun r => r.link != link || r.slots &&& slots == 0) &&
  mine.all (fun r => r.link != link || r.stream == stream || r.slots &&& slots == 0)

/-- Take the slots on some links, where they are free. -/
def takeLinks (held mine : List Resv) (slots : BitVec 64) (stream : Nat) (links : List Nat) : Option (List Resv) :=
  if links.all (fun l => linkFree held mine l slots stream) then
    some (mine ++ links.map (fun link => ({ link := link, slots := slots, stream := stream } : Resv)))
  else none

/-- The links to one destination cluster: the lowest stage-two switch on which they are free (log 7). -/
def takePath (held mine : List Resv) (slots : BitVec 64) (stream src clu : Nat) (ins : List Nat) : Option (List Resv) :=
  if clu = src / 16 then takeLinks held mine slots stream (linkOut src :: ins)
  else (List.range 8).findSome? (fun z =>
    takeLinks held mine slots stream (linkOut src :: linkUp (src / 16) z :: linkDown clu z :: ins))

/-- Admit the streams of a team on a run; gives what it takes (R331). -/
def grantSlots (held : List Resv) (l : Launch) (t : Team) : Option (List Resv) :=
  ((l.streams.filter (fun x => x.slots != 0)).flatMap (fun x => (List.range x.sets.length).map (fun i => (x, i)))).foldlM
    (fun mine (x, i) =>
      let dests := (x.reachesOf l i).map t.coreOf
      ((dests.map (· / 16)).eraseDups).foldlM (fun mine clu =>
        takePath held mine x.slots x.num (t.coreOf x.src) clu ((dests.filter (fun c => c / 16 == clu)).map linkIn)) mine) []

/-! ### Placement (R178) -/

namespace State

/-- The cluster belongs to the partition for placement: owned and not lent away, or borrowed; not on its way back. -/
def cluFor (s : State) (vf clu : Nat) : Bool :=
  let c := s.cluAt clu
  c.owner.isSome && s.vfOfClu clu == vf && c.revoke.isNone && !c.fenced

/-- The clusters of a run. -/
def runOf (f n : Nat) : List Nat := (List.range n).map (runClu f)

/-- Runs of `n` clusters of a partition, by their first cluster in package order. -/
def runsFor (s : State) (vf n : Nat) : List Nat :=
  if n = 0 || 20 < n then [] else (List.range 80).filter (fun f => (runOf f n).all (s.cluFor vf))

/-- The cluster is one that the partition can ever offer: its own, even where it is lent or on its way back, or one borrowed and not
revoked (R178, R353, R355). -/
def cluEver (s : State) (vf clu : Nat) : Bool :=
  let c := s.cluAt clu
  !c.fenced && (c.owner == some vf || (c.lentTo == some vf && c.revoke.isNone))

/-- Runs of `n` clusters that a partition can ever offer (R178). -/
def runsEver (s : State) (vf n : Nat) : List Nat :=
  if n = 0 || 20 < n then [] else (List.range 80).filter (fun f => (runOf f n).all (s.cluEver vf))

/-- A team occupies the cluster: on the device, or claimed for its start or its restore. -/
def teamOn (s : State) (clu : Nat) : Option Team :=
  s.teams.find? (fun t => (t.onDevice || t.st == .restoring || t.st == .starting) && (runPos t.first t.count clu).isSome)

/-- What admitted teams hold. -/
def heldSlots (s : State) : List Resv := s.teams.flatMap (·.resv)

/-- Check 3's admission: some run of the partition could carry the reservations. -/
def couldAdmit (s : State) (l : Launch) (n : Nat) : Bool :=
  (s.runsEver l.vf n).any (fun f => (grantSlots s.heldSlots l { id := 0, launch := l.id, num := 0, count := n, first := f }).isSome)

end State

/-! ### Preparing a team (R179) -/

namespace State

/-- A core's slots at launch (R179). -/
def launchSlots (core : Nat) (h : Header) : Tbl Slot :=
  (List.range h.wells).map (fun n =>
    (n, { st := .attached, well := 64 * (core / 16) + core % 16 * h.wells + n, rd := true, wr := true,
          exch := decide (h.wells - h.xwells ≤ n) }))

/-- The blocks that launch loads into an instruction buffer: the first 64 KiB of the code (R108). They count as fetched in descending
order of their addresses (DEDUCED, log 42). -/
def codeBlocks (image cend now : Nat) (code : List Byte) : List IBlk :=
  let lo := (image + 0x140) / 32
  let n := Nat.min 2048 ((image + cend + 31) / 32 - lo)
  (List.range n).map (fun i =>
    { va := 32 * (lo + i), data := BitVec.ofNat 256 (leAt code (32 * i) 32), at_ := now })

/-- What the response to a read of the code tells an NI: page, slice, kind and generation (R108, R410; DEDUCED, log 17). -/
def codeKind (s : State) (vf : Nat) (a : DevAcc) : List (Nat × Nat × PKind × BitVec 32) :=
  let (va, _, acc) := devNext a false
  match s.reachFor vf va acc with
  | .ok (k, x) => [(va / 65536, k, x.kind, (s.sliceAt k).gen)]
  | .error _ => []

/-- One core of a team is prepared and its context 0 started (R20, R29, R161, R179, R319, R341). A well that is still on its way to FREE
from an earlier launch is taken at once. -/
def prepareCore (s : State) (l : Launch) (t : Team) (blocks : List IBlk) (kinds : List (Nat × Nat × PKind × BitVec 32))
    (images : List (Nat × List Byte)) (core : Nat) : State :=
  let slots := launchSlots core l.hdr
  let old := s.coreAt core
  let i := (t.indexOf core).getD 0
  let ready := ((l.tasks.zipIdx).filter (fun (x, _) => x.home == i && x.init == 0)).map (·.2)
  let k : Core := { slots, ibuf := blocks, pblock := l.lrec.params, kinds := old.kinds, gens := old.gens, mapgen := old.mapgen
                    slotAt := s.now, token := l.token, runl := if l.token then [] else ready }
  let s := (s.setCore core (k.takeCode kinds)).setMoves (s.moves.filter (fun m => !(slots.any (fun (_, x) => x.well == m.well))))
  let s := slots.foldl (fun s (n, x) =>
    let s := (s.setBank x.well { bound := true }).zeroWell x.well 0 0x20000
    match images.find? (fun p => p.1 == n) with
    | some (_, bs) => s.writeWell x.well 0 (bs.map some)
    | none => s) s
  let s := (l.tasks.filter (fun x => x.home == i)).foldl (fun s x =>
    s.writeWell (Tbl.get {} slots x.slot).well x.off ((toBytes 8 x.init).map some)) s
  let s := s.setMem { s.mem with
    foot := Tbl.clear s.mem.foot (core * 256 * 128) ((core + 1) * 256 * 128)
    tags := Tbl.clear s.mem.tags (core * 256) ((core + 1) * 256) }
  let s := (List.range 16).foldl (fun s n => (s.orphan (16 * core + n)).setCtx (16 * core + n) {}) s
  let c := s.freshCtx core ((l.lrec.image + BitVec.ofNat 64 l.hdr.entry) &&& ~~~3#64)
  s.setCtx (16 * core) { c with
    ktr := { c.ktr with vec := (s.vfAt l.vf).svec }, sync := s.now
    uvec := if l.hdr.traps.getLsbD 7 then l.lrec.image + BitVec.ofNat 64 l.hdr.upcall else 0 }

/-- The addresses of the code that launch loads: the first of its blocks, and the bytes to the end of the last (R108). -/
def codeSpan (l : Launch) : Nat × Nat :=
  let lo := (l.lrec.image.toNat + 0x140) / 32 * 32
  (lo, Nat.min 65536 ((l.lrec.image.toNat + l.lrec.cend + 31) / 32 * 32 - lo))

/-- The preparation of a team goes on with the next image from slot `n` on that the directory names, or with the code (R395). -/
def prepFrom (l : Launch) (p : Prep) (n : Nat) : Prep :=
  match (l.dir.zipIdx).find? (fun ((_, len), i) => n ≤ i && len != 0) with
  | some ((off, len), i) => { p with stage := .image i, acc := { va := l.lrec.image.toNat + off, n := len } }
  | none => { p with stage := .code, acc := { va := (codeSpan l).1, n := (codeSpan l).2 } }

/-- The preparation of a team begins. -/
def prepOf (l : Launch) (t : Team) : Prep := prepFrom l { team := t.id, acc := { va := 0, n := 0 } } 0

/-- The stacks of a team, 256 contexts to a cluster (R175). -/
def stackSpan (l : Launch) (t : Team) : Nat × Nat := (0x200000000 + 5120 * t.num * l.hdr.stack, 256 * t.count * l.hdr.stack)

/-- A team becomes resident on its run (R179). Its copy engines stand as at the start (R285). An image that does not translate leaves its
well zeroed, and code that does not translate loads no block (DEDUCED, log 42). -/
def startTeam (s : State) (l : Launch) (t : Team) (p : Prep) : State :=
  let t := { t with
    st := .resident, since := s.now
    tstate := ((l.tasks.zipIdx).filter (fun (x, _) => x.init == 0)).foldl (fun ts (_, n) =>
      Tbl.set .pending ts n (if l.token then .cancelled else .listed)) [] }
  let s := s.setTeam t
  let s := if l.token then s.modLaunch l.id (fun l => { l with ncanc := l.ncanc + l.tasks.countP (fun x => x.init == 0) }) else s
  let s := (runOf t.first t.count).foldl (fun s c => s.modClu c (fun k => { k with cpyPos := 15, cpyBusy := none })) s
  let blocks := (p.code.map (codeBlocks l.lrec.image.toNat l.lrec.cend s.now)).getD []
  let kinds := if p.code.isSome then p.kinds.eraseDups else []
  t.cores.foldl (fun s c => s.prepareCore l t blocks kinds p.images c) s

/-! ### Completion records (R184) -/

/-- The 32 bytes of a completion record. -/
def recordBytes (status tdone cancelled under endtime failt : Nat) : List Byte :=
  toBytes 4 status ++ toBytes 4 tdone ++ toBytes 4 cancelled ++ toBytes 4 under ++ toBytes 8 endtime ++ toBytes 4 failt ++ toBytes 4 0

/-- No task. -/
def noTask : Nat := 0xFFFFFFFF

/-- Change a launch queue. -/
def modQueue (s : State) (vf q : Nat) (f : LQueue → LQueue) : State :=
  s.modVf vf (fun v => { v with queues := Tbl.set {} v.queues q (f (Tbl.get {} v.queues q)) })

/-- A queue goes on to its next record (R376). -/
def nextRecord (s : State) (vf q : Nat) : State :=
  s.modQueue vf q (fun x => { x with
    head := x.head + 1, busy := none, ending := none, cont := none, waited := 0, seen := false, want := none })

/-- The write of a completion record. -/
def recAcc (r : DoneRec) : DevAcc := { va := r.done.toNat, n := 32 }

/-- Completion records of a queue are to be written, the first one first; then its replay goes on, or its next record is due. -/
def beginRecs (s : State) (vf q : Nat) (recs : List DoneRec) (cont : Option Replay) : State :=
  match recs with
  | [] => s
  | r :: _ => s.modQueue vf q (fun x => { x with busy := none, cont := none, want := none, ending := some { recs, acc := recAcc r, cont } })

/-- A record of a queue has ended with a status, its task counts and its failing task: its completion record is to be written; a replay
goes on to its next record, or ends with a record of its own (R180, R184, R196). -/
def beginEnd (s : State) (vf q : Nat) (r : LRec) (rp : Option Replay) (status : Nat) (n : Nat × Nat × Nat) (failt : Nat) : State :=
  let d : DoneRec := { done := r.done, irq := r.irq, status, n, failt }
  match rp with
  | none => s.beginRecs vf q [d] none
  | some p =>
    let sums := (p.sums.1 + n.1, p.sums.2.1 + n.2.1, p.sums.2.2 + n.2.2)
    let last := decide ((Tbl.get { base := 0, count := 0, cur := 0, gens := [] } (s.vfAt vf).graphs p.graph).count ≤ p.index + 1)
    if status != 0 || last then s.beginRecs vf q [d, { d with done := p.top.done, irq := p.top.irq, n := sums }] none
    else s.beginRecs vf q [d] (some { p with index := p.index + 1, sums })

/-- The first of a queue's completion records has been written, or could not be: the interrupt bits are set (R184); the next one
follows, or the end. -/
def recDone (s : State) (vf q : Nat) (e : Ending) : State :=
  match e.recs with
  | [] => s
  | r :: rest =>
    let u := if r.irq then s.modVf vf (fun v => v.irq 0) else s
    let u := if e.acc.bad then u.modVf vf (fun v => v.irq 7) else u
    match rest, e.cont with
    | t :: _, _ => u.modQueue vf q (fun x => { x with ending := some { e with recs := rest, acc := recAcc t, bytes := [] } })
    | [], none => u.nextRecord vf q
    | [], some p => u.modQueue vf q (fun x => { x with ending := none, cont := some p })

/-- The next line part of a queue's completion record is written, as a device write (R184). `endtime` is the cycle of the first. -/
def endStep (s : State) (vf q : Nat) : Option State :=
  match (Tbl.get {} (s.vfAt vf).queues q).ending with
  | some e =>
    match e.recs with
    | r :: _ =>
      let bytes := if e.bytes.isEmpty then recordBytes r.status r.n.1 r.n.2.1 r.n.2.2 s.now r.failt else e.bytes
      (s.devStep vf e.acc (some (fun i => bytes.getD i 0))).map (fun (u, a) =>
        let e := { e with acc := a, bytes := if a.pos = 0 then [] else bytes }
        let u := u.modQueue vf q (fun x => { x with ending := some e })
        if a.over true then u.recDone vf q e else u)
    | [] => none
  | none => none

end State

end Sys2Proof.Machine
end

