-- ==== Sys2Proof/Machine/LaunchEvents.lean ====
section
/-!
DEFINITION. The scheduler (R180, R182, R189), the end of launches (R184, R196), the synchronized stop and the restore of teams
(R347-R350), and the scrub of frames (R281).
-/

namespace Sys2Proof.Machine

/-! ### The scheduler -/

/-- The next cycle from `now` on in which the timebase, of 64 bits, is a multiple of `n` (R1). -/
def nextMultiple (n now : Nat) : Nat :=
  let c := now % 2 ^ 64
  if n = 0 || c % n = 0 then now else now + Nat.min (n - c % n) (2 ^ 64 - c)

/-- A queue's effective priority (R182). -/
def LQueue.level (q : LQueue) : Nat := q.prio - q.waited / 4

/-- A queue may dispatch (R376). -/
def LQueue.open_ (q : LQueue) : Bool :=
  q.enable && !q.frozen && q.busy.isNone && q.ending.isNone && (q.cont.isSome || q.head != q.tail)

/-- A team gives back the run that it has been given and does not stand on yet. -/
def Team.unplaced (t : Team) : Team :=
  match t.st with
  | .starting => { t with st := .waiting, resv := [] }
  | .restoring => { t with st := .saved, resv := [] }
  | _ => t

/-- No graph. -/
def noGraph : Graph := { base := 0, count := 0, cur := 0, gens := [] }

namespace State

def graphAt (s : State) (vf n : Nat) : Graph := Tbl.get noGraph (s.vfAt vf).graphs n
def queueAt (s : State) (vf q : Nat) : LQueue := Tbl.get {} (s.vfAt vf).queues q

/-- The teams of a launch that wait for clusters, in the order in which they wait (R178, R182). -/
def waitingOf (s : State) (l : Launch) : List Team :=
  sortBy (fun (a b : Team) => decide (a.since < b.since) || (a.since == b.since && decide (a.num ≤ b.num)))
    (s.teams.filter (fun t => t.launch == l.id && (t.st == .waiting || t.st == .saved)))

/-- The runs on which a team may be placed: of a team that was saved, the one that it left, but for a team that a revocation has moved
(R178, R350). -/
def runsOf (s : State) (vf : Nat) (t : Team) : List Nat :=
  match t.saved with
  | some sv => if sv.pool then (if (runOf t.first t.count).all (s.cluFor vf) then [t.first] else []) else s.runsFor vf t.count
  | none => s.runsFor vf t.count

/-- The first of those runs that is free and admits the team's streams, with what it takes there (R178, R331). -/
def placeFor (s : State) (l : Launch) (t : Team) : Option (Nat × List Resv) :=
  (s.runsOf l.vf t).findSome? (fun f =>
    if (runOf f t.count).all (fun c => (s.teamOn c).isNone) then
      (grantSlots s.heldSlots l { t with first := f }).map (fun r => (f, r))
    else none)

/-- Place the waiting and saved teams of a launch, in the order in which they wait: each gets its run, to be prepared or restored there
(R178, R179, R182, R350). -/
def placeTeams (s : State) (l : Launch) : State :=
  (s.waitingOf l).foldl (fun s t =>
    match s.placeFor l t with
    | some (f, resv) =>
      if t.saved.isSome then s.setTeam { t with st := .restoring, first := f, resv, since := s.now }
      else
        let t := { t with st := .starting, first := f, resv, since := s.now }
        (s.setTeam t).modVf l.vf (fun v => { v with preps := v.preps ++ [prepOf l t] })
    | none => s) s

/-- Dispatch a launch whose first team has a run (R182). -/
def dispatch (s : State) (l : Launch) : Option State :=
  let l := { l with id := s.nid }
  let teams := (List.range l.lrec.teams).map (fun i =>
    ({ id := s.nid + 1 + i, launch := l.id, num := i, count := l.lrec.clusters, since := s.now } : Team))
  let u := { s with nid := s.nid + 1 + l.lrec.teams, launches := s.launches ++ [l], teams := s.teams ++ teams }
  let u := u.modQueue l.vf l.queue (fun q => { q with busy := some l.id, cont := none, waited := 0, seen := false, want := none })
  let u := u.placeTeams l
  if u.teams.any (fun t => t.launch == l.id && t.st == .starting) then some u else none

/-- The queue may still use clusters: its launch has teams that wait, or it may dispatch. -/
def wants (s : State) (vf q : Nat) : Bool :=
  let x := s.queueAt vf q
  x.open_ || (match x.busy with
    | some id => s.teams.any (fun t => t.launch == id && (t.st == .waiting || t.st == .saved))
    | none => false)

/-- The queues of a function in the order of service: by level, and round-robin from the queue after the last one served. -/
def serviceOrder (s : State) (vf : Nat) : List Nat :=
  (List.range 4).flatMap (fun lvl =>
    let from_ := Tbl.get 15 (s.vfAt vf).rr lvl
    ((List.range 16).map (fun i => (from_ + 1 + i) % 16)).filter (fun q => (s.queueAt vf q).level == lvl && s.wants vf q))

/-- Something has been done for a queue: the round-robin of its level goes on from it (R182, log 40). -/
def served (s : State) (vf lvl q : Nat) : State := s.modVf vf (fun v => { v with rr := Tbl.set 15 v.rr lvl q })

/-- The pass goes on with its next queue. -/
def passOn (s : State) (vf : Nat) : State :=
  s.modVf vf (fun v => { v with pass := v.pass.map (fun p => { p with queues := p.queues.drop 1, at_ := none }) })

/-- The pass reads on for its queue: `n` bytes from an address. -/
def seek (s : State) (vf : Nat) (k : Seek) (va n : Nat) : State :=
  s.modVf vf (fun v => { v with pass := v.pass.map (fun p => { p with at_ := some (k, { va, n }) }) })

/-- The scheduler begins to fill free clusters, or will begin again (R182). -/
def startPass (s : State) (vf : Nat) : State :=
  match (s.vfAt vf).rst, (s.vfAt vf).pass with
  | some _, _ => s
  | none, some p => s.modVf vf (fun v => { v with pass := some { p with again := true } })
  | none, none => s.modVf vf (fun v => { v with pass := some { queues := s.serviceOrder vf } })

/-! ### Reading a record and its checks (R180, R183, R196)

The scheduler reads line part by line part (R225), and takes each decision when what it rests on has been read. -/

/-- The record that a queue comes to next is refused with a status (R183). -/
def refuseRec (s : State) (vf q : Nat) (r : LRec) (p : Option Replay) (status : Nat) : State :=
  (((s.beginEnd vf q r p status (0, 0, 0) noTask).served vf (s.queueAt vf q).level q)).passOn vf

/-- Bytes of an image from an offset on are to be read, where they lie within it; the record is refused where they do not. -/
def seekImage (s : State) (vf q : Nat) (r : LRec) (p : Option Replay) (off n status : Nat) (k : Seek) : State :=
  if r.isize < off + n then s.refuseRec vf q r p status else s.seek vf k (r.image.toNat + off) n

/-- Every check but the last has passed: the launch is dispatched, waits for clusters, or is refused (R178, R182, R183). -/
def tasksRead (s : State) (vf q : Nat) (l : Launch) : State :=
  if (s.runsEver vf l.lrec.clusters).isEmpty then s.refuseRec vf q l.lrec l.replay 6
  else
    match s.dispatch l with
    | some u => (u.served vf (s.queueAt vf q).level q).passOn vf
    | none => (s.modQueue vf q (fun x => { x with want := some l.lrec.clusters })).passOn vf

/-- The streams are known: they are admitted, or refused with status 4; a launch that no run can hold meets its own check last. -/
def streamsRead (s : State) (vf q : Nat) (l : Launch) (t : Tabs) : State :=
  if !(s.runsEver vf l.lrec.clusters).isEmpty && !(s.couldAdmit l l.lrec.clusters) then s.refuseRec vf q l.lrec l.replay 4
  else if t.task = 0 then s.tasksRead vf q l
  else s.seekImage vf q l.lrec l.replay t.task 8 5 (.taskCount l t)

/-- The groups are known. -/
def groupsRead (s : State) (vf q : Nat) (l : Launch) (t : Tabs) : State :=
  if t.slot = 0 then s.streamsRead vf q l t else s.seekImage vf q l.lrec l.replay t.slot 8 4 (.streamCount l t)

/-- A table begins with the number of its entries, of `per` bytes each and at most `most`: all of it is read, or it is refused. -/
def countRead (s : State) (vf q : Nat) (l : Launch) (b : Option (List Byte)) (off per most status : Nat) (k : Seek) : State :=
  match b with
  | none => s.refuseRec vf q l.lrec l.replay status
  | some bs =>
    let n := leAt bs 0 4
    if n = 0 || most < n then s.refuseRec vf q l.lrec l.replay status
    else s.seekImage vf q l.lrec l.replay off (8 + per * n) status k

/-- The first 0x140 bytes of the image have been read: check 1, and the launch as it is so far (R183). -/
def headerRead (s : State) (vf q : Nat) (r : LRec) (p : Option Replay) (b : Option (List Byte)) : State :=
  match b with
  | none => s.refuseRec vf q r p 2
  | some bs =>
    if !(headerOk r bs) then s.refuseRec vf q r p 2
    else
      let t := parseTabs bs
      let l : Launch := { id := 0, vf, queue := q, lrec := r, hdr := parseHeader bs, dir := (List.range 16).map (wellDir bs)
                          groups := [(0, List.range (16 * r.clusters))], replay := p }
      if t.group = 0 then s.groupsRead vf q l t else s.seekImage vf q r p t.group 16384 3 (.groups l t)

/-- The address of record `i` of a graph (R196). -/
def memberAt (s : State) (vf : Nat) (p : Replay) : Nat := ((s.graphAt vf p.graph).base + BitVec.ofNat 64 (64 * p.index)).toNat

/-- A record of the queue has been read: of a launch, or one that replays a graph, of the generation that is current now (R196). -/
def recordRead (s : State) (vf q : Nat) (r : LRec) : State :=
  if r.graph = 0 then s.seek vf (.header r none) r.image.toNat 0x140
  else
    let g := s.graphAt vf r.graph
    if g.count = 0 then s.refuseRec vf q r none 8
    else
      let p : Replay := { graph := r.graph, gen := g.cur, top := r }
      s.seek vf (.member p) (s.memberAt vf p) 64

/-- A record of a replay has been read: it runs with the captured generation's parameter block (R196). -/
def memberRead (s : State) (vf : Nat) (p : Replay) (r : LRec) : State :=
  s.seek vf (.header { r with params := Tbl.get 0 (s.graphAt vf p.graph).gens p.gen } (some p)) r.image.toNat 0x140

/-- What has been read for the queue is taken up. A record that does not translate stays (log 40). -/
def sought (s : State) (vf q : Nat) (k : Seek) (b : Option (List Byte)) : State :=
  match k with
  | .record => (b.map (fun bs => s.recordRead vf q (parseRec bs))).getD (s.passOn vf)
  | .member p => (b.map (fun bs => s.memberRead vf p (parseRec bs))).getD (s.passOn vf)
  | .header r p => s.headerRead vf q r p b
  | .groups l t =>
    (match b.bind (parseGroups (16 * l.lrec.clusters)) with
      | some groups => s.groupsRead vf q { l with groups } t
      | none => s.refuseRec vf q l.lrec l.replay 3)
  | .streamCount l t => s.countRead vf q l b t.slot 32 255 4 (.streams l t)
  | .streams l t =>
    (match b.bind (parseStreams (16 * l.lrec.clusters) l.groups) with
      | some streams => s.streamsRead vf q { l with streams } t
      | none => s.refuseRec vf q l.lrec l.replay 4)
  | .taskCount l t => s.countRead vf q l b t.task 16 65536 5 (.tasks l)
  | .tasks l =>
    (match b.bind (parseTasks (16 * l.lrec.clusters) l.hdr.wells) with
      | some tasks => s.tasksRead vf q { l with tasks }
      | none => s.refuseRec vf q l.lrec l.replay 5)

/-- A queue's turn comes: its launch's waiting teams are placed, or its next record is to be read (R180, R182, R196). -/
def turnOf (s : State) (vf q : Nat) : State :=
  let x := s.queueAt vf q
  match x.busy.bind s.launchAt with
  | some l =>
    let u := s.placeTeams l
    (if u.teams == s.teams then u else u.served vf x.level q).passOn vf
  | none =>
    if !x.open_ then s.passOn vf
    else
      match x.cont with
      | some p => s.seek vf (.member p) (s.memberAt vf p) 64
      | none => s.seek vf .record (x.base + BitVec.ofNat 64 (64 * (x.head.toNat % 2 ^ x.log2))).toNat 64

/-! ### Swapping out (R182, R189) -/

/-- Every core of the team is complete and every operation it queued has been performed (R184). -/
def teamDone (s : State) (t : Team) : Bool :=
  t.cores.all (fun c => s.coreDone c && (s.coreAt c).eops.isEmpty && (s.coreAt c).seqs.all (fun (_, q) => !q.running))

/-- The priority of a team's queue. -/
def teamLevel (s : State) (t : Team) : Nat :=
  match s.launchAt t.launch with
  | some l => (s.queueAt l.vf l.queue).prio
  | none => 0

/-- The team may be swapped out for one of level `lvl` at the next boundary: it is complete, or of that level or a lower priority
(R182, R189). It has then been resident for a quantum, counted from the boundary at which it was placed (log 43). -/
def mayStop (s : State) (lvl : Nat) (t : Team) : Bool :=
  t.st == .resident && (s.teamDone t || decide (lvl ≤ s.teamLevel t))

/-- The teams that wait at a queue: those of its launch, the one that has waited longest first, or the first team of the launch that waits
to be dispatched. -/
def nextTeams (s : State) (vf q : Nat) : List (Option Launch × Team) :=
  let x := s.queueAt vf q
  match x.busy.bind s.launchAt, x.want with
  | some l, _ => (s.waitingOf l).map (fun t => (some l, t))
  | none, some n => [(none, { id := 0, launch := 0, num := 0, count := n })]
  | none, none => []

/-- The teams whose stop makes room for a team on the run from `f` on: all that stand there, where each may be stopped and the
streams are admitted without them (R182, R331). -/
def roomOn (s : State) (lvl : Nat) (l : Option Launch) (t : Team) (f : Nat) : Option (List Team) :=
  let on := ((runOf f t.count).filterMap s.teamOn).eraseDups
  let held := (s.teams.filter (fun x => !(on.any (fun y => y.id == x.id)))).flatMap (·.resv)
  if on.isEmpty || !(on.all (s.mayStop lvl)) || l.any (fun l => (grantSlots held l { t with first := f }).isNone) then none
  else some on

/-- Stop teams at cycle `t` (R347); one that stops already stops at the earlier of the two. -/
def stopTeams (s : State) (ts : List Team) (t : Nat) (revoked : Bool) : State :=
  ts.foldl (fun s x =>
    let t := match x.st with
      | .stopping u => Nat.min t u
      | _ => t
    x.cores.foldl (fun s c => s.modCore c (fun k => { k with stopAt := some t }))
      (s.setTeam { x with st := .stopping t, revoked := revoked || x.revoked })) s

/-- The next quantum boundary of a function that lies 4,096 cycles ahead or more (R182, R347). -/
def nextBoundary (s : State) (vf : Nat) : Nat := nextMultiple (s.vfAt vf).quantum.toNat (s.now + 4096)

/-- Make room for the first team, in the order of service and of waiting, for which that can be done, by a stop at the next boundary; while
teams of the function start, stop or come back, nothing more is stopped (R182, R189, R347, log 43). -/
def makeRoom (s : State) (vf : Nat) : State :=
  if s.teams.any (fun t => (s.launchAt t.launch).any (fun l => l.vf == vf) && (match t.st with
    | .starting | .stopping _ | .restoring => true
    | _ => false)) then s
  else
    match (s.serviceOrder vf).findSome? (fun q =>
      (s.nextTeams vf q).findSome? (fun (l, t) => (s.runsOf vf t).findSome? (s.roomOn (s.queueAt vf q).level l t))) with
    | some ts => s.stopTeams ts (s.nextBoundary vf) false
    | none => s

/-- A boundary comes: a head launch that the boundary before has found waiting has waited one whole quantum more (R182). -/
def LQueue.aged (x : LQueue) : LQueue := if x.open_ then { x with waited := if x.seen then x.waited + 1 else 0, seen := true } else x

/-- A boundary is due for a function that has not had it (R182). -/
def boundary (s : State) (vf : Nat) : Bool :=
  let v := s.vfAt vf
  v.live && v.rst.isNone && v.quantum != 0 && s.cyc.toNat % v.quantum.toNat == 0 && v.lastQ != some s.now

/-- A quantum boundary: the queues age, and the free clusters are to be filled (R182). -/
def quantumAt (s : State) (vf : Nat) : State :=
  (s.modVf vf (fun v => { v with lastQ := some s.now, queues := v.queues.map (fun (q, x) => (q, LQueue.aged x)) })).startPass vf

/-- The next step of the pass that fills free clusters: a queue's turn, a line part, or the end, at which room is made for what still waits
(R182, R189). -/
def passStep (s : State) (vf : Nat) : Option State :=
  match (s.vfAt vf).pass with
  | none => none
  | some p =>
    match p.queues, p.at_ with
    | [], _ =>
      let u := s.modVf vf (fun v => { v with pass := none })
      some (if p.again then u.startPass vf else u.makeRoom vf)
    | q :: _, none => some (s.turnOf vf q)
    | q :: _, some (k, a) =>
      if !(s.queueAt vf q).open_ then some (s.passOn vf)
      else
        (s.devStep vf a none).map (fun (u, a) =>
          if a.over false then u.sought vf q k a.bytes
          else u.modVf vf (fun v => { v with pass := some { p with at_ := some (k, a) } }))

/-- What has been prepared of a team is taken up when an access is over: the next image, the code, the stacks, or the start (R175, R179). -/
def prepared (s : State) (l : Launch) (t : Team) (p : Prep) : State :=
  let keep := fun (p : Prep) => s.modVf l.vf (fun v => { v with preps := v.preps.map (fun x => if x.team == p.team then p else x) })
  let starts := fun (p : Prep) =>
    ((s.modVf l.vf (fun v => { v with preps := v.preps.filter (fun x => x.team != p.team) })).startTeam l t p).makeRoom l.vf
  match p.stage with
  | .image n =>
    if p.acc.over false then keep (prepFrom l { p with images := p.images ++ (p.acc.bytes.map (fun b => (n, b))).toList } (n + 1)) else keep p
  | .code =>
    if !(p.acc.over false) then keep p
    else
      let p := { p with code := p.acc.bytes }
      if l.hdr.stack = 0 then starts p else keep { p with stage := .stack, acc := { va := (stackSpan l t).1, n := (stackSpan l t).2 } }
  | .stack => if p.acc.over true then starts p else keep p

/-- The next line part of a team's preparation (R179, R225). -/
def prepStep (s : State) (vf : Nat) (p : Prep) : Option State :=
  match s.teams.find? (fun t => t.id == p.team) with
  | some t =>
    match s.launchAt t.launch with
    | some l =>
      (s.devStep vf p.acc (if p.stage == .stack then some (fun _ => 0) else none)).map (fun (u, a) =>
        let kinds := if p.stage == .code && a.pos != p.acc.pos && !a.bad then p.kinds ++ s.codeKind vf p.acc else p.kinds
        u.prepared l t { p with acc := a, kinds })
    | none => none
  | none => none

/-- What the device does for a function between boundaries: a completion record, the preparation of a team, the filling of free clusters. -/
def deviceStep (s : State) (vf : Nat) : Option State :=
  (List.range 16).findSome? (s.endStep vf) <|> (s.vfAt vf).preps.findSome? (s.prepStep vf) <|> s.passStep vf

end State

/-- SCHEDULER_QUANTUM (R182): a boundary, or the next step of what the device does for the function: it reads records and images, prepares
teams and writes completion records line part by line part (R179, R183, R184, R225). -/
def execSchedulerQuantum (vf : Nat) (s : State) : Out1 :=
  s.fired (if s.boundary vf then some (s.quantumAt vf) else if (s.vfAt vf).live then s.deviceStep vf else none)

/-! ### The end of a launch (R184) -/

namespace State

/-- Every task of a team is done or cancelled (R184). -/
def tasksDone (l : Launch) (t : Team) : Bool :=
  (List.range l.tasks.length).all (fun n => match Tbl.get .pending t.tstate n with
    | .done | .cancelled => true
    | _ => false)

/-- The launch has ended: every team is complete and every task done or cancelled (R184). -/
def launchDone (s : State) (l : Launch) : Bool :=
  (s.teams.filter (fun t => t.launch == l.id)).all (fun t =>
    tasksDone l t && (t.st == .complete || (t.st == .resident && s.teamDone t)))

/-- A scheduled change frees its well at the end (R211, R217). -/
def frees (m : WMove) : Bool := m.kind == .detach || m.kind == .free

/-- What a `wattach` or a `wclr` that the end of its launch cuts off has zeroed by then: 128 bytes a cycle, the delays being 1,024 cycles
for a whole well and 512 for a half (R212, R213; DEDUCED, log 25). -/
def cutZero (s : State) (m : WMove) : State :=
  let len := match m.kind with
    | .attach false => 0x20000
    | .clear => if (s.slotAt m.core m.slot).exch then 0x10000 else 0x20000
    | _ => 0
  let n := if m.ops.isEmpty && m.eops.isEmpty then Nat.min len (128 * (s.now - m.base)) else 0
  (s.zeroWell m.well 0 (Nat.min n 0x10000)).zeroWell m.well 0x10000 (n - 0x10000)

/-- A core leaves its launch: wells FREE, slots DETACHED, ENDED contexts FREE (R150, R184, R218). A well that a `wdetach` or a
`wrel.free` has taken from its slot becomes FREE when that ends (R211, R217, R345). -/
def releaseCore (s : State) (core : Nat) : State :=
  let k := s.coreAt core
  let s := (s.moves.filter (fun m => m.core == core)).foldl State.cutZero s
  let s := k.slots.foldl (fun s (_, x) => if x.st == .detached then s else s.setBank x.well { s.bankAt x.well with bound := false }) s
  let s := (s.setMoves (s.moves.filter (fun m => m.core != core || frees m))).setCore core { k with slots := [], prior := none }
  (List.range 16).foldl (fun s n => s.modCtx (16 * core + n) (fun c => if c.life == .ended then { c with life := .free } else c)) s

end State

/-- A launch leaves the device: its teams, the cores on which they stand, and what the network carries for them (R184). -/
def State.launchGone (s : State) (launch : Nat) : State :=
  let ts := s.teams.filter (fun t => t.launch == launch)
  let u := (ts.filter Team.onDevice).foldl (fun s t => t.cores.foldl State.releaseCore s) s
  { u with
    launches := u.launches.filter (fun x => x.id != launch)
    teams := u.teams.filter (fun t => t.launch != launch)
    net := { u.net with
      tokens := u.net.tokens.filter (fun m => m.launch != launch)
      flits := u.net.flits.filter (fun f => !(ts.any (fun t => t.id == f.team))) } }

/-- The completion record of a launch, and the next step of its queue (R184, R196): its first line part where that can be written now. -/
def State.recordLaunch (s : State) (l : Launch) : State :=
  let u := s.beginEnd l.vf l.queue l.lrec l.replay l.status (l.ntdone, l.ncanc, l.nunder) (l.failt.getD State.noTask)
  (u.endStep l.vf l.queue).getD u

/-- LAUNCH_END (R184, R196). A team's streams keep their slots until its launch ends, or it is swapped out, though it be complete
(DESIGN CHOICE, log 41). -/
def execLaunchEnd (launch : Nat) (s : State) : Out1 :=
  s.fired (
    match s.launchAt launch with
    | some l => if s.launchDone l then some ((s.launchGone launch).recordLaunch l) else none
    | none => none)

/-! ### The synchronized stop (R347, R348) -/

namespace State

/-- A well change in progress that cannot end while its team is stopped: it waits for an access that is held, or that a release holds
back, or the 20,000 cycles of R347 are over. The save carries it (DEDUCED, log 43). -/
def carried (s : State) (m : WMove) : Bool :=
  let stuck := fun (o : Op) => !o.sent || o.anyHeld
  !(s.inTime m.core) || s.ops.any (fun o => m.ops.contains o.id && stuck o) || m.stOf.any (fun a => s.ops.any (fun o => o.ctx == a && stuck o))

/-- The cores of a stopping team are quiet: no well change is in progress but one that the stop holds up, no array operation is being
performed, no register write waits for a wake, and the copy engine is between two units, or has lost a request (R351), or holds a follow-on pass for
which there is no room (R347). -/
def quiet (s : State) (t : Team) : Bool :=
  (match t.st with
    | .stopping at_ => decide (at_ ≤ s.now)
    | _ => false) &&
  t.cores.all (fun c =>
    (s.coreAt c).aq.all (fun o => o.start.isNone) && (s.coreAt c).late.isEmpty &&
    (s.servedCopy c).all (fun o => if o.done then o.lost || 16 ≤ (s.coreAt c).aq.length else o.lost || !o.midUnit) &&
    s.moves.all (fun m => m.core != c || s.carried (s.settleMove m)))

/-- A store entry that cannot be performed while its context stands still: its line part, or one that it may not pass, waits behind a
load that is held (R253), or belongs to a team that is saved. -/
def stuckEntry (s : State) (e : SEntry) : Bool :=
  let stuck := fun (x : Nat × Nat) =>
    match s.partAt x.1 x.2 with
    | some (o, p) => s.lineBefore o x.2 (p.va / 256) (fun _ => true) PartSt.pending &&
        s.lineBefore o x.2 (p.va / 256) OpKind.byParts (fun y => y == .held)
    | none => true
  ((e.op, e.part) :: s.waitsFor s.sb.length (s.partsBefore (e.op, e.part))).any stuck

/-- The store entries of a team have been performed before it is saved, or stand in their die buffer and can go no further: there they
stay, seen by whoever saw them before (R257, R263). -/
def swept (s : State) (t : Team) : Bool :=
  s.sb.all (fun e => !(t.cores.contains (e.ctx / 16)) || (e.level == .die && s.stuckEntry e))

/-- The registers that a swap keeps (R174). -/
def trimCtx (h : Header) (c : Ctx) : Ctx :=
  { c with x := c.x.filter (fun (n, _) => n ≤ h.sregs), v := c.v.filter (fun (n, _) => n < h.vregs) }

/-- What a well holds, by its offsets. -/
def wellBytes (s : State) (w : Nat) : Memory :=
  (Tbl.range s.mem.wells (w * 0x20000) ((w + 1) * 0x20000)).map (fun (a, b) => (a % 0x20000, b))

/-- The wells bound to a core's slots, with what each holds (R218). -/
def savedWells (s : State) (core : Nat) : List (Nat × Nat × Bool × Memory) :=
  (s.coreAt core).slots.map (fun (n, x) => (core, n, (s.bankAt x.well).swap, s.wellBytes x.well))

/-- A well as a save keeps it comes back. -/
def bindWell (s : State) (w : Nat) (swap : Bool) (bytes : Memory) : State :=
  let s := s.setBank w { bound := true, swap }
  let keep := Tbl.clear s.mem.wells (w * 0x20000) ((w + 1) * 0x20000)
  s.setMem { s.mem with wells := Tbl.putAll Memory.unlisted keep (bytes.map (fun (a, b) => (w * 0x20000 + a, b))) }

/-- The number under which the store entries of a saved team keep the context that they belong to. -/
def awayCtx (t : Team) (a : Nat) : Nat := 20480 * (t.id + 1) + a

/-- Save a quiet team; what it held on the device is released (R348). Its store entries stay in the machine (R247). A complete team has
nothing to come back for: its accesses go on as those of an earlier life (log 26). -/
def saveTeam (s : State) (t : Team) : State :=
  let cores := t.cores
  let mine := fun (a : Nat) => cores.contains (a / 16)
  let h := ((s.launchAt t.launch).map (·.hdr)).getD {}
  let cut := fun (lo hi : Nat) (c : Nat) => decide (lo ≤ c) && decide (c < hi)
  let own := (s.moves.filter (fun m => cores.contains m.core)).map s.settleMove
  let within := fun (per : Nat) (k : Nat) => cores.any (fun c => cut (c * per) ((c + 1) * per) k)
  let gone := s.teamDone t && ((s.launchAt t.launch).map (fun l => tasksDone l t)).getD true
  let saved : Saved :=
    { ctxs := (s.ctxs.filter (fun (a, _) => mine a)).map (fun (a, c) => (a, trimCtx h c))
      cores := s.cores.filter (fun (k, _) => cores.contains k)
      foot := s.mem.foot.filter (fun (k, _) => within (256 * 128) k)
      tags := s.mem.tags.filter (fun (k, _) => within 256 k)
      stack := s.mem.stack.filter (fun (k, _) => within 0x300000 k)
      wells := cores.flatMap s.savedWells
      first := t.first, pool := !t.revoked
      ops := if gone then [] else s.ops.filter (fun o => mine o.ctx)
      flits := s.net.flits.filter (fun f => f.team == t.id)
      moves := own
      loose := (own.filter frees).map (fun m => (m.well, (s.bankAt m.well).swap, s.wellBytes m.well)), at_ := s.now }
  let place := fun (w : Nat) => (cores.flatMap (fun c => (s.coreAt c).slots.map (fun (n, x) => (x.well, 16 * c + n)))).find? (fun p => p.1 == w)
  let marks := fun (ws : List Nat) => ws.filterMap (fun w => (place w).map (·.2))
  let groups := t.groups.map (fun (g, x) => (g, { x with swp := marks x.swp, swpN := marks x.swpN }))
  let st := if gone then TeamSt.complete else .saved
  let s := (own.filter frees).foldl (fun s m => s.setBank m.well { s.bankAt m.well with bound := false }) s
  let s := cores.foldl State.releaseCore (s.setMoves (s.moves.filter (fun m => !(cores.contains m.core))))
  let s := if gone then (s.ctxs.filter (fun (a, _) => mine a)).foldl (fun s (a, _) => s.orphan a) s
    else { s with ops := s.ops.filter (fun o => !(mine o.ctx)), sb := s.sb.map (fun e => if mine e.ctx then { e with ctx := awayCtx t e.ctx } else e) }
  let s := { s with
    ctxs := s.ctxs.filter (fun (a, _) => !(mine a)), cores := s.cores.filter (fun (k, _) => !(cores.contains k))
    net := { s.net with flits := s.net.flits.filter (fun f => f.team != t.id) } }
  let s := (runOf t.first t.count).foldl (fun s c => s.modClu c (fun k => { k with cpyBusy := none })) s
  s.setTeam { t with st, saved := some saved, groups, resv := [], since := s.now }

end State

/-- The team stops for the reset of its partition: it is dumped and cleared, not saved (R357). -/
def State.resetting (s : State) (t : Team) : Bool :=
  (s.launchAt t.launch).any (fun l => (s.vfAt l.vf).rst.isSome)

/-- What follows a stop that the scheduler has made: the boundary at which it came fills the clusters that are free now, and room is
made for the next one (R182, R189, log 43). -/
def State.afterStop (s : State) (ts : List Team) : State :=
  ((ts.filterMap (fun t => if t.revoked then none else (s.launchAt t.launch).map (·.vf))).eraseDups).foldl State.startPass s

/-- SYNCHRONIZED_STOP (R347, R348): every team of the set is quiet, swept and saved. -/
def execSynchronizedStop (teams : List Nat) (s : State) : Out1 :=
  s.fired (
    let ts := s.teams.filter (fun t => teams.contains t.id)
    if ts.isEmpty || !(ts.all (fun t => s.quiet t && s.swept t)) || ts.any s.resetting then none
    else some ((ts.foldl State.saveTeam s).afterStop ts))

/-! ### Restore (R349, R350) -/

/-- A team that moves from one run to another: where its cores, contexts and wells go (R218, R350). -/
structure Moving where
  old : Team
  new : Team
  deriving DecidableEq, Repr

def Moving.core (m : Moving) (c : Nat) : Nat := ((m.old.indexOf c).map m.new.coreOf).getD c
def Moving.ctx (m : Moving) (a : Nat) : Nat := 16 * m.core (a / 16) + a % 16
def Moving.well (m : Moving) (w : Nat) : Nat :=
  match runPos m.old.first m.old.count (w / 64) with
  | some p => 64 * runClu m.new.first p + w % 64
  | none => w

/-- A key that counts `per` items per core. -/
def Moving.key (m : Moving) (per k : Nat) : Nat := m.core (k / per) * per + k % per

/-- An unsorted table in canonical order. -/
def Tbl.sorted (t : Tbl α) : Tbl α := sortBy (fun a b => decide (a.1 ≤ b.1)) t

def Moving.eop (m : Moving) (o : EOp) : EOp :=
  { o with
    ctx := m.ctx o.ctx, binds := o.binds.map (fun b => { b with well := m.well b.well })
    dest := o.dest.map (fun (w, off) => (m.well w, off))
    landed := match o.kind with
      | .xst _ _ _ => o.landed     -- its target is a number in its descriptor
      | _ => Tbl.sorted (o.landed.map (fun (c, n) => (m.core c, n))) }

def Moving.move (m : Moving) (x : WMove) : WMove := { x with well := m.well x.well, core := m.core x.core, stOf := x.stOf.map m.ctx }

def Moving.op (m : Moving) (o : Op) : Op :=
  { o with
    ctx := m.ctx o.ctx, parts := o.parts.map (fun p => { p with well := p.well.map m.well })
    kind := match o.kind with
      | .rfill ta n v => .rfill (m.ctx ta) n v
      | k => k }

def Moving.coreState (m : Moving) (k : Core) : Core :=
  { k with
    slots := k.slots.map (fun (n, x) => (n, { x with well := m.well x.well })), prior := none, frozen := k.frozen.map m.ctx
    cq := k.cq.map m.eop, aq := k.aq.map m.eop, eq := k.eq.map m.eop
    seqs := k.seqs.map (fun (n, q) => (n, { q with ctx := m.ctx q.ctx, binds := q.binds.map (fun b => { b with well := m.well b.well }) })) }

/-- A task's state after a restore: its watchdog was suspended for `gap` cycles (R194, R348). -/
def Moving.task (m : Moving) (gap : Nat) (x : TaskSt) : TaskSt :=
  match x with
  | .taken a since e => .taken (m.ctx a) (since + gap) e
  | x => x

/-- What a restored core starts with: the rotation pointer at 15, no stop, no stall, an empty buffer and kind table; its NI sends anew
what it held after a refusal (R349). -/
def Core.restarted (k : Core) (now mapgen : Nat) : Core :=
  { k with rot := 15, slotAt := now, sleep := .awake, stopAt := none, stall := [], ibuf := [], kinds := [], gens := [], refu := [], mapgen }

/-- Every monitor's trigger bit is set, and a wait at a port counts from now on (R335, R349). -/
def Ctx.restored (c : Ctx) (now : Nat) : Ctx :=
  { c with mon := c.mon.map (fun (n, x) => (n, if x.used then { x with trig := true } else x)), lastAt := none, parkAt := now }

namespace State

/-- Put a saved team back (R285, R349). Accesses whose page was resolved while it was saved are replayed (R277). -/
def putBack (s : State) (l : Launch) (t : Team) (sv : Saved) : State :=
  let m : Moving := { old := { t with first := sv.first }, new := t }
  let gap := s.now - sv.at_
  let s := sv.cores.foldl (fun s (k, c) =>
    s.setCore (m.core k) ((m.coreState c).restarted s.now (s.vfAt l.vf).mapgen)) s
  let s := sv.ctxs.foldl (fun s (a, c) => s.setCtx (m.ctx a) (c.restored s.now)) s
  let s := sv.wells.foldl (fun s (core, n, swap, bytes) => s.bindWell (s.slotAt (m.core core) n).well swap bytes) s
  let s := sv.loose.foldl (fun s (w, swap, bytes) => s.bindWell (m.well w) swap bytes) s
  let s := t.cores.foldl (fun s c => s.setMem { s.mem with
    foot := Tbl.clear s.mem.foot (c * 32768) ((c + 1) * 32768), tags := Tbl.clear s.mem.tags (c * 256) ((c + 1) * 256)
    stack := Tbl.clear s.mem.stack (c * 0x300000) ((c + 1) * 0x300000) }) s
  let s := s.setMem { s.mem with
    foot := Tbl.putAll 0 s.mem.foot (sv.foot.map (fun (k, v) => (m.key 32768 k, v)))
    tags := Tbl.putAll 0x3F80 s.mem.tags (sv.tags.map (fun (k, v) => (m.key 256 k, v)))
    stack := Tbl.putAll Memory.unlisted s.mem.stack (sv.stack.map (fun (k, v) => (m.key 0x300000 k, v))) }
  let s : State := { s with
    ops := sortBy (fun a b => decide (a.id ≤ b.id)) (s.ops ++ sv.ops.map m.op)
    sb := s.sb.map (fun e => if e.ctx / 20480 == t.id + 1 then { e with ctx := m.ctx (e.ctx % 20480) } else e)
    net := { s.net with flits := s.net.flits ++ sv.flits.map (fun (f : Flit) => { f with dests := f.dests.map m.core }) } }
  let s := s.modVf l.vf (fun v =>
    let f := fun (r : PageReq) => if r.team == some t.id then { r with ctx := m.ctx r.ctx } else r
    { v with prqs := v.prqs.map f, asked := v.asked.map f, answers := v.answers.map f })
  let s := ((s.vfAt l.vf).answers.filter (fun r => r.late && r.team == some t.id)).foldl (fun s r =>
    s.reissueAll r.ops (fun o => o.awaitAccs r.page)) s
  let s := s.modVf l.vf (fun v => { v with answers := v.answers.map (fun r => if r.team == some t.id then { r with late := false } else r) })
  let wells := fun (ks : List Nat) => ks.map (fun k => (s.slotAt (m.core (k / 16)) (k % 16)).well)
  let s := (runOf t.first t.count).foldl (fun s c => s.modClu c (fun k => { k with cpyPos := 15, cpyBusy := none })) s
  let s := s.setMoves ((s.moves.filter (fun x => !(t.cores.any (fun c => (s.coreAt c).slots.any (fun (_, y) => y.well == x.well)) ||
    sv.loose.any (fun (w, _, _) => m.well w == x.well)))) ++ sv.moves.map m.move)
  let s := s.setTeam { t with
    st := .resident, saved := none, revoked := false, since := s.now
    groups := t.groups.map (fun (g, x) => (g, { x with swp := wells x.swp, swpN := wells x.swpN }))
    tstate := t.tstate.map (fun (n, x) => (n, m.task gap x)) }
  if l.token then
    s.setNet { s.net with tokens := s.net.tokens ++ (t.cores.filter (fun c => !(s.coreAt c).token)).map (fun c => { launch := l.id, core := c, by_ := s.now }) }
  else s

end State

/-- TEAM_RESTORE (R349): the team is put back on the run that the scheduler chose. -/
def execTeamRestore (team : Nat) (s : State) : Out1 :=
  s.fired (
    match s.teams.find? (fun t => t.id == team) with
    | some t =>
      match t.saved, s.launchAt t.launch with
      | some sv, some l => if t.st == .restoring && !(s.resetting t) then some ((s.putBack l t sv).makeRoom l.vf) else none
      | _, _ => none
    | none => none)

/-! ### Carve-outs and frames (R281) -/

/-- The frames of HBM in a carve-out: first, and one past the last. -/
def VF.frames (v : VF) : Nat × Nat :=
  (Nat.min (hbmBytes / 65536) (v.segb.toNat / 65536), Nat.min (hbmBytes / 65536) ((v.segb.toNat + v.segn.toNat + 65535) / 65536))

/-- The function with a new segbase or segbound. -/
def VF.carved (v : VF) (bound : Bool) (w : Word) : VF := if bound then { v with segn := w } else { v with segb := w }

/-- The change waits: a frame is still owed to the Blotter (R375), or one that it would bring into the carve-out stands in another
function's and so is not in the pool (R281). -/
def State.carveWaits (s : State) (vf : Nat) (v : VF) : Bool :=
  let (a, b) := (s.vfAt vf).frames
  let (c, d) := v.frames
  let new := [(c, Nat.min d a), (Nat.max c b, d)].filter (fun (x, y) => x < y)
  (v != s.vfAt vf && !s.pkg.owed.isEmpty) ||
  new.any (fun (lo, hi) => s.vfs.any (fun (n, f) =>
    n != vf && f.live && f.frames.1 < f.frames.2 && f.frames.1 < hi && lo < f.frames.2))

/-- A change of a carve-out is applied; the frames that leave it are owed to the Blotter. -/
def State.setCarve (s : State) (vf : Nat) (v : VF) : State :=
  let (a, b) := (s.vfAt vf).frames
  let (c, d) := v.frames
  let gone := [(a, Nat.min b c, vf), (Nat.max a d, b, vf)].filter (fun (x, y, _) => x < y)
  (s.setVf vf v).setPkg { s.pkg with owed := s.pkg.owed ++ gone }

/-- A write of a carve-out word, after those that wait already: it waits with them, or is applied (R281, R375). What lies beyond HBM
is of no use: no access reaches it (log 49). -/
def State.carveWrite (s : State) (vf : Nat) (bound : Bool) (w : Word) : State :=
  let v := s.vfAt vf
  if v.carve.isEmpty && !(s.carveWaits vf (v.carved bound w)) then s.setCarve vf (v.carved bound w)
  else s.setVf vf { v with carve := v.carve ++ [(bound, w)] }

/-- The writes of a function that waited are taken up again in their order. -/
def State.applyCarve (s : State) (vf : Nat) : State :=
  let old := (s.vfAt vf).carve
  if old.isEmpty then s
  else old.foldl (fun s (bound, w) => s.carveWrite vf bound w) (s.modVf vf (fun v => { v with carve := [] }))

/-- Every function's. -/
def State.applyCarves (s : State) : State := s.vfs.foldl (fun s (n, _) => s.applyCarve n) s

/-- A frame leaves the list of those owed. -/
def dropFrame (owed : List (Nat × Nat × Nat)) (n : Nat) : List (Nat × Nat × Nat) :=
  owed.flatMap (fun (a, b, f) =>
    if a ≤ n && n < b then [(a, n, f), (n + 1, b, f)].filter (fun (x, y, _) => x < y) else [(a, b, f)])

/-- The Blotter zeroes one line of HBM: no slice keeps it, monitors of it are lost, and its version rises by one (R165, R230, R281). -/
def State.scrubLine (s : State) (n : Nat) : State :=
  let pk := 2 * n
  let u := s.forgetLine pk
  let u := u.setMem (u.mem.zero (n * 256) (n * 256 + 256))
  (u.setVersion pk (u.version pk + 1)).trigger (fun _ m => m.phys == pk) false

/-- FRAME_SCRUB (R230, R255, R281): the Blotter zeroes the next line of the frame; after the last one the frame is in the pool. -/
def execFrameScrub (frame : Nat) (s : State) : Out1 :=
  s.fired (
    if !(s.pkg.owed.any (fun (a, b, _) => a ≤ frame && frame < b)) then none
    else
      let i := Tbl.get 0 s.pkg.scrub frame
      let u := s.scrubLine (frame * 256 + i)
      if i + 1 < 256 then some (u.setPkg { u.pkg with scrub := Tbl.set 0 u.pkg.scrub frame (i + 1) })
      else some ((u.setPkg { u.pkg with scrub := Tbl.set 0 u.pkg.scrub frame 0, owed := dropFrame u.pkg.owed frame }).applyCarves))

end Sys2Proof.Machine
end

