-- ==== Sys2Proof/Machine/Network.lean ====
section
/-!
DEFINITION. The network (R362, R368-R371): refused requests and their return, deadlock recovery; requests from peer packages (R379).
-/

namespace Sys2Proof.Machine

/-! ### Refused requests -/

/-- An access from outside enters at this NI. -/
def Outside.ni : Outside → Nat
  | .host _ => hostNi
  | .peer _ => peerNi
  | .agent _ => agentNi

/-- An NI may send the refused requests again that `f` names (R362, R369). -/
def State.resend (s : State) (core : Nat) (f : Refused → Bool) : State :=
  s.modCore core (fun c => { c with refu := c.refu.map (fun r => if f r then { r with again := true } else r) })

/-- The core whose NI holds a refused request. -/
def State.holder (s : State) (op part : Nat) : Option Nat :=
  (s.cores.find? (fun (_, k) => k.refu.any (fun r => r.isOf op part))).map (·.1)

/-- NORES_HOLD_EXPIRY (R368): a request refused without a permit is sent again after 1,024 cycles. -/
def execNoresHoldExpiry (op part : Nat) (s : State) : Out1 :=
  s.fired (
    match s.holder op part with
    | some core =>
      let due := fun (r : Refused) => r.isOf op part && r.gen.isNone && !r.permit && !r.again && decide (r.at_ + 1024 ≤ s.now)
      if (s.coreAt core).refu.any due then some (s.resend core due) else none
    | none => none)

/-- What the device's NI holds for a slice, its permit being come, may be sent again (R369). -/
def DevAcc.permit (a : DevAcc) (slice : Nat) : DevAcc :=
  { a with hold := a.hold.map (fun h => if h.slice == slice && h.gen.isNone then { h with again := true } else h) }

/-- Every access of the device for a function. -/
def VF.mapAcc (v : VF) (f : DevAcc → DevAcc) : VF :=
  { v with
    pass := v.pass.map (fun p => { p with at_ := p.at_.map (fun (k, a) => (k, f a)) })
    preps := v.preps.map (fun p => { p with acc := f p.acc })
    queues := v.queues.map (fun (n, q) => (n, { q with ending := q.ending.map (fun e => { e with acc := f e.acc }) })) }

/-- A permit of a slice reaches an NI: its refused requests for that slice go out again (R369). -/
def State.permit (s : State) (slice ni : Nat) : State :=
  if ni < hostNi then s.resend ni (fun r => r.slice == slice && r.gen.isNone)
  else if ni = devNi then { s with vfs := s.vfs.map (fun (n, v) => (n, v.mapAcc (fun a => a.permit slice))) }
  else { s with held := s.held.map (fun h => if h.acc.ni == ni && h.slice == slice && h.gen.isNone then { h with again := true } else h) }

/-- The slice has an entry of its buffer to give away (R369): one that stands free, one that was kept for an NI which has not used it in
512 cycles, or, of a full buffer, that of the request that it performs in this slice cycle (R225). -/
def State.freesEntry (s : State) (slice : Nat) : Bool :=
  let x := s.sliceAt slice
  !x.recov && (!x.full || x.freed != 0 || x.kept.any (fun (_, t) => decide (t ≤ s.now)) || s.slotFree slice)

/-- RETRY_PERMIT (R369): an entry of the buffer has become free, or stands free after a recovery; the NI at the head of the list gets a
permit, and the entry is kept for it for 512 cycles. With no NI listed, a full buffer has room again. -/
def execRetryPermit (slice : Nat) (s : State) : Out1 :=
  s.fired (
    let x := s.sliceAt slice
    let live := x.kept.filter (fun (_, t) => decide (s.now < t))
    let free := x.freed + (x.kept.length - live.length)
    let last := if x.full && free == 0 then some (s.now / 2) else x.last
    if !(s.freesEntry slice) then none
    else
      match x.permits with
      | [] => if x.full then some (s.setSlice slice { x with full := false, kept := live, freed := 0, last }) else none
      | ni :: rest =>
        some ((s.setSlice slice { x with permits := rest, kept := live ++ [(ni, s.now + 512)], freed := free - 1, last }).permit slice ni))

/-- GEN_REPLAY (R362): the NI's masks have reached the generation of its refusals. -/
def execGenReplay (core : Nat) (s : State) : Out1 :=
  s.fired (
    let k := s.coreAt core
    let reached := fun (r : Refused) => !r.again && r.gen.any (genReached k.mapgen)
    if k.refu.any reached then some (s.resend core reached) else none)

/-! ### Deadlock recovery (R370, R371) -/

/-- Router of an input buffer; 0-79 are the cluster switches, 80-111 the slice switches, 112-143 the stage-two switches (R366). -/
def routerOf (buffer : Nat) : Nat := buffer / 64

/-- The four slices of a slice switch (R366). -/
def slicesOf (router : Nat) : List Nat :=
  if 80 ≤ router && router < 112 then (List.range 4).map (fun i => 4 * (router - 80) + i) else []

/-- An input buffer, by its number. -/
def Net.buf (n : Net) (b : Nat) : RBuf := Tbl.get {} n.rbufs b

/-- The buffer for which the packet at its head waits. -/
def RBuf.next (x : RBuf) : Option Nat := x.packets.head?.bind (·.path.head?)

/-- The packet has gone into the next buffer of its path. -/
def Packet.moved (p : Packet) : Packet := { p with path := p.path.drop 1 }

/-- The buffer holds a packet and has made no progress for 4,096 cycles (R370). -/
def State.stalled (s : State) (b : Nat) : Bool :=
  let x := s.net.buf b
  !x.packets.isEmpty && decide (x.since + 4096 ≤ s.now)

/-- The way of a probe from `b` until it is back at its origin; none where it is dropped (R370). -/
def State.probe (s : State) (origin : Nat) : Nat → Nat → List Nat → Option (List Nat)
  | 0, _, _ => none
  | fuel + 1, b, seen =>
    if !s.stalled b then none
    else
      match (s.net.buf b).next with
      | none => none
      | some n => if n = origin then some (seen ++ [b]) else s.probe origin fuel n (seen ++ [b])

/-- The slices whose switch a router of the cycle is. -/
def slicesOn (cycle : List Nat) : List Nat := (cycle.map routerOf).eraseDups.flatMap slicesOf

/-- The slices of the routers on a cycle refuse requests for as long as one of those takes part in recovery (R368, R371). -/
def State.markRecovery (s : State) (cycle : List Nat) : State :=
  (slicesOn cycle).foldl (fun s n => s.setSlice n { s.sliceAt n with recov := s.net.cycles.any (fun d => (slicesOn d).contains n) }) s

/-- DEADLOCK_PROBE (R370): a confirmed cycle; of two that share a buffer, that of the lower router acts. -/
def execDeadlockProbe (buffer : Nat) (s : State) : Out1 :=
  s.fired (
    match s.probe buffer (s.net.rbufs.length + 1) buffer [] with
    | none => none
    | some c =>
      let shares := fun (d : List Nat) => d.any c.contains
      let others := s.net.cycles.filter shares
      if others.any (fun d => routerOf (d.headD 0) ≤ routerOf buffer) then none
      else
        let u := s.setNet { s.net with cycles := s.net.cycles.filter (fun d => !(shares d)) ++ [c] }
        some ((others.foldl State.markRecovery u).markRecovery c))

/-- The packet at the head of each buffer of a cycle moves into the next buffer, the others of its buffer keeping their places; timers
restart (R371). -/
def stepCycle (n : Net) (now : Nat) (c : List Nat) : Tbl RBuf :=
  (c.zip (c.getLast?.toList ++ c)).foldl (fun u (b, prev) =>
    Tbl.set {} u b { packets := (n.buf b).packets.drop 1 ++ ((n.buf prev).packets.head?.map Packet.moved).toList, since := now }) n.rbufs

/-- DEADLOCK_RECOVERY_STEP (R371): one synchronized step of the oldest confirmed cycle. -/
def execDeadlockRecoveryStep (s : State) : Out1 :=
  s.fired (
    match s.net.cycles with
    | [] => none
    | c :: rest => some ((s.setNet { s.net with rbufs := stepCycle s.net s.now c, cycles := rest }).markRecovery c))

/-- A packet enters an input buffer; the timer of a buffer that was empty begins (R370). -/
def State.packetIn (s : State) (b : Nat) (p : Packet) : State :=
  let x := s.net.buf b
  s.setNet { s.net with rbufs := (Tbl.set {} s.net.rbufs b
    { packets := x.packets ++ [p], since := if x.packets.isEmpty then s.now else x.since }) }

/-- Ordinary traffic: the packet at a buffer's head goes into the next buffer of its path, or leaves the routers; the buffer's timer
restarts (R370). While its cycle is in recovery, it moves with that alone (R371). -/
def State.hop (s : State) (b : Nat) : State :=
  if s.net.cycles.any (fun c => c.contains b) then s
  else
    match (s.net.buf b).packets with
    | [] => s
    | p :: rest =>
      let u := s.setNet { s.net with rbufs := Tbl.set {} s.net.rbufs b { packets := rest, since := s.now } }
      match p.path with
      | [] => u
      | n :: _ => u.packetIn n p.moved

/-! ### Accesses from outside (R255, R372-R374, R379) -/

/-- Why an access from outside is not performed now. -/
inductive LinkFail where
  | busy                         -- its slice has taken a request in this slice cycle (R225)
  | refused (slice : Nat)        -- its slice refuses it (R361, R368)
  | fails (s : State)            -- it does not translate, in the state in which that has been reported (R272, R351)
  deriving DecidableEq, Repr

/-- Where one line part of an access from outside goes; `ni` is its NI where it has been refused before. -/
def State.linkReach (s : State) (vf va : Nat) (acc : Acc) (ni : Option Nat) : Except LinkFail (Nat × Xlat) :=
  match s.reachFor vf va acc with
  | .ok (k, x) =>
    if !(s.slotFree k) then .error .busy
    else if s.accepts vf va k ni then .ok (k, x)
    else .error (.refused k)
  | .error (some f) => .error (.fails (s.reportTo vf va f))
  | .error none => .error (.fails (s.modVf vf (fun v => { v with foreign := true })))

/-- Record what a host read returned. -/
def State.giveHost (s : State) (addr : Nat) (bs : List Byte) : State := { s with hostRd := s.hostRd ++ [(addr, bs)] }

/-- A host access that goes nowhere: a read returns all ones, a write is discarded, bit 7 is set (R372): of the function that the access
names, which for an address that names none is the caller's to say (DESIGN CHOICE, log 49). -/
def State.hostError (s : State) (q : HostAcc) : State :=
  let u := s.modVf q.vf (fun v => v.irq 7)
  match q.wr with
  | some _ => u
  | none => u.giveHost q.addr (List.replicate q.size 0xFF)

/-- Record what a peer's request is answered: none where it is refused. -/
def State.givePeer (s : State) (va : Nat) (r : Option (List Byte)) : State := { s with peerRd := s.peerRd ++ [(va, r)] }

/-- The rights that a peer's request needs (R272, R379). -/
def peerAcc (r : PeerReq) : Acc :=
  match r with
  | .read n => { rd := true, size := n }
  | .fetch n => { fetch := true, size := n }
  | .write bs => { wr := true, size := bs.length }
  | .cas n _ _ | .amo _ n _ => { rd := true, wr := true, size := n }
  | .casv n _ _ => { rd := true, wr := true, ver := true, size := n }
  | .ldv n => { rd := true, ver := true, size := n }
  | .check _ => { rd := true, ver := true }

/-- An atomic of a peer at its slice (R235, R379): what it returns. -/
def State.peerAtomic (s : State) (a : AtomK) (op : AmoOp) (n : Nat) (y z : Word) (k vf va : Nat) (x : Xlat) : State × List Byte :=
  let (u, old, ver) := s.readVersioned k vf va n x
  let (r, new) := atomicStep a op n old ver y z
  ((match new with
    | some bs => u.writeGlobal k vf va bs x
    | none => u), toBytes 8 r.toNat)

/-- A request of a peer at its slice, and the bytes of its answer: a value; with `ldv` a version behind it; of a check, whether the line
has changed (R254, R379). -/
def State.peerDo (s : State) (k vf va : Nat) (x : Xlat) : PeerReq → State × List Byte
  | .read n | .fetch n => s.readGlobal k vf va n x
  | .write bs => (s.writeGlobal k vf va (bs.map some) x, [])
  | .cas n y z => s.peerAtomic .cas .add n y z k vf va x
  | .casv n y z => s.peerAtomic .casv .add n y z k vf va x
  | .amo op n y => s.peerAtomic .amo op n y 0 k vf va x
  | .ldv n =>
    let (u, v, ver) := s.readVersioned k vf va n x
    (u, toBytes n v ++ toBytes 8 ver.toNat)
  | .check ver =>
    if x.tgt == 2 then
      let (u, b) := (s.sendPeer x [] 0).freeBytes 1
      (u, b.map (fun b => b % 2))
    else (s, [if s.version (physKey x) == ver then 0 else 1])

/-- The function under whose tables an access from outside is performed: of a peer's request, the one that the export binding gives
(R379). -/
def State.outsideVf (s : State) : Outside → Option Nat
  | .host q => some q.vf
  | .agent w => some w.vf
  | .peer q => (s.pkg.exports.find? (fun (p, v, _) => p == q.pkg && v == q.pvf)).map (fun (_, _, vf) => vf)

/-- Its address and the rights that it needs. -/
def Outside.va : Outside → Nat
  | .host q => q.addr
  | .peer q => q.va
  | .agent w => w.va
def Outside.acc : Outside → Acc
  | .host q => { rd := q.wr.isNone, wr := q.wr.isSome, size := q.len }
  | .peer q => peerAcc q.req
  | .agent w => { wr := true, size := w.bytes.length }

/-- What it does at its slice. -/
def State.outsideDo (s : State) (k vf : Nat) (x : Xlat) : Outside → State
  | .host q =>
    (match q.wr with
      | some bs => s.writeGlobal k vf q.addr (bs.map some) x
      | none =>
        let (u, bs) := s.readGlobal k vf q.addr q.size x
        u.giveHost q.addr bs)
  | .peer q =>
    let (u, bs) := s.peerDo k vf q.va x q.req
    u.givePeer q.va (some bs)
  | .agent w => s.writeGlobal k vf w.va (w.bytes.map some) x

/-- What comes of one that does not translate or finds no binding (R373, R379). -/
def State.outsideFails (s : State) : Outside → State
  | .host q => s.hostError q
  | .peer q => s.givePeer q.va none
  | .agent _ => s

/-- One attempt of an access from outside: the state after it, and what the link then holds of it. -/
def State.tryOutside (s : State) (h : Held) : State × Option Held :=
  match s.outsideVf h.acc with
  | none => (s.outsideFails h.acc, none)
  | some vf =>
    let ni := if h.refused then some h.acc.ni else none
    match s.linkReach vf h.acc.va h.acc.acc ni with
    | .ok (k, x) => ((s.outsideDo k vf x h.acc).admitted k ni, none)
    | .error (.fails u) => (u.outsideFails h.acc, none)
    | .error .busy => (s, some h)
    | .error (.refused k) =>
      let (u, gen, permit) := s.refusal vf h.acc.va k h.acc.ni
      (u, some { h with slice := k, gen, permit, at_ := s.now, refused := true, again := false })

/-- An access waits behind an earlier one: the host's to one function are performed in the order in which they cross the link (R374), a
peer's of one function to one line in the order of their sending, and so are another agent's (R225, R369). -/
def Outside.behind (b a : Outside) : Bool :=
  match a, b with
  | .host p, .host q => p.vf == q.vf
  | .agent v, .agent w => v.agent == w.agent && v.vf == w.vf && v.va / 256 == w.va / 256
  | .peer p, .peer q => p.pkg == q.pkg && p.pvf == q.pvf && p.va / 256 == q.va / 256
  | _, _ => false

/-- The link may send a held access again (R362, R368, R369). -/
def State.heldMay (s : State) (h : Held) : Bool :=
  h.again || (match h.gen with
    | some g => (s.outsideVf h.acc).all (fun vf => genReached (s.vfAt vf).mapgen g)
    | none => !h.permit && decide (h.at_ + 1024 ≤ s.now))

/-- The held accesses that may go are tried, oldest first. -/
def State.retryHeld (s : State) : State :=
  if s.held.isEmpty then s
  else
    let (u, hs) := s.held.foldl (fun (s, kept) h =>
      if kept.any (fun (g : Held) => h.acc.behind g.acc) || !(s.heldMay h) then (s, kept ++ [h])
      else
        let (u, r) := s.tryOutside h
        (u, kept ++ r.toList)) (s, [])
    { u with held := hs }

/-- The host's link holds an access to the function (R374). -/
def State.linkHolds (s : State) (vf : Nat) : Bool :=
  s.held.any (fun h => match h.acc with
    | .host q => q.vf == vf
    | .peer _ | .agent _ => false)

/-- What the host does for one of the 64 functions: after every access of it that the link holds (R2, R374). -/
def State.hostFired (s : State) (vf : Nat) (r : Option State) : Out1 :=
  s.fired (if vf < 64 && !(s.linkHolds vf) then r else none)

/-- An access from outside arrives: it is performed, or the link holds it. -/
def State.enters (s : State) (a : Outside) : State :=
  let h : Held := { acc := a }
  if s.held.any (fun g => a.behind g.acc) then { s with held := s.held ++ [h] }
  else
    let (u, r) := s.tryOutside h
    { u with held := u.held ++ r.toList }

/-- An access from outside is of one line part (R255). -/
def oneLine (va n : Nat) : Bool := decide (va % 256 + n ≤ 256)

/-- PEER_REQUEST (R379): it comes by an enabled port (R400), and is matched to an export binding and performed under its function, or
refused. -/
def execPeerRequest (q : PeerAcc) (s : State) : Out1 :=
  s.fired (if oneLine q.va q.req.len && !s.pkg.ports.isEmpty then some (s.enters (.peer q)) else none)

/-- AGENT_WRITE_AT_SLICE (R255): one line part of a write by an agent that enters no scope buffer, performed in one step at its slice, or
held while that is busy or refuses it (R225, R368). One that does not translate changes nothing; a malformed table entry is reported
(R272), and so is a foreign tag (R351). -/
def execAgentWriteAtSlice (w : AgentWrite) (s : State) : Out1 :=
  s.fired (if oneLine w.va w.bytes.length then some (s.enters (.agent w)) else none)

end Sys2Proof.Machine
end

