-- ==== Sys2Proof/Machine/Host.lean ====
section
/-!
DEFINITION. What the host does: accesses of the apertures (R372-R374), the register window (R375, R376), page requests (R277),
shoot-downs (R278), page moves (R360), graphs (R196) and carve-outs (R281).
-/

namespace Sys2Proof.Machine

/-! ### Regions and apertures (R372, R373) -/

/-- Where an Itnik address lies. -/
inductive Region where
  | window (vf off : Nat)
  | firmware (off : Nat)
  | coherent (vf va : Nat)
  | raw (vf ia : Nat)
  | tier (t : Nat)
  deriving DecidableEq, Repr

/-- The map of R372; none for every other address. A virtual address is one of R36's global window, from 2^32 on. -/
def regionOf (addr : Nat) : Option Region :=
  let vf := addr / 2 ^ 52 % 256
  if addr < 0x40000 then some (.window (addr / 0x1000) (addr % 0x1000))
  else if addr < 0x41000 then some (.firmware (addr % 0x1000))
  else if 0x1000000000000000 ≤ addr && addr < 0x1000000000000000 + 64 * 2 ^ 52 && 2 ^ 32 ≤ addr % 2 ^ 52 then
    some (.coherent vf (addr % 2 ^ 52))
  else if 0x2000000000000000 ≤ addr && addr < 0x2000000000000000 + 64 * 2 ^ 52 then some (.raw vf (addr % 2 ^ 52))
  else if 0x3000000000000000 ≤ addr && addr < 0x4000000000000000 then some (.tier (addr - 0x3000000000000000))
  else none

/-- The region takes an access of `n` bytes at the address: a window only 8 aligned bytes. -/
def Region.takes (r : Region) (n : Nat) : Bool :=
  match r with
  | .window _ off | .firmware off => n == 8 && off % 8 == 0
  | _ => true

/-- The line parts of a host's access (R225). -/
def hostParts (q : HostAcc) : List HostAcc :=
  match q.wr with
  | some bs => (cutBytes lineLeft (bs.length / 256 + 2) q.addr 0 (bs.map some)).map (fun (a, at_, cs) =>
      { q with addr := a, wr := some ((bs.drop at_).take cs.length) })
  | none => (cutBytes lineLeft (q.size / 256 + 2) q.addr 0 (readBytes q.size)).map (fun (a, _, cs) => { q with addr := a, size := cs.length })

/-- HOST_COHERENT_ACCESS (R225, R255, R373): each line part is performed at its home slice, in their order; while a slice is busy or refuses
one, the link holds it and those behind it (R368, R374). An address outside the global window is none of the aperture (R36, R372). -/
def execHostCoherentAccess (q : HostAcc) (s : State) : Out1 :=
  s.hostFired q.vf (
    if q.addr < 2 ^ 32 || 2 ^ 52 < q.addr + q.len then some (s.hostError q)
    else some ((hostParts q).foldl (fun s p => s.enters (.host p)) s))

/-- HOST_RAW_ACCESS (R2, R354, R373): HBM of the carve-out through the function's key, past every slice; no version changes. -/
def execHostRawAccess (q : HostAcc) (s : State) : Out1 :=
  s.hostFired q.vf (
    let v := s.vfAt q.vf
    match stage2 v q.addr q.len with
    | .error _ => some (s.hostError q)
    | .ok a =>
      match q.wr with
      | some bs => some (s.setMem (s.mem.writeUnder false v.key a bs))
      | none => some (s.giveHost q.addr (s.mem.readUnder false v.key a q.size)))

/-- HOST_TIER_ACCESS (R373, R378): the second tier, past every slice and without a key. -/
def execHostTierAccess (q : HostAcc) (s : State) : Out1 :=
  s.hostFired q.vf (
    if s.pkg.tierSize < q.addr + q.len then some (s.hostError q)
    else
      match q.wr with
      | some bs => some (s.setMem (s.mem.writeUnder true noKey q.addr bs))
      | none => some (s.giveHost q.addr (s.mem.readUnder true noKey q.addr q.size)))

/-- HOST_ACCESS_TO_NO_REGION (R372): of an address outside the map, or not of 8 aligned bytes of a window. -/
def execHostAccessToNoRegion (q : HostAcc) (s : State) : Out1 :=
  s.hostFired q.vf (if (regionOf q.addr).any (fun r => r.takes q.len) then none else some (s.hostError q))

/-! ### The register window (R375) -/

/-- `wstat`. -/
def State.wstat (s : State) (vf : Nat) : Word :=
  let v := s.vfAt vf
  BitVec.ofNat 64 (v.rst.isSome.toNat + 2 * v.sdRun.isSome.toNat + 4 * (v.move.any (fun m => !m.lines.isEmpty)).toNat +
    8 * (!v.pend.isEmpty).toNat + 16 * v.foreign.toNat + 32 * (!v.carve.isEmpty).toNat)

/-- `qctl` as it reads. -/
def LQueue.word (q : LQueue) : Word := BitVec.ofNat 64 (q.log2 + 16 * q.prio + 256 * q.enable.toNat + 512 * q.frozen.toNat)

/-- A page request as `prq` shows it. -/
def PageReq.word (r : PageReq) : Word :=
  BitVec.ofNat 64 (2 ^ 63 + r.wr.toNat * 2 ^ 62 + r.page % 2 ^ 36 * 65536 + r.tok % 2 ^ 15)

/-- What the register window of a function reads at an offset (R375); `prq` is popped by its own event. -/
def State.readWindow (s : State) (vf off : Nat) : Word :=
  let v := s.vfAt vf
  if off = 0x000 then BitVec.ofNat 64 (0x10000 + vf)
  else if off = 0x008 then s.wstat vf
  else if off = 0x010 then v.svec
  else if off = 0x018 then v.quantum
  else if off = 0x028 then v.dumpb
  else if off = 0x040 then v.root
  else if off = 0x048 then v.segb
  else if off = 0x050 then v.segn
  else if off = 0x058 then v.t2b
  else if off = 0x060 then v.t2n
  else if off = 0x080 then v.sdbase
  else if off = 0x088 then v.sdcount
  else if off = 0x0A0 then v.mvpage
  else if off = 0x0A8 then v.mvframe
  else if off = 0x0C0 then (v.prqs.head?.map PageReq.word).getD 0
  else if off = 0x0D0 then v.gpnum
  else if off = 0x0D8 then v.gpaddr
  else if off = 0x0E8 then v.gdbase
  else if off = 0x300 then v.irqmask
  else if off = 0x308 then v.irqstat
  else if 0x100 ≤ off && off < 0x300 then
    let q := s.queueAt vf ((off - 0x100) / 32)
    if off % 32 = 0 then q.base
    else if off % 32 = 8 then q.word
    else if off % 32 = 16 then q.head.setWidth 64
    else if off % 32 = 24 then q.tail.setWidth 64
    else 0
  else 0

/-- A write of `qctl` (R375, R376): the entry count stays while records wait, and where the value is not listed. -/
def LQueue.control (q : LQueue) (v : Word) : LQueue :=
  let n := fieldOf v 0 4
  { q with
    log2 := if q.head == q.tail && 2 ≤ n && n ≤ 12 then n else q.log2
    prio := fieldOf v 4 2, enable := v.getLsbD 8 }

/-- A write of `irqmask`: a bit that is set in `irqstat` and newly enabled sends the message (R375). -/
def VF.mask (v : VF) (m : Word) : VF :=
  { v with irqmask := m, msgs := if v.irqstat &&& m &&& ~~~v.irqmask == 0 then v.msgs else v.msgs + 1 }

/-- A write of a register of the window (R269, R375); a read-only or unlisted one ignores it. A write whose effect is an event of its own
(`windowWrite`) changes nothing here (log 46). -/
def State.writeWindow (s : State) (vf off : Nat) (w : Word) : State :=
  let set := fun (f : VF → VF) => s.modVf vf f
  if off = 0x010 then set (fun v => { v with svec := w })
  else if off = 0x028 then set (fun v => { v with dumpb := w &&& ~~~0xFFF#64 })
  else if off = 0x040 then set (fun v => { v with root := w &&& 0x000FFFFFFFFFF000#64 })
  else if off = 0x058 then set (fun v => { v with t2b := w &&& ~~~0xFFFF#64 })
  else if off = 0x060 then set (fun v => { v with t2n := w })
  else if off = 0x080 then set (fun v => { v with sdbase := w })
  else if off = 0x088 then set (fun v => { v with sdcount := w })
  else if off = 0x0A0 then set (fun v => { v with mvpage := w })
  else if off = 0x0A8 then set (fun v => { v with mvframe := w })
  else if off = 0x0D0 then set (fun v => { v with gpnum := w })
  else if off = 0x0D8 then set (fun v => { v with gpaddr := w })
  else if off = 0x0E8 then set (fun v => { v with gdbase := w &&& ~~~63#64 })
  else if off = 0x300 then set (fun v => v.mask w)
  else if off = 0x308 then set (fun v => { v with irqstat := v.irqstat &&& ~~~w })
  else if 0x100 ≤ off && off < 0x300 then
    let q := (off - 0x100) / 32
    if off % 32 = 0 then s.modQueue vf q (fun x => if x.head == x.tail then { x with base := w &&& ~~~63#64 } else x)
    else if off % 32 = 8 then s.modQueue vf q (fun x => x.control w)
    else s
  else s

/-- A write of `fwarg0` to `fwarg2` (R377): always, once the start has opened the window (R400). -/
def State.writeFwarg (s : State) (off : Nat) (v : Word) : Option State :=
  if s.pkg.boot != .up then none
  else if off = 0x010 then some (s.setPkg { s.pkg with fwarg0 := v })
  else if off = 0x018 then some (s.setPkg { s.pkg with fwarg1 := v })
  else if off = 0x020 then some (s.setPkg { s.pkg with fwarg2 := v })
  else none

/-- REGISTER_WINDOW_WRITE (R375, R377): window 64, behind those of the functions, is that of the firmware (R372). -/
def execRegisterWindowWrite (vf off : Nat) (v : Word) (s : State) : Out1 :=
  if vf = 64 then s.fired (s.writeFwarg off v) else s.hostFired vf (some (s.writeWindow vf off v))

/-- QUANTUM_WRITE (R375): clamped. -/
def execQuantumWrite (vf : Nat) (v : Word) (s : State) : Out1 :=
  s.hostFired vf (some (s.modVf vf (fun x => { x with
    quantum := if v.toNat < 65536 then 65536 else if 0xFFFFFFFF < v.toNat then 0xFFFFFFFF else v })))

/-- SDOOR (R34, R375): the doorbell of a context of the partition; another sets bit 7. -/
def execSdoor (vf : Nat) (v : Word) (s : State) : Out1 :=
  s.hostFired vf (
    let a := fieldOf v 0 15
    if a < 20480 && (s.cluAt (a / 256)).owner.isSome && s.vfOfCore (a / 16) == vf then
      some (s.modCtx a (fun c => { c with kipP := c.kipP ||| 1#3 }))
    else some (s.modVf vf (fun v => v.irq 7)))

/-- IRQSTAT_CLEAR (R375). -/
def execIrqstatClear (vf : Nat) (v : Word) (s : State) : Out1 :=
  s.hostFired vf (some (s.modVf vf (fun x => { x with irqstat := x.irqstat &&& ~~~v })))

/-- CARVEOUT_WRITE (R269, R281, R375): applied, or held pending while a frame that it would bring in is not in the pool. -/
def execCarveoutWrite (vf : Nat) (bound : Bool) (v : Word) (s : State) : Out1 :=
  s.hostFired vf (some (s.carveWrite vf bound (v &&& ~~~0xFFFF#64)))

/-! ### Launch queues (R376) -/

/-- QTAIL (R376): the doorbell; a distance beyond the entry count is ignored. -/
def execQtail (vf : Nat) (q : Fin 16) (v : Word) (s : State) : Out1 :=
  s.hostFired vf (
    let x := s.queueAt vf q.val
    let t : BitVec 32 := v.setWidth 32
    if 2 ^ x.log2 < (t - x.head).toNat then none else some (s.modQueue vf q.val (fun x => { x with tail := t })))

/-- QCTL_RESUME (R376): a write of `qctl` with bit 10 set unfreezes the queue. -/
def execQctlResume (vf : Nat) (q : Fin 16) (v : Word) (s : State) : Out1 :=
  s.hostFired vf (
    if v.getLsbD 10 then some (s.modQueue vf q.val (fun x => { x.control v with frozen := false })) else none)

/-! ### Shoot-downs and page moves (R278, R360) -/

/-- A virtual address lies in pages `lo` to `lo + n - 1`. -/
def pageIn (lo n va : Nat) : Bool := decide (lo ≤ va / 65536) && decide (va / 65536 < lo + n)

/-- Addresses that an entry of a level covers. -/
def levelSpan (lvl : Nat) : Nat := 2 ^ (43 - 9 * lvl)

/-- A kept pointer or leaf covers an address of some pages. -/
def TEnt.covers (t : TEnt) (lo n : Nat) : Bool :=
  decide (t.tag * levelSpan t.lvl < (lo + n) * 65536) && decide (lo * 65536 < (t.tag + 1) * levelSpan t.lvl)

/-- The commons bytes that a leaf maps into some pages: their physical address and one past it; none where it maps no commons frame
(R282). -/
def commonsSpan (lvl base lo n : Nat) (e : Word) : List (Nat × Nat) :=
  let a := Nat.max base (lo * 65536)
  let b := Nat.min (base + levelSpan lvl) ((lo + n) * 65536)
  let at_ := fieldOf e 16 36 * 65536
  if fieldOf e 0 1 = 1 && fieldOf e 1 1 = 1 && !(leafBad lvl e) && fieldOf e 10 2 = 3 && a < b then
    [(at_ + (a - base), at_ + (b - base))]
  else []

/-- The commons bytes that the tables map into some pages, from a table at level `lvl` that covers addresses from `base` on. -/
def commonsIn (rd : Nat → Nat) (v : VF) (lo n : Nat) : Nat → Nat → Nat → Nat → List (Nat × Nat)
  | 0, _, _, _ => []
  | fuel + 1, lvl, t, base =>
    (List.range 512).flatMap (fun i =>
      let a := base + i * levelSpan lvl
      if (lo + n) * 65536 ≤ a || a + levelSpan lvl ≤ lo * 65536 then []
      else
        match stage2 v (t + 8 * i) 8 with
        | .error _ => []
        | .ok p =>
          let e : Word := BitVec.ofNat 64 (rd p)
          if fieldOf e 0 1 = 0 then []
          else if fieldOf e 1 1 = 1 then commonsSpan lvl a lo n e
          else if pointerBad lvl e then []
          else commonsIn rd v lo n fuel (lvl + 1) (nextTable e) a)

/-- The commons bytes of some pages of a function, by the tables and by the leaves that its NIs keep. -/
def State.commonsOf (s : State) (vf lo n : Nat) : List (Nat × Nat) :=
  commonsIn (s.tableRead vf) (s.vfAt vf) lo n 4 0 (nextTable (s.vfAt vf).root) 0 ++
  s.mem.slices.flatMap (fun (_, x) => (x.tc.filter (fun t => t.vf == vf && t.covers lo n)).flatMap (fun t =>
    commonsSpan t.lvl (t.tag * levelSpan t.lvl) lo n t.e))

/-- Steps 2 to 4 of R278 at one slice's NI. -/
def Slice.shootDown (x : Slice) (vf lo n : Nat) : Slice :=
  { x with tc := x.tc.filter (fun t => !(t.vf == vf && t.covers lo n)), gen := x.gen + 1 }

/-- A shoot-down of pages at every NI of a partition, and of the commons when the range holds commons pages (R278, R280). -/
def State.shootDown (s : State) (vf lo n : Nat) : State :=
  let commons := s.commonsOf vf lo n
  let common := fun (k : Nat) => !commons.isEmpty && (s.sliceAt k).commons
  let named := fun (k : Nat) => (s.sliceAt k).owner == some vf || common k
  let u := (s.dropLines (fun pk l =>
      ((s.sliceAt l.slice).owner == some vf && l.vf == vf && pageIn lo n (l.vline * 256)) ||
      (common l.slice && commons.any (fun (a, b) => a < physAddr pk + 256 && physAddr pk < b)))).trigger
    (fun a m => s.vfOfCore (a / 16) == vf && pageIn lo n (m.line * 256)) false
  let u := ((List.range 128).filter named).foldl (fun u k => u.setSlice k ((u.sliceAt k).shootDown vf lo n)) u
  u.modVf vf (fun v => { v with
    move := v.move.filter (fun m => !(m.lines.isEmpty && pageIn lo n (m.page * 65536))) })

/-- SDGO (R278): a write of 1 starts the shoot-down; one that runs is not disturbed: the write is then ignored (DESIGN CHOICE,
log 48). -/
def execSdgo (vf : Nat) (v : Word) (s : State) : Out1 :=
  s.hostFired vf (
    let f := s.vfAt vf
    if v != 1 || f.sdRun.isSome then none
    else
      let lo := f.sdbase.toNat / 65536
      let n := f.sdcount.toNat
      some ((s.shootDown vf lo n).modVf vf (fun x => { x with sdRun := some (lo, n) })))

/-- SHOOT_DOWN_COMPLETE (R278): every NI has acknowledged. -/
def execShootDownComplete (vf : Nat) (s : State) : Out1 :=
  s.fired (
    if (s.vfAt vf).sdRun.isSome then some (s.modVf vf (fun v => VF.irq { v with sdRun := none } 3)) else none)

/-- The new frame of a page move exists: in the carve-out, the window of the second tier, or the commons (R2, R273, R360). -/
def State.frameOk (s : State) (vf : Nat) (w : Word) : Bool :=
  let v := s.vfAt vf
  let a := fieldOf w 16 36 * 65536
  match fieldOf w 10 2 with
  | 0 => decide (a + 65536 ≤ v.segn.toNat) && decide (v.segb.toNat + a + 65536 ≤ hbmBytes)
  | 1 => decide (a + 65536 ≤ v.t2n.toNat) && decide (v.t2b.toNat + a + 65536 ≤ s.pkg.tierSize)
  | 2 => false
  | _ => decide (a + 65536 ≤ hbmBytes)

/-- The physical address of that frame. -/
def State.framePlace (s : State) (vf : Nat) (w : Word) : Nat :=
  (match fieldOf w 10 2 with
    | 0 => (s.vfAt vf).segb.toNat
    | 1 => (s.vfAt vf).t2b.toNat
    | _ => 0) + fieldOf w 16 36 * 65536

/-- MVGO (R360, R375): a write, whatever its value, starts the move of a page that a leaf maps to HBM or the second tier. Both places are
taken now, and one that does not exist starts nothing (R2, R273; DESIGN CHOICE, log 48). -/
def execMvgo (vf : Nat) (_v : Word) (s : State) : Out1 :=
  s.hostFired vf (
    let f := s.vfAt vf
    let page := f.mvpage.toNat / 65536 % 2 ^ 36
    if f.move.isSome then none
    else
      match s.walkRoot vf (page * 65536) with
      | .ok ((lvl, e) :: _) =>
        match useLeaf f (page * 65536) { size := 65536 } e (lvl == 2) [] with
        | .error _ => none
        | .ok x =>
          if 2 ≤ x.tgt || !(s.inMemory x 65536) || !(s.frameOk vf f.mvframe) then none
          else
            let m : PageMove := { page, src := physKey x, tgt := fieldOf f.mvframe 10 2, dst := s.framePlace vf f.mvframe
                                  lines := (List.range 256).map (fun i => 256 * page + i) }
            some (s.modVf vf (fun v => { v with move := some m }))
      | _ => none)

/-- The bytes of a line as its slice holds them, or as a key pair reads them from memory. -/
def State.wholeLine (s : State) (key pk : Nat) : List Byte :=
  (List.range 256).map (fun i =>
    match s.lineOf pk with
    | some l => if l.holds i then l.byte i else s.backing l.key pk i
    | none => s.backing key pk i)

/-- One line of a function goes from its old place to the new frame, with the version of R230; a monitor of it is lost. It is read under the
function's key pair, and written under that of the new frame (R354). -/
def State.moveLine (s : State) (from_ key old new : Nat) : State :=
  let bs := s.wholeLine from_ old
  let ver := if old % 2 = 1 then s.version new + 1
    else (if (s.version old).toNat ≤ (s.version new).toNat then s.version new else s.version old) + 1
  let u := (s.trigger (fun _ m => m.phys == old) false).forgetLine old
  let u := (bs.zipIdx).foldl (fun u (b, i) => u.setBacking key new i b) u
  u.setVersion new ver

/-- LINE_MOVE (R360): one line of the page that moves; the last one ends the move. -/
def execLineMove (vf line : Nat) (s : State) : Out1 :=
  s.fired (
    match (s.vfAt vf).move with
    | some m =>
      if !(m.lines.contains line) then none
      else
        let i := line - 256 * m.page
        let y : Xlat := { tgt := m.tgt, peer := 0, addr := m.dst + 256 * i, kind := .rc, path := [] }
        let lines := m.lines.filter (fun l => l != line)
        let u := (s.moveLine (s.vfAt vf).key (s.keyFor vf y) (m.src + 2 * i) (physKey y)).modVf vf (fun v => { v with move := some { m with lines } })
        some (if lines.isEmpty then u.modVf vf (fun v => v.irq 4) else u)
    | none => none)

/-! ### Page requests (R275, R277) -/

/-- PRQ (R375): pops the oldest page request; reads 0 when there is none. -/
def execPrq (vf : Nat) (s : State) : Out1 :=
  s.hostFired vf (
    let give := fun (s : State) (w : Word) => s.giveHost (0x1000 * vf + 0xC0) (toBytes 8 w.toNat)
    match (s.vfAt vf).prqs with
    | [] => some (give s 0)
    | r :: rs => some (give (s.modVf vf (fun v => { v with prqs := rs, asked := v.asked ++ [r] })) r.word))

/-- The access is taken to S after all: it is held as a plain fault of cause 0x0A that is still to be reported (R277). A check and
a prefetch are not held; a lane of `vamo` faults (R240). -/
def Op.refusePage (o : Op) (page : Nat) : Op :=
  { o with parts := o.parts.map (fun p =>
      if p.awaits page then
        (match o.kind with
          | .verchk => { p with st := .done, deleg := false, res := 1 }
          | .pf => { p with st := .gone, deleg := false }
          | _ => { p with deleg := false, canDel := false, rep := false, cause := 0x0A })
      else p) }

/-- What an answer does to the operations of the context that asked: a refusal takes the page's accesses to S; with a resolution
those are found that are to be replayed. -/
def refuseAll (r : PageReq) (os : List Op) : List Op :=
  (os.map (fun o => if o.ctx == r.ctx then o.refusePage r.page else o)).filter (fun o => !(o.kind == .pf && o.parts.all (fun p => p.st == .gone)))

def awaiting (r : PageReq) (os : List Op) : List Nat :=
  (os.filter (fun o => o.ctx == r.ctx && !(o.awaitAccs r.page).isEmpty)).map (·.id)

/-- The answer reaches a team that is saved: its save holds the accesses (R348). -/
def State.answerSaved (s : State) (vf : Nat) (t : Team) (sv : Saved) (r : PageReq) (refused : Bool) : State :=
  if refused then s.setTeam { t with saved := some { sv with ops := refuseAll r sv.ops } }
  else s.modVf vf (fun f => { f with answers := f.answers ++ [{ r with ops := awaiting r sv.ops, late := true }] })

/-- PRANS (R277): the request is resolved, and its held accesses are replayed, or it is refused. The answer to a request whose fault has
been taken to S meanwhile finds nothing that awaits it (DESIGN CHOICE, log 38). -/
def execPrans (vf : Nat) (v : Word) (s : State) : Out1 :=
  s.hostFired vf (
    let page := fieldOf v 16 36
    match (s.vfAt vf).asked.find? (fun r => r.page % 2 ^ 36 == page && r.tok == fieldOf v 0 15) with
    | none => none
    | some r =>
      let u := s.modVf vf (fun f => { f with asked := f.asked.erase r })
      if r.void then some u else
      match s.teams.find? (fun t => r.team == some t.id && t.saved.isSome) with
      | some t => some (u.answerSaved vf t (t.saved.getD {}) r (v.getLsbD 15))
      | none =>
        if v.getLsbD 15 then some (u.setOps (refuseAll r u.ops))
        else
          let ids := awaiting r u.ops
          some ((u.modVf vf (fun f => { f with answers := f.answers ++ [{ r with ops := ids }] })).reissueAll ids (fun o => o.awaitAccs r.page)))

/-! ### Graphs (R196) -/

/-- The replay for which the scheduler reads. -/
def Seek.replay : Seek → Option Replay
  | .record => none
  | .member p => some p
  | .header _ p => p
  | .groups l _ | .streamCount l _ | .streams l _ | .taskCount l _ | .tasks l => l.replay

/-- The replays of a function that have not ended: of launches, between two records, and of a record that is being read (R196). -/
def State.replays (s : State) (vf : Nat) : List Replay :=
  let v := s.vfAt vf
  (s.launches.filter (fun l => l.vf == vf)).filterMap (·.replay) ++
  (v.queues.map (·.2)).filterMap (fun q => q.cont <|> q.ending.bind (·.cont)) ++
  ((v.pass.bind (·.at_)).bind (fun (k, _) => k.replay)).toList

/-- A replay of the graph has not ended. -/
def State.replayLive (s : State) (vf n : Nat) : Bool := (s.replays vf).any (fun p => p.graph == n)

/-- The generations of a graph that replays have captured. -/
def State.captured (s : State) (vf n : Nat) : List Nat := (s.replays vf).filterMap (fun p => if p.graph = n then some p.gen else none)

/-- A patch that would make a third live generation waits (R196). -/
def State.patchWaits (s : State) (vf n : Nat) : Bool :=
  let g := s.graphAt vf n
  (s.captured vf n).any (fun k => k != g.cur)

/-- The block becomes the graph's current generation; generations that are not live are forgotten. -/
def State.patchGraph (s : State) (vf n : Nat) (addr : Word) : State :=
  let g := s.graphAt vf n
  let cur := g.cur + 1
  let live := s.captured vf n
  let gens : Tbl Word := Tbl.set 0 (g.gens.filter (fun (k, _) => live.contains k)) cur addr
  s.modVf vf (fun v => VF.irq { v with graphs := Tbl.set noGraph v.graphs n { g with cur, gens } } 5)

/-- The graph that a waiting patch or definition is for. -/
def GPend.graph : GPend → Nat
  | .patch n _ => n
  | .define n _ => n

/-- A patch or a definition of the graph waits. -/
def VF.pendFor (v : VF) (n : Nat) : Bool := v.pend.any (fun x => x.graph == n)

/-- GPGO (R196, R375): a write, whatever its value, makes the block at `gpaddr` the new generation of graph `gpnum`, or waits: while
anything waits before it, or for the place of an older generation. A patch of a graph that is not defined is ignored (DESIGN CHOICE, log 48). -/
def execGpgo (vf : Nat) (_v : Word) (s : State) : Out1 :=
  s.hostFired vf (
    let f := s.vfAt vf
    let n := f.gpnum.toNat
    if (s.graphAt vf n).count = 0 && !(f.pendFor n) then none
    else if !f.pend.isEmpty || s.patchWaits vf n then some (s.modVf vf (fun v => { v with pend := v.pend ++ [.patch n f.gpaddr] }))
    else some (s.patchGraph vf n f.gpaddr))

/-- A graph is defined, with the block as generation 1 (R196). -/
def State.defineGraph (s : State) (vf n : Nat) (g : Graph) : State :=
  s.modVf vf (fun v => { v with graphs := Tbl.set noGraph v.graphs n g })

/-- GDEF (R196, R375): bits 7:0 name the graph, bits 15:8 the record count; held while a replay of that graph is live, or while
something waits for that graph. Graph 0, and a count of 0 or above 64, are ignored (DESIGN CHOICE, log 48). -/
def execGdef (vf : Nat) (v : Word) (s : State) : Out1 :=
  s.hostFired vf (
    let f := s.vfAt vf
    let n := fieldOf v 0 8
    let count := fieldOf v 8 8
    let g : Graph := { base := f.gdbase, count, cur := 1, gens := Tbl.set 0 [] 1 f.gpaddr }
    if n = 0 || count = 0 || 64 < count then none
    else if s.replayLive vf n || f.pendFor n then some (s.modVf vf (fun v => { v with pend := v.pend ++ [.define n g] }))
    else some (s.defineGraph vf n g))

/-- Nothing stands in the way of what waits: for a patch a place among the generations, for a definition the end of the graph's
replays (R196). -/
def State.pendReady (s : State) (vf : Nat) (x : GPend) : Bool :=
  match x with
  | .patch n _ => !(s.patchWaits vf n)
  | .define n _ => !(s.replayLive vf n)

/-- What takes its effect next: the oldest that waits, or a definition before which nothing waits for its graph. -/
def State.nextPend (s : State) (vf : Nat) : Option (Nat × GPend) :=
  let xs := (s.vfAt vf).pend
  ((xs.zipIdx).find? (fun (x, i) => s.pendReady vf x && (i == 0 || (match x with
    | .define n _ => !((xs.take i).any (fun y => y.graph == n))
    | .patch _ _ => false)))).map (fun (x, i) => (i, x))

/-- PATCH_TAKEN (R196): what waited becomes current once nothing stands in its way. -/
def execPatchTaken (vf : Nat) (s : State) : Out1 :=
  s.fired (
    match s.nextPend vf with
    | none => none
    | some (i, x) =>
      let u := s.modVf vf (fun v => { v with pend := v.pend.eraseIdx i })
      match x with
      | .patch n a => some (u.patchGraph vf n a)
      | .define n g => some (u.defineGraph vf n g))

end Sys2Proof.Machine
end

