-- ==== Sys2Proof/Machine/Xmss.lean ====
section
/-!
DEFINITION. XMSS-SHAKE256_20_256 (R406): the signatures of the device identity (R409) and of firmware (R407). R406 names RFC 8391 and NIST
SP 800-208 and does not repeat them: what is written here is theirs (PRESUMED, log 5), over a key of which the manual says nothing.
-/

namespace Sys2Proof.Machine.Xmss

/-! ### SHAKE256 -/

/-- A state of Keccak-f[1600]: lane (x, y) is word x + 5y. -/
abbrev Lanes := List Word

def lane (a : Lanes) (x y : Nat) : Word := a.getD (x % 5 + 5 * (y % 5)) 0

/-- A state from its lanes. -/
def lanes (f : Nat → Nat → Word) : Lanes := (List.range 25).map (fun i => f (i % 5) (i / 5))

/-- The rotation of each lane. -/
def rotations : List Nat :=
  [0, 1, 62, 28, 27, 36, 44, 6, 55, 20, 3, 10, 43, 25, 39, 41, 45, 15, 21, 8, 18, 2, 61, 56, 14]

/-- The round constants. -/
def roundConsts : List Word :=
  [0x0000000000000001, 0x0000000000008082, 0x800000000000808A, 0x8000000080008000, 0x000000000000808B, 0x0000000080000001,
   0x8000000080008081, 0x8000000000008009, 0x000000000000008A, 0x0000000000000088, 0x0000000080008009, 0x000000008000000A,
   0x000000008000808B, 0x800000000000008B, 0x8000000000008089, 0x8000000000008003, 0x8000000000008002, 0x8000000000000080,
   0x000000000000800A, 0x800000008000000A, 0x8000000080008081, 0x8000000000008080, 0x0000000080000001, 0x8000000080008008]

/-- One round. -/
def keccakRound (a : Lanes) (rc : Word) : Lanes :=
  let c := (List.range 5).map (fun x => (List.range 5).foldl (fun w y => w ^^^ lane a x y) 0)
  let d := (List.range 5).map (fun x => c.getD ((x + 4) % 5) 0 ^^^ (c.getD ((x + 1) % 5) 0).rotateLeft 1)
  let t := lanes (fun x y => lane a x y ^^^ d.getD x 0)
  let b := lanes (fun x y => (lane t (x + 3 * y) x).rotateLeft (rotations.getD ((x + 3 * y) % 5 + 5 * x) 0))
  lanes (fun x y => (lane b x y ^^^ (~~~(lane b (x + 1) y) &&& lane b (x + 2) y)) ^^^ (if x = 0 ∧ y = 0 then rc else 0))

def keccak (a : Lanes) : Lanes := roundConsts.foldl keccakRound a

/-- Bytes of a block, of 136. -/
def rate : Nat := 136

/-- The message with the suffix and the padding of SHAKE. -/
def padded (m : List Byte) : List Byte :=
  let free := rate - m.length % rate
  m ++ (if free = 1 then [0x9F] else 0x1F :: (List.replicate (free - 2) 0 ++ [0x80]))

/-- A block enters the state. -/
def absorb (a : Lanes) (block : List Byte) : Lanes :=
  keccak (lanes (fun x y => lane a x y ^^^ BitVec.ofNat 64 (ofBytes ((block.drop (8 * (x + 5 * y))).take 8))))

/-- The first 32 bytes of SHAKE256. -/
def shake256 (m : List Byte) : List Byte :=
  let p := padded m
  let a := (List.range (p.length / rate)).foldl (fun a i => absorb a ((p.drop (rate * i)).take rate)) (List.replicate 25 0)
  (a.take 4).flatMap (fun w => toBytes 8 w.toNat)

/-! ### The functions of the parameter set -/

/-- `n` bytes of a number, the highest first. -/
def big (n v : Nat) : List Byte := (toBytes n v).reverse

def xorBytes (a b : List Byte) : List Byte := a.zipWith (· ^^^ ·) b

/-- The keyed functions, by their number: F 0, H 1, H_msg 2, PRF 3. -/
def keyed (number : Nat) (key m : List Byte) : List Byte := shake256 (big 32 number ++ key ++ m)

/-- An address: layer 0, tree 0, the type and its four words. -/
def addr (type a b c d : Nat) : List Byte := big 12 0 ++ [type, a, b, c, d].flatMap (big 4)

/-- One step of a chain: step `i` of chain `c` of leaf `leaf`. -/
def chainStep (seed : List Byte) (leaf c i : Nat) (x : List Byte) : List Byte :=
  keyed 0 (keyed 3 seed (addr 0 leaf c i 0)) (xorBytes x (keyed 3 seed (addr 0 leaf c i 1)))

/-- `n` steps of a chain from step `i` on. -/
def chain (seed : List Byte) (leaf c i : Nat) (x : List Byte) : Nat → List Byte
  | 0 => x
  | n + 1 => chainStep seed leaf c (i + n) (chain seed leaf c i x n)

/-- The node over two nodes: of an L-tree (type 1) or of the tree (type 2), whose word `a` is the leaf, or 0. -/
def node (seed : List Byte) (type a height index : Nat) (l r : List Byte) : List Byte :=
  let prf := fun (n : Nat) => keyed 3 seed (addr type a height index n)
  keyed 1 (prf 0) (xorBytes l (prf 1) ++ xorBytes r (prf 2))

/-- The nodes over the pairs of a list, from index `i` on; one that is left over goes up as it is. -/
def pairUp (f : Nat → List Byte → List Byte → List Byte) : Nat → List (List Byte) → List (List Byte)
  | i, a :: b :: rest => f i a b :: pairUp f (i + 1) rest
  | _, l => l

/-- The root of the L-tree over the 67 values of a leaf. -/
def ltree (seed : List Byte) (leaf : Nat) (pk : List (List Byte)) : List Byte :=
  ((List.range 7).foldl (fun l h => pairUp (node seed 1 leaf h) 0 l) pk).headD []

/-- The 67 digits of a message of 32 bytes, base 16, the checksum last. -/
def digits (m : List Byte) : List Nat :=
  let d := m.flatMap (fun b => [b.toNat / 16, b.toNat % 16])
  let sum := (d.map (15 - ·)).sum
  d ++ [sum / 256, sum / 16 % 16, sum % 16]

/-- Levels of the tree. -/
def levels : Nat := 20

/-! ### Signing -/

/-- A private key: the starts of the chains of each leaf, the key of the randomizer, and the public seed. -/
structure Key where
  secret : Nat → Nat → BitVec 256
  prf    : BitVec 256
  seed   : BitVec 256

def Key.seedB (k : Key) : List Byte := big 32 k.seed.toNat
def Key.start (k : Key) (leaf c : Nat) : List Byte := big 32 (k.secret leaf c).toNat

/-- The node of the tree at a height. -/
def Key.tree (k : Key) : Nat → Nat → List Byte
  | 0, leaf => ltree k.seedB leaf ((List.range 67).map (fun c => chain k.seedB leaf c 0 (k.start leaf c) 15))
  | h + 1, i => node k.seedB 2 0 h i (k.tree h (2 * i)) (k.tree h (2 * i + 1))

/-- The one-time signature of 32 bytes under a leaf. -/
def Key.wots (k : Key) (leaf : Nat) (m : List Byte) : List Byte :=
  ((digits m).zipIdx).flatMap (fun (d, c) => chain k.seedB leaf c 0 (k.start leaf c) d)

/-- What is signed of a message: H_msg under randomizer, root and leaf. -/
def hashed (r root : List Byte) (leaf : Nat) (m : List Byte) : List Byte := keyed 2 (r ++ root ++ big 32 leaf) m

/-- The signature of a message under a leaf: index, randomizer, one-time signature, path (R406: 2,820 bytes). -/
def Key.sign (k : Key) (h leaf : Nat) (m : List Byte) : List Byte :=
  let r := keyed 3 (big 32 k.prf.toNat) (big 32 leaf)
  big 4 leaf ++ r ++ k.wots leaf (hashed r (k.tree h 0) leaf m) ++
  (List.range h).flatMap (fun j => k.tree j (if leaf / 2 ^ j % 2 = 0 then leaf / 2 ^ j + 1 else leaf / 2 ^ j - 1))

/-! ### Verifying -/

/-- The 32 bytes at a place of a signature. -/
def piece (sig : List Byte) (off : Nat) : List Byte := (sig.drop off).take 32

/-- The root that a signature of 32 bytes leads to. -/
def rootOf (seed : List Byte) (h leaf : Nat) (sig m : List Byte) : List Byte :=
  let ends := ((digits m).zipIdx).map (fun (d, c) => chain seed leaf c d (piece sig (36 + 32 * c)) (15 - d))
  (List.range h).foldl (fun x j =>
    let other := piece sig (36 + 32 * 67 + 32 * j)
    if leaf / 2 ^ j % 2 = 0 then node seed 2 0 j (leaf / 2 ^ (j + 1)) x other
    else node seed 2 0 j (leaf / 2 ^ (j + 1)) other x) (ltree seed leaf ends)

/-- A signature of a message is good under a public key: root and seed (R407). -/
def verify (root seed : List Byte) (h : Nat) (m sig : List Byte) : Bool :=
  let leaf := ofBytes (sig.take 4).reverse
  sig.length == 36 + 32 * 67 + 32 * h && rootOf seed h leaf sig (hashed (piece sig 4) root leaf m) == root

end Sys2Proof.Machine.Xmss

namespace Sys2Proof.Machine

/-- The device identity key (R406, R408). -/
def identityKey : Xmss.Key := { secret := Config.identitySecret, prf := Config.identityPrf, seed := Config.identitySeed }

/-- The XMSS signature that the identity key makes of a message with its leaf `leaf` (R406, R409). -/
def signature (message : List Byte) (leaf : Nat) : List Byte := identityKey.sign Xmss.levels leaf message

/-- Step 1 of a start: the firmware image against the public key in ROM (R406, R407). -/
def firmwareGood (image sig : List Byte) : Bool :=
  Xmss.verify (Xmss.big 32 Config.romRoot.toNat) (Xmss.big 32 Config.romSeed.toNat) Xmss.levels image sig

end Sys2Proof.Machine
end

