-- ==== Sys2Proof/Machine/Firmware.lean ====
section
/-!
DEFINITION. Tenant reset and its dump (R357, R358, R365), the Blotter's scrub of clusters (R356), the lending of clusters (R353, R355),
and the commands of the firmware window (R377, R379, R402, R408, R409).
-/

namespace Sys2Proof.Machine

/-! ### The Blotter (R356) -/

/-- Zero a cluster: wells, stacked slices, foot buffers with their tags, planes, and everything of its cores. -/
def State.scrubCluster (s : State) (clu : Nat) : State :=
  let lo := 16 * clu
  let hi := lo + 16
  let m := s.mem
  let out := fun (per : Nat) (k : Nat) => !(decide (lo * per ≤ k) && decide (k < hi * per))
  { s with
    mem := { m with
      wells := Tbl.clear m.wells (64 * clu * 0x20000) (64 * (clu + 1) * 0x20000)
      banks := Tbl.clear m.banks (64 * clu) (64 * (clu + 1))
      stack := Tbl.clear m.stack (lo * 0x300000) (hi * 0x300000)
      foot := Tbl.clear m.foot (lo * 32768) (hi * 32768)
      tags := Tbl.clear m.tags (lo * 256) (hi * 256) }
    ctxs := s.ctxs.filter (fun (a, _) => out 16 a)
    cores := s.cores.filter (fun (k, _) => out 1 k)
    ops := s.ops.filter (fun o => out 16 o.ctx)
    sb := s.sb.filter (fun e => out 16 e.ctx)
    moves := s.moves.filter (fun w => out 1 w.core)
    clus := Tbl.set {} s.clus clu { s.cluAt clu with cpyPos := 15, cpyBusy := none } }

/-- The cores of a cluster take the map generation of the function that the cluster belongs to (R357, R361). -/
def State.joinMaps (s : State) (clu : Nat) : State :=
  (List.range 16).foldl (fun s i => s.modCore (16 * clu + i) (fun k => { k with mapgen := (s.vfAt (s.vfOfClu clu)).mapgen })) s

/-! ### Tenant reset (R357) -/

/-- The team runs for a function. -/
def State.teamFor (s : State) (vf : Nat) (t : Team) : Bool := (s.launchAt t.launch).any (fun l => l.vf == vf)

/-- The teams of a function that stand on the device. -/
def State.teamsOn (s : State) (vf : Nat) : List Team := s.teams.filter (fun t => t.onDevice && s.teamFor vf t)

/-- RESET (R357, R375): a write of 1 freezes every team of the partition and its queues; the rest follows at RESET_DONE. A team that was
being prepared or was to be restored gives its clusters back. The stop lies the 4,096 cycles ahead that R347 asks for, and a team that
stops already stops no later than it would have (DEDUCED, log 47). -/
def execReset (vf : Nat) (v : Word) (s : State) : Out1 :=
  s.hostFired vf (
    if v != 1 || (s.vfAt vf).rst.isSome then none
    else
      let t := s.now + 4096
      let mine := s.teamsOn vf
      let u : State := { s with teams := s.teams.map (fun x => if s.teamFor vf x then x.unplaced else x) }
      let u := u.stopTeams mine t false
      some (u.modVf vf (fun f => VF.irq { f with
        rst := some t, wiped := false, pass := none, preps := []
        queues := ((List.range 16).map (fun q => (q, Tbl.get {} f.queues q))).foldl (fun qs (q, x) =>
          Tbl.set {} qs q { x with frozen := true }) f.queues } 6)))

/-- Bytes of a word. -/
def wordBytes (w : Word) : List Byte := toBytes 8 w.toNat

/-- The clusters of a partition for a reset: its own that are not lent away, and those it has borrowed. -/
def State.clustersOf (s : State) (vf : Nat) : List Nat :=
  (List.range 80).filter (fun c => (s.cluAt c).owner.isSome && s.vfOfClu c == vf)

/-- The full/empty bits of registers `lo` to `lo + n - 1`. -/
def fullBits (f : Nat → Bool) (lo n : Nat) : Nat := ((List.range n).map (fun i => (f (lo + i)).toNat * 2 ^ i)).sum

/-- A context's record in a dump (R358, R365). -/
def ctxRecord (c : Ctx) : List Byte :=
  if c.life == .free then List.replicate 64 0
  else
    let state := (if c.life == .running then 1 else 2) + 4 * (c.life == .running && (c.parked.isSome || c.post != .none)).toNat
    wordBytes c.resumePc ++ wordBytes (statWord c.kstat c.priv) ++ wordBytes c.ktr.cause ++ wordBytes c.ktr.epc ++
    wordBytes c.ktr.val ++ wordBytes (if c.life == .ended then c.exitv else 0) ++
    toBytes 8 (c.count .ld + c.count .st * 2 ^ 16 + c.count .cp * 2 ^ 32 + c.count .tl * 2 ^ 48) ++ toBytes 8 state

/-- A core's block in a dump (R358). -/
def State.coreBlock (s : State) (core : Nat) : List Byte :=
  (List.range 16).flatMap (fun n => toBytes 4 (s.slotAt core n).word.toNat) ++
  (List.range 16).flatMap (fun t => ctxRecord (s.ctxAt (16 * core + t)))

/-- The context that a dump's fault record describes: the earliest trap entry among those with `kstat`.ktrap = 1 (R358). -/
def State.faultCtx (s : State) (cores : List Nat) : Option Nat :=
  let cs := (cores.flatMap (fun k => (List.range 16).map (fun t => 16 * k + t))).filter (fun a =>
    (s.ctxAt a).life != .free && (s.ctxAt a).kstat.ktrap)
  cs.foldl (fun best a =>
    match best with
    | none => some a
    | some b => if (s.ctxAt a).trapAt < (s.ctxAt b).trapAt then some a else some b) none

/-- The fault record (R358). -/
def State.faultRecord (s : State) (a : Nat) : List Byte :=
  let c := s.ctxAt a
  let k := s.coreAt (a / 16)
  let shadow := fun (n : Nat) => Tbl.get {} c.sh n
  let ent : Nat → Option VEntry := fun e => c.vset.ents[e]?
  (List.range 47).flatMap (fun i => wordBytes (Tbl.get {} c.x (i + 1)).val) ++
  toBytes 8 (fullBits (fun n => (Tbl.get {} c.x n).full) 1 47) ++ toBytes 8 (fullBits (fun n => (Tbl.get {} c.v n).full) 0 32) ++
  (List.range 32).flatMap (fun n => toBytes 64 (Tbl.get {} c.v n).val.toNat) ++
  (List.range 7).flatMap (fun n => wordBytes (Tbl.get 0 c.k (n + 1))) ++
  (List.range 8).flatMap (fun n => wordBytes (k.cNow n).val) ++
  [c.resumePc, c.fpcsr, statWord c.kstat c.priv, c.ktr.cause, c.ktr.epc, c.ktr.val, c.uepc, c.ucause, c.uval, c.vdone].flatMap wordBytes ++
  (List.range 8).flatMap (fun e => toBytes 8 (((ent e).map (fun x => x.line * 256 % 2 ^ 52)).getD 0) ++ wordBytes (((ent e).map (·.ver)).getD 0)) ++
  toBytes 8 (c.vset.ovf.toNat + 2 * c.vset.mis.toNat) ++
  (List.range 8).flatMap (fun i => wordBytes (shadow (40 + i)).val) ++
  toBytes 8 (c.inH.toNat + 256 * fullBits (fun n => (shadow n).full) 40 8) ++
  (List.range 8).flatMap (fun e => toBytes 4 (((ent e).map VEntry.gen).getD 0).toNat) ++ List.replicate 1216 0

/-- The dump of a partition that was frozen at cycle `t` (R358). -/
def State.dump (s : State) (vf t : Nat) : List Byte :=
  let clus := s.clustersOf vf
  let cores := clus.flatMap (fun c => (List.range 16).map (fun i => 16 * c + i))
  let who := s.faultCtx cores
  let image := ((s.launches.find? (fun l => l.vf == vf)).map (·.lrec.image)).getD 0
  toBytes 4 0x4B39444D ++ toBytes 2 1 ++ toBytes 2 0 ++ toBytes 8 t ++ toBytes 2 vf ++ toBytes 2 clus.length ++
  toBytes 4 ((who.map (fun a => a / 16)).getD 0xFFFFFFFF) ++ toBytes 1 ((who.map (fun a => a % 16)).getD 0xFF) ++
  List.replicate 15 0 ++ wordBytes image ++ toBytes 8 (4352 + 17408 * clus.length) ++ List.replicate 200 0 ++
  (match who with
    | some a => s.faultRecord a
    | none => List.replicate 4096 0) ++ cores.flatMap s.coreBlock

/-- Write a dump to the carve-out at `dumpbase`; bytes beyond `segbound` are not written (R358). What slices hold of these lines goes
to memory before, so that the write back of R357 leaves the dump as it is (DEDUCED, log 47). -/
def State.writeDump (s : State) (vf : Nat) (bs : List Byte) : State :=
  let v := s.vfAt vf
  let a := v.segb.toNat + v.dumpb.toNat
  let out := bs.take (Nat.min (v.segn.toNat - v.dumpb.toNat) (hbmBytes - a))
  let u := s.dropLines (fun pk _ => pk % 2 == 0 && a / 256 ≤ pk / 2 && pk / 2 * 256 < a + out.length)
  u.setMem (u.mem.writeUnder false v.key a out)

/-- Step 6 of R357: every launch of the partition that was in progress is to write its completion record with status 7. -/
def State.endLaunches (s : State) (vf : Nat) : State :=
  (s.launches.filter (fun l => l.vf == vf)).foldl (fun s l =>
    let u := { s with launches := s.launches.filter (fun x => x.id != l.id), teams := s.teams.filter (fun t => t.launch != l.id) }
    let u := u.setNet { u.net with tokens := u.net.tokens.filter (fun m => m.launch != l.id) }
    u.beginEnd vf l.queue l.lrec l.replay 7 (l.ntdone, l.ncanc, l.nunder) (l.failt.getD State.noTask)) s

/-- The completion record of a replay that the reset ends between two of its records. -/
def Replay.cutRec (p : Replay) : DoneRec :=
  { done := p.top.done, irq := p.top.irq, status := 7, n := p.sums, failt := State.noTask }

/-- A replay between two of its records, or whose last record is being written, ends with the reset as well. -/
def State.endReplays (s : State) (vf : Nat) : State :=
  (s.vfAt vf).queues.foldl (fun s (n, q) =>
    match q.cont, q.ending with
    | some p, none => s.beginRecs vf n [p.cutRec] none
    | _, some e =>
      (match e.cont with
        | some p => s.modQueue vf n (fun x => { x with ending := some { e with recs := e.recs ++ [p.cutRec], cont := none } })
        | none => s)
    | none, none => s) s

/-- A write of a cluster to a peer package has not been acknowledged (R357). -/
def State.peerWaits (s : State) (clus : List Nat) : Bool :=
  s.ops.any (fun o => clus.contains (o.ctx / 256) && o.parts.any (fun p => p.st == .done && p.far && !(o.acked.contains p.acc)))

/-- Steps 2 to 5 of R357 for a partition that was frozen at cycle `t`: dump, drain, write back, clear (R358, R359). -/
def State.wiped (s : State) (vf t : Nat) : State :=
  let clus := s.clustersOf vf
  let teams := s.teams.filter (s.teamFor vf)
  let u := s.writeDump vf (s.dump vf t)
  let u := u.setNet { u.net with flits := u.net.flits.filter (fun x => !(teams.any (fun y => y.id == x.team))) }
  let u := clus.foldl (fun u c => { u with
    ops := u.ops.filter (fun o => o.ctx / 256 != c), sb := u.sb.filter (fun e => e.vf != vf && e.ctx / 256 != c) }) u
  let u := u.dropLines (fun _ l => l.vf == vf && (u.sliceAt l.slice).owner == some vf)
  let u := clus.foldl State.scrubCluster u
  u.setMem { u.mem with slices := u.mem.slices.map (fun (n, x) =>
    (n, if x.owner == some vf then
      { x with tc := [], permits := x.permits.filter (hostNi ≤ ·), kept := x.kept.filter (hostNi ≤ ·.1) } else x)) }

/-- Steps 2 to 5 of a reset may be taken: every team is quiet, no shoot-down or page move runs, and peers have acknowledged or had
400,000 cycles for it (R357). -/
def State.resetReady (s : State) (vf t : Nat) : Bool :=
  let f := s.vfAt vf
  decide (t ≤ s.now) && !(s.peerWaits (s.clustersOf vf) && decide (s.now < t + 400000)) && f.sdRun.isNone &&
  !(f.move.any (fun m => !m.lines.isEmpty)) && (s.teamsOn vf).all s.quiet

/-- Steps 2 to 5, and the beginning of step 6: the completion records are to be written. A cluster that was lent to the partition
returns to its lender, one that is being revoked with RETURN_TO_LENDER (R355). -/
def State.resetWipe (s : State) (vf t : Nat) : State :=
  let clus := s.clustersOf vf
  let u := ((s.wiped vf t).endLaunches vf).endReplays vf
  let u : State := { u with clus := u.clus.map (fun ((c, x) : Nat × Cluster) =>
    (c, if x.lentTo == some vf && x.revoke.isNone then { x with lentTo := none } else x)) }
  (clus.foldl State.joinMaps u).modVf vf (fun v => { v with wiped := true, prqs := [], asked := [], answers := [] })

/-- RESET_DONE (R357-R359): first dump, drain, write back and clear; then, when the completion records have been written, the release. -/
def execResetDone (vf : Nat) (s : State) : Out1 :=
  s.fired (
    match (s.vfAt vf).rst with
    | none => none
    | some t =>
      let f := s.vfAt vf
      if !f.wiped then (if s.resetReady vf t then some (s.resetWipe vf t) else none)
      else if f.queues.any (fun (_, q) => q.ending.isSome) then none
      else some (s.modVf vf (fun v => VF.irq { v with rst := none, wiped := false, wasRst := true } 2)))

/-! ### The firmware window (R377) -/

/-- `fwstat` codes (R377). -/
def fwDone : Word := 0
def fwRunning : Word := 1
def fwBad : Word := 2
def fwInUse : Word := 3

/-- The three argument registers and then `fwcmd` are written: nothing happens unless the start has ended; the arguments are held; the
command is ignored while another runs, and else answers in `fwstat` (R377, R400). -/
def State.command (s : State) (a0 a1 a2 : Word) (go : State → Except Word State) (done : Word := fwDone) : Option State :=
  let u := s.setPkg { s.pkg with fwarg0 := a0, fwarg1 := a1, fwarg2 := a2 }
  if s.pkg.boot != .up then none
  else if s.pkg.fwstat == fwRunning then some u
  else
    match go u with
    | .ok t => some (t.setPkg { t.pkg with fwstat := done })
    | .error e => some (u.setPkg { u.pkg with fwstat := e })

/-- A virtual function that exists. -/
def State.liveVf (s : State) (w : Word) : Bool := decide (w.toNat < 64) && (s.vfAt w.toNat).live

/-- CREATE_FUNCTION (R354, R377): with a key pair of its own. -/
def execCreateFunction (a0 a1 a2 : Word) (s : State) : Out1 :=
  s.fired (s.command a0 a1 a2 (fun u =>
    if 64 ≤ a0.toNat then .error fwBad
    else if (u.vfAt a0.toNat).live then .error fwInUse
    else .ok (u.bumpId.setVf a0.toNat { live := true, key := 3 + u.nid })))

/-- ADD_CLUSTER (R352, R377, R400): the Blotter zeroes it first. -/
def execAddCluster (a0 a1 a2 : Word) (s : State) : Out1 :=
  s.fired (s.command a0 a1 a2 (fun u =>
    let c := a1.toNat
    if !(u.liveVf a0) || 80 ≤ c || 2 ≤ a2.toNat || (u.cluAt c).fenced then .error fwBad
    else if (u.cluAt c).owner.isSome then .error fwInUse
    else .ok (((u.scrubCluster c).modClu c (fun x => { x with owner := some a0.toNat, margin := a2 == 1 })).joinMaps c)))

/-- REMOVE_CLUSTER (R377): only while no team is resident on it and it is not lent; a function keeps one cluster (R3; with this answer,
log 47). -/
def execRemoveCluster (a0 a1 a2 : Word) (s : State) : Out1 :=
  s.fired (s.command a0 a1 a2 (fun u =>
    let c := a1.toNat
    if !(u.liveVf a0) || 80 ≤ c || (u.cluAt c).owner != some a0.toNat then .error fwBad
    else if (u.teamOn c).isSome || (u.cluAt c).lentTo.isSome ||
        (List.range 80).all (fun k => k == c || (u.cluAt k).owner != some a0.toNat) then .error fwInUse
    else .ok (u.modClu c (fun x => { x with owner := none, margin := false }))))

/-- The Blotter zeroes a slice: it holds no line and no monitor (R352). -/
def State.scrubSlice (s : State) (n : Nat) : State :=
  let u := s.setMem { s.mem with lines := s.mem.lines.filter (fun p => p.2.slice != n) }
  u.trigger (fun _ m => m.slice == n) false

/-- ADD_SLICE (R352, R377, R400): the Blotter zeroes it first. Its channel comes with it: channel and slice have one number, and no
state of a channel is named beside the memory that all of them hold together (R3). A commons slice belongs to the commons (R282). -/
def execAddSlice (a0 a1 a2 : Word) (s : State) : Out1 :=
  s.fired (s.command a0 a1 a2 (fun u =>
    let n := a1.toNat
    if !(u.liveVf a0) || 128 ≤ n || (u.sliceAt n).fenced then .error fwBad
    else if (u.sliceAt n).owner.isSome || (u.sliceAt n).commons then .error fwInUse
    else .ok ((u.scrubSlice n).setSlice n { owner := some a0.toNat, gen := (u.sliceAt n).gen })))

/-- WRITE_HASH_MASK (R361, R377): the change is announced; it runs until MASKS_TAKEN. -/
def execWriteHashMask (a0 a1 a2 : Word) (s : State) : Out1 :=
  s.fired (s.command a0 a1 a2 (fun u =>
    if !(u.liveVf a0) || 8 ≤ a1.toNat then .error fwBad
    else .ok (u.announceMask a0.toNat a1.toNat a2)) fwRunning)

/-- MASKS_TAKEN (R361): every slice has finished; the masks and the generation are taken at one timebase count. -/
def execMasksTaken (vf : Nat) (s : State) : Out1 :=
  s.fired (
    if (s.vfAt vf).newMask.isNone then none
    else
      let u := s.takeMask vf
      some (u.setPkg { u.pkg with fwstat := fwDone }))

/-- LEND_CLUSTER (R353, R377). -/
def execLendCluster (a0 a1 a2 : Word) (s : State) : Out1 :=
  s.fired (s.command a0 a1 a2 (fun u =>
    let c := a1.toNat
    let x := u.cluAt c
    let near := (List.range 80).any (fun k => (u.cluAt k).owner == some a2.toNat && dieOfClu k == dieOfClu c)
    let waits := u.teams.any (fun t => (t.st == .waiting || t.st == .saved) && u.teamFor a0.toNat t)
    if !(u.liveVf a0) || !(u.liveVf a2) || a0 == a2 || 80 ≤ c || x.owner != some a0.toNat || !x.margin || !near then .error fwBad
    else if x.lentTo.isSome || (u.teamOn c).isSome || waits then .error fwInUse
    else .ok (((u.scrubCluster c).modClu c (fun x => { x with lentTo := some a2.toNat })).joinMaps c)))

/-- The team on a cluster leaves it: one on the device stops at `t`, or earlier where it stops already; one that was being prepared or
was to be restored waits again, and may be placed elsewhere (R350, R355). -/
def State.clearCluster (s : State) (c t : Nat) : State :=
  match s.teamOn c with
  | none => s
  | some x =>
    if x.onDevice then s.stopTeams [x] t true
    else
      let u := s.setTeam { x.unplaced with saved := x.saved.map (fun v => { v with pool := false }) }
      match s.launchAt x.launch with
      | some l => u.modVf l.vf (fun v => { v with preps := v.preps.filter (fun p => p.team != x.id) })
      | none => u

/-- REVOKE_LENT_CLUSTER (R355): it runs until RETURN_TO_LENDER. -/
def execRevokeLentCluster (a0 a1 a2 : Word) (s : State) : Out1 :=
  s.fired (s.command a0 a1 a2 (fun u =>
    let c := a0.toNat
    if 80 ≤ c || (u.cluAt c).lentTo.isNone then .error fwBad
    else .ok ((u.clearCluster c (u.now + 4096)).modClu c (fun x => { x with revoke := some u.now }))) fwRunning)

/-- RETURN_TO_LENDER (R355): the cluster is stopped, saved and scrubbed, and belongs to its lender again. -/
def execReturnToLender (cluster : Nat) (s : State) : Out1 :=
  s.fired (
    if (s.cluAt cluster).revoke.isNone || (s.teamOn cluster).isSome then none
    else
      let u := ((s.scrubCluster cluster).modClu cluster (fun x => { x with lentTo := none, revoke := none })).joinMaps cluster
      some (u.setPkg { u.pkg with fwstat := fwDone }))

/-- BIND_EXPORT (R379): at most 256 bindings. -/
def execBindExport (a0 a1 a2 : Word) (s : State) : Out1 :=
  s.fired (s.command a0 a1 a2 (fun u =>
    let rest := u.pkg.exports.filter (fun (p, v, _) => !(p == a1.toNat && v == a2.toNat))
    if !(u.liveVf a0) || 144 ≤ a1.toNat || 64 ≤ a2.toNat then .error fwBad
    else if 256 ≤ rest.length then .error fwInUse
    else .ok (u.setPkg { u.pkg with exports := rest ++ [(a1.toNat, a2.toNat, a0.toNat)] })))

/-- DESTROY_FUNCTION (R377): after a reset; its clusters and slices are free, its frames owed to the Blotter (R281). -/
def execDestroyFunction (a0 a1 a2 : Word) (s : State) : Out1 :=
  s.fired (s.command a0 a1 a2 (fun u =>
    let vf := a0.toNat
    let f := u.vfAt vf
    if !(u.liveVf a0) then .error fwBad
    else if !f.wasRst || f.rst.isSome || u.launches.any (fun l => l.vf == vf) ||
        u.clus.any (fun (_, x) => x.owner == some vf && x.lentTo.isSome) then .error fwInUse
    else
      let (lo, hi) := f.frames
      let u := u.dropLines (fun _ l => l.vf == vf && !(u.sliceAt l.slice).commons)
      let u := u.setMem { u.mem with slices := u.mem.slices.map (fun (n, x) =>
        (n, if x.owner == some vf then { x with owner := none, tc := [] } else x)) }
      let u : State := { u with clus := u.clus.map (fun ((c, x) : Nat × Cluster) =>
        (c, if x.owner == some vf then { x with owner := none, margin := false } else x)) }
      let u := u.setPkg { u.pkg with
        exports := u.pkg.exports.filter (fun (_, _, v) => v != vf)
        owed := u.pkg.owed ++ (if lo < hi && f.segn != 0 then [(lo, hi, vf)] else []) }
      .ok (u.setVf vf {})))

/-- UNLISTED_COMMAND (R377): `fwstat` 2 and nothing else. -/
def execUnlistedCommand (code : Word) (s : State) : Out1 :=
  s.fired (
    if s.pkg.boot != .up || s.pkg.fwstat == fwRunning || (1 ≤ code.toNat && code.toNat ≤ 11) then none
    else some (s.setPkg { s.pkg with fwstat := fwBad }))

/-! ### The non-volatile store (R403, R408, R409) -/

/-- A read takes copy A: the valid copy, and of two valid ones the one with the higher sequence number (R403). -/
def Pkg.readsA (p : Pkg) : Bool := !p.nvB.ok || (p.nvA.ok && decide (p.nvB.seq ≤ p.nvA.seq))

/-- The copy that a read takes. -/
def Pkg.nv (p : Pkg) : NvCopy := if p.readsA then p.nvA else p.nvB

/-- A write goes to the older copy, which is not the one that a read takes (R403). -/
def Pkg.nvWrite (p : Pkg) (f : NvCopy → NvCopy) : Pkg :=
  let x := { f p.nv with seq := p.nv.seq + 1, ok := true }
  if p.readsA then { p with nvB := x } else { p with nvA := x }

/-- A write that power loss cuts off: the older copy is no longer valid, the other is whole (R403). -/
def Pkg.nvTorn (p : Pkg) : Pkg :=
  if p.readsA then { p with nvB := { p.nvB with ok := false } } else { p with nvA := { p.nvA with ok := false } }

/-- CLEAR_BOOT_RECORD (R402): the next start runs every step afresh at code 0. -/
def execClearBootRecord (a0 a1 a2 : Word) (s : State) : Out1 :=
  s.fired (s.command a0 a1 a2 (fun u =>
    .ok (u.setPkg (u.pkg.nvWrite (fun x => { x with res := 0, rate := 0, fencedC := [], fencedS := [], badCxl := [], badPort := [] })))))

/-- The body of an attestation report (R409). -/
def State.attestBody (s : State) (a0 a1 : Word) (leaf : Nat) : List Byte :=
  let fences := ((List.range 80).map (fun c => (s.cluAt c).fenced.toNat * 2 ^ c)).sum
  toBytes 4 0x4B394154 ++ toBytes 4 leaf ++ toBytes 2 s.pkg.pkgid.toNat ++ wordBytes a0 ++ wordBytes a1 ++ List.replicate 16 0 ++
  toBytes 32 Config.firmwareDigest.toNat ++ wordBytes s.pkg.bootlog ++ toBytes 10 fences ++ List.replicate 36 0

/-- ATTESTATION_REPORT (R408, R409): the leaf index is advanced in the store first; after 2^20 signatures it is refused. -/
def execAttestationReport (a0 a1 a2 : Word) (s : State) : Out1 :=
  s.fired (s.command a0 a1 a2 (fun u =>
    let leaf := u.pkg.nv.leaf
    if 2 ^ 20 ≤ leaf then .error fwInUse
    else
      let p := u.pkg.nvWrite (fun x => { x with leaf := leaf + 1 })
      let body := u.attestBody a0 a1 leaf
      .ok (u.setPkg { p with report := body ++ signature body leaf })))

/-- What the firmware window reads at an offset (R377, R405, R409). -/
def State.readFirmware (s : State) (off : Nat) : Word :=
  let p := s.pkg
  if off = 0x000 then p.pkgid.setWidth 64
  else if off = 0x010 then p.fwarg0
  else if off = 0x018 then p.fwarg1
  else if off = 0x020 then p.fwarg2
  else if off = 0x028 then p.fwstat
  else if off = 0x030 then p.therm.setWidth 64
  else if 0x100 ≤ off then BitVec.ofNat 64 (leAt p.report (off - 0x100) 8)
  else 0

end Sys2Proof.Machine
end

