-- ==== Sys2Proof/Machine/Package.lean ====
section
/-!
DEFINITION. The package: bring-up (R229, R400-R403), loss of power, the record of the timebase, and thermal throttling (R405).
-/

namespace Sys2Proof.Machine

/-! ### The steps of a start (R400-R402) -/

/-- Results of a step (R401). -/
def resPassed : Nat := 1
def resFailed : Nat := 2
def resSkipped : Nat := 3

/-- Put the result of a step into the 32 bits of results. -/
def putRes (r : BitVec 32) (step res : Nat) : BitVec 32 :=
  (r &&& ~~~(3#32 <<< (2 * step))) ||| (BitVec.ofNat 32 res <<< (2 * step))

/-- The rate code at which a stack ends its training: from the code it ended with, upward; one that fails at code 3 ends there
(R402). -/
def trainAt (old need : Nat) : Nat := Nat.min 3 (Nat.max old need)

/-- The rate codes at which the eight stacks end. -/
def trainAll (old : BitVec 16) (need : List Nat) : BitVec 16 :=
  BitVec.ofNat 16 ((List.range 8).map (fun i => trainAt (fieldOf (old.setWidth 64) (2 * i) 2) (need.getD i 0) * 4 ^ i)).sum

/-- The result of an optional step: resources that failed last time are skipped, the others run (R402). -/
def optRes (old bad : List Nat) : Nat :=
  if bad.any (fun i => !(old.contains i)) then resFailed else if old.isEmpty then resPassed else resSkipped

/-- The resources that stay fenced after an optional step. -/
def fencedNow (old bad : List Nat) (n : Nat) : List Nat := (List.range n).filter (fun i => old.contains i || bad.contains i)

/-- What a step comes to: its result, and the change of the stored record. -/
def bootStep (inp : BootInput) (first : Bool) (step : Nat) (x : NvCopy) : Nat × NvCopy :=
  let must := fun (ok : Bool) => (if ok then resPassed else resFailed, x)
  if step = 0 then must inp.romOk
  else if step = 1 then must (inp.firmware.elim inp.sigOk (fun (image, sig) => firmwareGood image sig))
  else if step = 2 then
    let b : Word := if first then 0 else x.base + BitVec.ofNat 64 (x.count / 2 + 2 ^ 31)
    if inp.versOk then (resPassed, { x with base := b, count := 0 }) else (resFailed, x)
  else if step = 3 then
    (if inp.stackFails.all (fun n => n ≤ 3) then resPassed else resFailed, { x with rate := trainAll x.rate inp.stackFails })
  else if step = 4 then must inp.linksOk
  else if step = 5 then (optRes x.fencedS inp.badSlices, { x with fencedS := fencedNow x.fencedS inp.badSlices 128 })
  else if step = 6 then (optRes x.fencedC inp.badClusters, { x with fencedC := fencedNow x.fencedC inp.badClusters 80 })
  else if step = 7 then must inp.itnikOk
  else if step = 8 then (optRes x.badCxl inp.badCxl, { x with badCxl := fencedNow x.badCxl inp.badCxl 8 })
  else if step = 9 then (optRes x.badPort inp.badPorts, { x with badPort := fencedNow x.badPort inp.badPorts 18 })
  else if step = 10 then must inp.keyOk
  else must inp.scrubOk

/-- A step whose failure stops the start (R400). -/
def required (step : Nat) : Bool := step < 5 || step == 7 || 9 < step

/-- Run the steps from `step` on; the record stands at code 2 from the moment a step begins until it ends (R401). -/
def bootSteps (inp : BootInput) (first : Bool) : Nat → Nat → Pkg → Pkg
  | 0, _, p => { p with boot := .up }
  | fuel + 1, step, p =>
    if inp.cutAt == some (step, .first) then { p.nvTorn with boot := .off } else
    let p := p.nvWrite (fun x => { x with res := putRes x.res step resFailed })
    if inp.cutAt == some (step, .inside) then { p with boot := .off }
    else if inp.cutAt == some (step, .last) then { p.nvTorn with boot := .off }
    else
      let (r, x) := bootStep inp first step p.nv
      let p := p.nvWrite (fun _ => { x with res := putRes x.res step r })
      if r == resFailed && required step then { p with boot := .stopped step, fwstat := fwBad, fwarg0 := BitVec.ofNat 64 step }
      else bootSteps inp first fuel (step + 1) p

/-- `bootlog` of a start (R401). -/
def NvCopy.bootlog (x : NvCopy) : Word :=
  BitVec.ofNat 64 (x.starts % 256 * 2 ^ 56 + x.fencedC.length * 2 ^ 48 + x.rate.toNat * 2 ^ 32 + x.res.toNat)

/-- The numbers below `n` that are not in a list. -/
def others (l : List Nat) (n : Nat) : List Nat := (List.range n).filter (fun i => !(l.contains i))

/-- A list of ports may be an interleave set: 1, 2, 4 or 8 different ports, all of them trained (R378, R400). -/
def setOk (bad ports : List Nat) : Bool :=
  [1, 2, 4, 8].contains ports.length && ports.all (fun p => p < 8 && !(bad.contains p)) && ports.eraseDups == ports

/-- The interleave sets of a start, which firmware makes (R378): those that it names in the order in which they follow each other in the
address space, as far as they share no port; a port that it puts into no set is one of its own (DESIGN CHOICE, log 49). -/
def interleave (bad : List Nat) (named : List (List Nat)) : List (List Nat) :=
  let sets := (named.filter (setOk bad)).foldl (fun r x => if x.any (fun p => r.any (·.contains p)) then r else r ++ [x]) []
  sets ++ ((others bad 8).filter (fun p => !(sets.any (·.contains p)))).map (fun p => [p])

/-- DEVICE_START (R229, R400-R403): the boot ROM runs the start sequence on a part whose power is on. Everything but the
non-volatile store starts afresh; the timebase starts at 0. Where the power loss before cut off a write of the store, that copy is not
valid, and the record stands as it was before that write. -/
def execDeviceStart (inp : BootInput) (s : State) : Out1 :=
  s.fired (
    if s.pkg.boot == .up then none
    else
      let was := if inp.torn && s.pkg.boot == .off then s.pkg.nvTorn else s.pkg
      let old := was.nv
      let p0 : Pkg := { nvA := was.nvA, nvB := was.nvB, ckey := 2 }
      let p := bootSteps inp (old.starts == 0) 12 0 (p0.nvWrite (fun x => { x with starts := x.starts + 1, res := 0 }))
      let x := p.nv
      let p := if p.boot == .up then
          { p with bootlog := x.bootlog, pkgid := inp.pkgid, ports := others x.badPort 18, cxl := interleave x.badCxl inp.cxlSets }
        else { p with bootlog := x.bootlog }
      let t : State := { pkg := p, nid := s.nid, nfree := s.nfree, agenda := s.agenda, hostRd := s.hostRd, peerRd := s.peerRd, peerOut := s.peerOut }
      some { t with
        mem := { t.mem with base := x.base, slices := x.fencedS.map (fun n => (n, { fenced := true })) }
        clus := x.fencedC.map (fun c => (c, { fenced := true })) })

/-- POWER_LOSS (R403): everything but the non-volatile store is lost. -/
def execPowerLoss (s : State) : Out1 :=
  .next { pkg := { boot := .off, nvA := s.pkg.nvA, nvB := s.pkg.nvB }, nid := s.nid, nfree := s.nfree, agenda := s.agenda,
          hostRd := s.hostRd, peerRd := s.peerRd, peerOut := s.peerOut }

/-- TIMEBASE_RECORD (R229, R403): every 2^31 cycles. -/
def execTimebaseRecord (s : State) : Out1 :=
  s.fired (
    if s.pkg.boot == .up && s.cyc.toNat % 2 ^ 31 == 0 && s.pkg.nv.count < s.cyc.toNat then
      some (s.setPkg (s.pkg.nvWrite (fun x => { x with count := s.cyc.toNat })))
    else none)

/-- A pass that runs while its die's throttling changes: the vector cycles that it has still to run take twice as long, or half
(R320, R405). -/
def EOp.throttle (o : EOp) (now : Nat) (hot : Bool) : EOp :=
  match o.start with
  | none => o
  | some S =>
    let gone := Nat.min o.lives (now - (S + 128))
    let left := o.lives - gone
    let lives := gone + (if hot then 2 * left else (left + 1) / 2)
    if o.isPass then { o with lives, fin := o.fin + lives - o.lives } else o

/-- The array queue of a core whose die's throttling changes: the pass that runs, and the `clw` beside it that has not ended (R321). -/
def Core.throttle (k : Core) (now : Nat) (hot : Bool) : Core :=
  match k.aq with
  | o :: w :: rest =>
    let p := o.throttle now hot
    { k with aq := p :: (if o.isPass && o.mate == some w.id && w.start.isSome && decide (now < w.fin) then
      { w with fin := joinEnd p (w.start.getD 0) } else w) :: rest }
  | [o] => { k with aq := [o.throttle now hot] }
  | [] => k

/-- THERMAL_LIMIT (R405): a die's sensors pass or fall below their limit. -/
def execThermalLimit (die : Nat) (hot : Bool) (s : State) : Out1 :=
  s.fired (
    if die < 4 && s.pkg.therm.getLsbD die != hot then
      let u : State := { s with cores := s.cores.map (fun (n, k) => (n, if dieOfCore n = die then k.throttle s.now hot else k)) }
      some (u.setPkg { u.pkg with therm := if hot then u.pkg.therm ||| (1#4 <<< die) else u.pkg.therm &&& ~~~(1#4 <<< die) })
    else none)

end Sys2Proof.Machine
end

