-- ==== Sys2Proof/Machine/VectorMem.lean ====
section
/-!
DEFINITION. Vector loads and stores (R138-R141).
-/

namespace Sys2Proof.Machine

/-- The bytes that the sixteen 4-byte lanes of a mask leave active (R138). -/
def State.activeBytes (s : State) (k : MReg) (bs : List Byte) : List (Option Byte) :=
  (bs.zipIdx).map (fun (b, i) => if s.maskBit k (i / 4) then some b else none)

/-- `vld`: the window check covers all 64 bytes; without an active lane there is no access (R138). -/
def execVld (k : MReg) (d : VReg) (a : SReg) (imm : Imm) (s : State) : Out1 :=
  s.finish imm.bytes (do
    s.needSrc [a]
    s.needVDst d
    let ea := s.regVal a + imm.value
    let pl ← checkLocal s s.cid s.me.priv ea 64 false
    let data := s.activeBytes k (List.replicate 64 0)
    let u := s.popSrc [a]
    if data.any Option.isSome then
      let ps := s.partsAt s.cid 0 pl ea 0 data
      s.mayAccess s.cur .ld 1 ps
      .ok (((u.markVec d.val).launchOp
        { id := 0, ctx := s.cur, kind := .load false, priv := s.me.priv, parts := ps,
          outs := [{ dst := .v d.val (s.laneMask k 32) }], size := 64 } 1 (s.now + s.opLat s.cid ps)).retire imm.bytes)
    else .ok (u.retire imm.bytes))

/-- `vst`: the data is read at issue (R138). -/
def execVst (k : MReg) (a : SReg) (b : VReg) (imm : Imm) (s : State) : Out1 :=
  s.finish imm.bytes (do
    s.needSrc [a]
    s.needVec [b]
    let ea := s.regVal a + imm.value
    let pl ← checkLocal s s.cid s.me.priv ea 64 true
    let data := s.activeBytes k (toBytes 64 (s.vecVal b).toNat)
    let u := s.popSrc [a]
    if data.any Option.isSome then
      let ps := s.partsAt s.cid 0 pl ea 0 data
      s.mayAccess s.cur .st 1 ps
      .ok ((u.launchOp { id := 0, ctx := s.cur, kind := .store, priv := s.me.priv, parts := ps, size := 64 } 1
        (s.now + s.opLat s.cid ps)).retire imm.bytes)
    else .ok (u.retire imm.bytes))

/-- The places of the active lanes, checked in ascending order; the first that fails traps (R141). -/
def State.lanePlaces (s : State) (k : MReg) (size : Nat) (wr : Bool) (addr : Nat → Word) : List Nat →
    Except Stop (List (Nat × Word × Place))
  | [] => .ok []
  | i :: is =>
    if s.maskBit k i then do
      let pl ← checkLocal s s.cid s.me.priv (addr i) size wr
      let r ← s.lanePlaces k size wr addr is
      .ok ((i, addr i, pl) :: r)
    else s.lanePlaces k size wr addr is

/-- The parts of a multi-lane access: lane i is access i, and its value lies at byte i × size (R141). -/
def State.laneParts (s : State) (size : Nat) (data : Nat → List (Option Byte)) (ls : List (Nat × Word × Place)) : List Part :=
  ls.flatMap (fun (i, ea, pl) => s.partsAt s.cid i pl ea (i * size) (data i))

/-- A multi-lane load (R141): it counts on `ld` by lane, and vd fills when the last active lane arrives. With no
active lane vd stays as it is (DEDUCED, log 63). -/
def State.multiLoad (s : State) (k : MReg) (d : VReg) (xs : List SReg) (vs : List VReg) (w : Nat) (addr : Nat → Word) : Eff := do
  s.needSrc xs
  s.needVec vs
  s.needVDst d
  let ls ← s.lanePlaces k (w / 8) false addr (List.range (512 / w))
  let u := s.popSrc xs
  if ls.isEmpty then .ok (u.retire 8)
  else
    let ps := s.laneParts (w / 8) (fun _ => readBytes (w / 8)) ls
    s.mayAccess s.cur .ld ls.length ps
    .ok (((u.markVec d.val).launchOp
      { id := 0, ctx := s.cur, kind := .lanes w, priv := s.me.priv, parts := ps,
        outs := [{ dst := .v d.val (s.laneMask k w) }], size := 64 } ls.length (s.now + s.opLat s.cid ps)).retire 8)

/-- `vlds`: sixteen 4-byte elements at a stride (R139). -/
def execVlds (k : MReg) (d : VReg) (a c : SReg) (imm : BitVec 18) (s : State) : Out1 :=
  s.finish 8 (s.multiLoad k d [a, c] [] 32 (fun i =>
    s.regVal a + imm.signExtend 64 + BitVec.ofNat 64 i * s.regVal c))

/-- The address of a lane of `vgather` and `vscatter` (R140). -/
def State.laneAddr (s : State) (t : Ty) (a : SReg) (b : VReg) (imm : BitVec 18) (i : Nat) : Word :=
  s.regVal a + imm.signExtend 64 + (BitVec.ofNat t.width (laneOf (s.vecVal b) t.width i)).signExtend 64

/-- `vgather` (R140, R141). -/
def execVgather (k : MReg) (t : Ty) (d : VReg) (a : SReg) (b : VReg) (imm : BitVec 18) (s : State) : Out1 :=
  s.finish 8 (s.multiLoad k d [a] [b] t.width (s.laneAddr t a b imm))

/-- `vscatter`: each active lane is a store, in ascending lane order (R140, R141). -/
def execVscatter (k : MReg) (t : Ty) (a : SReg) (b c : VReg) (imm : BitVec 18) (s : State) : Out1 :=
  s.finish 8 (do
    let w := t.width
    s.needSrc [a]
    s.needVec [b, c]
    let ls ← s.lanePlaces k (w / 8) true (s.laneAddr t a b imm) (List.range (512 / w))
    let u := s.popSrc [a]
    if ls.isEmpty then .ok (u.retire 8)
    else
      let ps := s.laneParts (w / 8) (fun i => valueBytes (w / 8) (laneOf (s.vecVal c) w i)) ls
      s.mayAccess s.cur .st ls.length ps
      .ok ((u.launchOp { id := 0, ctx := s.cur, kind := .store, priv := s.me.priv, parts := ps, size := w / 8 } ls.length
        (s.now + s.opLat s.cid ps)).retire 8))

end Sys2Proof.Machine
end

