-- ==== Sys2Proof/Machine/Dispatch.lean ====
section
/-!
DEFINITION. The dispatch of a step of the machine to its meaning: one arm per row of the opcode table.
-/

namespace Sys2Proof.Machine

def exec (i : Instr) (s : State) : Host.Outcome State Fault Refusal :=
  match i with
  | .add k d a b => Sys2Proof.Machine.execAdd k d a b s
  | .addImm k d a imm => Sys2Proof.Machine.execAddImm k d a imm s
  | .sub k d a b => Sys2Proof.Machine.execSub k d a b s
  | .subImm k d a imm => Sys2Proof.Machine.execSubImm k d a imm s
  | .and k d a b => Sys2Proof.Machine.execAnd k d a b s
  | .andImm k d a imm => Sys2Proof.Machine.execAndImm k d a imm s
  | .or k d a b => Sys2Proof.Machine.execOr k d a b s
  | .orImm k d a imm => Sys2Proof.Machine.execOrImm k d a imm s
  | .xor k d a b => Sys2Proof.Machine.execXor k d a b s
  | .xorImm k d a imm => Sys2Proof.Machine.execXorImm k d a imm s
  | .shl k d a b => Sys2Proof.Machine.execShl k d a b s
  | .shlImm k d a imm => Sys2Proof.Machine.execShlImm k d a imm s
  | .shr k d a b => Sys2Proof.Machine.execShr k d a b s
  | .shrImm k d a imm => Sys2Proof.Machine.execShrImm k d a imm s
  | .sra k d a b => Sys2Proof.Machine.execSra k d a b s
  | .sraImm k d a imm => Sys2Proof.Machine.execSraImm k d a imm s
  | .min k sg d a b => Sys2Proof.Machine.execMin k sg d a b s
  | .minImm k sg d a imm => Sys2Proof.Machine.execMinImm k sg d a imm s
  | .max k sg d a b => Sys2Proof.Machine.execMax k sg d a b s
  | .maxImm k sg d a imm => Sys2Proof.Machine.execMaxImm k sg d a imm s
  | .mul k d a b => Sys2Proof.Machine.execMul k d a b s
  | .mulImm k d a imm => Sys2Proof.Machine.execMulImm k d a imm s
  | .mulh k sg d a b => Sys2Proof.Machine.execMulh k sg d a b s
  | .mulhImm k sg d a imm => Sys2Proof.Machine.execMulhImm k sg d a imm s
  | .div k sg d a b => Sys2Proof.Machine.execDiv k sg d a b s
  | .divImm k sg d a imm => Sys2Proof.Machine.execDivImm k sg d a imm s
  | .rem k sg d a b => Sys2Proof.Machine.execRem k sg d a b s
  | .remImm k sg d a imm => Sys2Proof.Machine.execRemImm k sg d a imm s
  | .slt k d a b => Sys2Proof.Machine.execSlt k d a b s
  | .sltImm k d a imm => Sys2Proof.Machine.execSltImm k d a imm s
  | .sltu k d a b => Sys2Proof.Machine.execSltu k d a b s
  | .sltuImm k d a imm => Sys2Proof.Machine.execSltuImm k d a imm s
  | .seq k d a b => Sys2Proof.Machine.execSeq k d a b s
  | .seqImm k d a imm => Sys2Proof.Machine.execSeqImm k d a imm s
  | .sne k d a b => Sys2Proof.Machine.execSne k d a b s
  | .sneImm k d a imm => Sys2Proof.Machine.execSneImm k d a imm s
  | .clz k d a => Sys2Proof.Machine.execClz k d a s
  | .ctz k d a => Sys2Proof.Machine.execCtz k d a s
  | .popc k d a => Sys2Proof.Machine.execPopc k d a s
  | .sext k w d a => Sys2Proof.Machine.execSext k w d a s
  | .zext k w d a => Sys2Proof.Machine.execZext k w d a s
  | .bfx k sg d a pos wm1 => Sys2Proof.Machine.execBfx k sg d a pos wm1 s
  | .bfi k d a b pos wm1 => Sys2Proof.Machine.execBfi k d a b pos wm1 s
  | .sel k d a b c => Sys2Proof.Machine.execSel k d a b c s
  | .li k d imm => Sys2Proof.Machine.execLi k d imm s
  | .lea k d off => Sys2Proof.Machine.execLea k d off s
  | .bcc k cc a b imm => Sys2Proof.Machine.execBcc k cc a b imm s
  | .j k imm => Sys2Proof.Machine.execJ k imm s
  | .jal k d imm => Sys2Proof.Machine.execJal k d imm s
  | .jr k d a => Sys2Proof.Machine.execJr k d a s
  | .loop k d imm => Sys2Proof.Machine.execLoop k d imm s
  | .ld k sz sx d a imm => Sys2Proof.Machine.execLd k sz sx d a imm s
  | .st k sz a b imm => Sys2Proof.Machine.execSt k sz a b imm s
  | .pf k a imm => Sys2Proof.Machine.execPf k a imm s
  | .wb k a imm => Sys2Proof.Machine.execWb k a imm s
  | .inv k a imm => Sys2Proof.Machine.execInv k a imm s
  | .trap k imm => Sys2Proof.Machine.execTrap k imm s
  | .eret k => Sys2Proof.Machine.execEret k s
  | .csrr k d n => Sys2Proof.Machine.execCsrr k d n s
  | .csrw k d a n => Sys2Proof.Machine.execCsrw k d a n s
  | .csrs k d a n => Sys2Proof.Machine.execCsrs k d a n s
  | .csrc k d a n => Sys2Proof.Machine.execCsrc k d a n s
  | .fence k sc un => Sys2Proof.Machine.execFence k sc un s
  | .nop k => Sys2Proof.Machine.execNop k s
  | .halt k => Sys2Proof.Machine.execHalt k s
  | .brk k => Sys2Proof.Machine.execBrk k s
  | .wfi k => Sys2Proof.Machine.execWfi k s
  | .vaddInt k t d a b => Sys2Proof.Machine.execVaddInt k t d a b s
  | .vaddIntScalar k t d a b => Sys2Proof.Machine.execVaddIntScalar k t d a b s
  | .vsubInt k t d a b => Sys2Proof.Machine.execVsubInt k t d a b s
  | .vsubIntScalar k t d a b => Sys2Proof.Machine.execVsubIntScalar k t d a b s
  | .vmulInt k t d a b => Sys2Proof.Machine.execVmulInt k t d a b s
  | .vmulIntScalar k t d a b => Sys2Proof.Machine.execVmulIntScalar k t d a b s
  | .vminInt k t d a b => Sys2Proof.Machine.execVminInt k t d a b s
  | .vminIntScalar k t d a b => Sys2Proof.Machine.execVminIntScalar k t d a b s
  | .vmaxInt k t d a b => Sys2Proof.Machine.execVmaxInt k t d a b s
  | .vmaxIntScalar k t d a b => Sys2Proof.Machine.execVmaxIntScalar k t d a b s
  | .vand k t d a b => Sys2Proof.Machine.execVand k t d a b s
  | .vandScalar k t d a b => Sys2Proof.Machine.execVandScalar k t d a b s
  | .vor k t d a b => Sys2Proof.Machine.execVor k t d a b s
  | .vorScalar k t d a b => Sys2Proof.Machine.execVorScalar k t d a b s
  | .vxor k t d a b => Sys2Proof.Machine.execVxor k t d a b s
  | .vxorScalar k t d a b => Sys2Proof.Machine.execVxorScalar k t d a b s
  | .vshl k t d a b => Sys2Proof.Machine.execVshl k t d a b s
  | .vshlScalar k t d a b => Sys2Proof.Machine.execVshlScalar k t d a b s
  | .vshr k t d a b => Sys2Proof.Machine.execVshr k t d a b s
  | .vshrScalar k t d a b => Sys2Proof.Machine.execVshrScalar k t d a b s
  | .vsra k t d a b => Sys2Proof.Machine.execVsra k t d a b s
  | .vsraScalar k t d a b => Sys2Proof.Machine.execVsraScalar k t d a b s
  | .vaddFp k t d a b => Sys2Proof.Machine.execVaddFp k t d a b s
  | .vaddFpScalar k t d a b => Sys2Proof.Machine.execVaddFpScalar k t d a b s
  | .vsubFp k t d a b => Sys2Proof.Machine.execVsubFp k t d a b s
  | .vsubFpScalar k t d a b => Sys2Proof.Machine.execVsubFpScalar k t d a b s
  | .vmulFp k t d a b => Sys2Proof.Machine.execVmulFp k t d a b s
  | .vmulFpScalar k t d a b => Sys2Proof.Machine.execVmulFpScalar k t d a b s
  | .vminFp k t d a b => Sys2Proof.Machine.execVminFp k t d a b s
  | .vminFpScalar k t d a b => Sys2Proof.Machine.execVminFpScalar k t d a b s
  | .vmaxFp k t d a b => Sys2Proof.Machine.execVmaxFp k t d a b s
  | .vmaxFpScalar k t d a b => Sys2Proof.Machine.execVmaxFpScalar k t d a b s
  | .vdiv k t d a b => Sys2Proof.Machine.execVdiv k t d a b s
  | .vdivScalar k t d a b => Sys2Proof.Machine.execVdivScalar k t d a b s
  | .vfma k t d a b c => Sys2Proof.Machine.execVfma k t d a b c s
  | .vfms k t d a b c => Sys2Proof.Machine.execVfms k t d a b c s
  | .vsqrt k t d a => Sys2Proof.Machine.execVsqrt k t d a s
  | .vrcp k t d a => Sys2Proof.Machine.execVrcp k t d a s
  | .vrsq k t d a => Sys2Proof.Machine.execVrsq k t d a s
  | .vabs k t d a => Sys2Proof.Machine.execVabs k t d a s
  | .vneg k t d a => Sys2Proof.Machine.execVneg k t d a s
  | .vcmp k cc t d a b => Sys2Proof.Machine.execVcmp k cc t d a b s
  | .vcmpScalar k cc t d a b => Sys2Proof.Machine.execVcmpScalar k cc t d a b s
  | .vsel k w d a b c => Sys2Proof.Machine.execVsel k w d a b c s
  | .vmov k w d a => Sys2Proof.Machine.execVmov k w d a s
  | .vbcast k t d a => Sys2Proof.Machine.execVbcast k t d a s
  | .vext k t d a b imm => Sys2Proof.Machine.execVext k t d a b imm s
  | .vins k t d a b imm => Sys2Proof.Machine.execVins k t d a b imm s
  | .vperm k t d a b => Sys2Proof.Machine.execVperm k t d a b s
  | .vred k op t d a => Sys2Proof.Machine.execVred k op t d a s
  | .vld k d a imm => Sys2Proof.Machine.execVld k d a imm s
  | .vst k a b imm => Sys2Proof.Machine.execVst k a b imm s
  | .vlds k d a c imm => Sys2Proof.Machine.execVlds k d a c imm s
  | .vgather k t d a b imm => Sys2Proof.Machine.execVgather k t d a b imm s
  | .vscatter k t a b c imm => Sys2Proof.Machine.execVscatter k t a b c imm s
  | .vcvt k dt st d a p => Sys2Proof.Machine.execVcvt k dt st d a p s
  | .vq k sch cmp t d c a b p => Sys2Proof.Machine.execVq k sch cmp t d c a b p s
  | .vdq k sch exp t d a b c p => Sys2Proof.Machine.execVdq k sch exp t d a b c p s
  | .vcomp k inverse d a => Sys2Proof.Machine.execVcomp k inverse d a s
  | .vqtab k a imm => Sys2Proof.Machine.execVqtab k a imm s
  | .t5pack k d a p => Sys2Proof.Machine.execT5pack k d a p s
  | .t5unpk k d a p => Sys2Proof.Machine.execT5unpk k d a p s
  | .spawn k d a imm => Sys2Proof.Machine.execSpawn k d a imm s
  | .reap k d a => Sys2Proof.Machine.execReap k d a s
  | .exit k a => Sys2Proof.Machine.execExit k a s
  | .arm k d a imm => Sys2Proof.Machine.execArm k d a imm s
  | .disarm k d a imm => Sys2Proof.Machine.execDisarm k d a imm s
  | .mwait k d a => Sys2Proof.Machine.execMwait k d a s
  | .fset k vec d => Sys2Proof.Machine.execFset k vec d s
  | .fclr k vec d => Sys2Proof.Machine.execFclr k vec d s
  | .rfill k d a b n => Sys2Proof.Machine.execRfill k d a b n s
  | .gbar k swap d a => Sys2Proof.Machine.execGbar k swap d a s
  | .garrive k d a => Sys2Proof.Machine.execGarrive k d a s
  | .gwait k a b => Sys2Proof.Machine.execGwait k a b s
  | .gmem k d a => Sys2Proof.Machine.execGmem k d a s
  | .tdec k d a => Sys2Proof.Machine.execTdec k d a s
  | .tnext k d => Sys2Proof.Machine.execTnext k d s
  | .tdone k d a b => Sys2Proof.Machine.execTdone k d a b s
  | .tcancel k d a => Sys2Proof.Machine.execTcancel k d a s
  | .wpass k ro d a s1 t => Sys2Proof.Machine.execWpass k ro d a s1 t s
  | .wpoll k d s1 => Sys2Proof.Machine.execWpoll k d s1 s
  | .wdetach k d s1 => Sys2Proof.Machine.execWdetach k d s1 s
  | .wattach k keep d a s1 => Sys2Proof.Machine.execWattach k keep d a s1 s
  | .wrel k free d s1 => Sys2Proof.Machine.execWrel k free d s1 s
  | .wmode k m d s1 => Sys2Proof.Machine.execWmode k m d s1 s
  | .wclr k d s1 => Sys2Proof.Machine.execWclr k d s1 s
  | .ldv k set d a c => Sys2Proof.Machine.execLdv k set d a c s
  | .verchk k d => Sys2Proof.Machine.execVerchk k d s
  | .verclr k => Sys2Proof.Machine.execVerclr k s
  | .cas k sz o sc d a b c => Sys2Proof.Machine.execCas k sz o sc d a b c s
  | .casv k sz o sc d a b c => Sys2Proof.Machine.execCasv k sz o sc d a b c s
  | .amo k op sz o sc d a b => Sys2Proof.Machine.execAmo k op sz o sc d a b s
  | .red k op sz o sc a b => Sys2Proof.Machine.execRed k op sz o sc a b s
  | .vamo k op sz o sc d a b c => Sys2Proof.Machine.execVamo k op sz o sc d a b c s
  | .ldAcq k sz sc d a => Sys2Proof.Machine.execLdAcq k sz sc d a s
  | .stRel k sz sc a b => Sys2Proof.Machine.execStRel k sz sc a b s
  | .cpy k d a b c r ext => Sys2Proof.Machine.execCpy k d a b c r ext s
  | .fork k d a b imm => Sys2Proof.Machine.execFork k d a b imm s
  | .rdv k d a => Sys2Proof.Machine.execRdv k d a s
  | .qfence k m => Sys2Proof.Machine.execQfence k m s
  | .wait k tl cp st ld => Sys2Proof.Machine.execWait k tl cp st ld s
  | .uiret k => Sys2Proof.Machine.execUiret k s
  | .clw k f sc d a => Sys2Proof.Machine.execClw k f sc d a s
  | .cflip k => Sys2Proof.Machine.execCflip k s
  | .cpass k a b c irq tag => Sys2Proof.Machine.execCpass k a b c irq tag s
  | .cdrain k a b c irq tag => Sys2Proof.Machine.execCdrain k a b c irq tag s
  | .cstk k a b c => Sys2Proof.Machine.execCstk k a b c s
  | .cfmt k f cmp => Sys2Proof.Machine.execCfmt k f cmp s
  | .cstat k d => Sys2Proof.Machine.execCstat k d s
  | .xst k a b c => Sys2Proof.Machine.execXst k a b c s
  | .sopen k rx d a n => Sys2Proof.Machine.execSopen k rx d a n s
  | .sclose k rx d n => Sys2Proof.Machine.execSclose k rx d n s
  | .smark k n => Sys2Proof.Machine.execSmark k n s
  | .nred k op a b c s1 off64 => Sys2Proof.Machine.execNred k op a b c s1 off64 s
  | .nmc k a b c s1 off64 => Sys2Proof.Machine.execNmc k a b c s1 off64 s
  | .fillWord bits => Sys2Proof.Machine.execFillWord bits s
  | .fetchMiss core tid => Sys2Proof.Machine.execFetchMiss core tid s
  | .resultArrival op => Sys2Proof.Machine.execResultArrival op s
  | .storeAcknowledge op => Sys2Proof.Machine.execStoreAcknowledge op s
  | .lateFault op part dataError => Sys2Proof.Machine.execLateFault op part dataError s
  | .trapEntry core tid => Sys2Proof.Machine.execTrapEntry core tid s
  | .interruptEntry core tid => Sys2Proof.Machine.execInterruptEntry core tid s
  | .timerPending core tid => Sys2Proof.Machine.execTimerPending core tid s
  | .noticeDelivery core tid => Sys2Proof.Machine.execNoticeDelivery core tid s
  | .registerFileSleep core => Sys2Proof.Machine.execRegisterFileSleep core s
  | .wakeEnd core => Sys2Proof.Machine.execWakeEnd core s
  | .remoteFillDelivery op => Sys2Proof.Machine.execRemoteFillDelivery op s
  | .mwaitTimeout core tid => Sys2Proof.Machine.execMwaitTimeout core tid s
  | .episodeComplete team group => Sys2Proof.Machine.execEpisodeComplete team group s
  | .decrementAtHome op => Sys2Proof.Machine.execDecrementAtHome op s
  | .watchdogExpiry team task => Sys2Proof.Machine.execWatchdogExpiry team task s
  | .errorTokenArrival launch core => Sys2Proof.Machine.execErrorTokenArrival launch core s
  | .wellMoveComplete mv => Sys2Proof.Machine.execWellMoveComplete mv s
  | .wellAttachComplete mv => Sys2Proof.Machine.execWellAttachComplete mv s
  | .wellClearComplete mv => Sys2Proof.Machine.execWellClearComplete mv s
  | .wellModeChange mv => Sys2Proof.Machine.execWellModeChange mv s
  | .wellFree mv => Sys2Proof.Machine.execWellFree mv s
  | .wellPortAccess op part => Sys2Proof.Machine.execWellPortAccess op part s
  | .entryMoveOutward op part piece => Sys2Proof.Machine.execEntryMoveOutward op part piece s
  | .linePartPerform op part => Sys2Proof.Machine.execLinePartPerform op part s
  | .loadPartPerform op part => Sys2Proof.Machine.execLoadPartPerform op part s
  | .sliceStep op part => Sys2Proof.Machine.execSliceStep op part s
  | .vamoLaneFault op => Sys2Proof.Machine.execVamoLaneFault op s
  | .pageResolved vf page token => Sys2Proof.Machine.execPageResolved vf page token s
  | .engineCopy w => Sys2Proof.Machine.execEngineCopy w s
  | .copyComplete core => Sys2Proof.Machine.execCopyComplete core s
  | .engineFault f => Sys2Proof.Machine.execEngineFault f s
  | .sequencerRecord core seq => Sys2Proof.Machine.execSequencerRecord core seq s
  | .arrayOpStart core => Sys2Proof.Machine.execArrayOpStart core s
  | .arrayOpComplete core => Sys2Proof.Machine.execArrayOpComplete core s
  | .exchangeOpStart core => Sys2Proof.Machine.execExchangeOpStart core s
  | .unitLanding core target => Sys2Proof.Machine.execUnitLanding core target s
  | .networkReduction team group => Sys2Proof.Machine.execNetworkReduction team group s
  | .wordInjection core tid n => Sys2Proof.Machine.execWordInjection core tid n s
  | .wordDelivery flit => Sys2Proof.Machine.execWordDelivery flit s
  | .markerSend core => Sys2Proof.Machine.execMarkerSend core s
  | .lockstepStall core tid => Sys2Proof.Machine.execLockstepStall core tid s
  | .schedulerQuantum vf => Sys2Proof.Machine.execSchedulerQuantum vf s
  | .launchEnd launch => Sys2Proof.Machine.execLaunchEnd launch s
  | .synchronizedStop teams => Sys2Proof.Machine.execSynchronizedStop teams s
  | .teamRestore team => Sys2Proof.Machine.execTeamRestore team s
  | .frameScrub frame => Sys2Proof.Machine.execFrameScrub frame s
  | .noresHoldExpiry op part => Sys2Proof.Machine.execNoresHoldExpiry op part s
  | .retryPermit slice => Sys2Proof.Machine.execRetryPermit slice s
  | .genReplay core => Sys2Proof.Machine.execGenReplay core s
  | .deadlockProbe buffer => Sys2Proof.Machine.execDeadlockProbe buffer s
  | .deadlockRecoveryStep => Sys2Proof.Machine.execDeadlockRecoveryStep s
  | .shootDownComplete vf => Sys2Proof.Machine.execShootDownComplete vf s
  | .patchTaken vf => Sys2Proof.Machine.execPatchTaken vf s
  | .deviceStart inp => Sys2Proof.Machine.execDeviceStart inp s
  | .powerLoss => Sys2Proof.Machine.execPowerLoss s
  | .timebaseRecord => Sys2Proof.Machine.execTimebaseRecord s
  | .lineMove vf line => Sys2Proof.Machine.execLineMove vf line s
  | .masksTaken vf => Sys2Proof.Machine.execMasksTaken vf s
  | .resetDone vf => Sys2Proof.Machine.execResetDone vf s
  | .returnToLender cluster => Sys2Proof.Machine.execReturnToLender cluster s
  | .agentWriteAtSlice w => Sys2Proof.Machine.execAgentWriteAtSlice w s
  | .eviction line => Sys2Proof.Machine.execEviction line s
  | .peerRequest q => Sys2Proof.Machine.execPeerRequest q s
  | .hostCoherentAccess q => Sys2Proof.Machine.execHostCoherentAccess q s
  | .hostRawAccess q => Sys2Proof.Machine.execHostRawAccess q s
  | .hostTierAccess q => Sys2Proof.Machine.execHostTierAccess q s
  | .registerWindowWrite vf off v => Sys2Proof.Machine.execRegisterWindowWrite vf off v s
  | .quantumWrite vf v => Sys2Proof.Machine.execQuantumWrite vf v s
  | .sdoor vf v => Sys2Proof.Machine.execSdoor vf v s
  | .reset vf v => Sys2Proof.Machine.execReset vf v s
  | .carveoutWrite vf bound v => Sys2Proof.Machine.execCarveoutWrite vf bound v s
  | .sdgo vf v => Sys2Proof.Machine.execSdgo vf v s
  | .mvgo vf v => Sys2Proof.Machine.execMvgo vf v s
  | .prq vf => Sys2Proof.Machine.execPrq vf s
  | .prans vf v => Sys2Proof.Machine.execPrans vf v s
  | .gpgo vf v => Sys2Proof.Machine.execGpgo vf v s
  | .gdef vf v => Sys2Proof.Machine.execGdef vf v s
  | .qtail vf q v => Sys2Proof.Machine.execQtail vf q v s
  | .qctlResume vf q v => Sys2Proof.Machine.execQctlResume vf q v s
  | .irqstatClear vf v => Sys2Proof.Machine.execIrqstatClear vf v s
  | .createFunction a0 a1 a2 => Sys2Proof.Machine.execCreateFunction a0 a1 a2 s
  | .addCluster a0 a1 a2 => Sys2Proof.Machine.execAddCluster a0 a1 a2 s
  | .removeCluster a0 a1 a2 => Sys2Proof.Machine.execRemoveCluster a0 a1 a2 s
  | .addSlice a0 a1 a2 => Sys2Proof.Machine.execAddSlice a0 a1 a2 s
  | .writeHashMask a0 a1 a2 => Sys2Proof.Machine.execWriteHashMask a0 a1 a2 s
  | .lendCluster a0 a1 a2 => Sys2Proof.Machine.execLendCluster a0 a1 a2 s
  | .revokeLentCluster a0 a1 a2 => Sys2Proof.Machine.execRevokeLentCluster a0 a1 a2 s
  | .bindExport a0 a1 a2 => Sys2Proof.Machine.execBindExport a0 a1 a2 s
  | .destroyFunction a0 a1 a2 => Sys2Proof.Machine.execDestroyFunction a0 a1 a2 s
  | .clearBootRecord a0 a1 a2 => Sys2Proof.Machine.execClearBootRecord a0 a1 a2 s
  | .attestationReport a0 a1 a2 => Sys2Proof.Machine.execAttestationReport a0 a1 a2 s
  | .thermalLimit die hot => Sys2Proof.Machine.execThermalLimit die hot s
  | .unlistedCommand code => Sys2Proof.Machine.execUnlistedCommand code s
  | .hostAccessToNoRegion q => Sys2Proof.Machine.execHostAccessToNoRegion q s

end Sys2Proof.Machine
end

