-- ==== Sys2Proof/Machine/Settle.lean ====
section
/-!
DEFINITION. What follows of itself after every turn: releases that may be sent (R233), ends of waits (R122, R168, R186), scheduled
well changes (R207), free copy engines (R285), receive buffers (R333), accesses that the host's link holds (R374), and wakes (R161).
-/

namespace Sys2Proof.Machine

/-- Send a release whose wait is over (R233). -/
def State.sendRelease (s : State) (o : Op) : State :=
  if o.sent || !(s.orderedTo o.ctx o.id o.scope false) then s
  else
    let o := { o with sent := true, issued := s.now, due := s.now + (o.due - o.issued) }
    let u := s.setOp o
    if o.kind.isStore then u.appendEntries o else u

def State.sendReleases (s : State) : State :=
  if s.ops.all (·.sent) then s else s.ops.foldl State.sendRelease s

/-- Entries that a peer has acknowledged are forgotten (R256). -/
def State.trimFar (s : State) : State :=
  if s.far.isEmpty then s else s.setFar (s.far.filter (fun e => s.farOut (e.id, e.op, e.part)))

/-- Entries that have been performed, and acknowledged where they went to a peer, are forgotten (R257). -/
def State.trimSeen (s : State) : State :=
  if s.ctxs.all (fun (_, c) => c.seen.isEmpty) then s
  else
    { s with ctxs := s.ctxs.map (fun (a, c) =>
        (a, { c with seen := c.seen.filter (fun x => s.sb.any (fun e => e.id == x.1) || s.farOut x) })) }

/-- Strongly ordered accesses whose turn has come issue (R259). -/
def State.sendTurns (s : State) : State :=
  if s.ops.all (fun o => o.parts.all (fun p => p.st != .wait)) then s else s.ops.foldl State.sendWaiting s

/-- Interrupts that have become pending and enabled wake sleeping cores (R161). -/
def State.noteIrqs (s : State) : State := (s.ctxs.map (·.1)).foldl State.noteIrq s

/-- The waits that follow an issue end where their conditions hold; a sleeping core wakes first. -/
def State.settlePosts (s : State) : State :=
  s.ctxs.foldl (fun s (a, c) => if c.post == .none || (s.coreAt (a / 16)).sleep != .awake then s else s.settlePost a) s

/-- Every free copy engine takes the next copy. -/
def State.pickCopies (s : State) : State :=
  ((s.cores.filter (fun (_, c) => !c.cq.isEmpty)).map (fun (k, _) => k / 16)).eraseDups.foldl State.pickCopy s

/-- Words go from receive buffers to the queues that are bound to their streams. -/
def State.drainAll (s : State) : State :=
  (s.cores.filter (fun (_, c) => !c.rx.isEmpty)).foldl (fun s (k, c) => c.rx.foldl (fun s b => s.drainRx k b.stream) s) s

/-- All of it. -/
def State.settle (s : State) : State :=
  s.retryHeld.joinBehind.sendReleases.sendTurns.settleMoves.trimFar.trimSeen.pickCopies.drainAll.settlePosts.noteIrqs

end Sys2Proof.Machine
end

