-- ==== Sys2Proof/Machine/Issue.lean ====
section
/-!
DEFINITION. Fetch (R76-R80, R108) and what a context comes to at an issue point (R40, R157, R301): a late trap, the instruction's own trap, an
interrupt, a notice, or the instruction.
-/

namespace Sys2Proof.Machine

/-- What fetch gives at a pc. -/
inductive Fetched where
  | miss                         -- the block has to be asked for
  | busy                         -- its slice takes no request in this cycle
  | trap (cause : Nat) (val : Word) (len : Nat := 0)   -- len: bytes of the instruction, where they are known
  | instr (i : Instr)
  deriving DecidableEq, Repr

/-- The bytes of a block, lowest address first. -/
def blockBytes (b : BitVec 256) : List Byte := leBytes 32 b.toNat

/-- The instruction at a byte of a block (R76-R79, R93). -/
def decodeAt (pc : Word) (b : BitVec 256) : Fetched :=
  let bs := (blockBytes b).drop (pc.toNat % 32)
  let n := instrLen (bs.headD 0)
  if bs.length < n then .trap 0x02 pc n
  else
    match decode bs with
    | .ok (i, _) => .instr i
    | .error _ => .trap 0x01 (BitVec.ofNat 64 (leNat (bs.take n))) n

/-- The block has just been fetched (R108). -/
def Core.touch (k : Core) (b : IBlk) : Core := if k.ibuf.head? == some b then k else k.addBlock b

/-- The fetch of a block that the buffer does not hold (R108). -/
def State.fetchOp (s : State) (va : Nat) : Op :=
  let a := s.relocate s.cid va
  { id := 0, ctx := s.cur, kind := .fetch, priv := s.me.priv, size := va, cnts := false
    parts := [{ acc := 0, va := a, dst := 0, data := readBytes 32, win := inWindow va }] }

/-- A block of the buffer that is older than the context's last synchronisation is read again (R80), and the response tells the NI the
page's kind (R410). Where its slice is busy in this cycle, or an earlier held access comes first, the context waits; where the NI is
refused, the block goes the way of a miss, whose request the NI sends again (R108, R368). -/
def State.refresh (s : State) (b : IBlk) : Except XFault (State × Fetched) :=
  let o := { s.fetchOp b.va with id := s.nid }
  match o.parts with
  | p :: _ =>
    match s.readBlock o p with
    | .ok (u, x, n, bs) =>
      if !(s.slotFree n) || s.heldBehind o 0 p then .ok (s, .busy)
      else if !(s.accepts (s.vfOfCore s.cid) p.va n none) then .ok (s, .miss)
      else
        let u := u.takeKinds { o with parts := [p.performed u n x] }
        .ok ((u.modCore s.cid (fun k => k.addBlock { b with data := BitVec.ofNat 256 (ofBytes bs), at_ := s.now })).admitted n none,
          decodeAt s.me.pc (BitVec.ofNat 256 (ofBytes bs)))
    | .error (some f) => if s.heldBehind o 0 p then .ok (s, .busy) else .error f
    | .error none => .ok (s, .miss)
  | [] => .ok (s, .busy)

/-- The block at `va` in the buffer, or read again, and what stands at the pc in it. -/
def State.fetchBlock (s : State) (va : Nat) : State × Fetched :=
  match s.myCore.ibuf.find? (fun b => b.va == va) with
  | none => (s, .miss)
  | some b =>
    if s.me.sync ≤ b.at_ then (s.modCore s.cid (fun k => k.touch b), decodeAt s.me.pc b.data)
    else
      match s.refresh b with
      | .ok r => r
      | .error f => (s.reportTo (s.vfOfCore s.cid) (s.relocate s.cid va) f, .trap f.cause (BitVec.ofNat 64 va))

/-- Fetch at the acting context's pc: the state in which the block has been fetched, and what stands there. -/
def State.fetch (s : State) : State × Fetched :=
  let c := s.me
  let va := c.pc.toNat / 32 * 32
  if 2 ^ 52 ≤ c.pc.toNat then (s, .trap 0x0B c.pc)
  else if c.pc.toNat < 2 ^ 32 then (s, .trap 0x08 c.pc)
  else
    match c.fetchF with
    | some (blk, cause, val) =>
      let u := s.setMe { c with fetchF := none }
      if blk = va then (u, .trap cause val) else u.fetchBlock va
    | none => s.fetchBlock va

/-- A fetch misses: the context parks, and the block is asked for (R108). -/
def State.fetchPark (s : State) : State :=
  let va := s.me.pc.toNat / 32 * 32
  let u := if s.ops.any (fun o => o.ctx == s.cur && o.kind == .fetch) then s
    else s.launchOp (s.fetchOp va) 0 (s.now + s.globalLat s.cid (s.relocate s.cid va))
  u.park .fetch

/-- The interrupt or notice that the context takes in place of its instruction (R40, R301). -/
def State.between (s : State) : Option State :=
  match (if s.irqPending s.cur then s.irqEntry else none) with
  | some u => some u
  | none => s.noticeEntry

/-- The outcome of an instruction at its issue point: its own trap comes before an interrupt (R40). -/
def State.orBetween (s : State) (r : Out1) : Out1 :=
  match r with
  | .next u => if u.last == .trapped then .next u else .next (s.between.getD u)
  | r => r

/-- `wfi` and `mwait` issue and end at once where an interrupt is pending and enabled; it is taken behind them (R122, R168). One that
the instruction before, or the wait before, left standing is taken in their place (R117, R122). -/
def State.endsAtOnce (s : State) (i : Instr) (r : Out1) : Bool :=
  (match i with
    | .wfi k | .mwait k _ _ => s.maskBit k 0 && s.irqPending s.cur && !s.me.irqDue
    | _ => false) &&
  (match r with
    | .next u => u.last == .issued
    | _ => false)

/-- An instruction has issued: the interrupt that it leaves standing is taken at the next issue point (R117). -/
def noteDue (a : Nat) (r : Out1) : Out1 :=
  match r with
  | .next u => .next (if u.last == .issued && u.cur == a then u.modCtx a (fun c => { c with irqDue := u.irqStands a }) else u)
  | r => r

/-- An issue point of the acting context. A late trap or a watchdog trap that stands at the issue point of a `wfi` is taken before it, as
R40 and R157 order them: `kepc` is the `wfi` (DEDUCED, log 22, against R122, by which a condition that holds at issue gives Next). -/
def State.issuePoint (s : State) : Out1 :=
  if s.lateReady s.cur then .next ((s.lateTrap).getD s)
  else if s.me.post != .none then .next ((if s.irqPending s.cur then s.irqEntry else none).getD s)
  else
    match s.fetch with
    | (u, .miss) => u.orBetween (.next u.fetchPark)
    | (u, .busy) => u.orBetween (.next (u.park .fetch))
    | (u, .trap cause val len) => .next ((u.takeTrap cause val u.me.pc false false).endedPast len)
    | (u, .instr (.fillWord b)) => exec (.fillWord b) u
    | (u, .instr i) => noteDue s.cur (if u.endsAtOnce i (exec i u) then exec i u else u.orBetween (exec i u))

end Sys2Proof.Machine
end

