-- ==== Sys2Proof/Machine/Schedule.lean ====
section
/-!
DEFINITION. Who acts next. The manual leaves the order of most events open and gives reference latencies; the agenda of the
state names the next turns, and when it is empty the turns follow the reference timing (log 4): what is due, then the
issue slots of the cores (R151-R153), then the next cycle at which something can happen.
-/

namespace Sys2Proof.Machine

/-- Something that may happen from a cycle on. -/
abbrev Duty := Nat × Instr

/-! ### Duties at their reference times -/

/-- The turn of a part of an access at its well or slice. -/
def State.partDuty (s : State) (o : Op) (k : Nat) (p : Part) : List Duty :=
  let lat := s.partLat (o.ctx / 16) p
  if p.st != .todo || !o.sent then []
  else if p.well.isSome then [(o.issued + lat, .wellPortAccess o.id k)]
  else
    let at_ := o.issued + (if o.kind.isStore then lat else lat / 2)
    let late : Duty := (at_, .lateFault o.id k false)
    if o.kind.isStore then [(at_, .linePartPerform o.id k), late]
    else if o.kind.byParts then [(at_, .loadPartPerform o.id k), late]
    else if o.kind.atSlice then [(at_ + (match o.kind with
      | .vamo _ => k
      | _ => 0), .sliceStep o.id k), late]
    else []

/-- What an outstanding operation still has to do. -/
def State.opDuties (s : State) (o : Op) : List Duty :=
  (o.parts.zipIdx).flatMap (fun (p, k) => s.partDuty o k p) ++
  (match o.kind with
    | .store | .wb | .inv | .atom .red _ _ _ => [(o.due, .storeAcknowledge o.id)]
    | .vamo _ => [(o.due, .resultArrival o.id), (o.due, .vamoLaneFault o.id)]
    | .rfill _ _ _ => [(o.due, .remoteFillDelivery o.id), (o.due, .resultArrival o.id)]
    | .tdec _ _ => [(o.due, .decrementAtHome o.id)]
    | .fetch => [(o.due, .fetchMiss (o.ctx / 16) (o.ctx % 16))]
    | .pf => []
    | _ => [(o.due, .resultArrival o.id)])

/-- The end of a scheduled change of a well. -/
def WMove.duty (m : WMove) : Duty :=
  (m.base + m.delay,
    match m.kind with
    | .pass => .wellMoveComplete m.id
    | .attach _ => .wellAttachComplete m.id
    | .clear => .wellClearComplete m.id
    | .mode _ => .wellModeChange m.id
    | .detach | .free => .wellFree m.id)

/-- The next start of a network slot (R331). -/
def nextSlotStart (now : Nat) : Nat := (now + 31) / 32 * 32

/-- The copy that the engine of its cluster performs for a core: its next step, or its end. -/
def State.copyDuties (s : State) (core : Nat) : List Duty :=
  match s.servedCopy core with
  | some o =>
    if o.done then [(o.fin, .copyComplete core)]
    else
      let (t, n) := s.copyDue o
      [(t, .engineCopy { core, num := n }), (t, .engineCopy { core, num := 1 }), (t, .engineFault { core })]
  | none => []

/-- The head of a core's exchange queue: its start, a marker, or the units that have not landed, four cycles apart. -/
def State.exchDuties (s : State) (core : Nat) (k : Core) : List Duty :=
  match k.eq.head? with
  | some o =>
    if o.start.isNone then [(s.now, .exchangeOpStart core)]
    else
      match o.kind with
      | .smark _ => [(o.fin, .markerSend core), (nextSlotStart (s.now + 1), .markerSend core)]
      | _ =>
        (if o.nextAccess.isSome then [((o.start.getD 0) + o.pos, .engineFault { core }), ((o.start.getD 0) + o.pos, .exchangeOpStart core)]
          else []) ++
        (s.targets core o).map (fun c => (o.fin - 4 * (o.landing.1 / 64 - 1 - Tbl.get 0 o.landed c), .unitLanding core c))
  | none => []

/-- The reference time of the next access of an array operation that has started, or of its end (R320). -/
def arrayDue (o : EOp) : Nat :=
  let S := o.start.getD 0
  match o.nextAccess, o.kind with
  | none, _ => o.fin
  | some _, .cpass _ _ _ _ _ => S + o.pos
  | some _, _ => S + o.wellLat + o.pos + 1

/-- The array of a core: a start, a `clw` that joins a pass (R321), and what goes on or ends next. -/
def arrayDuties (core now : Nat) (k : Core) : List Duty :=
  (match k.aq with
    | o :: _ => [(now, .arrayOpStart core), (o.start.getD 0 + 128, .arrayOpStart core)]
    | [] => []) ++
  (match k.endsNext now with
    | some o => [(arrayDue o, .engineFault { core }), (arrayDue o, .arrayOpComplete core)]
    | none => []) ++
  (match k.aq with
    | _ :: w :: _ => if w.start.isSome then [(w.fin, .engineFault { core }), (w.fin, .arrayOpComplete core)] else []
    | _ => [])

/-- What the engines, queues and the NI of a core have to do. -/
def State.coreDuties (s : State) (core : Nat) (k : Core) : List Duty :=
  (if (s.exchFault core).isSome then [(s.now, .engineFault { core })] else []) ++
  s.copyDuties core ++ s.exchDuties core k ++ arrayDuties core s.now k ++
  (k.seqs.filter (fun (_, q) => q.running)).map (fun (n, q) => (Nat.max s.now q.next, .sequencerRecord core n)) ++
  (k.refu.filter (fun r => r.gen.isNone && !r.permit && !r.again)).map (fun r => (r.at_ + 1024, .noresHoldExpiry r.op r.part)) ++
  (if k.refu.any (fun r => r.gen.isSome && !r.again) then [(s.now, .genReplay core)] else []) ++
  (match k.sleep with
    | .waking t => [(t, .wakeEnd core)]
    | _ => [])

/-- What a context waits for by itself. -/
def State.ctxDuties (s : State) (a : Nat) (c : Ctx) : List Duty :=
  let core := a / 16
  let tid := a % 16
  (match c.post with
    | .mwait _ t tmo _ => if tmo = 0 then [] else [(t + tmo, .mwaitTimeout core tid)]
    | _ => []) ++
  (if c.life == .running && c.kipE.getLsbD 1 && (c.post != .none || (s.coreAt core).sleep != .awake) then
    [(c.ktcmp.toNat, .timerPending core tid)] else []) ++
  (if s.lockWait a then [(s.now, .lockstepStall core tid)] else []) ++
  [0, 1, 2, 3].flatMap (fun (n : Fin 4) =>
    let p := c.port false n.val
    if p.bound.isNone || p.words.isEmpty then []
    else [(s.now, .wordInjection core tid n), (nextSlotStart (s.now + 1), .wordInjection core tid n)])

/-- What a team has to do. -/
def State.teamDuties (s : State) (t : Team) : List Duty :=
  let wd := (s.launchAt t.launch).bind (fun l => l.hdr.watchdog)
  let groups := ((s.launchAt t.launch).map (fun l => l.groups.map (·.1))).getD []
  t.groups.map (fun (g, x) => (x.last + 60, .episodeComplete t.id g)) ++
  (if t.onDevice then groups.flatMap (fun g =>
    [s.now, (t.cores.filterMap (fun c => (s.nredAt c g).map (fun o => o.fin - o.landing.1 / 16))).foldl Nat.max 0].map
    (fun at_ => (at_, Instr.networkReduction t.id g))) else []) ++
  (match wd with
    | some lim => t.tstate.filterMap (fun (n, x) =>
        match x with
        | .taken _ since false => some (since + lim + 1, Instr.watchdogExpiry t.id n)
        | _ => none)
    | none => []) ++
  (match t.st with
    | .stopping at_ => [at_, at_ + 20000].map (fun d => (d, .synchronizedStop ((s.teams.filter (fun u => u.st == .stopping at_)).map (·.id))))
    | .restoring => [(s.now, .teamRestore t.id)]
    | _ => [])

/-- What the device's NI holds for a function. -/
def VF.holds (v : VF) : List DevHold :=
  ((v.pass.bind (·.at_)).bind (·.2.hold)).toList ++ v.preps.filterMap (·.acc.hold) ++
  v.queues.filterMap (fun (_, q) => q.ending.bind (·.acc.hold))

/-- The device has something to do for a function between boundaries. -/
def VF.busy (v : VF) : Bool := v.pass.isSome || !v.preps.isEmpty || v.queues.any (fun (_, q) => q.ending.isSome)

/-- What a virtual function has to do. -/
def State.vfDuties (s : State) (vf : Nat) (v : VF) : List Duty :=
  let q := v.quantum.toNat
  let from_ := if v.lastQ == some s.now then s.now + 1 else s.now
  (if v.live && q != 0 then [(nextMultiple q from_, .schedulerQuantum vf)] else []) ++
  (if v.busy then (s.now :: v.holds.map (fun h => h.at_ + 1024)).map (fun t => (t, .schedulerQuantum vf)) else []) ++
  (if v.sdRun.isSome then [(s.now, .shootDownComplete vf)] else []) ++
  (match v.move with
    | some m => m.lines.map (fun l => (s.now, .lineMove vf l))
    | none => []) ++
  (if v.pend.isEmpty then [] else [(s.now, .patchTaken vf)]) ++
  (if v.newMask.isSome then [(s.now, .masksTaken vf)] else []) ++
  (match v.rst with
    | some t => (if v.wiped then [s.now] else [t + 138784, t + 400000]).map (fun d => (d, .resetDone vf))
    | none => []) ++
  v.answers.map (fun r => (s.now, .pageResolved vf r.page r.tok))

/-- The recurring record of the timebase (R229). -/
def State.recordDuty (s : State) : Duty :=
  (nextMultiple (2 ^ 31) (if s.pkg.nv.count = s.cyc.toNat then s.now + 1 else s.now), .timebaseRecord)

/-- Everything that may happen by itself, earliest first. -/
def State.duties (s : State) : List Duty :=
  sortBy (fun (a b : Duty) => decide (a.1 ≤ b.1)) (
    s.ops.flatMap s.opDuties ++
    (s.sb.filter (fun e => e.level != .die)).map (fun e => (e.due, .entryMoveOutward e.op e.part e.piece)) ++
    s.moves.map WMove.duty ++
    s.cores.flatMap (fun (n, k) => s.coreDuties n k) ++
    s.ctxs.flatMap (fun (a, c) => s.ctxDuties a c) ++
    s.net.flits.map (fun f => (f.due, .wordDelivery f.id)) ++
    s.net.tokens.map (fun m => (m.by_, .errorTokenArrival m.launch m.core)) ++
    (s.net.rbufs.filter (fun (_, b) => !b.packets.isEmpty)).map (fun (n, b) => (b.since + 4096, .deadlockProbe n)) ++
    (if s.net.cycles.isEmpty then [] else [(s.now, .deadlockRecoveryStep)]) ++
    (s.mem.slices.filter (fun (_, x) => !x.permits.isEmpty || x.full)).map (fun (n, _) => (s.now, .retryPermit n)) ++
    s.teams.flatMap s.teamDuties ++
    s.launches.map (fun l => (s.now, .launchEnd l.id)) ++
    (s.pkg.owed.take 1).map (fun (lo, _, _) => (s.now, .frameScrub lo)) ++
    (s.clus.filter (fun (_, c) => c.revoke.isSome)).map (fun (n, _) => (s.now, .returnToLender n)) ++
    s.vfs.flatMap (fun (n, v) => s.vfDuties n v) ++
    [s.recordDuty])

/-- The event changes something. -/
def State.wouldFire (s : State) (e : Instr) : Bool :=
  match exec e s with
  | .next u => u != s
  | _ => false

/-! ### Issue slots (R151-R153) -/

/-- At its issue point the context would issue, trap or send an access rather than park or wait on. A trigger of a lockstep team
issues only when its stall is over (R335). -/
def State.acts (s : State) (a : Nat) : Bool :=
  let u : State := { s with cur := a, last := .issued }
  if s.lateReady a then true
  else if (s.ctxAt a).post != .none then s.irqStands a
  else
    match u.issuePoint with
    | .next t => if s.lockWait a then t.last == .trapped else t.last != .parked || t.ops.any (fun o => decide (s.nid ≤ o.id))
    | _ => false

/-- The context has an issue point in this cycle that changes something. -/
def State.canGo (s : State) (a : Nat) : Bool :=
  s.atIssue a && (((s.ctxAt a).parked.isNone && (s.ctxAt a).post == .none) || s.acts a)

/-- The scribe has the slot of cycle `now`; in the three cycles before it rotation passes it over (R153). -/
def scribeHas (now : Nat) : Bool := now % 16 == 15
def scribeWaits (now : Nat) : Bool := decide (12 ≤ now % 16) && decide (now % 16 ≤ 14)

/-- The contexts of a core in the order in which the slot of this cycle is offered to them (R152, R153). -/
def State.offerOrder (s : State) (core : Nat) : List Nat :=
  let rot := ((List.range 16).map (fun i => ((s.coreAt core).rot + 1 + i) % 16))
  if (s.hdrOf core).scribe then
    if scribeHas s.now then 15 :: rot.filter (fun t => t != 15)
    else if scribeWaits s.now then rot.filter (fun t => t != 15)
    else rot
  else rot

/-- The context that the slot of this cycle goes to. -/
def State.slotTo (s : State) (core : Nat) : Option Nat :=
  ((s.offerOrder core).map (fun t => 16 * core + t)).find? s.canGo

/-- The core's slot of this cycle comes to a trap that freezes it, after contexts that park or move on without using it. -/
def State.comesToFreeze : Nat → Nat → State → Bool
  | 0, _, _ => false
  | fuel + 1, core, s =>
    match s.slotTo core with
    | some a =>
      (match ({ s with cur := a } : State).issuePoint with
        | .next t => (t.coreAt core).frozen.isSome || (decide ((t.coreAt core).slotAt ≤ s.now) && State.comesToFreeze fuel core t)
        | _ => false)
    | none => false

/-- The slot of this cycle goes to a trap that freezes the core: it comes before the cycle's other well operations (R221). The fuel is more
than the fill words that sixteen contexts can pass in one cycle: a buffer holds 16,384 words (R108). -/
def State.freezes (s : State) (core : Nat) : Bool :=
  (s.hdrOf core).traps.getLsbD 6 && (s.coreAt core).frozen.isNone && State.comesToFreeze 270000 core s

/-- The core has used its slot of this cycle, and not for a freeze. -/
def Core.issuedIn (k : Core) (now : Nat) : Bool := k.slotAt == now + 1 && k.frzAt != some now

/-- The core whose slot is given next in this cycle: freezes first (R221), then cores in ascending order (R209). A core that becomes
ready, or comes to a freeze, when that order has passed it goes on in the next cycle (log 4). -/
def State.nextSlot (s : State) : Option Nat :=
  match ((s.cores.filter (fun (_, k) => k.issuedIn s.now)).map (·.1)).getLast? with
  | none =>
    (match s.cores.find? (fun (n, _) => s.freezes n) with
      | some (n, _) => some n
      | none => (s.cores.find? (fun (n, _) => (s.slotTo n).isSome)).map (·.1))
  | some m => (s.cores.find? (fun (n, _) => decide (m < n) && (s.slotTo n).isSome && !(s.freezes n))).map (·.1)

/-! ### The end of a park and of a sleep (R154, R161) -/

/-- What the context would park for at its issue point. -/
def State.parksFor (s : State) (a : Nat) : Option Wait :=
  match ({ s with cur := a, last := .issued } : State).issuePoint with
  | .next t => if t.last == .parked then (t.ctxAt a).parked else none
  | _ => none

/-- A context whose waiting condition has cleared is no longer parked, or parks for what it waits for then (R155). A lockstep
team's trigger ends with its own event (R335). -/
def State.unpark (s : State) (a : Nat) : State :=
  let c := s.ctxAt a
  if c.parked.isNone || c.life != .running || s.lockWait a then s
  else if s.acts a then s.modCtx a (fun c => { c with parked := none })
  else
    let w := s.parksFor a
    match w with
    | some w => s.modCtx a (fun c => c.parkFor w s.now)
    | none => s

/-- Every parked context of a core that is awake. -/
def State.unparkAll (s : State) : State :=
  ((s.ctxs.filter (fun (a, c) => c.parked.isSome && (s.coreAt (a / 16)).sleep == .awake)).map (·.1)).foldl State.unpark s

/-- A sleeping core wakes when one of its contexts becomes able to issue (R161). -/
def State.wakeCore (s : State) (core : Nat) : State :=
  let u := s.modCore core (fun k => { k with sleep := .awake })
  if (List.range 16).any (fun t => !(((u.settlePost (16 * core + t)).unpark (16 * core + t)).resting (16 * core + t))) then
    s.modCore core (fun k => k.wake s.now)
  else s

/-- Every sleeping core. -/
def State.wakeCores (s : State) : State :=
  (s.cores.filter (fun (_, k) => match k.sleep with
    | .asleep _ => true
    | _ => false)).foldl (fun s (n, _) => s.wakeCore n) s

/-! ### The next turn -/

/-- The start input of a part on which every step succeeds. -/
def goodStart : BootInput :=
  { romOk := true, sigOk := true, versOk := true, linksOk := true, itnikOk := true, keyOk := true, scrubOk := true, stackFails := [], badSlices := [],
    badClusters := [], badCxl := [], badPorts := [], pkgid := 0 }

/-- A cycle after this one at which a context may be able to go. -/
def State.ctxTimes (s : State) (a : Nat) (c : Ctx) : List Nat :=
  if c.life != .running then []
  else
    (match c.lastAt with
      | some t => [t + 4]
      | none => []) ++
    [c.holdTo, c.rfAt] ++ (s.coreAt (a / 16)).stall.map (·.2) ++ ((s.coreAt (a / 16)).cw.map (fun w => w.at_ + 3)) ++
    (if c.kipE.getLsbD 1 then [c.ktcmp.toNat] else []) ++
    (if c.parked.isNone && c.post == .none then [s.now + 1] else [])

/-- Cycles after this one at which a slice or a well's port takes requests again (R203, R225), or the host's link sends one again
(R368). -/
def State.portTimes (s : State) : List Nat :=
  s.mem.slices.filterMap (fun (_, x) => x.last.map (fun l => 2 * (l + 1))) ++ s.mem.ports.map (·.2) ++
  s.held.map (fun h => h.at_ + 1024)

/-- The next cycle at which something can happen. -/
def State.nextTime (s : State) : Nat :=
  ((s.duties.map (·.1) ++ s.ctxs.flatMap (fun (a, c) => s.ctxTimes a c) ++ s.portTimes).filter (fun t => s.now < t)).foldl Nat.min
    (s.now + 2 ^ 31)

/-- The stream of a team has reserved slots (R329, R331). -/
def State.reserved (s : State) (t : Team) (num : Nat) : Bool :=
  match s.launchAt t.launch with
  | some l => l.streams.any (fun x => x.num == num && x.slots != 0)
  | none => false

/-- An event whose cycle the manual fixes: the timebase does not pass it (R161, R182, R197, R207, R211-R217, R229, R332, R335). -/
def State.fixed (s : State) (e : Instr) : Bool :=
  match e with
  | .timebaseRecord | .wakeEnd _ | .lockstepStall _ _ | .wellMoveComplete _ | .wellAttachComplete _ | .wellClearComplete _
  | .wellModeChange _ | .wellFree _ => true
  | .schedulerQuantum vf => s.boundary vf
  | .wordInjection core tid n =>
    (match s.teamOf core, ((s.ctxAt (16 * core + tid)).port false n.val).bound with
      | some t, some num => s.reserved t num
      | _, _ => false)
  | .wordDelivery id =>
    (match s.net.flits.find? (fun f => f.id == id) with
      | some f => s.teams.any (fun t => t.id == f.team && s.reserved t f.stream)
      | none => false)
  | _ => false

/-- A turn that this cycle still owes: an event whose cycle is this one, an issue slot for which a context is ready (R152), or a
core that goes to sleep (R161). -/
def State.owedTurn (s : State) : Option Turn :=
  match s.duties.find? (fun d => decide (d.1 ≤ s.now) && s.fixed d.2 && s.wouldFire d.2) with
  | some d => some (.event d.2)
  | none =>
    match s.nextSlot with
    | some n => some (.slot n)
    | none => (s.cores.find? (fun (n, _) => s.wouldFire (.registerFileSleep n))).map (fun p => .event (.registerFileSleep p.1))

/-- The turn that follows when the agenda is empty. -/
def State.nextTurn (s : State) : Turn :=
  if s.pkg.boot == .cold then .event (.deviceStart goodStart)
  else
    match s.duties.find? (fun d => decide (d.1 ≤ s.now) && s.wouldFire d.2) with
    | some d => .event d.2
    | none => s.owedTurn.getD (.tick s.nextTime)

/-- The function that an event of the host is for. -/
def hostVf : Instr → Option Nat
  | .hostCoherentAccess q | .hostRawAccess q | .hostTierAccess q | .hostAccessToNoRegion q => some q.vf
  | .registerWindowWrite vf _ _ | .quantumWrite vf _ | .sdoor vf _ | .reset vf _ | .carveoutWrite vf _ _ | .sdgo vf _ | .mvgo vf _
  | .prq vf | .prans vf _ | .gpgo vf _ | .gdef vf _ | .qtail vf _ _ | .qctlResume vf _ _ | .irqstatClear vf _ => some vf
  | _ => none

/-- The function of a region. -/
def Region.vf : Region → Option Nat
  | .window vf _ | .coherent vf _ | .raw vf _ => some vf
  | .firmware _ | .tier _ => none

/-- The turn is an access of the host to a function for which the link holds an earlier one: it has not crossed yet (R374). -/
def State.linkWaits (s : State) (t : Turn) : Bool :=
  match t with
  | .event e => (hostVf e).any s.linkHolds
  | .link q => (((regionOf q.addr).bind Region.vf).getD q.vf |> s.linkHolds)
  | _ => false

/-- The turn of this step, and the state without it. -/
def State.turn (s : State) : Turn × State :=
  match s.agenda with
  | t :: rest => if s.linkWaits t then (s.nextTurn, s) else (t, { s with agenda := rest })
  | [] => (s.nextTurn, s)

/-! ### Accesses of the host by Itnik address (R372) -/

/-- A write of a register of a function's window: the event that it is (R375). -/
def windowWrite (vf off : Nat) (v : Word) (s : State) : Out1 :=
  if off = 0x018 then execQuantumWrite vf v s
  else if off = 0x020 then execSdoor vf v s
  else if off = 0x030 then execReset vf v s
  else if off = 0x048 then execCarveoutWrite vf false v s
  else if off = 0x050 then execCarveoutWrite vf true v s
  else if off = 0x090 then execSdgo vf v s
  else if off = 0x0B0 then execMvgo vf v s
  else if off = 0x0C8 then execPrans vf v s
  else if off = 0x0E0 then execGpgo vf v s
  else if off = 0x0F0 then execGdef vf v s
  else if off = 0x308 then execIrqstatClear vf v s
  else if 0x100 ≤ off && off < 0x300 && off % 32 = 24 then execQtail vf (Fin.ofNat 16 ((off - 0x100) / 32)) v s
  else if 0x100 ≤ off && off < 0x300 && off % 32 = 8 && v.getLsbD 10 then execQctlResume vf (Fin.ofNat 16 ((off - 0x100) / 32)) v s
  else execRegisterWindowWrite vf off v s

/-- A write of `fwcmd`: the command that it is, with the arguments that stand in the window (R377). -/
def commandWrite (code : Word) (s : State) : Out1 :=
  let (a, b, c) := (s.pkg.fwarg0, s.pkg.fwarg1, s.pkg.fwarg2)
  match code.toNat with
  | 0x01 => execCreateFunction a b c s
  | 0x02 => execAddCluster a b c s
  | 0x03 => execRemoveCluster a b c s
  | 0x04 => execAddSlice a b c s
  | 0x05 => execWriteHashMask a b c s
  | 0x06 => execLendCluster a b c s
  | 0x07 => execRevokeLentCluster a b c s
  | 0x08 => execBindExport a b c s
  | 0x09 => execDestroyFunction a b c s
  | 0x0A => execClearBootRecord a b c s
  | 0x0B => execAttestationReport a b c s
  | _ => execUnlistedCommand code s

/-- The host accesses an Itnik address: the event that the access is, or the bytes that it reads of a window (R372, R375, R377). -/
def State.linkAccess (s : State) (q : HostAcc) : Out1 :=
  match regionOf q.addr with
  | none => execHostAccessToNoRegion q s
  | some r =>
    if !(r.takes q.len) then execHostAccessToNoRegion { q with vf := r.vf.getD q.vf } s
    else
      match r, q.wr with
      | .window vf off, none =>
        if off = 0x0C0 then execPrq vf s else .next (s.giveHost q.addr (toBytes 8 (s.readWindow vf off).toNat))
      | .window vf off, some bs => windowWrite vf off (BitVec.ofNat 64 (ofBytes bs)) s
      | .firmware off, none => .next (s.giveHost q.addr (toBytes 8 (s.readFirmware off).toNat))
      | .firmware off, some bs =>
        let w := BitVec.ofNat 64 (ofBytes bs)
        if off = 0x008 then commandWrite w s else execRegisterWindowWrite 64 off w s
      | .coherent vf va, _ => execHostCoherentAccess { q with vf, addr := va } s
      | .raw vf ia, _ => execHostRawAccess { q with vf, addr := ia } s
      | .tier t, _ => execHostTierAccess { q with addr := t } s

/-- The slot that is given next in this cycle goes to the context (R152, R153, R209, R221). -/
def State.hasSlot (s : State) (a : Nat) : Bool :=
  s.pkg.boot == .up && s.nextSlot == some (a / 16) && s.slotTo (a / 16) == some a

/-- The context that takes an issue point in the event. -/
def slotUser : Instr → Option Nat
  | .trapEntry core tid | .interruptEntry core tid | .noticeDelivery core tid => some (16 * core + tid)
  | _ => none

/-- An issue slot goes to the context whose it is, and to no other (R152). -/
def State.giveSlot (s : State) (a : Nat) : Out1 :=
  if s.hasSlot a then ({ s with cur := a } : State).issuePoint else .next s

/-- Take a turn. Instructions are fetched; only events come from outside (a word is no event), and the timebase moves on only
where its cycle owes nothing, to a cycle before which nothing is owed. -/
def State.takeTurn (s : State) (t : Turn) : Out1 :=
  let t := match t with
    | .tick _ => if s.pkg.boot == Boot.up then s.owedTurn.getD t else t
    | _ => t
  match t with
  | .issue core tid => s.giveSlot (16 * core + tid)
  | .slot core =>
    match s.slotTo core with
    | some a => s.giveSlot a
    | none => .next s
  | .event e => if (encodeWord e).isNone && (slotUser e).all s.hasSlot then exec e s else .next s
  | .tick t => .next { s with now := Nat.max s.now (Nat.min t s.nextTime) }
  | .link q => s.linkAccess q
  | .packet b p => .next (s.packetIn b p)
  | .hop b => .next (s.hop b)

/-- What follows of itself after a turn. -/
def follow (r : Out1) : Out1 :=
  match r with
  | .next u => .next u.settle.unparkAll.wakeCores
  | r => r

/-- The turn starts the part. -/
def Turn.starts : Turn → Bool
  | .event (.deviceStart _) => true
  | _ => false

/-- A turn of a part that has not started, or whose start has stopped: a start, a loss of power, the timebase, and a read of the
firmware window, which shows the step that failed (R400). -/
def Turn.unstarted : Turn → Bool
  | .event (.deviceStart _) | .event .powerLoss | .tick _ => true
  | .link q => q.wr.isNone && (match regionOf q.addr with
    | some (.firmware _) => true
    | _ => false)
  | _ => false

end Sys2Proof.Machine
end

