-- ==== Sys2Proof/Machine/Step.lean ====
section
/-!
DEFINITION. One step of the machine: the next turn and what follows of it. A part without power takes no turn but a start; one that
has not started, or whose start a failed required step stopped, accepts no command and runs nothing (R400, R403).
-/

namespace Sys2Proof.Machine

def step (s : State) : Host.Outcome State Fault Refusal :=
  let (t, u) := s.turn
  match s.pkg.boot with
  | .off => if t.starts then follow (u.takeTurn t) else .fault .poweredOff
  | .cold | .stopped _ => if t.unstarted then follow (u.takeTurn t) else .next u
  | .up => follow (u.takeTurn t)

/-- The state with an instruction of the opcode table stored where the next step fetches: context 0 of core 0 runs at U with
the instruction at its pc in the core's instruction buffer, on a part that has started, and the next turn is its
issue point. It stands for what the host and the launch do before (log 10). -/
def State.withFetchWord (s : State) (nbits w : Nat) : State :=
  let va : Nat := 0x400000140
  let u := s.setPkg { s.pkg with boot := .up }
  let u := u.modCore 0 (fun k => { k with ibuf := [{ va, data := BitVec.ofNat 256 (w % 2 ^ nbits), at_ := u.now }], sleep := .awake, slotAt := u.now })
  let u := u.modCtx 0 (fun c => { c with
    life := .running, pc := BitVec.ofNat 64 va, parked := none, post := .none, lastAt := none, sync := u.now, lates := [] })
  { u with agenda := [.issue 0 0] }

end Sys2Proof.Machine
end

