-- ==== Sys2Proof/Safety.lean ====
section
/-!
DEFINITION. The terms in which claims are made: when an instruction is ready to act, what counts as a state whose memories
are sound, what a step leaves alone, and when one byte of the memory that a context sees is what it was.
-/

namespace Sys2Proof

/-! ### Exact values and the results that stand for them -/

/-- c × 2^u is at most the p-th root of a/b, and at least that root. -/
def atMost (p a b c : Nat) (u : Int) : Prop := (scale2 c 1 u).1 ^ p * b ≤ a * (scale2 c 1 u).2 ^ p
def atLeast (p a b c : Nat) (u : Int) : Prop := a * (scale2 c 1 u).2 ^ p ≤ (scale2 c 1 u).1 ^ p * b

/-- The p-th root of a/b lies below the top binade of a format, and is not a tiny value that `ftz` flushes (R55-R57). -/
def Fmt.inRange (f : Fmt) (ftz : Bool) (p a b : Nat) : Prop :=
  0 < a ∧ 0 < b ∧ ¬ atMost p a b 1 f.emax ∧ (ftz = true → f.flush = true → atMost p a b 1 f.emin)

/-- The result is the value v = the p-th root of a/b, with a sign, rounded once (R53, R56): q × 2^u for a whole q of the format's significand,
or at the exponent of its subnormals. To nearest v is within half a unit of it, and a tie goes to an even q; toward zero it is the last at or
below v, and away from zero the first at or above it. NX tells whether it differs from v; UF comes only with NX, for every v below
the smallest normal value that stays there, and for none that is not. -/
def Fmt.rounded (f : Fmt) (rm : Rm) (neg : Bool) (p a b : Nat) (r : Nat × Flags) : Prop :=
  ∃ (q : Nat) (u : Int), f.read false r.1 = .fin neg q u ∧ (2 ^ f.m ≤ q ∨ u = f.emin - f.m) ∧
    (rm = 0 → atMost p a b (2 * q - 1) (u - 1) ∧ atLeast p a b (2 * q + 1) (u - 1) ∧
      (atMost p a b (2 * q + 1) (u - 1) ∨ (0 < q ∧ atLeast p a b (2 * q - 1) (u - 1)) → q % 2 = 0)) ∧
    (rm = 1 ∨ (rm = 2 ∧ neg = true) ∨ (rm = 3 ∧ neg = false) → atMost p a b q u ∧ ¬ atMost p a b (q + 1) u) ∧
    ((rm = 2 ∧ neg = false) ∨ (rm = 3 ∧ neg = true) → atLeast p a b q u ∧ ¬ atLeast p a b (q - 1) u) ∧
    (r.2.getLsbD 0 = false ↔ atMost p a b q u ∧ atLeast p a b q u) ∧
    (r.2 = 0 ∨ r.2 = fNX ∨ r.2 = fUF ||| fNX) ∧ (q < 2 ^ f.m → r.2 ≠ fNX) ∧ (atMost p a b 1 f.emin → r.2 ≠ fUF ||| fNX)

/-- The order of two values that are not NaN: minus infinity, the finite values with -0 = +0, plus infinity (R131). -/
def FVal.below (p q : FVal) : Prop :=
  match p, q with
  | .inf a, .inf b => a = true ∧ b = false
  | .inf a, .fin _ _ _ => a = true
  | .fin _ _ _, .inf b => b = false
  | .fin i n d, .fin j m e => sgn i (n * 2 ^ (d - min d e).toNat) < sgn j (m * 2 ^ (e - min d e).toNat)
  | _, _ => False

/-- Node `j` of level `l` of the tree of R73 over numbered leaves: two inputs are combined, one passes unchanged. -/
def treeNode (f : α → α → α) (leaf : Nat → Option α) : Nat → Nat → Option α
  | 0, j => leaf j
  | l + 1, j =>
    match treeNode f leaf l (2 * j), treeNode f leaf l (2 * j + 1) with
    | some x, some y => some (f x y)
    | some x, none => some x
    | none, y => y

end Sys2Proof

namespace Sys2Proof.Machine

/-! ### Readiness (R23, R24, R86, R154) -/

/-- The k field lets the instruction act: bit 0 of `kk` is set, or `k0` is named (R86). -/
def State.acting (s : State) (k : MReg) : Bool := s.maskBit k 0

/-- Every scalar source is full, every queue port that is read holds a word (R21, R23). -/
def State.allFull (s : State) (ns : List SReg) : Bool := ns.all (fun n => (s.regAt n.val).full)

/-- The scalar destination takes a result: no deferred result is outstanding for it; an output queue has room (R21, R24). -/
def State.takes (s : State) (d : Nat) : Bool :=
  if d = 0 then true
  else if d < 56 then !(s.regAt d).pend
  else if d < 60 then decide ((Tbl.get {} s.me.qout (d - 56)).words.length < 16)
  else true

/-- The instruction acts, its scalar sources are full and its scalar destination takes a result. -/
def State.ready (s : State) (k : MReg) (ns : List SReg) (d : Nat) : Bool := s.acting k && s.allFull ns && s.takes d

/-- Every vector source is full (R23). -/
def State.vecFull (s : State) (vs : List VReg) : Bool := vs.all (fun v => (s.vecAt v).full)

/-- No deferred result is outstanding for a vector destination (R24). -/
def State.vecTakes (s : State) (d : VReg) : Bool := !(s.vecAt d).pend

/-- A vector instruction is ready: it is not gated (R124), so only its registers count. -/
def State.vecReady (s : State) (xs : List SReg) (vs : List VReg) (d : VReg) : Bool :=
  s.allFull xs && s.vecFull vs && s.vecTakes d

/-- The acting context's instruction, of `len` bytes, traps with a cause and a value: `kepc` names it, and a context that the trap ends
stands behind it (R39, R43, R150, R365). -/
def State.trapsWith (s : State) (cause : Nat) (val : Word) (len : Nat) : State :=
  (s.takeTrap cause val s.me.pc false false).endedPast len

/-- No write to a `c` register of the acting core is ahead of what this context issues now (R158). -/
def State.cLatest (s : State) : Bool :=
  s.myCore.cw.all (fun w => decide (w.at_ < s.now) || (w.at_ == s.now && decide (w.by_ < s.nid)))

/-! ### Shapes of instructions -/

/-- The destination and the sources of the instructions that only read registers and write one before the next issue
(R97, R100-R105). -/
def Instr.registerOnly : Instr → Option (SReg × List SReg)
  | .add _ d a b | .sub _ d a b | .and _ d a b | .or _ d a b | .xor _ d a b | .shl _ d a b | .shr _ d a b | .sra _ d a b
  | .min _ _ d a b | .max _ _ d a b | .slt _ d a b | .sltu _ d a b | .seq _ d a b | .sne _ d a b | .bfi _ d a b _ _ =>
    some (d, [a, b])
  | .addImm _ d a _ | .subImm _ d a _ | .andImm _ d a _ | .orImm _ d a _ | .xorImm _ d a _ | .shlImm _ d a _
  | .shrImm _ d a _ | .sraImm _ d a _ | .minImm _ _ d a _ | .maxImm _ _ d a _ | .sltImm _ d a _ | .sltuImm _ d a _
  | .seqImm _ d a _ | .sneImm _ d a _ | .clz _ d a | .ctz _ d a | .popc _ d a | .sext _ _ d a | .zext _ _ d a
  | .bfx _ _ d a _ _ => some (d, [a])
  | .sel _ d a b c => some (d, [a, b, c])
  | .li _ d _ | .lea _ d _ => some (d, [])
  | _ => none

/-- The k field and the length in bytes of the instructions that R86 gates as a whole: every one but the vector
instructions whose k field masks lanes (R124). -/
def Instr.gate : Instr → Option (MReg × Nat)
  | .add k _ _ _ | .sub k _ _ _ | .and k _ _ _ | .or k _ _ _ | .xor k _ _ _ | .shl k _ _ _ | .shr k _ _ _ | .sra k _ _ _
  | .min k _ _ _ _ | .max k _ _ _ _ | .mul k _ _ _ | .mulh k _ _ _ _ | .div k _ _ _ _ | .rem k _ _ _ _
  | .slt k _ _ _ | .sltu k _ _ _ | .seq k _ _ _ | .sne k _ _ _ | .clz k _ _ | .ctz k _ _ | .popc k _ _
  | .sext k _ _ _ | .zext k _ _ _ | .bfx k _ _ _ _ _ | .bfi k _ _ _ _ _ | .sel k _ _ _ _ | .jr k _ _ => some (k, 8)
  | .addImm k _ _ i | .subImm k _ _ i | .andImm k _ _ i | .orImm k _ _ i | .xorImm k _ _ i | .shlImm k _ _ i
  | .shrImm k _ _ i | .sraImm k _ _ i | .minImm k _ _ _ i | .maxImm k _ _ _ i | .mulImm k _ _ i | .mulhImm k _ _ _ i
  | .divImm k _ _ _ i | .remImm k _ _ _ i | .sltImm k _ _ i | .sltuImm k _ _ i | .seqImm k _ _ i | .sneImm k _ _ i
  | .li k _ i | .bcc k _ _ _ i | .j k i | .jal k _ i | .loop k _ i | .ld k _ _ _ _ i | .st k _ _ _ i | .spawn k _ _ i
  | .fork k _ _ _ i => some (k, i.bytes)
  | .lea k _ _ | .wait k _ _ _ _ => some (k, 12)
  | .cpy k _ _ _ _ _ _ => some (k, 16)
  | .pf k _ _ | .wb k _ _ | .inv k _ _ | .trap k _ | .eret k | .csrr k _ _ | .csrw k _ _ _ | .csrs k _ _ _
  | .csrc k _ _ _ | .fence k _ _ | .nop k | .halt k | .brk k | .wfi k => some (k, 8)
  | .reap k _ _ | .exit k _ | .arm k _ _ _ | .disarm k _ _ _ | .mwait k _ _ | .fset k _ _ | .fclr k _ _
  | .rfill k _ _ _ _ | .gbar k _ _ _ | .garrive k _ _ | .gwait k _ _ | .gmem k _ _ | .tdec k _ _ | .tnext k _
  | .tdone k _ _ _ | .tcancel k _ _ | .wpass k _ _ _ _ _ | .wpoll k _ _ | .wdetach k _ _ | .wattach k _ _ _ _
  | .wrel k _ _ _ | .wmode k _ _ _ | .wclr k _ _ | .ldv k _ _ _ _ | .verchk k _ | .verclr k | .cas k _ _ _ _ _ _ _
  | .casv k _ _ _ _ _ _ _ | .amo k _ _ _ _ _ _ _ | .red k _ _ _ _ _ _ | .ldAcq k _ _ _ _ | .stRel k _ _ _ _ => some (k, 8)
  | .rdv k _ _ | .qfence k _ | .uiret k | .clw k _ _ _ _ | .cflip k | .cpass k _ _ _ _ _ | .cdrain k _ _ _ _ _
  | .cstk k _ _ _ | .cfmt k _ _ | .cstat k _ | .xst k _ _ _ | .sopen k _ _ _ _ | .sclose k _ _ _ | .smark k _
  | .nred k _ _ _ _ _ _ | .nmc k _ _ _ _ _ => some (k, 8)
  | .vq k _ _ _ _ _ _ _ _ | .vdq k _ _ _ _ _ _ _ _ | .t5pack k _ _ _ | .t5unpk k _ _ _ => some (k, 8)
  | .vqtab k _ i => some (k, i.bytes)
  | _ => none

/-- The context is one that may execute the instruction: context 0 for `spawn`, `reap` and `tnext`, a notice handler for
`uiret`; elsewhere these raise cause 0x01 whatever the gate (R86, R162, R163, R192, R302). -/
def State.mayName (s : State) : Instr → Bool
  | .spawn _ _ _ _ | .reap _ _ _ | .tnext _ _ => s.tid == 0
  | .uiret _ => s.me.inH
  | _ => true

/-- The one instruction that sends its access and then parks at itself (R147). -/
def Instr.isVqtab : Instr → Bool
  | .vqtab _ _ _ => true
  | _ => false

/-! ### Lanes, accesses and bytes of memory, as statements name them -/

/-- Lane by lane (width `w`), `r` holds `f i` where lane `i` is active and what the register held elsewhere (R124). -/
def State.lanesAre (s : State) (k : MReg) (w : Nat) (d : VReg) (r : VWord) (f : Nat → Nat) : Prop :=
  ∀ i < 512 / w, laneOf r w i = if s.maskBit k i then f i else laneOf (s.vecVal d) w i

/-- The register write of a simple vector instruction that comes to `r` in its destination: before the next issue, but later, under
the mask `m` of its active lanes, where it pops a queue (R22, R126). -/
def State.vecPut (s : State) (xs : List SReg) (d : VReg) (r m : VWord) : State :=
  if pops xs then ((s.popSrc xs).markVec d.val).deferOuts [{ dst := .v d.val m, val := r &&& m }] 0 false popLat
  else (s.popSrc xs).modMe (fun c => (c.setV d.val { val := r }).usesFile s.now)

/-- A simple vector instruction comes to `r` in its destination and passes its sources (R126). -/
def State.vecResult (s : State) (xs : List SReg) (d : VReg) (r m : VWord) : State := (s.vecPut xs d r m).retire 8

/-- A vector instruction whose result `r` arrives later under the mask of its active lanes (R25, R126). -/
def State.vecDeferred (s : State) (k : MReg) (w : Nat) (xs : List SReg) (d : VReg) (r : VWord) (fl : Flags) (fp : Bool)
    (lat : Nat) : State :=
  (((s.popSrc xs).markVec d.val).deferOuts [{ dst := .v d.val (s.laneMask k w), val := r }] fl fp lat).retire 8

/-- The union of the flags of the active lanes (R59). -/
def State.laneFlags (s : State) (k : MReg) (w : Nat) (f : Nat → Flags) : Flags :=
  (List.range (512 / w)).foldl (fun a i => if s.maskBit k i then a ||| f i else a) 0

/-- The byte of physical line `pk` that every read under a key pair sees: a slice's where the line is held and holds it, else the
byte of backing memory (R224, R354). -/
def State.lineByte (s : State) (key pk i : Nat) : Byte :=
  match s.lineOf pk with
  | some l => if l.holds i then l.byte i else s.backing l.key pk i
  | none => s.backing key pk i

/-- Slice `n` takes physical line `pk` for the address `va` without giving up another: it holds the line, in the set of that address
and under the key pair, or nobody does and the set has a free way (R222, R223, R354). -/
def State.takesLine (s : State) (n va pk key : Nat) : Bool :=
  match s.lineOf pk with
  | some l => l.slice == n && l.vline % 1024 == va / 256 % 1024 && l.key == key
  | none => decide ((s.setLines n (va / 256)).length < 16)

/-- A byte of a well in its front-first view (R214). -/
def State.wellByte (s : State) (w off : Nat) : Byte :=
  Memory.read s.mem.wells (w * 0x20000 + bankOff (s.bankAt w) off)

/-- The identifiers in use are below the next one, and no two operations share one. -/
def State.opsFresh (s : State) : Bool :=
  s.ops.all (fun o => decide (o.id < s.nid)) && decide ((s.ops.map (·.id)).Nodup)

/-- The registers of S and F of a context: none of them is U's to write (R28, R30). -/
def Ctx.privilegedSame (c e : Ctx) : Prop :=
  e.priv = c.priv ∧ e.kstat = c.kstat ∧ e.ktr = c.ktr ∧ e.kscr = c.kscr ∧ e.kipE = c.kipE ∧ e.kipP = c.kipP ∧
  e.ktcmp = c.ktcmp ∧ e.fstat = c.fstat ∧ e.ftr = c.ftr

/-! ### Sound memories -/

/-- HBM, the second tier, the wells and the stacked slices stand in their canonical form. -/
def Mem.sound (m : Mem) : Bool := m.hbm.wf && m.tier.wf && m.wells.wf && m.stack.wf

/-- The memories of the machine are sound. -/
def State.memSound (s : State) : Bool := s.mem.sound

/-! ### What a step leaves alone -/

/-- Everything but the contexts, the cores and the outcome of the issue is as it was. -/
def State.outsideSame (s t : State) : Prop :=
  t.mem = s.mem ∧ t.ops = s.ops ∧ t.sb = s.sb ∧ t.moves = s.moves ∧ t.clus = s.clus ∧ t.vfs = s.vfs ∧
  t.launches = s.launches ∧ t.teams = s.teams ∧ t.net = s.net ∧ t.pkg = s.pkg ∧ t.hostRd = s.hostRd ∧
  t.peerRd = s.peerRd ∧ t.peerOut = s.peerOut ∧ t.far = s.far ∧ t.held = s.held ∧ t.now = s.now ∧ t.cur = s.cur ∧ t.agenda = s.agenda

/-- Nothing but contexts and cores changes: `outsideSame` and no new operation. -/
def State.registersOnly (s t : State) : Prop := s.outsideSame t ∧ t.nid = s.nid ∧ t.nfree = s.nfree

/-- Every other context is as it was. -/
def State.othersSame (s t : State) : Prop := ∀ a, a ≠ s.cur → t.ctxAt a = s.ctxAt a

/-- Every other core is as it was. -/
def State.otherCoresSame (s t : State) : Prop := ∀ k, k ≠ s.cid → t.coreAt k = s.coreAt k

/-- The registers of a context that no result of a scalar instruction goes to: vector and mask registers, control
registers, monitors, validate set, notices and class counts are as they were. -/
def Ctx.specialsSame (c e : Ctx) : Prop :=
  e.v = c.v ∧ e.k = c.k ∧ e.fpcsr = c.fpcsr ∧ e.uvec = c.uvec ∧ e.uirqv = c.uirqv ∧ e.uepc = c.uepc ∧
  e.ucause = c.ucause ∧ e.uval = c.uval ∧ e.vdone = c.vdone ∧ e.kstat = c.kstat ∧ e.ktr = c.ktr ∧ e.kscr = c.kscr ∧
  e.kipP = c.kipP ∧ e.kipE = c.kipE ∧ e.ktcmp = c.ktcmp ∧ e.fstat = c.fstat ∧ e.ftr = c.ftr ∧ e.cnt = c.cnt ∧
  e.vset = c.vset ∧ e.mon = c.mon ∧ e.notes = c.notes ∧ e.priv = c.priv ∧ e.life = c.life ∧ e.afmt = c.afmt ∧ e.acmp = c.acmp

/-- Every scalar register of both banks but number `d` is as it was, with its full/empty bit (R17, R301). -/
def Ctx.scalarsSame (c e : Ctx) (d : Nat) : Prop :=
  ∀ n, n ≠ d → ∀ b, e.xReg b n = c.xReg b n

/-- The words of the queue ports: an input queue named by a source has lost its oldest word, an output queue named by the
destination may have gained one; every other queue is as it was (R19). -/
def Ctx.queuesSame (c e : Ctx) (d : Nat) (ns : List SReg) : Prop :=
  ∀ q < 4,
    (Tbl.get {} e.qin q).words = (if ns.any (fun n => n.val == 56 + q) then (Tbl.get {} c.qin q).words.drop 1
      else (Tbl.get {} c.qin q).words) ∧
    (d ≠ 56 + q → (Tbl.get {} e.qout q).words = (Tbl.get {} c.qout q).words)

/-- What a core holds besides its `c` registers and the record of its issue slots is as it was. -/
def Core.unitsSame (k j : Core) : Prop :=
  j.slots = k.slots ∧ j.comp = k.comp ∧ j.ibuf = k.ibuf ∧ j.kinds = k.kinds ∧ j.gens = k.gens ∧ j.pblock = k.pblock ∧
  j.seqs = k.seqs ∧ j.cq = k.cq ∧ j.aq = k.aq ∧ j.eq = k.eq ∧ j.live = k.live ∧ j.shadow = k.shadow ∧ j.token = k.token ∧
  j.runl = k.runl ∧ j.rx = k.rx ∧ j.late = k.late ∧ j.frozen = k.frozen ∧ j.sleep = k.sleep ∧ j.stopAt = k.stopAt

end Sys2Proof.Machine
end

