-- ==== Sys2Proof/Certificates/Slice0/Obligations.lean ====
section
/-!
DEFINITION. The statements about the model, in the order of the manual's chapters. Each docstring names the rules of spec/
that it formalises, or the log entry on which it rests.
-/

open Sys2Proof Sys2Proof.Machine

/-! ### Decoding and the step (R76-R94, R108, R156) -/

/-- R76, R78, R81, R82, R87, R88, R90, R91, R92. Words written out field by field as the tables give them (imm18, c, minor, the
reserved bit, k, b, a, d, major, length) decode to the instructions they stand for. -/
def Obligations.DecodeWords : Prop :=
  let w64 := fun (imm : BitVec 18) (c : BitVec 6) (minor : BitVec 8) (k : BitVec 3) (b a d : BitVec 6) (major : BitVec 8) =>
    (imm ++ c ++ minor ++ 0#1 ++ k ++ b ++ a ++ d ++ major ++ 0b00#2 : BitVec 64).toNat
  decodeTableWord 64 (w64 0 0 0x00 0 7 6 5 0x00) = some (.add 0 5 6 7) ∧
  decodeTableWord 64 (w64 0x3FFFD 0 0x02 1 2 1 0 0x20) = some (.bcc 1 .lt 1 2 (.i18 0x3FFFD)) ∧
  decodeTableWord 64 (w64 16 0 0x05 0 0 10 9 0x30) = some (.ld 0 .b16 true 9 10 (.i18 16)) ∧
  decodeTableWord 64 (w64 0x402 0 0x01 0 0 2 1 0x42) = some (.csrw 0 1 2 0x402) ∧
  decodeTableWord 64 (w64 0 0 0x0C 0 0 0 0 0x43) = some (.fence 0 .dev true) ∧
  decodeTableWord 64 (w64 0 0 0x02 2 3 2 1 0x50) = some (.vaddInt 2 .s32 1 2 3) ∧
  decodeTableWord 64 (w64 0 4 0x18 2 3 2 1 0x54) = some (.vfms 2 .f32 1 2 3 4) ∧
  decodeTableWord 64 (w64 1 0 0x8B 0 0 2 1 0x90) = some (.vcvt 0 .f32 .e4m3 1 2 1) ∧
  decodeTableWord 64 (w64 0 0 0x01 0 0 4 3 0xB0) = some (.gbar 0 true 3 4) ∧
  decodeTableWord 64 (w64 0x1A3 0 0x00 0 0 4 3 0xB8) = some (.wpass 0 true 3 4 3 10) ∧
  decodeTableWord 64 (w64 5 0 0x26 0 7 6 5 0xC5) = some (.amo 0 .or .b32 .acq .sys 5 6 7) ∧
  decodeTableWord 64 (w64 0x17F 3 0x00 0 2 1 0 0xDA) = some (.cpass 0 1 2 3 true 0x7F) ∧
  decodeTableWord 64 (w64 0x8025 3 0x00 0 2 1 0 0xE3) = some (.nred 0 .min 1 2 3 5 2) ∧
  decodeTableWord 96 (0xFFFFFFFE * 2 ^ 64 + 0x09 * 4 + 1 + 5 * 2 ^ 10) = some (.li 0 5 (.i32 0xFFFFFFFE)) ∧
  decodeTableWord 128 (0x123456789ABCDEF0 * 2 ^ 64 + 0x09 * 4 + 2 + 5 * 2 ^ 10) = some (.li 0 5 (.i64 0x123456789ABCDEF0)) ∧
  decodeTableWord 32 0x00000003 = some (.fillWord 0) ∧
  decodeTableWord 64 (w64 0 0 0x0C 0 7 6 5 0x00) = none ∧ decodeTableWord 64 (w64 1 0 0x00 0 7 6 5 0x00) = none

/-- R81, R82, R84, R85, R87, R90, R91, R92. Decoding gives back what was encoded: for every well-formed instruction, with every operand at
every value, the bytes of its encoding decode to it, and the bytes behind them are left. -/
def Obligations.DecodeEncode : Prop :=
  ∀ (i : Instr) (bs rest : List Byte), i.wellFormed = true → encode i = some bs → decode (bs ++ rest) = .ok (i, rest)

/-- R76, R77, R80, R93, R108, R156. A step that offers the issue slot to the context whose it is, its block in the buffer and young
enough, runs the decoded instruction: `exec` of it with that context acting, then what follows of itself; of an interrupt that it leaves
standing the context makes a note, to take it next (R117). An interrupt or a notice comes only in place of one that does not trap.
Bits that are no instruction trap with cause 0x01 and the bits as value. -/
def Obligations.StepRunsDecoded : Prop :=
  ∀ (s : State) (core tid : Nat) (rest : List Turn) (b : IBlk),
    let a := 16 * core + tid
    let c := s.ctxAt a
    let u := ({ s with agenda := rest, cur := a } : State).modCore (a / 16) (fun k => k.touch b)
    let bytes := (blockBytes b.data).drop (c.pc.toNat % 32)
    s.agenda = .issue core tid :: rest → ({ s with agenda := rest } : State).hasSlot a = true → s.lateReady a = false →
    c.post = .none →
    2 ^ 32 ≤ c.pc.toNat → c.pc.toNat < 2 ^ 52 → c.pc.toNat % 4 = 0 → c.fetchF = none →
    (s.coreAt (a / 16)).ibuf.find? (fun b => b.va == c.pc.toNat / 32 * 32) = some b → c.sync ≤ b.at_ →
    (∀ i more, decode bytes = .ok (i, more) → i.wellFormed = true ∧
      (∀ w, i = .fillWord w → step s = follow (exec i u)) ∧
      ((∀ w, i ≠ .fillWord w) → s.irqPending a = false → c.notes = [] → step s = follow (noteDue a (exec i u))) ∧
      (∀ t, exec i u = .next t → t.last = .trapped → step s = follow (exec i u))) ∧
    (∀ e, instrLen (bytes.headD 0) ≤ bytes.length → decode bytes = .error e →
      step s = follow (.next (u.trapsWith 0x01 (BitVec.ofNat 64 (leNat (bytes.take (instrLen (bytes.headD 0)))))
        (instrLen (bytes.headD 0)))))

/-! ### Scalar instructions (R86, R97-R107) -/

/-- R97, R100. Both forms of the twelve integer operations and of the four compares complete: every queue port among the sources is
popped, the result of the table goes to d (of a compare: 1 where the condition holds, else 0) at issue, or, where a queue was popped
into an `x` register, later (R22; when is the model's choice, log 62), and the pc moves past the instruction. -/
def Obligations.IntegerOperations : Prop :=
  (∀ (s : State) (k : MReg) (d a b : SReg) (imm : Imm),
     let both := fun (i j : Instr) (f : Word → Word → Word → Prop) =>
       (s.ready k [a, b] d.val = true → ∃ r, f (s.regVal a) (s.regVal b) r ∧
         exec i s = .next ((s.putResult [a, b] d r).retire 8)) ∧
       (s.ready k [a] d.val = true → ∃ r, f (s.regVal a) imm.value r ∧
         exec j s = .next ((s.putResult [a] d r).retire imm.bytes))
     both (.add k d a b) (.addImm k d a imm) (fun x y r => r.toNat = (x.toNat + y.toNat) % 2 ^ 64) ∧
     both (.sub k d a b) (.subImm k d a imm) (fun x y r => r.toNat = (x.toNat + (2 ^ 64 - y.toNat)) % 2 ^ 64) ∧
     both (.and k d a b) (.andImm k d a imm) (fun x y r => r = x &&& y) ∧
     both (.or k d a b) (.orImm k d a imm) (fun x y r => r = x ||| y) ∧
     both (.xor k d a b) (.xorImm k d a imm) (fun x y r => r = x ^^^ y) ∧
     both (.shl k d a b) (.shlImm k d a imm) (fun x y r => r.toNat = x.toNat * 2 ^ (y.toNat % 64) % 2 ^ 64) ∧
     both (.shr k d a b) (.shrImm k d a imm) (fun x y r => r.toNat = x.toNat / 2 ^ (y.toNat % 64)) ∧
     both (.sra k d a b) (.sraImm k d a imm) (fun x y r => r.toInt = x.toInt / 2 ^ (y.toNat % 64)) ∧
     both (.min k .s d a b) (.minImm k .s d a imm) (fun x y r => r.toInt = min x.toInt y.toInt) ∧
     both (.min k .z d a b) (.minImm k .z d a imm) (fun x y r => r.toNat = min x.toNat y.toNat) ∧
     both (.max k .s d a b) (.maxImm k .s d a imm) (fun x y r => r.toInt = max x.toInt y.toInt) ∧
     both (.max k .z d a b) (.maxImm k .z d a imm) (fun x y r => r.toNat = max x.toNat y.toNat)) ∧
  (∀ (s : State) (k : MReg) (d a b : SReg) (imm : Imm),
     let both := fun (i j : Instr) (f : Word → Word → Prop) =>
       (s.ready k [a, b] d.val = true → ∃ r : Word, (f (s.regVal a) (s.regVal b) → r = 1) ∧
         (¬ f (s.regVal a) (s.regVal b) → r = 0) ∧ exec i s = .next ((s.putResult [a, b] d r).retire 8)) ∧
       (s.ready k [a] d.val = true → ∃ r : Word, (f (s.regVal a) imm.value → r = 1) ∧ (¬ f (s.regVal a) imm.value → r = 0) ∧
         exec j s = .next ((s.putResult [a] d r).retire imm.bytes))
     both (.slt k d a b) (.sltImm k d a imm) (fun x y => x.toInt < y.toInt) ∧
     both (.sltu k d a b) (.sltuImm k d a imm) (fun x y => x.toNat < y.toNat) ∧
     both (.seq k d a b) (.seqImm k d a imm) (fun x y => x = y) ∧
     both (.sne k d a b) (.sneImm k d a imm) (fun x y => x ≠ y))

/-- R101, R102, R103, R104, R105. Counts, extensions, bit fields, select, constants and addresses complete with the
results of their tables, at issue, or later where a queue was popped into an `x` register (R22; when is the model's choice, log 62). -/
def Obligations.BitsAndConstants : Prop :=
  ∀ (s : State) (k : MReg) (d a b c : SReg) (imm : Imm) (pos wm1 : Fin 64) (off : BitVec 32),
    let x := s.regVal a
    let w := wm1.val + 1
    let one := fun (i : Instr) (f : Word → Prop) => s.ready k [a] d.val = true →
      ∃ r, f r ∧ exec i s = .next ((s.putResult [a] d r).retire 8)
    one (.clz k d a) (fun r => if x = 0 then r = 64 else x.toNat < 2 ^ (64 - r.toNat) ∧ 2 ^ (63 - r.toNat) ≤ x.toNat) ∧
    one (.ctz k d a) (fun r => if x = 0 then r = 64 else x.getLsbD r.toNat ∧ ∀ i < r.toNat, x.getLsbD i = false) ∧
    one (.popc k d a) (fun r => r.toNat = ((List.range 64).filter (fun i => x.getLsbD i)).length) ∧
    (∀ e : ExtW, one (.sext k e d a) (fun r => r.toInt = (x.setWidth e.bits).toInt) ∧
      one (.zext k e d a) (fun r => r.toNat = x.toNat % 2 ^ e.bits)) ∧
    (pos.val + wm1.val < 64 →
      one (.bfx k .z d a pos wm1) (fun r => r.toNat = x.toNat / 2 ^ pos.val % 2 ^ w) ∧
      one (.bfx k .s d a pos wm1) (fun r => r.toInt = (BitVec.ofNat w (x.toNat / 2 ^ pos.val)).toInt) ∧
      (s.ready k [a, b] d.val = true → ∃ r : Word,
        (∀ i < 64, r.getLsbD i = if pos.val ≤ i ∧ i < pos.val + w then (s.regVal b).getLsbD (i - pos.val) else x.getLsbD i) ∧
        exec (.bfi k d a b pos wm1) s = .next ((s.putResult [a, b] d r).retire 8))) ∧
    (s.ready k [a, b, c] d.val = true → exec (.sel k d a b c) s =
      .next ((s.putResult [a, b, c] d (if s.regVal c ≠ 0 then x else s.regVal b)).retire 8)) ∧
    (s.ready k [] d.val = true →
      exec (.li k d imm) s = .next ((s.writeReg d.val imm.value).retire imm.bytes) ∧
      exec (.lea k d off) s = .next ((s.writeReg d.val (s.me.pc + off.signExtend 64)).retire 12))

/-- R98, R99. Multiplication, division and remainder complete in both forms: d is marked empty, and the result of the table arrives
after 8 cycles (multiply) or 32 (divide, remainder). A zero divisor gives all ones or the dividend; with `fpcsr`.idz set it
traps at issue with cause 0x05 and value 0, whatever d names. -/
def Obligations.MultiplyDivide : Prop :=
  (∀ (s : State) (k : MReg) (d a b : SReg) (imm : Imm),
     let both := fun (i j : Instr) (lat : Nat) (z : Bool) (f : Word → Word → Word → Prop) =>
       (s.ready k [a, b] d.val = true → (z = true → s.regVal b = 0 → s.me.idz = false) →
         ∃ r, f (s.regVal a) (s.regVal b) r ∧ exec i s = .next (((s.popSrc [a, b]).deferS d r lat).retire 8)) ∧
       (s.ready k [a] d.val = true → (z = true → imm.value = 0 → s.me.idz = false) →
         ∃ r, f (s.regVal a) imm.value r ∧ exec j s = .next (((s.popSrc [a]).deferS d r lat).retire imm.bytes))
     both (.mul k d a b) (.mulImm k d a imm) 8 false (fun x y r => r.toNat = x.toNat * y.toNat % 2 ^ 64) ∧
     both (.mulh k .s d a b) (.mulhImm k .s d a imm) 8 false (fun x y r => r.toInt = x.toInt * y.toInt / 2 ^ 64) ∧
     both (.mulh k .z d a b) (.mulhImm k .z d a imm) 8 false (fun x y r => r.toNat = x.toNat * y.toNat / 2 ^ 64) ∧
     both (.div k .s d a b) (.divImm k .s d a imm) 32 true (fun x y r =>
       if y = 0 then r = BitVec.allOnes 64 else r = BitVec.ofInt 64 (x.toInt.tdiv y.toInt)) ∧
     both (.div k .z d a b) (.divImm k .z d a imm) 32 true (fun x y r =>
       if y = 0 then r = BitVec.allOnes 64 else r.toNat = x.toNat / y.toNat) ∧
     both (.rem k .s d a b) (.remImm k .s d a imm) 32 true (fun x y r =>
       if y = 0 then r = x else r = BitVec.ofInt 64 (x.toInt.tmod y.toInt)) ∧
     both (.rem k .z d a b) (.remImm k .z d a imm) 32 true (fun x y r =>
       if y = 0 then r = x else r.toNat = x.toNat % y.toNat)) ∧
  (∀ (s : State) (k : MReg) (sg : Sign) (d a b : SReg) (imm : Imm), s.me.idz = true →
     let traps := fun (i : Instr) (len : Nat) => exec i s = .next (s.trapsWith 0x05 0 len)
     (s.ready k [a, b] d.val = true → s.regVal b = 0 → traps (.div k sg d a b) 8 ∧ traps (.rem k sg d a b) 8) ∧
     (s.ready k [a] d.val = true → imm.value = 0 →
       traps (.divImm k sg d a imm) imm.bytes ∧ traps (.remImm k sg d a imm) imm.bytes))

/-- R106, R107. Control transfers complete: a taken one goes to its target with bits 1:0 cleared, the other to the next
instruction; `jal` and `jr` leave the return address, `loop` the count less one. -/
def Obligations.ControlTransfers : Prop :=
  ∀ (s : State) (k : MReg) (d a b : SReg) (imm : Imm),
    let target := s.me.pc + 4 * imm.value
    let next := fun (n : Nat) => s.me.pc + BitVec.ofNat 64 n
    let branch := fun (cc : Cc) (p : Word → Word → Prop) => s.ready k [a, b] 0 = true →
      (p (s.regVal a) (s.regVal b) → exec (.bcc k cc a b imm) s = .next ((s.popSrc [a, b]).retireTo target)) ∧
      (¬ p (s.regVal a) (s.regVal b) → exec (.bcc k cc a b imm) s = .next ((s.popSrc [a, b]).retire imm.bytes))
    branch .eq (fun x y => x = y) ∧ branch .ne (fun x y => x ≠ y) ∧
    branch .lt (fun x y => x.toInt < y.toInt) ∧ branch .ge (fun x y => y.toInt ≤ x.toInt) ∧
    branch .ltu (fun x y => x.toNat < y.toNat) ∧ branch .geu (fun x y => y.toNat ≤ x.toNat) ∧
    (s.acting k = true → exec (.j k imm) s = .next (s.retireTo target)) ∧
    (s.ready k [] d.val = true → exec (.jal k d imm) s = .next ((s.writeReg d.val (next imm.bytes)).retireTo target)) ∧
    (s.ready k [a] d.val = true → exec (.jr k d a) s =
      .next (((s.popSrc [a]).writeReg d.val (next 8)).retireTo (s.regVal a))) ∧
    (s.ready k [d] 0 = true → let n := s.regVal d - 1
      (n ≠ 0 → exec (.loop k d imm) s = .next ((s.writeReg d.val n).retireTo target)) ∧
      (n = 0 → exec (.loop k d imm) s = .next ((s.writeReg d.val n).retire imm.bytes)))

/-- R86, R124. Where bit 0 of `kk` is 0, every instruction whose k field does not mask lanes reads and writes nothing but the pc: it
goes on to the next instruction. -/
def Obligations.GateShut : Prop :=
  ∀ (s : State) (i : Instr) (k : MReg) (len : Nat), Instr.gate i = some (k, len) → s.mayName i = true →
    s.acting k = false → exec i s = .next (s.retire len)

/-- R97, R100, R101, R102, R103, R104, R105: the frame of the register-only instructions. Where one issues, every register
but d, every vector, mask, control and special register, every other context and core, and all memory is as it was; the
queue ports among the sources have lost their oldest word. Nothing is under way that was not, unless a queue was popped into an `x`
register: then the one result for d is (R22, log 62). -/
def Obligations.RegisterOnlyFrame : Prop :=
  ∀ (s t : State) (i : Instr) (d : SReg) (ns : List SReg), Instr.registerOnly i = some (d, ns) →
    (Instr.gate i).any (fun g => s.acting g.1) = true → exec i s = .next t → t.last = .issued →
    (pops ns = true ∧ 0 < d.val ∧ d.val < 48 → ∃ r, t.ops = s.ops ++
      [{ id := s.nid, ctx := s.cur, kind := .alu, priv := s.me.priv, cnts := false
         outs := [{ dst := s.dstOf d.val, val := r }], issued := s.now, due := s.now + popLat }]) ∧
    (¬ (pops ns = true ∧ 0 < d.val ∧ d.val < 48) → t.ops = s.ops ∧ t.nid = s.nid) ∧
    s.registersOnly { t with ops := s.ops, nid := s.nid } ∧ s.othersSame t ∧ s.otherCoresSame t ∧ s.me.specialsSame t.me ∧ s.myCore.unitsSame t.myCore ∧
    s.me.scalarsSame t.me d.val ∧ s.me.queuesSame t.me d.val ns ∧
    (∀ n < 8, n + 48 ≠ d.val → t.myCore.cNow n = s.myCore.cNow n)

/-- R39, R41, R154, R157. Whatever an instruction of the manual meets at its issue, the machine goes on in one of three ways: the
instruction issues; or it parks, and nothing else changes; or it traps, and nothing but the entry changes. (`vqtab` sends its read
before it parks, R147, and is left out.) -/
def Obligations.InstructionOutcomes : Prop :=
  ∀ (s : State) (i : Instr), (toRaw i).isSome = true → Instr.isVqtab i = false →
    ∃ t, exec i s = .next t ∧
      (t.last = .issued ∨ (∃ w, t = s.park w) ∨ ∃ cause val epc len, t = (s.takeTrap cause val epc false false).endedPast len)

/-! ### The local window (R36-R38) and the memory instructions (R109-R115, R138-R141, R231-R246) -/

/-- R36, R37, R38. The check of an access of `n` bytes at `ea`: bits 63:52 not zero raise 0x0B; an address below 2^32 that
ends past the window, crosses a slot, or names a slot that does not give the right raises 0x08; an INCOMING slot makes the
context wait; a HELD slot serves S and F alone; everything else passes, and a global address is not checked further. -/
def Obligations.LocalWindow : Prop :=
  ∀ (s : State) (core : Nat) (p : Priv) (ea : Word) (n : Nat) (wr : Bool), 0 < n → n ≤ 128 →
    let a := ea.toNat
    let last := a + n - 1
    let x := s.slotAt core (a / 0x20000)
    let r := checkLocal s core p ea n wr
    let inside := last < 0x200000 ∧ a / 0x20000 = last / 0x20000
    let right := (if wr then x.wr else x.rd) = true ∧ (x.exch = true → last % 0x20000 < 0x10000)
    (2 ^ 52 ≤ last → r = .error (.trap 0x0B ea)) ∧
    (2 ^ 32 ≤ a ∧ last < 2 ^ 52 → r = .ok .global) ∧
    (a < 2 ^ 32 ∧ ¬ inside → r = .error (.trap 0x08 ea)) ∧
    (inside → x.st = .detached → r = .error (.trap 0x08 ea)) ∧
    (inside → x.st = .incoming → r = .error (.park .incoming)) ∧
    (inside → x.st = .attached → right → r = .ok (.local (a / 0x20000) x.well (a % 0x20000))) ∧
    (inside → x.st = .held → p ≠ .u → right → r = .ok (.local (a / 0x20000) x.well (a % 0x20000))) ∧
    (inside → x.st = .held → p = .u → r = .error (.trap 0x08 ea)) ∧
    (inside → x.st = .attached ∨ x.st = .held → ¬ right → r = .error (.trap 0x08 ea))

/-- R109, R111, R241. A load that may access completes: its destination is empty, one more is counted on `ld`, and the
access to the bytes at a + imm is under way. `ld.acq` needs an address that its size divides. -/
def Obligations.LoadsIssue : Prop :=
  ∀ (s : State) (k : MReg) (sz : Size) (sx : Bool) (sc : Scope) (d a : SReg) (imm : Imm) (pl : Place),
    let go := fun (i : Instr) (ea : Word) (len : Nat) (sx : Bool) (ord : Order) (sc : Scope) =>
      let ps := s.partsAt s.cid 0 pl ea 0 (readBytes sz.bytes)
      checkLocal s s.cid s.me.priv ea sz.bytes false = .ok pl → s.mayAccess s.cur .ld 1 ps = .ok () →
      exec i s = .next ((((s.popSrc [a]).markEmpty d.val).launchOp
        { id := 0, ctx := s.cur, kind := .load sx, priv := s.me.priv, order := ord, scope := sc, parts := ps,
          outs := [{ dst := s.dstOf d.val }], size := sz.bytes } 1 (s.now + s.opLat s.cid ps)).retire len)
    s.ready k [a] d.val = true →
    go (.ld k sz sx d a imm) (s.regVal a + imm.value) imm.bytes sx .relaxed .ctx ∧
    ((s.regVal a).toNat % sz.bytes = 0 → go (.ldAcq k sz sc d a) (s.regVal a) 8 false .acq sc) ∧
    ((s.regVal a).toNat % sz.bytes ≠ 0 → (checkLocal s s.cid s.me.priv (s.regVal a) sz.bytes false = .ok pl ∨
        (2 ^ 32 ≤ (s.regVal a).toNat ∧ (s.regVal a).toNat < 2 ^ 52)) →
      exec (.ldAcq k sz sc d a) s = .next (s.trapsWith 0x04 (s.regVal a) 8))

/-- R110, R111, R115, R233, R241. A store that may access completes: the low bytes of b are read at issue, one more is counted on `st`, and
its entries stand in the context's queue; a `st.rel` that something holds back has not sent its access. `wb` and `inv` of a global
address complete as one entry that counts on `st`; `pf` completes without a count and whatever its address: one that is not
global is dropped. A local or impossible address traps `wb` and `inv`. -/
def Obligations.StoresIssue : Prop :=
  (∀ (s : State) (k : MReg) (sz : Size) (sc : Scope) (a b : SReg) (imm : Imm) (pl : Place),
     let go := fun (i : Instr) (ea : Word) (len : Nat) (ord : Order) (sc : Scope) (sent : Bool) =>
       let ps := s.partsAt s.cid 0 pl ea 0 (valueBytes sz.bytes (s.regVal b).toNat)
       checkLocal s s.cid s.me.priv ea sz.bytes true = .ok pl → s.mayAccess s.cur .st 1 ps = .ok () →
       exec i s = .next (((s.popSrc [a, b]).launchOp
         { id := 0, ctx := s.cur, kind := .store, priv := s.me.priv, order := ord, scope := sc, sent, parts := ps,
           size := sz.bytes } 1 (s.now + s.opLat s.cid ps)).retire len)
     s.acting k = true → s.allFull [a, b] = true →
     go (.st k sz a b imm) (s.regVal a + imm.value) imm.bytes .relaxed .ctx true ∧
     ((s.regVal a).toNat % sz.bytes = 0 →
       go (.stRel k sz sc a b) (s.regVal a) 8 .rel sc (s.orderedTo s.cur s.nid sc false)) ∧
     ((s.regVal a).toNat % sz.bytes ≠ 0 → (checkLocal s s.cid s.me.priv (s.regVal a) sz.bytes true = .ok pl ∨
         (2 ^ 32 ≤ (s.regVal a).toNat ∧ (s.regVal a).toNat < 2 ^ 52)) →
       exec (.stRel k sz sc a b) s = .next (s.trapsWith 0x04 (s.regVal a) 8))) ∧
  (∀ (s : State) (k : MReg) (a : SReg) (imm : BitVec 18),
     let ea := s.regVal a + imm.signExtend 64
     let p := s.linePart ea
     let due := s.now + s.globalLat s.cid p.va
     let op := fun (kind : OpKind) (n : Nat) => ((s.popSrc [a]).launchOp
       { id := 0, ctx := s.cur, kind, priv := s.me.priv, parts := [p] } n due).retire 8
     s.acting k = true → s.allFull [a] = true →
     (2 ^ 32 ≤ ea.toNat → ea.toNat < 2 ^ 52 →
       exec (.pf k a imm) s = .next (op .pf 0) ∧
       (s.mayAccess s.cur .st 1 [p] = .ok () →
         exec (.wb k a imm) s = .next (op .wb 1) ∧ exec (.inv k a imm) s = .next (op .inv 1))) ∧
     (ea.toNat < 2 ^ 32 → exec (.pf k a imm) s = .next ((s.popSrc [a]).retire 8) ∧
       exec (.wb k a imm) s = .next (s.trapsWith 0x08 ea 8) ∧
       exec (.inv k a imm) s = .next (s.trapsWith 0x08 ea 8)) ∧
     (2 ^ 52 ≤ ea.toNat → exec (.pf k a imm) s = .next ((s.popSrc [a]).retire 8) ∧
       exec (.wb k a imm) s = .next (s.trapsWith 0x0B ea 8) ∧
       exec (.inv k a imm) s = .next (s.trapsWith 0x0B ea 8)))

/-- R138, R139, R140, R141. Vector loads and stores complete: with an active lane the access is under way, counted once for
`vld` and `vst` and by lane for the others; with none there is no access and nothing but the pc changes (for `vlds` and `vgather` that
is the model's choice, log 63: R138 says so of `vld`). -/
def Obligations.VectorMemoryIssues : Prop :=
  ∀ (s : State) (k : MReg) (t : Ty) (d b c : VReg) (a x : SReg) (imm : Imm) (off : BitVec 18) (pl : Place)
    (ls : List (Nat × Word × Place)),
    let ea := s.regVal a + imm.value
    let some? := fun (bs : List (Option Byte)) => bs.any Option.isSome
    let zero := s.activeBytes k (List.replicate 64 0)
    let data := s.activeBytes k (toBytes 64 (s.vecVal b).toNat)
    let ld := fun (w : Nat) (ps : List Part) (kind : OpKind) (xs : List SReg) (n len : Nat) =>
      (((s.popSrc xs).markVec d.val).launchOp
        { id := 0, ctx := s.cur, kind, priv := s.me.priv, parts := ps, outs := [{ dst := .v d.val (s.laneMask k w) }],
          size := 64 } n (s.now + s.opLat s.cid ps)).retire len
    let st := fun (ps : List Part) (n size len : Nat) => ((s.popSrc [a]).launchOp
      { id := 0, ctx := s.cur, kind := .store, priv := s.me.priv, parts := ps, size } n (s.now + s.opLat s.cid ps)).retire len
    let many := fun (i : Instr) (w : Nat) (xs : List SReg) (addr : Nat → Word) =>
      s.lanePlaces k (w / 8) false addr (List.range (512 / w)) = .ok ls →
      let ps := s.laneParts (w / 8) (fun _ => readBytes (w / 8)) ls
      (ls = [] → exec i s = .next ((s.popSrc xs).retire 8)) ∧
      (ls ≠ [] → s.mayAccess s.cur .ld ls.length ps = .ok () → exec i s = .next (ld w ps (.lanes w) xs ls.length 8))
    (s.allFull [a] = true → s.vecTakes d = true → checkLocal s s.cid s.me.priv ea 64 false = .ok pl →
      let ps := s.partsAt s.cid 0 pl ea 0 zero
      (some? zero = true → s.mayAccess s.cur .ld 1 ps = .ok () →
        exec (.vld k d a imm) s = .next (ld 32 ps (.load false) [a] 1 imm.bytes)) ∧
      (some? zero = false → exec (.vld k d a imm) s = .next ((s.popSrc [a]).retire imm.bytes))) ∧
    (s.allFull [a] = true → s.vecFull [b] = true → checkLocal s s.cid s.me.priv ea 64 true = .ok pl →
      let ps := s.partsAt s.cid 0 pl ea 0 data
      (some? data = true → s.mayAccess s.cur .st 1 ps = .ok () →
        exec (.vst k a b imm) s = .next (st ps 1 64 imm.bytes)) ∧
      (some? data = false → exec (.vst k a b imm) s = .next ((s.popSrc [a]).retire imm.bytes))) ∧
    (s.vecReady [a, x] [] d = true → many (.vlds k d a x off) 32 [a, x] (fun i =>
      s.regVal a + off.signExtend 64 + BitVec.ofNat 64 i * s.regVal x)) ∧
    (s.vecReady [a] [b] d = true → many (.vgather k t d a b off) t.width [a] (s.laneAddr t a b off)) ∧
    (s.allFull [a] = true → s.vecFull [b, c] = true →
      s.lanePlaces k (t.width / 8) true (s.laneAddr t a b off) (List.range (512 / t.width)) = .ok ls →
      let ps := s.laneParts (t.width / 8) (fun i => valueBytes (t.width / 8) (laneOf (s.vecVal c) t.width i)) ls
      (ls = [] → exec (.vscatter k t a b c off) s = .next ((s.popSrc [a]).retire 8)) ∧
      (ls ≠ [] → s.mayAccess s.cur .st ls.length ps = .ok () →
        exec (.vscatter k t a b c off) s = .next (st ps ls.length (t.width / 8) 8)))

/-- R231, R232, R235, R237, R238, R239, R243. Slice-executed accesses complete: their operands are read, every destination is
empty, one is counted on `ld` (`red`: on `st`), and the access is under way. A `vamo` with no lane to send ends at once. -/
def Obligations.SliceAccessesIssue : Prop :=
  ∀ (s : State) (k : MReg) (op : AmoOp) (sz : Size) (o : Order) (sc : Scope) (set : Bool) (d a b c : SReg) (v w x : VReg),
    let ea := s.regVal a
    let ps := fun (n : Nat) => s.globalParts s.cid 0 ea.toNat 0 (readBytes n)
    let sent := s.sendsNow o sc
    let legal := fun (n : Nat) => 2 ^ 32 ≤ ea.toNat ∧ ea.toNat < 2 ^ 52 ∧ ea.toNat % n = 0
    let at_ := fun (i : Instr) (xs : List SReg) (kind : OpKind) (d : SReg) (cls : Cls) (step : Nat) =>
      s.ready k xs d.val = true → legal sz.bytes → s.mayAccess s.cur cls 1 (ps sz.bytes) = .ok () →
      exec i s = .next ((((s.popSrc xs).markEmpty d.val).launchOp
        { id := 0, ctx := s.cur, kind, priv := s.me.priv, order := o, scope := sc, sent, parts := ps sz.bytes,
          outs := [{ dst := s.dstOf d.val }], size := sz.bytes } 1 (s.now + (s.opLat s.cid (ps sz.bytes) + step))).retire 8)
    at_ (.cas k sz o sc d a b c) [a, b, c] (.atom .cas .swap (s.regVal b) (s.regVal c)) d .ld 20 ∧
    at_ (.casv k sz o sc d a b c) [a, b, c] (.atom .casv .swap (s.regVal b) (s.regVal c)) d .ld 20 ∧
    at_ (.amo k op sz o sc d a b) [a, b] (.atom .amo op (s.regVal b) 0) d .ld 20 ∧
    at_ (.red k op sz o sc a b) [a, b] (.atom .red op (s.regVal b) 0) 0 .st 0 ∧
    (s.ready k [a] d.val = true → s.takes c.val = true → legal 8 → s.mayAccess s.cur .ld 1 (ps 8) = .ok () →
      exec (.ldv k set d a c) s = .next (((((s.popSrc [a]).markEmpty d.val).markEmpty c.val).launchOp
        { id := 0, ctx := s.cur, kind := .ldv set, priv := s.me.priv, parts := ps 8,
          outs := [{ dst := s.dstOf d.val }, { dst := s.dstOf c.val }], size := 8 } 1
        (s.now + s.opLat s.cid (ps 8))).retire 8)) ∧
    (s.vecReady [a] [w, x] v = true → checkLanes sz.bytes (s.vamoAddr (8 * sz.bytes) a w) (s.vamoLanes k (8 * sz.bytes)) = .ok () →
      let ls := s.vamoLanes k (8 * sz.bytes)
      let qs := ls.flatMap (fun i =>
        (s.globalParts s.cid i (s.vamoAddr (8 * sz.bytes) a w i).toNat (i * sz.bytes) (readBytes sz.bytes)).map (fun p =>
          { p with y := BitVec.ofNat 64 (laneOf (s.vecVal x) (8 * sz.bytes) i) }))
      (ls = [] → ∃ t, exec (.vamo k op sz o sc v a w x) s = .next t ∧ t.me.vdone = 0 ∧ t.ops = s.ops ∧
        t.me.pc = s.me.pc + 8 ∧ t.vecVal v = s.vecVal v) ∧
      (ls ≠ [] → s.mayAccess s.cur .ld 1 qs = .ok () →
        exec (.vamo k op sz o sc v a w x) s = .next (((((s.popSrc [a])).markVec v.val).launchOp
          { id := 0, ctx := s.cur, kind := .vamo op, priv := s.me.priv, order := o, scope := sc, sent, parts := qs,
            outs := [{ dst := .v v.val (lanesMask (8 * sz.bytes) ls) }], size := sz.bytes } 1
          (s.now + s.opLat s.cid qs + 20 + ls.length - 1)).retire 8)))

/-- R242, R244, R245. `verchk` completes when every earlier load has arrived: an overflowed, mismatched or empty set answers at
once (VALID 1 only for the empty one); otherwise one check goes out for each entry. `verclr` empties the set. -/
def Obligations.ValidateSets : Prop :=
  ∀ (s : State) (k : MReg) (d : SReg),
    let v := s.me.vset
    let word := fun (mis ovf : Bool) (val : Word) => s.ready k [] d.val = true → s.me.count .ld = 0 → v.mis = mis →
      v.ovf = ovf → exec (.verchk k d) s = .next ((s.writeReg d.val val).retire 8)
    word true true 6 ∧ word true false 4 ∧ word false true 2 ∧
    (v.ents = [] → word false false 1) ∧
    (s.ready k [] d.val = true → s.me.count .ld = 0 → v.mis = false → v.ovf = false → v.ents ≠ [] →
      s.mayAccess s.cur .ld v.ents.length s.checks = .ok () →
      exec (.verchk k d) s = .next (((s.markEmpty d.val).launchOp
        { id := 0, ctx := s.cur, kind := .verchk, priv := s.me.priv, parts := s.checks, outs := [{ dst := s.dstOf d.val }] }
        v.ents.length (s.now + s.opLat s.cid s.checks)).retire 8)) ∧
    (s.acting k = true → exec (.verclr k) s = .next ((s.modMe (fun c => { c with vset := {} })).retire 8)) ∧
    (s.acting k = true → ∀ t, exec (.verclr k) s = .next t → t.me.vset = { ents := [], ovf := false, mis := false })

/-! ### Performing accesses (R111, R165, R203, R224, R228, R235, R251-R255) -/

/-- R37, R109, R110, R203. A load from a well runs to its end: it issues, its bytes are read at the port, and its destination fills
with their value, zero- or sign-extended; memory and the `ld` count are as before, and the port is taken for this cycle. A store to a
well runs to its end: the bytes at its offset hold the low bytes of b, every other byte of every well and all other memory is as it
was, and the `st` count is as before. -/
def Obligations.WellAccesses : Prop :=
  (∀ (s : State) (k : MReg) (sz : Size) (sx : Bool) (d a : SReg) (imm : Imm) (n w off : Nat),
     s.ready k [a] d.val = true → d.val < 56 → s.opsFresh = true → s.myCore.sleep = .awake →
     checkLocal s s.cid s.me.priv (s.regVal a + imm.value) sz.bytes false = .ok (.local n w off) →
     s.accessBlocked s.cur = false → s.me.count .ld < 65535 →
     (∀ o ∈ s.ops, o.ctx / 16 = s.cid → ∀ p ∈ o.parts, p.well = some w → p.st ≠ .todo) → s.portFree w = true →
     let v : Word := if sx then (BitVec.ofNat (8 * sz.bytes) (ofBytes (s.readWell w off sz.bytes))).signExtend 64
       else BitVec.ofNat 64 (ofBytes (s.readWell w off sz.bytes))
     ∃ t₁ t₂ t₃, exec (.ld k sz sx d a imm) s = .next t₁ ∧ exec (.wellPortAccess s.nid 0) t₁ = .next t₂ ∧
       exec (.resultArrival s.nid) t₂ = .next t₃ ∧ t₃.mem = { s.mem with ports := t₃.mem.ports } ∧ t₃.portFree w = false ∧
       t₃.ops = s.ops ∧
       t₃.me.count .ld = s.me.count .ld ∧ t₃.me.pc = s.me.pc + BitVec.ofNat 64 imm.bytes ∧
       (0 < d.val ∧ d.val < 48 → t₃.me.xReg s.me.inH d.val = { val := v }) ∧
       (48 ≤ d.val → s.cLatest = true → t₃.myCore.cNow (d.val - 48) = { val := v }) ∧
       (∀ m, m ≠ d.val ∨ m = 0 → m < 48 → t₃.me.xReg s.me.inH m = s.me.xReg s.me.inH m)) ∧
  (∀ (s : State) (k : MReg) (sz : Size) (a b : SReg) (imm : Imm) (n w off : Nat),
     s.acting k = true → s.allFull [a, b] = true → s.opsFresh = true →
     checkLocal s s.cid s.me.priv (s.regVal a + imm.value) sz.bytes true = .ok (.local n w off) →
     s.accessBlocked s.cur = false → s.me.count .st < 65535 →
     (∀ o ∈ s.ops, o.ctx / 16 = s.cid → ∀ p ∈ o.parts, p.well = some w → p.st ≠ .todo) → s.portFree w = true →
     ∃ t₁ t₂ t₃, exec (.st k sz a b imm) s = .next t₁ ∧ exec (.wellPortAccess s.nid 0) t₁ = .next t₂ ∧
       exec (.storeAcknowledge s.nid) t₂ = .next t₃ ∧ t₃.ops = s.ops ∧ t₃.me.count .st = s.me.count .st ∧
       t₃.mem = { s.mem with wells := t₃.mem.wells, ports := t₃.mem.ports } ∧ t₃.portFree w = false ∧
       (∀ i < sz.bytes, t₃.wellByte w (off + i) = (s.regVal b).extractLsb' (8 * i) 8) ∧
       (∀ v j, j < 0x20000 → (v ≠ w ∨ j < off ∨ off + sz.bytes ≤ j) → t₃.wellByte v j = s.wellByte v j))

/-- R251, R224, R228. A store part that is next for its line is performed at its slice in one step: the bytes it writes are
its own, every other byte of memory is as it was, the version of the line rises by one, and its entries have left the
ordering machine; the slice's monitors of the line trigger. (The slice takes the line without giving up another, and it is this
package's.) -/
def Obligations.SliceStores : Prop :=
  ∀ (s : State) (id k : Nat) (o : Op) (p : Part) (n : Nat) (x : Xlat),
    let vf := s.vfOfCore (o.ctx / 16)
    let pk := physKey x
    s.partAt id k = some (o, p) → o.kind = .store → s.partReady o k p = true → s.heldBehind o k p = false →
    s.reachFor vf p.va (o.acc p) = .ok (n, x) → s.slotFree n = true → s.accepts vf p.va n (s.resender (o.ctx / 16) id k) = true →
    x.tgt ≠ 2 →
    s.takesLine n p.va pk (s.keyFor vf x) = true → p.va % 256 + p.data.length ≤ 256 → p.data.any Option.isSome = true →
    ∃ t, exec (.linePartPerform id k) s = .next t ∧
      (∀ q i, i < 256 → t.lineByte (s.keyFor vf x) q i = if q = pk ∧ p.va % 256 ≤ i ∧ i < p.va % 256 + p.data.length then
        (p.data.getD (i - p.va % 256) none).getD (s.lineByte (s.keyFor vf x) q i) else s.lineByte (s.keyFor vf x) q i) ∧
      (∀ q, q % 2 = 0 → t.version q = if q / 2 = pk / 2 ∧ pk % 2 = 0 then s.version q + 1 else s.version q) ∧
      t.mem.hbm = s.mem.hbm ∧ t.mem.tier = s.mem.tier ∧ t.mem.wells = s.mem.wells ∧
      t.sb = s.sb.filter (fun e => !(e.op == id && e.part == k)) ∧
      (∀ (a m : Nat) (y : Monitor), (a, m, y) ∈ s.ctxs.flatMap (fun c => c.2.mon.map (fun z => (c.1, z.1, z.2))) →
        y.used = true → y.reg = true → y.phys = pk → y.slice = n →
        (a, m, { y with trig := true }) ∈ t.ctxs.flatMap (fun c => c.2.mon.map (fun z => (c.1, z.1, z.2))))

/-- R253, R224. A load part that is next for its line reads each wanted byte from the nearest entry on its way out, else from
the slice; no byte of memory changes. (The slice takes the line without giving up another, and it is this package's; bases are
multiples of 64 KiB, so the offset in the line is kept.) -/
def Obligations.SliceLoads : Prop :=
  ∀ (s : State) (id k : Nat) (o : Op) (p : Part) (n : Nat) (x : Xlat),
    let vf := s.vfOfCore (o.ctx / 16)
    let pk := physKey x
    let want := p.data.map Option.isSome
    s.partAt id k = some (o, p) → o.kind.byParts = true → s.partReady o k p = true → s.heldBehind o k p = false →
    s.reachFor vf p.va (o.acc p) = .ok (n, x) → s.slotFree n = true → s.accepts vf p.va n (s.resender (o.ctx / 16) id k) = true →
    x.tgt ≠ 2 →
    s.takesLine n p.va pk (s.keyFor vf x) = true → p.va % 256 + p.data.length ≤ 256 → x.addr % 256 = p.va % 256 →
    ∃ t q, exec (.loadPartPerform id k) s = .next t ∧ (t.partAt id k).map (·.2) = some q ∧ q.st = .done ∧
      q.data.length = p.data.length ∧
      (∀ i < p.data.length, q.data.getD i none = if want.getD i false then
        some (match s.entryFor (some o.ctx) o.ctx id vf (p.va + i) with
          | some (_, b) => b
          | none => s.lineByte (s.keyFor vf x) pk (p.va % 256 + i)) else none) ∧
      (∀ r i, i < 256 → t.lineByte (s.keyFor vf x) r i = s.lineByte (s.keyFor vf x) r i) ∧ t.mem.hbm = s.mem.hbm ∧ t.mem.vers = s.mem.vers ∧ t.sb = s.sb

/-- R235, R236, R228. An atomic that is next for its line is one step at its slice: it returns the old value (`casv`: the version), writes
the new one where it succeeds, and raises the version exactly then. The operations of `amo`, `red` and `vamo` compute what R236
says of values of n bytes; `add.f32` rounds the exact sum once to nearest, keeps subnormals, gives the canonical NaN for every NaN
result and an infinity on overflow. -/
def Obligations.SliceAtomics : Prop :=
  (∀ (s : State) (id k : Nat) (o : Op) (p : Part) (n : Nat) (x : Xlat) (a : AtomK) (op : AmoOp) (y z : Word),
     let vf := s.vfOfCore (o.ctx / 16)
     let pk := physKey x
     let len := p.data.length
     let old := ofBytes ((List.range len).map (fun i => s.lineByte (s.keyFor vf x) pk (p.va % 256 + i)))
     let ok : Bool := match a with
       | .cas => decide (old = y.toNat % 256 ^ len)
       | .casv => decide (s.version pk = y)
       | _ => true
     let new := match a with
       | .cas | .casv => z.toNat
       | _ => amoValue op len old y.toNat
     s.partAt id k = some (o, p) → o.kind = .atom a op y z → s.partReady o k p = true → s.heldBehind o k p = false →
     s.reachFor vf p.va (o.acc p) = .ok (n, x) → s.slotFree n = true → s.accepts vf p.va n (s.resender (o.ctx / 16) id k) = true →
    x.tgt ≠ 2 →
     s.takesLine n p.va pk (s.keyFor vf x) = true → p.va % 256 + len ≤ 256 → 0 < len →
     ∃ t q, exec (.sliceStep id k) s = .next t ∧ (t.partAt id k).map (·.2) = some q ∧ q.st = .done ∧
       q.res = (if a = .casv then s.version pk else BitVec.ofNat 64 old) ∧
       (pk % 2 = 0 → t.version pk = if ok then s.version pk + 1 else s.version pk) ∧
       (∀ r i, i < 256 → t.lineByte (s.keyFor vf x) r i = if ok ∧ r = pk ∧ p.va % 256 ≤ i ∧ i < p.va % 256 + len then
         BitVec.ofNat 8 (new / 256 ^ (i - p.va % 256)) else s.lineByte (s.keyFor vf x) r i)) ∧
  (∀ (n old y : Nat), 0 < n → n ≤ 8 → old < 256 ^ n →
     let m := 256 ^ n
     let i := fun (x : Nat) => (BitVec.ofNat (8 * n) x).toInt
     amoValue .add n old y = (old + y) % m ∧
     (∀ j < 8 * n, (amoValue .and n old y).testBit j = (old.testBit j && y.testBit j)) ∧
     (∀ j < 8 * n, (amoValue .or n old y).testBit j = (old.testBit j || y.testBit j)) ∧
     (∀ j < 8 * n, (amoValue .xor n old y).testBit j = (old.testBit j ^^ y.testBit j)) ∧
     amoValue .minZ n old y = Nat.min old (y % m) ∧ amoValue .maxZ n old y = Nat.max old (y % m) ∧
     i (amoValue .minS n old y) = min (i old) (i y) ∧ i (amoValue .maxS n old y) = max (i old) (i y) ∧
     amoValue .swap n old y = y % m) ∧
  (∀ (old y : Nat), old < 2 ^ 32 → y < 2 ^ 32 →
     let p := fmt32.read false old
     let q := fmt32.read false y
     let r := amoValue .addF32 4 old y
     (p.isNan = true ∨ q.isNan = true → r = fmt32.cnan) ∧
     (∀ b, p = .inf b → q = .inf (!b) → r = fmt32.cnan) ∧
     (∀ b, p = .inf b → q = .inf b ∨ (q.isNan = false ∧ q.isInf = false) → r = fmt32.infBits b) ∧
     (∀ b, q = .inf b → p.isNan = false → p.isInf = false → r = fmt32.infBits b) ∧
     (∀ i n d j m e, p = .fin i n d → q = .fin j m e →
       let g := min d e
       let x := sgn i (n * 2 ^ (d - g).toNat) + sgn j (m * 2 ^ (e - g).toNat)
       (x = 0 → r = if n = 0 ∧ m = 0 ∧ i = true ∧ j = true then 2 ^ 31 else 0) ∧
       (x ≠ 0 → r = (fmt32.roundFin 0 false (decide (x < 0)) x.natAbs g).1) ∧
       (2 ^ (128 + 149) ≤ x.natAbs * 2 ^ (g + 149).toNat → r = fmt32.infBits (decide (x < 0)))))

/-- R224, R225, R255. Writes that enter no scope buffer, evictions and the moving of entries happen in one step: an agent's write
is performed at its slice, and one behind an earlier held write of its agent to the line is held; an eviction writes a line back and
drops it without a change of any byte, and an entry moves to the next part outward where nothing before it overlaps it. -/
def Obligations.OtherSliceEvents : Prop :=
  ∀ (s : State),
    (∀ (w : AgentWrite), w.va % 256 + w.bytes.length ≤ 256 → s.held.any (fun g => (Outside.agent w).behind g.acc) = true →
      exec (.agentWriteAtSlice w) s = .next { s with held := s.held ++ [{ acc := .agent w }] }) ∧
    (∀ (w : AgentWrite) (n : Nat) (x : Xlat), w.va % 256 + w.bytes.length ≤ 256 →
      s.held.any (fun g => (Outside.agent w).behind g.acc) = false →
      s.reachFor w.vf w.va { wr := true, size := w.bytes.length } = .ok (n, x) → s.slotFree n = true →
      s.accepts w.vf w.va n none = true → x.tgt ≠ 2 → s.takesLine n w.va (physKey x) (s.keyFor w.vf x) = true →
      ∃ t, exec (.agentWriteAtSlice w) s = .next t ∧ t.sb = s.sb ∧ ∀ q i, i < 256 → t.lineByte (s.keyFor w.vf x) q i =
        if q = physKey x ∧ w.va % 256 ≤ i ∧ i < w.va % 256 + w.bytes.length then w.bytes.getD (i - w.va % 256) 0
        else s.lineByte (s.keyFor w.vf x) q i) ∧
    (∀ (pk : Nat) (l : Line), s.lineOf pk = some l →
      (∀ i < 256, l.written i = false → l.holds i = true → l.byte i = s.backing l.key pk i) →
      ∃ t, exec (.eviction pk) s = .next t ∧ t.lineOf pk = none ∧
        ∀ q i, i < 256 → t.lineByte l.key q i = s.lineByte l.key q i) ∧
    (∀ (e : SEntry), s.sb.find? (fun f => f.op == e.op && f.part == e.part && f.piece == e.piece) = some e →
      e.level ≠ .die → s.mayMove e = true →
      ∃ t f, exec (.entryMoveOutward e.op e.part e.piece) s = .next t ∧
        t.sb = s.sb.filter (fun g => g.id != e.id) ++ [f] ∧ f.level = e.level.next ∧ f.data = e.data ∧ f.line = e.line ∧
        f.lo = e.lo ∧ f.id = e.id ∧ t.mem = s.mem ∧ t.ctxs = s.ctxs)

/-- R42, R343, R379, R240. A part whose translation fails at its turn, or whose data is lost, becomes held with the cause and the
address that the rules give; a well's lost data is cause 0x15; nothing of the access is performed. A fetch whose block is lost waits
with its trap at the instruction. (That the address is the one of the part that faults, after relocation, is the model's choice, logs
13 and 58, and so is that a peer's refusal, 0x0B, and a lost block come through this event, logs 32 and 58.) When every lane of a
`vamo` has been applied or has faulted and its core is awake, the context is left the trap of its lowest faulting lane, the lanes that
were applied stand in `vdone` beside those before, and its `ld` count falls by one. -/
def Obligations.LateFaults : Prop :=
  (∀ (s : State) (id k : Nat) (o : Op) (p : Part),
     let vf := s.vfOfCore (o.ctx / 16)
     let held := fun (t : State) (cause : Nat) (val : Word) => t.ctxs = s.ctxs ∧
       ∃ u q, t.partAt id k = some (u, q) ∧ q.st = .held ∧ q.cause = cause ∧ q.kval = val
     s.partAt id k = some (o, p) →
     (∀ f, p.well = none → s.partReady o k p = true → o.kind ≠ .verchk → o.kind ≠ .pf → s.heldBehind o k p = false →
       s.reachFor vf p.va (o.acc p) = .error (some f) →
       ∃ t, exec (.lateFault id k false) s = .next t ∧ t.mem = s.mem ∧ held t f.cause (BitVec.ofNat 64 p.va)) ∧
     (∀ n x, p.well = none → s.partReady o k p = true → o.kind ≠ .verchk → o.kind ≠ .pf → s.heldBehind o k p = false →
       s.reachFor vf p.va (o.acc p) = .ok (n, x) → s.slotFree n = true →
       s.accepts vf p.va n (s.resender (o.ctx / 16) id k) = true → ∃ t, exec (.lateFault id k true) s = .next t ∧
         t.mem = { s.mem with slices := t.mem.slices } ∧
         held t (if x.tgt = 2 then 0x0B else 0x15) (BitVec.ofNat 64 (if x.tgt = 2 then p.va else x.addr / 256 * 256))) ∧
     (∀ n x, p.well = none → o.kind = .fetch → p.st = .todo → s.isRefused (o.ctx / 16) id 0 = false → s.heldBehind o 0 p = false →
       s.reachFor vf p.va (o.acc p) = .ok (n, x) → s.slotFree n = true →
       s.accepts vf p.va n (s.resender (o.ctx / 16) id 0) = true → ∃ t, exec (.lateFault id k true) s = .next t ∧
         t.mem = { s.mem with slices := t.mem.slices } ∧ t.opAt id = none ∧ (t.ctxAt o.ctx).pc = (s.ctxAt o.ctx).pc ∧ (t.ctxAt o.ctx).fetchF =
           some (o.size, if x.tgt = 2 then 0x0B else 0x15, BitVec.ofNat 64 (if x.tgt = 2 then o.size else x.addr / 256 * 256))) ∧
     (∀ w, p.well = some w → p.st = .todo → o.sent = true → o.kind.byParts = true → s.portBefore o k w = false →
       s.portFree w = true → ∃ t, exec (.lateFault id k true) s = .next t ∧
         t.mem = { s.mem with ports := Tbl.set 0 s.mem.ports w (s.now + 1) } ∧ held t 0x15 (s.wellErr w p.off))) ∧
  (∀ (s : State) (id : Nat) (o : Op) (p : Part) (op : AmoOp),
     s.opAt id = some o → o.kind = .vamo op → o.parts.find? (fun q => q.st == .held && !q.deleg) = some p →
     o.parts.any (fun q => q.st.pending || (q.st == .held && q.deleg)) = false → 0 < (s.ctxAt o.ctx).count .ld →
     (s.coreAt (o.ctx / 16)).sleep = .awake → s.fileBusy o = false →
     ∃ t l, exec (.vamoLaneFault id) s = .next t ∧ (t.ctxAt o.ctx).lates = l :: (s.ctxAt o.ctx).lates ∧
       l.cause = p.cause ∧ l.val = p.kval ∧ l.at_ = some ((s.ctxAt o.ctx).pc - 8) ∧
       (∀ b : Fin 64, (t.ctxAt o.ctx).vdone.getLsbD b.val = ((s.ctxAt o.ctx).vdone.getLsbD b.val ||
         (BitVec.ofNat 64 ((o.parts.filter (fun q => q.st == .done)).map (fun q => 2 ^ q.acc)).sum).getLsbD b.val)) ∧
       (t.ctxAt o.ctx).count .ld = (s.ctxAt o.ctx).count .ld - 1 ∧ t.opAt id = none ∧ t.mem = s.mem)

/-! ### Control registers, traps and the system instructions (R28-R45, R116-R122, R164) -/

/-- R30, R31, R32, R33, R34, R59, R116. Every access to a control register at a level that may make it completes with the old value in d;
`csrw` writes the operand, `csrs` and `csrc` set and clear its bits, and with a = 0 they only read. An access to `fpcsr` needs every
earlier floating-point result. An access below the level that bits 11:10 of the number give, and a write of a hash mask below F,
traps with cause 0x03 and the number, and does nothing else. What a register reads after a write of `v`: whole registers hold
`v`; the cause registers keep bits 63 and 7:0, `fpcsr` its defined bits, `uirqv` all but bit 1 (R299) and a hash mask all but bits
52:40 (R226); `kstat` and `fstat` keep their priv field, take ktrap, pie and ie, let late only fall and ppriv rise to S at most
below F; `sleepd` gives the depth to an issue three cycles on; of `kip` the enables and the software bit take `v`, the doorbell bit only
falls, and the timer bit follows `cyc` and `ktcmp`. -/
def Obligations.CsrAccess : Prop :=
  ((∀ (s : State) (k : MReg) (d a : SReg) (n : BitVec 12),
      let old := s.readCsr n.toNat
      let x := s.regVal a
      let hmask := 0x410 ≤ n.toNat ∧ n.toNat ≤ 0x417
      let write := fun (v : Word) => (((s.popSrc [a]).writeCsr n.toNat v).writeReg d.val old).retire 8
      let read := (s.writeReg d.val old).retire 8
      (csrLevel n).rank ≤ s.me.priv.rank → (n = 0 → s.fpBusy s.cur = false) →
      (s.ready k [] d.val = true → exec (.csrr k d n) s = .next read) ∧
      (s.ready k [a] d.val = true → (hmask → s.me.priv = .f) →
        exec (.csrw k d a n) s = .next (write x) ∧
        (a.val ≠ 0 → exec (.csrs k d a n) s = .next (write (old ||| x)) ∧
          exec (.csrc k d a n) s = .next (write (old &&& ~~~x)))) ∧
      (s.ready k [a] d.val = true → a.val = 0 →
        exec (.csrs k d a n) s = .next read ∧ exec (.csrc k d a n) s = .next read)) ∧
   (∀ (s : State) (k : MReg) (d a : SReg) (n : BitVec 12), s.acting k = true →
      let traps := fun (i : Instr) => exec i s = .next (s.trapsWith 0x03 (n.setWidth 64) 8)
      (s.me.priv.rank < (csrLevel n).rank →
        traps (.csrr k d n) ∧ traps (.csrw k d a n) ∧ traps (.csrs k d a n) ∧ traps (.csrc k d a n)) ∧
      (0x410 ≤ n.toNat → n.toNat ≤ 0x417 → s.me.priv ≠ .f → traps (.csrw k d a n) ∧
        (a.val ≠ 0 → traps (.csrs k d a n) ∧ traps (.csrc k d a n))))) ∧
  (∀ (s : State) (v : Word),
     let rd := fun (n : Nat) => (s.writeCsr n v).readCsr n
     let status := fun (n : Nat) (st : Status) =>
       (rd n).extractLsb' 0 2 = s.me.priv.code ∧ (rd n).getLsbD 2 = v.getLsbD 2 ∧
       (rd n).getLsbD 5 = v.getLsbD 5 ∧ (rd n).getLsbD 6 = v.getLsbD 6 ∧
       (rd n).getLsbD 7 = (st.late && v.getLsbD 7) ∧ (rd n).toNat < 256 ∧
       (v.extractLsb' 3 2 = 0 ∨ v.extractLsb' 3 2 = 1 ∨ v.extractLsb' 3 2 = 3 ∧ s.me.priv = .f →
         (rd n).extractLsb' 3 2 = v.extractLsb' 3 2) ∧
       (v.extractLsb' 3 2 = 2 ∨ v.extractLsb' 3 2 = 3 ∧ s.me.priv ≠ .f → (rd n).extractLsb' 3 2 = st.ppriv.code)
     (∀ n ∈ [0x001, 0x003, 0x005, 0x006, 0x402, 0x403, 0x404, 0x405, 0x407, 0xC02, 0xC03, 0xC04, 0xC05], rd n = v) ∧
     (∀ n ∈ [0x004, 0x401, 0xC01], rd n = v &&& 0x80000000000000FF) ∧ rd 0x000 = v &&& 0x11FFF ∧
     (∀ i < 64, (rd 0x002).getLsbD i = (v.getLsbD i && i != 1)) ∧
     (∀ n, 0x410 ≤ n → n ≤ 0x417 → ∀ i < 64, (rd n).getLsbD i = (v.getLsbD i && !(decide (40 ≤ i) && decide (i ≤ 52)))) ∧
     status 0x400 s.me.kstat ∧ status 0xC00 s.me.fstat ∧
     (s.myCore.cw = [] → ((s.writeCsr 0x408 v).myCore.cSeen 8 (s.now + 3)).val.toNat = min 2 (v.toNat % 4)) ∧
     (rd 0x406).extractLsb' 16 3 = v.extractLsb' 16 3 ∧ (rd 0x406).getLsbD 2 = v.getLsbD 2 ∧
     (rd 0x406).getLsbD 0 = (s.me.kipP.getLsbD 0 && v.getLsbD 0) ∧
     ((rd 0x406).getLsbD 1 = true ↔ s.me.ktcmp.toNat ≤ s.cyc.toNat))

/-- R39, R43, R44, R216. A trap enters one level: an upcall at U where the fault is delegated; F at F, under `kstat`.ktrap, or for an access
issued above U; else S. The pc, the cause and the value stand in that level's registers, its status keeps the level and the
interrupt enable, its interrupts are off, and the pc is at the vector. Under revoke-on-trap an entry into S or F freezes a core
that is not frozen, and every ATTACHED slot of the core becomes HELD; an interrupt and an upcall freeze nothing. -/
def Obligations.TrapEntryRule : Prop :=
  (∀ (s : State) (cause : Nat) (val epc : Word) (above deleg : Bool), cause < 256 →
     let t := s.takeTrap cause val epc above deleg
     let c := s.me
     let e := t.me
     let code := BitVec.ofNat 64 cause
     t.last = .trapped ∧ t.mem = s.mem ∧ t.ops = s.ops ∧ s.othersSame t ∧
     (deleg = true ∧ c.priv = .u → e.uepc = epc ∧ e.ucause = code ∧ e.uval = val ∧ e.pc = c.uvec &&& ~~~3#64 ∧
       c.privilegedSame e) ∧
     (¬ (deleg = true ∧ c.priv = .u) → c.priv ≠ .f → c.kstat.ktrap = false → above = false →
       e.ktr = { c.ktr with cause := code, epc, val } ∧ e.priv = .s ∧ e.pc = c.ktr.vec &&& ~~~3#64 ∧
       e.kstat = { c.kstat with ppriv := c.priv, pie := c.kstat.ie, ie := false, ktrap := true } ∧
       e.fstat = c.fstat ∧ e.ftr = c.ftr) ∧
     (¬ (deleg = true ∧ c.priv = .u) → c.priv = .f ∨ c.kstat.ktrap = true ∨ above = true →
       ¬ (c.priv = .f ∧ c.fstat.ktrap = true) →
       e.ftr = { c.ftr with cause := code, epc, val } ∧ e.priv = .f ∧ e.pc = c.ftr.vec &&& ~~~3#64 ∧
       e.fstat = { c.fstat with ppriv := c.priv, pie := c.fstat.ie, ie := false, ktrap := true } ∧
       e.kstat = c.kstat ∧ e.ktr = c.ktr) ∧
     (c.priv = .f → c.fstat.ktrap = true → e.life = .ended ∧
       t.pkg.fwErrs = s.pkg.fwErrs ++ [(s.cur, cause, val, epc)])) ∧
  (∀ (s : State) (cause : Nat) (val epc : Word) (above deleg : Bool) (n : Nat),
     (s.hdrOf s.cid).traps.getLsbD 6 = true → s.myCore.frozen = none →
     ¬ (s.me.priv = .f ∧ s.me.fstat.ktrap = true) →
     let t := s.takeTrap cause val epc above deleg
     (¬ (deleg = true ∧ s.me.priv = .u) → t.myCore.frozen = some s.cur ∧
       (t.slotAt s.cid n) = (if (s.slotAt s.cid n).st = .attached then { s.slotAt s.cid n with st := .held }
         else s.slotAt s.cid n)) ∧
     (deleg = true ∧ s.me.priv = .u → t.myCore.frozen = none) ∧
     (∀ i, (s.takeInterrupt i epc).myCore.frozen = none))

/-- R42, R45. `eret` at U traps with cause 0x03. At S and F it completes: the level, the interrupt enable and the pc are those that the
level saved, its late and ktrap bits are 0, and the other level's registers are as they were. With late = 0 nothing is replayed; with
late = 1 every held access of the context is to be performed again, with its address and its bytes, and every other part of its
operations and every other operation is as it was. (That an access which spans two pages is replayed whole, and that lanes of `vamo`
and accesses of which a part awaits the host are none of the held ones, is the model's choice, logs 38 and 58; a held `arm` may take
another monitor, log 15, and is left out.) -/
def Obligations.ReturnFromTrap : Prop :=
  ∀ (s : State) (k : MReg), s.acting k = true →
    let c := s.me
    let replays := fun (t : State) => s.opsFresh = true → t.mem = s.mem ∧
      (∀ o ∈ s.ops, o.replayable s.cur = false → t.opAt o.id = some o) ∧
      (∀ o ∈ s.ops, o.replayable s.cur = true → (∀ n, o.kind ≠ .arm n) → ∃ u, t.opAt o.id = some u ∧ u.kind = o.kind ∧
        u.outs = o.outs ∧ u.replay = true ∧ u.sent = !o.order.isRel ∧ u.parts.length = o.parts.length ∧
        ∀ (n : Nat) (p : Part), o.parts[n]? = some p → ∃ q : Part, u.parts[n]? = some q ∧
          (p.acc ∈ o.eretAccs → q.st = .todo ∨ q.st = .wait) ∧
          (p.acc ∈ o.eretAccs → q.acc = p.acc ∧ q.va = p.va ∧ q.well = p.well ∧ q.off = p.off ∧
            q.dst = p.dst ∧ q.data = p.data) ∧
          (p.acc ∉ o.eretAccs → q = p))
    (c.priv = .u → exec (.eret k) s = .next (s.trapsWith 0x03 0 8)) ∧
    (c.priv = .s → c.kstat.late = false → ∃ t, exec (.eret k) s = .next t ∧ t.last = .issued ∧
      t.me.priv = c.kstat.ppriv ∧ t.me.kstat = { c.kstat with ie := c.kstat.pie, ktrap := false } ∧
      t.me.pc = c.ktr.epc &&& ~~~3#64 ∧ t.me.ktr = c.ktr ∧ t.me.fstat = c.fstat ∧ t.me.ftr = c.ftr ∧ t.mem = s.mem ∧
      t.ops = s.ops) ∧
    (c.priv = .s → c.kstat.late = true → ∃ t, exec (.eret k) s = .next t ∧ t.last = .issued ∧ replays t ∧
      t.me.priv = c.kstat.ppriv ∧ t.me.kstat = { c.kstat with late := false, ie := c.kstat.pie, ktrap := false } ∧
      t.me.pc = c.ktr.epc &&& ~~~3#64 ∧ t.me.ktr = c.ktr ∧ t.me.fstat = c.fstat ∧ t.me.ftr = c.ftr) ∧
    (c.priv = .f → c.fstat.late = true → ∃ t, exec (.eret k) s = .next t ∧ t.last = .issued ∧ replays t ∧
      t.me.priv = c.fstat.ppriv ∧ t.me.fstat = { c.fstat with late := false, ie := c.fstat.pie, ktrap := false } ∧
      t.me.pc = c.ftr.epc &&& ~~~3#64 ∧ t.me.ftr = c.ftr ∧ t.me.kstat = c.kstat ∧ t.me.ktr = c.ktr) ∧
    (c.priv = .f → c.fstat.late = false → ∃ t, exec (.eret k) s = .next t ∧ t.last = .issued ∧
      t.me.priv = c.fstat.ppriv ∧ t.me.fstat = { c.fstat with ie := c.fstat.pie, ktrap := false } ∧
      t.me.pc = c.ftr.epc &&& ~~~3#64 ∧ t.me.ftr = c.ftr ∧ t.me.kstat = c.kstat ∧ t.me.ktr = c.ktr ∧ t.mem = s.mem ∧
      t.ops = s.ops)

/-- R78, R119, R120, R121, R122, R164. `nop` advances the pc, a fill word moves it to the next word. A fence completes when the context
has no access outstanding and has observed no entry that still stands on its way or for which a peer has not answered, and parks while
a load of it is outstanding in a page that is not UN. `halt` and `exit` complete when the `ld` and `st` counts are 0, and end the
context. `wfi` completes and waits, unless an enabled interrupt is pending or a late trap waits. `trap` and `brk` complete by entering
their traps: cause 0x13 with the immediate and the next instruction's address, cause 0x12 with value 0 and the instruction's own. -/
def Obligations.SystemInstructions : Prop :=
  (∀ (s : State) (k : MReg) (a : SReg) (sc : Scope) (un : Bool), s.acting k = true →
     let quiet := (∀ o ∈ s.ops, o.ctx ≠ s.cur) ∧ (∀ x ∈ s.me.seen, (∀ e ∈ s.sb, e.id ≠ x.1) ∧ s.farOut x = false)
     exec (.nop k) s = .next (s.retire 8) ∧
     (∀ w, exec (.fillWord w) s = .next (s.modMe (fun c => { c with pc := c.pc + 4 }))) ∧
     (quiet → exec (.fence k sc un) s = .next ((if sc = .sys then s.modMe (fun c => { c with sync := s.now + 1 }) else s).retire 8)) ∧
     ((∃ o ∈ s.ops, o.ctx = s.cur ∧ o.id < s.nid ∧ o.kind.isLoad = true ∧ o.arrived = false ∧
         ∃ p ∈ o.parts, p.well.isSome = true ∨ s.kindOf s.cid p.va ≠ some .un) →
       exec (.fence k sc un) s = .next (s.park .own)) ∧
     (s.me.count .ld = 0 → s.me.count .st = 0 →
       (∃ t, exec (.halt k) s = .next t ∧ t.me.life = .ended ∧ t.me.exitv = 0 ∧ t.mem = s.mem ∧ t.ops = s.ops) ∧
       (s.allFull [a] = true → ∃ t, exec (.exit k a) s = .next t ∧ t.me.life = .ended ∧ t.me.exitv = s.regVal a ∧
         t.me.mon = [] ∧ t.mem = s.mem ∧ t.ops = s.ops)) ∧
     (s.irqPending s.cur = false → s.lateReady s.cur = false →
       exec (.wfi k) s = .next ((s.retire 8).modMe (fun c => { c with post := .wfi }))) ∧
     (s.irqPending s.cur = true ∨ s.lateReady s.cur = true → exec (.wfi k) s = .next (s.retire 8))) ∧
  (∀ (s : State) (k : MReg) (imm : BitVec 18), s.acting k = true →
     exec (.trap k imm) s = .next ((s.takeTrap 0x13 (imm.signExtend 64) (s.me.pc + 8) false false).endedPast 8) ∧
     exec (.brk k) s = .next (s.trapsWith 0x12 0 8))

/-- R28, R30, R116. An instruction that issues at U leaves every register of S and F of its context as it was, and the context
at U: only a trap or an interrupt raises a level. -/
def Obligations.UserKeepsPrivileged : Prop :=
  ∀ (s t : State) (i : Instr), (toRaw i).isSome = true → s.me.priv = .u → exec i s = .next t → t.last = .issued →
    s.me.privilegedSame t.me ∧ t.pkg.fwErrs = s.pkg.fwErrs ∧
    ∀ v, (t.vfAt v).hmask = (s.vfAt v).hmask

/-! ### Number formats and vector instructions (R47-R75, R123-R149) -/

/-- R50, R53, R55, R56, R57. Every finite value that a format holds is delivered as itself in every rounding mode, with no flag. Rounding is
correct in every mode: of an exact value n/d in the format's range the value delivered is the one that the mode chooses, with NX and UF as
the rules say; from 2 to the power of one above the largest exponent on it overflows with OF and NX to what the table gives; and a value
below half the smallest normal one is flushed under `ftz`, with UF and NX. A finite value n × 2^e is rounded as that exact value. -/
def Obligations.Rounding : Prop :=
  (∀ f ∈ [fmt32, fmt16, fmtB16, fmtE5M2, fmtE4M3, fmtE2M1], ∀ (rm : Rm) (b : Nat) (neg : Bool) (n : Nat) (e : Int),
     b < 2 ^ f.width → f.read false b = .fin neg n e → f.roundFin rm false neg n e = (b, 0)) ∧
  (∀ f ∈ [fmt32, fmt16, fmtB16, fmtE5M2, fmtE4M3, fmtE2M1], ∀ (rm : Rm) (z neg : Bool) (n d : Nat),
     (f.inRange z 1 n d → f.rounded rm neg 1 n d (f.round rm z neg n d)) ∧
     (0 < n → 0 < d → atMost 1 n d 1 (f.emax + 1) → f.round rm z neg n d =
       (if f.inf ∧ (rm = 0 ∨ (rm = 2 ∧ neg = false) ∨ (rm = 3 ∧ neg = true)) then f.infBits neg else f.maxBits neg, fOF ||| fNX)) ∧
     (0 < n → 0 < d → z = true → f.flush = true → ¬ atMost 1 n d 1 (f.emin - 1) →
       f.round rm z neg n d = (f.signBit neg, fUF ||| fNX))) ∧
  (∀ (f : Fmt) (rm : Rm) (z neg : Bool) (n : Nat) (e : Int),
     f.roundFin rm z neg 0 e = (f.signBit neg, 0) ∧
     (0 < n → f.roundFin rm z neg n e = f.round rm z neg (scale2 n 1 e).1 (scale2 n 1 e).2))

/-- R124, R126, R127. Both forms of the vector integer operations complete: the active lanes hold the results of the table, the
others what they held, at issue, or later where a queue was popped (R22; when is the model's choice, log 62); `vmul` delivers the same
after 8 cycles. -/
def Obligations.VectorIntegers : Prop :=
  ∀ (s : State) (k : MReg) (t : Ty) (d a b : VReg) (x : SReg),
    let w := t.width
    let m := 2 ^ w
    let la := fun (i : Nat) => laneOf (s.vecVal a) w i
    let lb := fun (i : Nat) => laneOf (s.vecVal b) w i
    let lx := (s.regVal x).toNat % m
    let both := fun (i j : Instr) (f : Nat → Nat → Nat) =>
      (s.vecReady [] [a, b] d = true → ∃ r, s.lanesAre k w d r (fun n => f (la n) (lb n)) ∧
        exec i s = .next (s.vecResult [] d r (s.laneMask k w))) ∧
      (s.vecReady [x] [a] d = true → ∃ r, s.lanesAre k w d r (fun n => f (la n) lx) ∧
        exec j s = .next (s.vecResult [x] d r (s.laneMask k w)))
    both (.vaddInt k t d a b) (.vaddIntScalar k t d a x) (fun p q => (p + q) % m) ∧
    both (.vsubInt k t d a b) (.vsubIntScalar k t d a x) (fun p q => (p + m - q) % m) ∧
    both (.vminInt k t d a b) (.vminIntScalar k t d a x) (fun p q => if t.toInt p ≤ t.toInt q then p else q) ∧
    both (.vmaxInt k t d a b) (.vmaxIntScalar k t d a x) (fun p q => if t.toInt p ≤ t.toInt q then q else p) ∧
    both (.vand k t d a b) (.vandScalar k t d a x) (fun p q => p &&& q) ∧
    both (.vor k t d a b) (.vorScalar k t d a x) (fun p q => p ||| q) ∧
    both (.vxor k t d a b) (.vxorScalar k t d a x) (fun p q => p ^^^ q) ∧
    both (.vshl k t d a b) (.vshlScalar k t d a x) (fun p q => p * 2 ^ (q % w) % m) ∧
    both (.vshr k t d a b) (.vshrScalar k t d a x) (fun p q => p / 2 ^ (q % w)) ∧
    both (.vsra k t d a b) (.vsraScalar k t d a x) (fun p q => ((BitVec.ofNat w p).sshiftRight (q % w)).toNat) ∧
    (s.vecReady [] [a, b] d = true → ∃ r, (∀ i < 512 / w, s.maskBit k i = true → laneOf r w i = la i * lb i % m) ∧
      exec (.vmulInt k t d a b) s = .next (s.vecDeferred k w [] d r 0 false 8)) ∧
    (s.vecReady [x] [a] d = true → ∃ r, (∀ i < 512 / w, s.maskBit k i = true → laneOf r w i = la i * lx % m) ∧
      exec (.vmulIntScalar k t d a x) s = .next (s.vecDeferred k w [x] d r 0 false 8))

/-- R132, R133, R134, R135, R136. Selects, moves, broadcasts and permutes complete lane by lane; `vext` and `vins` move the one
lane n = (b + imm) mod L, where bit n of the mask lets them. A result of a popped queue comes later (R22; when is the model's choice,
log 62); that `vext` and `vins` pop the ports they name under a false mask bit too is the model's choice (log 19). -/
def Obligations.VectorMoves : Prop :=
  ∀ (s : State) (k : MReg) (t : Ty) (lw : LaneW) (d a b : VReg) (c : MReg) (x y : SReg) (imm : BitVec 18),
    let w := t.width
    let lane := fun (v : VReg) (w i : Nat) => laneOf (s.vecVal v) w i
    let now := fun (i : Instr) (w : Nat) (xs : List SReg) (vs : List VReg) (f : Nat → Nat) => s.vecReady xs vs d = true →
      ∃ r, s.lanesAre k w d r f ∧ exec i s = .next (s.vecResult xs d r (s.laneMask k w))
    let n := (s.regVal y + imm.signExtend 64).toNat % (512 / w)
    now (.vsel k lw d a b c) lw.bits [] [a, b] (fun i => if s.maskBit c i then lane a lw.bits i else lane b lw.bits i) ∧
    now (.vmov k lw d a) lw.bits [] [a] (fun i => lane a lw.bits i) ∧
    now (.vbcast k t d x) w [x] [] (fun _ => (s.regVal x).toNat % 2 ^ w) ∧
    now (.vperm k t d a b) w [] [a, b] (fun i => lane a w (lane b w i % (512 / w))) ∧
    (t.isInt = true → now (.vneg k t d a) w [] [a] (fun i => (2 ^ w - lane a w i) % 2 ^ w) ∧
      now (.vabs k t d a) w [] [a] (fun i => (t.toInt (lane a w i)).natAbs % 2 ^ w)) ∧
    (s.allFull [y] = true → s.vecFull [a] = true → s.takes x.val = true →
      (s.maskBit k n = true → ∃ r : Word,
        (t.isInt = true → t.signed = true → r.toInt = t.toInt (lane a w n)) ∧
        ((t.isInt && t.signed) = false → r.toNat = lane a w n) ∧
        exec (.vext k t x a y imm) s = .next ((s.putResult [y] x r).retire 8)) ∧
      (s.maskBit k n = false → exec (.vext k t x a y imm) s = .next ((s.popSrc [y]).retire 8))) ∧
    (s.allFull [x, y] = true → s.vecTakes d = true →
      (s.maskBit k n = true → ∃ r, (∀ i < 512 / w, laneOf r w i =
          if i = n then (s.regVal x).toNat % 2 ^ w else lane d w i) ∧
        exec (.vins k t d x y imm) s = .next (s.vecResult [x, y] d r (BitVec.ofNat 512 ((2 ^ w - 1) * 2 ^ (w * n))))) ∧
      (s.maskBit k n = false → exec (.vins k t d x y imm) s = .next ((s.popSrc [x, y]).retire 8)))

/-- R57, R59, R60, R126, R128, R129, R130. The vector floating-point instructions complete: each active lane holds the exact result rounded
once, under the latency of its class, and the flags of the active lanes come with it. One that raises an enabled flag traps
with cause 0x06 and every flag it would have raised (said of `vadd`, the shared path of all). What a lane holds: of finite operands the exact
sum, product, quotient or fused sum, rounded as `Rounding` states it, with the sign of a zero that R54 gives; of a root, or the reciprocal
of one, the correctly rounded value; the smaller or larger operand with -0 below +0; of a zero divisor an infinity with DZ; and the
canonical NaN, with NV for a signalling operand and for an invalid operation. -/
def Obligations.VectorFloats : Prop :=
  (∀ (s : State) (k : MReg) (t : Ty) (d a b c : VReg) (x : SReg),
     let w := t.width
     let rm := s.me.rm
     let z := s.me.ftz
     let rd := fun (v : VReg) (i : Nat) => t.fmt.read z (laneOf (s.vecVal v) w i)
     let rx := t.fmt.read z ((s.regVal x).toNat % 2 ^ w)
     let go := fun (i : Instr) (xs : List SReg) (vs : List VReg) (lat : Nat) (f : Nat → Nat × Flags) =>
       s.vecReady xs vs d = true → s.fpTraps (s.laneFlags k w (fun n => (f n).2)) = false →
       ∃ r, (∀ n < 512 / w, s.maskBit k n = true → laneOf r w n = (f n).1 % 2 ^ w) ∧
         exec i s = .next (s.vecDeferred k w xs d r (s.laneFlags k w (fun n => (f n).2)) true lat)
     let both := fun (i j : Instr) (lat : Nat) (f : FVal → FVal → Nat × Flags) =>
       go i [] [a, b] lat (fun n => f (rd a n) (rd b n)) ∧ go j [x] [a] lat (fun n => f (rd a n) rx)
     both (.vaddFp k t d a b) (.vaddFpScalar k t d a x) 8 (t.fmt.add rm z) ∧
     both (.vsubFp k t d a b) (.vsubFpScalar k t d a x) 8 (fun p q => t.fmt.add rm z p q.negate) ∧
     both (.vmulFp k t d a b) (.vmulFpScalar k t d a x) 8 (t.fmt.mul rm z) ∧
     both (.vminFp k t d a b) (.vminFpScalar k t d a x) 8 (t.fmt.minMax true) ∧
     both (.vmaxFp k t d a b) (.vmaxFpScalar k t d a x) 8 (t.fmt.minMax false) ∧
     both (.vdiv k t d a b) (.vdivScalar k t d a x) 32 (t.fmt.div rm z) ∧
     go (.vfma k t d a b c) [] [a, b, c] 12 (fun n => t.fmt.fma rm z (rd a n) (rd b n) (rd c n)) ∧
     go (.vfms k t d a b c) [] [a, b, c] 12 (fun n => t.fmt.fma rm z (rd a n) (rd b n) (rd c n).negate) ∧
     go (.vsqrt k t d a) [] [a] 32 (fun n => t.fmt.sqrt rm z (rd a n)) ∧
     go (.vrcp k t d a) [] [a] 16 (fun n => t.fmt.rcp rm z (rd a n)) ∧
     go (.vrsq k t d a) [] [a] 16 (fun n => t.fmt.rsq rm z (rd a n)) ∧
     (t.isInt = false → go (.vabs k t d a) [] [a] 8 (fun n => fpSign FVal.abs t.fmt rm z (rd a n)) ∧
       go (.vneg k t d a) [] [a] 8 (fun n => fpSign FVal.negate t.fmt rm z (rd a n)))) ∧
  (∀ (s : State) (k : MReg) (t : Ty) (d a b : VReg),
     let fl := s.laneFlags k t.width (fun n => (t.fmt.add s.me.rm s.me.ftz (t.fmt.read s.me.ftz (laneOf (s.vecVal a) t.width n))
       (t.fmt.read s.me.ftz (laneOf (s.vecVal b) t.width n))).2)
     s.vecReady [] [a, b] d = true → s.fpTraps fl = true →
     exec (.vaddFp k t d a b) s = .next (s.trapsWith 0x06 (fl.setWidth 64) 8)) ∧
  (∀ f ∈ [fmt32, fmt16, fmtB16], ∀ (rm : Rm) (z i j l : Bool) (n m o : Nat) (d e g : Int),
     let p := FVal.fin i n d
     let q := FVal.fin j m e
     let sum := fun (v w : Int) (d e : Int) (zero : Bool) (r : Nat × Flags) =>
       let t := v * 2 ^ (d - min d e).toNat + w * 2 ^ (e - min d e).toNat
       (t = 0 → r = (f.signBit zero, 0)) ∧ (t ≠ 0 → r = f.roundFin rm z (decide (t < 0)) t.natAbs (min d e))
     let ratio := fun (n m : Nat) (e : Int) (neg : Bool) (r : Nat × Flags) =>
       r = f.round rm z neg (scale2 n m e).1 (scale2 n m e).2
     sum (sgn i n) (sgn j m) d e (if n = 0 ∧ m = 0 ∧ i = j then i else decide (rm = 3)) (f.add rm z p q) ∧
     f.mul rm z p q = f.roundFin rm z (i != j) (n * m) (d + e) ∧
     sum (sgn (i != j) (n * m)) (sgn l o) (d + e) g (if n * m = 0 ∧ o = 0 ∧ (i != j) = l then l else decide (rm = 3))
       (f.fma rm z p q (.fin l o g)) ∧
     (0 < n → 0 < m → ratio n m (d - e) (i != j) (f.div rm z p q)) ∧
     (n = 0 → 0 < m → f.div rm z p q = (f.signBit (i != j), 0)) ∧ (0 < n → m = 0 → f.div rm z p q = (f.infBits (i != j), fDZ)) ∧
     (n = 0 → m = 0 → f.div rm z p q = (f.cnan, fNV)) ∧
     (0 < n → ratio 1 n (-d) i (f.rcp rm z p)) ∧ (n = 0 → f.rcp rm z p = (f.infBits i, fDZ)) ∧
     (n = 0 → f.sqrt rm z p = (f.signBit i, 0) ∧ f.rsq rm z p = (f.infBits i, fDZ)) ∧
     (0 < n → i = true → f.sqrt rm z p = (f.cnan, fNV) ∧ f.rsq rm z p = (f.cnan, fNV)) ∧
     (i = false → f.inRange z 2 (scale2 n 1 d).1 (scale2 n 1 d).2 →
       f.rounded rm false 2 (scale2 n 1 d).1 (scale2 n 1 d).2 (f.sqrt rm z p)) ∧
     (i = false → f.inRange z 2 (scale2 n 1 d).2 (scale2 n 1 d).1 →
       f.rounded rm false 2 (scale2 n 1 d).2 (scale2 n 1 d).1 (f.rsq rm z p))) ∧
  (∀ f ∈ [fmt32, fmt16, fmtB16], ∀ (rm : Rm) (z i j : Bool) (n : Nat) (e : Int),
     let inf := FVal.inf i
     let p := FVal.fin j n e
     f.add rm z inf p = (f.infBits i, 0) ∧ f.add rm z p inf = (f.infBits i, 0) ∧
     f.add rm z inf (.inf j) = (if i = j then (f.infBits i, 0) else (f.cnan, fNV)) ∧
     f.mul rm z inf (.inf j) = (f.infBits (i != j), 0) ∧
     f.mul rm z inf p = (if n = 0 then (f.cnan, fNV) else (f.infBits (i != j), 0)) ∧ f.mul rm z p inf = f.mul rm z inf p ∧
     f.div rm z inf (.inf j) = (f.cnan, fNV) ∧ f.div rm z inf p = (f.infBits (i != j), 0) ∧
     f.div rm z p inf = (f.signBit (i != j), 0) ∧ f.rcp rm z inf = (f.signBit i, 0) ∧
     f.sqrt rm z inf = (if i then (f.cnan, fNV) else (f.infBits false, 0)) ∧
     f.rsq rm z inf = (if i then (f.cnan, fNV) else (0, 0))) ∧
  (∀ f ∈ [fmt32, fmt16, fmtB16], ∀ (rm : Rm) (z : Bool) (p q r : FVal),
     let nan := fun (sig : Bool) => (f.cnan, if sig then fNV else (0 : Flags))
     let bad := (p.isInf && q.isZero) || (p.isZero && q.isInf)
     (p.isNan = true → f.sqrt rm z p = nan p.isSig ∧ f.rsq rm z p = nan p.isSig ∧ f.rcp rm z p = nan p.isSig) ∧
     (p.isNan = true ∨ q.isNan = true → ∀ v ∈ [f.add rm z p q, f.mul rm z p q, f.div rm z p q, f.minMax true p q, f.minMax false p q],
       v = nan (p.isSig || q.isSig)) ∧
     (bad = true → f.fma rm z p q r = (f.cnan, fNV)) ∧
     (bad = false → p.isNan = true ∨ q.isNan = true ∨ r.isNan = true → f.fma rm z p q r = nan (p.isSig || q.isSig || r.isSig)) ∧
     (bad = false → p.isNan = false → q.isNan = false → p.isInf = true ∨ q.isInf = true →
       (∀ l, r = .inf l → f.fma rm z p q r = if l = (p.neg != q.neg) then (f.infBits l, 0) else (f.cnan, fNV)) ∧
       (r.isNan = false → r.isInf = false → f.fma rm z p q r = (f.infBits (p.neg != q.neg), 0))) ∧
     (p.isNan = false → q.isNan = false → p.isInf = false → q.isInf = false → ∀ l, r = .inf l → f.fma rm z p q r = (f.infBits l, 0))) ∧
  (∀ f ∈ [fmt32, fmt16, fmtB16], ∀ (x y : Nat), x < 2 ^ f.width → y < 2 ^ f.width →
     let p := f.read false x
     let q := f.read false y
     (p.isNan = false → q.isNan = false → p.below q ∨ (p.isZero = true ∧ q.isZero = true ∧ p.neg = true) ∨ x = y →
       f.minMax true p q = (x, 0) ∧ f.minMax true q p = (x, 0) ∧ f.minMax false p q = (y, 0) ∧ f.minMax false q p = (y, 0)))

/-- R26, R73, R131, R137. `vcmp` completes with the condition of each active lane in kd and every other bit 0; a floating-point one
holds the context back for 8 cycles. `vred` completes with its result deferred: over integers the lanes that are active
combined, over floating point the fixed tree. The condition is that of the integers or of the values that the lanes hold, -0 equal to +0; with
a NaN only `ne` holds, and NV comes of a signalling one and in every ordered comparison. The tree combines the active lanes pairwise by
number, a node with one input passes it, and each combination adds its flags; with no lane it is the identity. (That a single lane passes
with no flag, even a signalling NaN, is the model's reading, log 63.) -/
def Obligations.ComparesAndReductions : Prop :=
  (∀ (cc : VCc) (t : Ty) (z : Bool) (x y : Nat),
    let holds := fun (lt gt : Prop) => match cc with
      | .eq => ¬lt ∧ ¬gt
      | .ne => lt ∨ gt
      | .lt => lt
      | .le => ¬gt
      | .gt => gt
      | .ge => ¬lt
    let r := laneCompare cc t z x y
    let p := t.fmt.read z x
    let q := t.fmt.read z y
    (t.isInt = true → r.2 = 0 ∧ (r.1 = true ↔ holds (t.toInt x < t.toInt y) (t.toInt y < t.toInt x))) ∧
    (t.isInt = false → p.isNan = false → q.isNan = false → r.2 = 0 ∧ (r.1 = true ↔ holds (p.below q) (q.below p))) ∧
    (t.isInt = false → p.isNan = true ∨ q.isNan = true → r.1 = decide (cc = .ne) ∧
      r.2 = if p.isSig = true ∨ q.isSig = true ∨ (cc ≠ .eq ∧ cc ≠ .ne) then fNV else 0)) ∧
  (∀ (s : State) (k : MReg) (op : RedOp) (t : Ty) (a : VReg), t.isInt = false → 8 ≤ t.width → op = .add ∨ op = .min ∨ op = .max →
    let f := t.fmt
    let leaf := fun (i : Nat) => if i < 512 / t.width ∧ s.maskBit k i = true then some (laneOf (s.vecVal a) t.width i, (0 : Flags)) else none
    let node := fun (x y : Nat × Flags) =>
      let p := f.read s.me.ftz x.1
      let q := f.read s.me.ftz y.1
      let r := if op = .add then f.add s.me.rm s.me.ftz p q else f.minMax (op == .min) p q
      (r.1, x.2 ||| y.2 ||| r.2)
    s.reduced k op t a = (treeNode node leaf 6 0).getD (if op = .add then 0 else f.infBits (op == .max), 0)) ∧
  ∀ (s : State) (k kd : MReg) (cc : VCc) (op : RedOp) (t : Ty) (a b : VReg) (x d : SReg),
    let w := t.width
    let la := fun (i : Nat) => laneOf (s.vecVal a) w i
    let cmp := fun (i : Instr) (xs : List SReg) (vs : List VReg) (q : Nat → Nat) =>
      let r := fun (n : Nat) => laneCompare cc t s.me.ftz (la n) (q n)
      let fl := s.laneFlags k w (fun n => (r n).2)
      s.allFull xs = true → s.vecFull vs = true → s.fpTraps fl = false → ∃ bits : Word,
        (∀ n < 64, bits.getLsbD n = (decide (n < 512 / w) && s.maskBit k n && (r n).1)) ∧
        exec i s = .next ((((s.popSrc xs).writeMask kd.val bits).modMe (fun c =>
          { c.raise fl with holdTo := if t.isInt then c.holdTo else s.now + 8 })).retire 8)
    (8 ≤ w → cmp (.vcmp k cc t kd a b) [] [a, b] (fun n => laneOf (s.vecVal b) w n)) ∧
    (8 ≤ w → cmp (.vcmpScalar k cc t kd a x) [x] [a] (fun _ => (s.regVal x).toNat % 2 ^ w)) ∧
    (s.vecFull [a] = true → s.takes d.val = true →
      (t.isInt = true →
        let v := (((List.range (512 / w)).filter (s.maskBit k)).map la).foldl (redInt op t) (redIntEmpty op t)
        exec (.vred k op t d a) s = .next (((s.markEmpty d.val).deferOuts
          [{ dst := s.dstOf d.val, val := (laneWord t v).setWidth 512 }] 0 false 8).retire 8)) ∧
      (t.isInt = false → s.fpTraps (s.reduced k op t a).2 = false →
        exec (.vred k op t d a) s = .next (((s.markEmpty d.val).deferOuts
          [{ dst := s.dstOf d.val, val := (laneWord t (s.reduced k op t a).1).setWidth 512 }] (s.reduced k op t a).2 true
          24).retire 8)))

/-- R49, R61, R62, R65, R70, R72, R142, R143, R144, R145, R146. Conversions, quantisation, dequantisation and companding complete with their
results deferred, where no enabled flag is raised, and with these results: `vcvt` converts each active element into its place and
leaves every other bit of vd; `vq` gives 32 elements in the part of vd and the scales in xc; `vdq` gives 32 values; `vcomp` the points
of the curve. What an element is: an integer saturates; a value to an integer is rounded once and saturates with NV; other values are
rounded once. A block of an MX scheme takes the scale under which its largest magnitude has the format's largest exponent, and each
element is rounded once and clamped; a KB4 block takes the least scale under which no element is above 6. The curve is the
line of the segment of a magnitude, rounded once; the table that none has been loaded over is the identity. -/
def Obligations.ConversionsIssue : Prop :=
  (∀ (s : State) (k : MReg) (t u : Ty) (sch : Scheme) (f : Bool) (d a : VReg) (b c : SReg) (p4 : BitVec 4) (p : BitVec 2),
    let issued := fun (i : Instr) (fl : Flags) (fp : Bool) (lat : Nat) (vs : List VReg) (res : List Out → Prop) =>
      ∃ (t : State) (o : Op), exec i s = .next t ∧ t.last = .issued ∧ t.ops = s.ops ++ [o] ∧
        o.ctx = s.cur ∧ o.kind = .alu ∧ o.flags = fl ∧ o.fp = fp ∧ o.due = s.now + lat ∧ res o.outs ∧
        t.me.pc = s.me.pc + 8 ∧ t.mem = s.mem ∧ s.othersSame t ∧ ∀ v ∈ vs, (t.vecAt v).pend = true
    let part := fun (v m : VWord) (w q j e : Nat) => laneOf v w (32 * q + j) = e % 2 ^ w ∧ laneOf m w (32 * q + j) = 2 ^ w - 1
    (let narrow := decide (t.width ≤ u.width)
     let L := 512 / max t.width u.width
     let q := p4.toNat
     let r := s.converted k t u a q
     s.vecReady [] [a] d = true → s.fpTraps r.2 = false ∨ (t.isInt = true ∧ u.isInt = true) →
     (q + 1) * L ≤ 512 / min t.width u.width →
     issued (.vcvt k t u d a p4) r.2 (!(t.isInt && u.isInt)) 8 [d] (fun outs => ∃ v m, outs = [{ dst := .v d.val m, val := v }] ∧
       (∀ i < L, let dst := if narrow then q * L + i else i
         let x := laneOf (s.vecVal a) u.width (if narrow then i else q * L + i)
         (s.maskBit k i = true → laneOf v t.width dst = (convertElem t u s.me.rm s.me.ftz x).1 % 2 ^ t.width ∧
           laneOf m t.width dst = 2 ^ t.width - 1) ∧
         (s.maskBit k i = false → laneOf m t.width dst = 0)) ∧
       (∀ j < 512 / t.width, narrow = true → j / L ≠ q → laneOf m t.width j = 0))) ∧
    (let e := fun (i : Nat) => compand s.myCore.table f (fmt32.read s.me.ftz (laneOf (s.vecVal a) 32 i))
     let fl := s.laneFlags k 32 (fun i => (e i).2)
     s.fpTraps fl = false → s.vecReady [] [a] d = true →
     ∃ r, (∀ i < 16, s.maskBit k i = true → laneOf r 32 i = (e i).1 % 2 ^ 32) ∧
       exec (.vcomp k f d a) s = .next (s.vecDeferred k 32 [] d r fl true 8)) ∧
    (let r := s.quantised sch f t a b
     let w := (schemeFmt sch).width
     s.fpTraps r.2.2 = false → s.ready k [b] c.val = true → s.vecFull (groupRegs t a) = true → s.vecTakes d = true →
     t.vecFp = true → 32 * p.toNat + 32 ≤ 512 / w →
     issued (.vq k sch f t d c a b p) r.2.2 true 12 [d] (fun outs => ∃ v m,
       outs = [{ dst := .v d.val m, val := v }, { dst := s.dstOf c.val, val := (BitVec.ofNat 64 r.1).setWidth 512 }] ∧
       (∀ j < 32, part v m w p.toNat j (r.2.1.getD j 0)) ∧ (∀ j < 512 / w, j / 32 ≠ p.toNat → laneOf m w j = 0)) ∧
     (f = false → sch ≠ .kb4 → r = mxQuant (schemeFmt sch) s.me.rm (s.groupVals t a)) ∧
     (f = false → sch = .kb4 → let g := kb4Group s.me.rm ((s.regVal b).toNat % 65536) (s.groupVals t a)
       r = (packNat 8 g.1, g.2.1, g.2.2))) ∧
    (let r := s.dequantised sch f t a b c p
     let fl := r.foldl (fun x y => x ||| y.2) 0
     let n := 512 / t.width
     s.fpTraps fl = false → s.ready k [b, c] 0 = true → s.vecFull [a] = true → (∀ v ∈ groupRegs t d, s.vecTakes v = true) →
     t.vecFp = true →
     issued (.vdq k sch f t d a b c p) fl true 12 (groupRegs t d) (fun outs =>
       outs.map (·.dst) = (groupRegs t d).map (fun v => .v v.val allBits) ∧
       ∀ j < 32, ∃ x, outs[j / n]? = some x ∧ laneOf x.val t.width (j % n) = (r.getD j (0, 0)).1 % 2 ^ t.width) ∧
     (f = false → ∀ j < 32, ∀ neg m e,
       fmtE2M1.read false (laneOf (s.vecVal a) 4 (32 * p.toNat + j)) = .fin neg m e → ∀ i n g, sch = .kb4 →
       fmtB16.read false ((s.regVal c).toNat % 65536) = .fin i n g →
       let z := e3m5 ((s.regVal b).toNat / 256 ^ (j / 8) % 256)
       (r.getD j (0, 0)).1 = (t.fmt.convert s.me.rm s.me.ftz (fmt32.read false
         (fmt32.roundFin s.me.rm s.me.ftz (i != neg) (n * z.1 * m) (g + z.2 + e)).1)).1) ∧
     (f = false → sch ≠ .kb4 → t.vecFp = true → ∀ j < 32, let code := (s.regVal b).toNat % 256
       (code = 255 → (r.getD j (0, 0)).1 = t.fmt.cnan) ∧
       (∀ neg m e, code ≠ 255 → (schemeFmt sch).read false (laneOf (s.vecVal a) (schemeFmt sch).width (32 * p.toNat + j)) =
           .fin neg m e →
         (r.getD j (0, 0)).1 = (t.fmt.convert s.me.rm s.me.ftz (fmt32.read false
           (fmt32.roundFin s.me.rm s.me.ftz neg m (e + ((code : Int) - 127))).1)).1)))) ∧
  (∀ (t u : Ty) (rm : Rm) (z : Bool) (x : Nat),
    let r := convertElem t u rm z x
    let v := u.fmt.read z x
    let clamp := fun (n : Int) => max t.lowest (min t.highest n)
    (u.isInt = true → t.isInt = true → t.toInt r.1 = clamp (u.toInt x) ∧ r.2 = 0) ∧
    (u.isInt = true → t.isInt = false → r = t.fmt.roundFin rm z (decide (u.toInt x < 0)) (u.toInt x).natAbs 0) ∧
    (u.isInt = false → t.isInt = true →
      (v.isNan = true → r = (0, fNV)) ∧
      (∀ neg, v = .inf neg → t.toInt r.1 = (if neg then t.lowest else t.highest) ∧ r.2 = fNV) ∧
      (∀ neg n e, v = .fin neg n e → let q := roundInt rm neg (scale2 n 1 e).1 (scale2 n 1 e).2
        t.toInt r.1 = clamp (sgn neg q.1) ∧
        r.2 = if t.lowest ≤ sgn neg q.1 ∧ sgn neg q.1 ≤ t.highest then (if q.2 then 0 else fNX) else fNV)) ∧
    (u.isInt = false → t.isInt = false →
      (∀ neg n e, v = .fin neg n e → r = t.fmt.roundFin rm z neg n e) ∧
      (∀ g, v = .nan g → r = if t = .e2m1 then (0, fNV) else (t.fmt.cnan, if g then fNV else 0)) ∧
      (∀ neg, v = .inf neg → r = if t = .e2m1 then (t.fmt.maxBits neg, fNV) else if t = .e4m3 then (0x7F, fNV)
        else (t.fmt.infBits neg, 0)))) ∧
  (∀ f ∈ [fmtE4M3, fmtE5M2, fmtE2M1], ∀ (rm : Rm) (vs : List FVal),
    let r := mxQuant f rm vs
    ((∃ v ∈ vs, v.isNan = true ∨ v.isInf = true) → r = (255, vs.map (fun _ => 0), fNV)) ∧
    ((∀ v ∈ vs, v.isZero = true) → r = (0, vs.map (fun _ => 0), 0)) ∧
    ((∀ v ∈ vs, ∃ i n e, v = .fin i n e ∧ geScaled n e 1 (128 + f.emax) = false) → (∃ v ∈ vs, v.isZero = false) →
      r.2.1.length = vs.length ∧ ∃ E : Int, (r.1 : Int) = E + 127 ∧
      (∀ i n e, FVal.fin i n e ∈ vs → geScaled n e 1 (E + f.emax + 1) = false) ∧
      (E = -127 ∨ ∃ i n e, FVal.fin i n e ∈ vs ∧ geScaled n e 1 (E + f.emax) = true) ∧
      ∀ (j : Nat) i n e, vs[j]? = some (FVal.fin i n e) → let b := f.roundFin rm false i n (e - E)
        r.2.1[j]? = some (if (b.2 &&& fOF) ≠ 0 then f.maxBits i else b.1))) ∧
  (∀ (rm : Rm) (n : Nat) (e : Int) (vs : List FVal), (∀ v ∈ vs, ∃ i m d, v = .fin i m d) →
    let r := kb4Block rm (n, e) vs
    let fits := fun (c : Nat) => ∀ v ∈ vs, geScaled ((e3m5 c).1 * 6 * n) ((e3m5 c).2 + e) v.mag.1 v.mag.2 = true
    ((∀ v ∈ vs, v.isZero = true) → r = (0, vs.map (fun _ => 0), 0)) ∧
    (0 < n → fits 255 → (∃ v ∈ vs, v.isZero = false) → fits r.1 ∧ (∀ c < r.1, ¬ fits c) ∧
      ∀ (j : Nat) (v : FVal), vs[j]? = some v →
        let q := scale2 v.mag.1 (n * (e3m5 r.1).1) (v.mag.2 - (e + (e3m5 r.1).2))
        r.2.1[j]? = some (if v.isZero then fmtE2M1.signBit v.neg else (fmtE2M1.round rm false v.neg q.1 q.2).1))) ∧
  (∀ (tab : List Seg) (inv neg : Bool) (n : Nat) (e : Int),
    (∀ g, compand tab inv (.nan g) = (fmt32.cnan, if g then fNV else 0)) ∧
    compand tab inv (.inf neg) = (fmt32.infBits neg, 0) ∧ compand tab inv (.fin neg 0 e) = (fmt32.signBit neg, 0) ∧
    (∀ (i : Nat) (g : Seg), 0 < n → tab[i]? = some g →
      let lo := fun (h : Seg) => (rd32 (if inv then h.y else h.x)).mag
      geScaled n e (lo g).1 (lo g).2 = true → (∀ (j : Nat) (h : Seg), i < j → tab[j]? = some h → geScaled n e (lo h).1 (lo h).2 = false) →
      let t := lineAt (rd32 (if inv then g.x else g.y)).mag (n, e) (lo g) (rd32 (if inv then g.u else g.s)).mag
      let r := fmt32.roundFin 0 false neg t.1.natAbs t.2
      compand tab inv (.fin neg n e) = if (r.2 &&& fOF) ≠ 0 then (fmt32.maxBits neg, fOF ||| fNX) else (r.1, r.2 &&& fNX)) ∧
    (∀ b < 2 ^ 32, fmt32.read false b = .fin neg n e → compand identityTable inv (fmt32.read false b) = (b, 0)))

/-- R69, R148, R149. `t5pack` completes with half p of vd holding the 128 saturated weights of the pair in 26 bytes and six zero bytes;
`t5unpk` completes with the 128 weights of 26 legal bytes in the pair, and traps with cause 0x0D and the place of the first illegal
one. Weights of -1, 0 and 1, packed five to a byte, are legal bytes and read back as they were. -/
def Obligations.PackedTernary : Prop :=
  (∀ (s : State) (k : MReg) (d a : VReg) (p : BitVec 1), s.acting k = true →
     let w8 := fun (v : VReg) (i : Nat) => laneOf (s.vecVal v) 8 i
     let weight := fun (j : Nat) => (BitVec.ofNat 8 (if j < 64 then w8 a j else w8 (a + 1) (j - 64))).toInt
     let byte := fun (j : Nat) => w8 a (32 * p.toNat + j)
     (s.vecFull [a, a + 1] = true → s.vecTakes d = true → ∃ r,
       (∀ j < 26, ∀ i < 5, (trits (laneOf r 8 (32 * p.toNat + j)))[i]? =
         some (if 128 ≤ 5 * j + i then 0 else if weight (5 * j + i) > 0 then 1 else if weight (5 * j + i) < 0 then -1 else 0)) ∧
       (∀ j, 26 ≤ j → j < 32 → laneOf r 8 (32 * p.toNat + j) = 0) ∧
       (∀ j < 64, j / 32 ≠ p.toNat → laneOf r 8 j = w8 d j) ∧
       exec (.t5pack k d a p) s = .next (s.vecResult [] d r allBits)) ∧
     (s.vecFull [a] = true → s.vecTakes d = true → s.vecTakes (d + 1) = true →
       ((∀ j < 26, byte j < 243) → ∃ r q,
         (∀ j < 128, some ((BitVec.ofNat 8 (if j < 64 then laneOf r 8 j else laneOf q 8 (j - 64))).toInt) =
           (trits (byte (j / 5)))[j % 5]?) ∧
         exec (.t5unpk k d a p) s = .next (((s.modMe (fun c => (c.setV d.val { val := r }).usesFile s.now)).modMe (fun c =>
           (c.setV (d + 1).val { val := q }).usesFile s.now)).retire 8)) ∧
       (∀ j < 26, 243 ≤ byte j → (∀ i < j, byte i < 243) →
         exec (.t5unpk k d a p) s = .next (s.trapsWith 0x0D (BitVec.ofNat 64 (32 * p.toNat + j)) 8)))) ∧
  (∀ (n : Nat) (ws : List Int), ws.length = 5 * n → (∀ w ∈ ws, w = -1 ∨ w = 0 ∨ w = 1) →
     (packTrits n ws).length = n ∧ (∀ b ∈ packTrits n ws, b < 243) ∧ (packTrits n ws).flatMap trits = ws)

/-- R71, R147. `vqtab` first sends one read of 128 bytes and waits at itself; the bytes take one off the `ld` count when they arrive; when
they are there, a table that R71 accepts is
installed whole, and one that it rejects traps with cause 0x0E and the entry, the table in force left as it was. That a `vqtab` which
issues again uses the read that is under way, without a second CheckLocal, and that a read of another is forgotten, is the model's
choice (log 19). -/
def Obligations.TableLoads : Prop :=
  ∀ (s : State) (k : MReg) (a : SReg) (imm : Imm) (pl : Place) (o : Op), s.acting k = true → s.allFull [a] = true →
    let ea := s.regVal a + imm.value
    let ps := s.partsAt s.cid 0 pl ea 0 (readBytes 128)
    (s.tabOp ea.toNat = none → checkLocal s s.cid s.me.priv ea 128 false = .ok pl →
      s.mayAccess s.cur .ld 1 ps = .ok () →
      exec (.vqtab k a imm) s = .next ((s.forgetTabs.launchOp
        { id := 0, ctx := s.cur, kind := .vqtab, priv := s.me.priv, parts := ps, size := 128, ea := ea.toNat } 1
        (s.now + s.opLat s.cid ps)).park .own)) ∧
    (s.opAt o.id = some o → o.kind = .vqtab → o.allDone = true → o.arrived = false → o.cnts = true →
      (s.coreAt (o.ctx / 16)).sleep = .awake → ∃ t, exec (.resultArrival o.id) s = .next t ∧
        (t.ctxAt o.ctx).count .ld = (s.ctxAt o.ctx).count .ld - 1 ∧ t.opAt o.id = some { o with arrived := true, cnts := false }) ∧
    (s.tabOp ea.toNat = some o → o.arrived = false → exec (.vqtab k a imm) s = .next (s.park .own)) ∧
    (s.tabOp ea.toNat = some o → o.arrived = true →
      (∀ tab, validate 0 [] (tableEntries (o.valueBytes 128)) = .ok tab → ∃ t, exec (.vqtab k a imm) s = .next t ∧
        t.last = .issued ∧ t.myCore.comp = tab ∧ t.me.pc = s.me.pc + BitVec.ofNat 64 imm.bytes ∧
        t.me.count .ld = s.me.count .ld ∧ t.mem = s.mem ∧ s.othersSame t) ∧
      (∀ n, validate 0 [] (tableEntries (o.valueBytes 128)) = .error n → ∃ t, exec (.vqtab k a imm) s = .next t ∧
        t.last = .trapped ∧ t.myCore.comp = s.myCore.comp ∧
        (s.me.priv = .u → s.me.kstat.ktrap = false → t.me.ktr.cause = 0x0E ∧ t.me.ktr.val = BitVec.ofNat 64 n)))

/-! ### The barrel core, groups and tasks (R20, R162-R170, R186-R195) -/

/-- R20, R162, R163. `spawn` and `reap` complete at context 0: `spawn` starts a FREE context as R20 says, at the target, with the
vectors and interrupt enables of context 0, ready after 3 cycles, or answers BUSY or RANGE; `reap` returns the exit value of
an ENDED context and frees it, and waits for a RUNNING one. At another context both trap with cause 0x01. -/
def Obligations.SpawnAndReap : Prop :=
  ∀ (s : State) (k : MReg) (d a : SReg) (imm : Imm),
    let n := (s.regVal a).toNat
    let t := 16 * s.cid + n
    let answer := fun (i : Instr) (len : Nat) (v : Word) =>
      exec i s = .next (((s.popSrc [a]).writeReg d.val v).retire len)
    let refused := fun (i : Instr) (len : Nat) => exec i s = .next (s.trapsWith 0x01 (lowBits (encodeWord i)) len)
    (s.tid ≠ 0 → refused (.spawn k d a imm) imm.bytes ∧ refused (.reap k d a) 8) ∧
    (s.tid = 0 → s.ready k [a] d.val = true →
      (n = 0 ∨ 16 ≤ n ∨ (s.hdrOf s.cid).contexts ≤ n → answer (.spawn k d a imm) imm.bytes 2) ∧
      (0 < n → n < 16 → n < (s.hdrOf s.cid).contexts → (s.ctxAt t).life ≠ .free → answer (.spawn k d a imm) imm.bytes 1) ∧
      (0 < n → n < 16 → n < (s.hdrOf s.cid).contexts → (s.ctxAt t).life = .free →
        ∃ u, exec (.spawn k d a imm) s = .next u ∧ u.last = .issued ∧ u.me.pc = s.me.pc + BitVec.ofNat 64 imm.bytes ∧
          (0 < d.val ∧ d.val < 48 → u.me.xReg s.me.inH d.val = { val := 0 }) ∧ u.mem = s.mem ∧
          let c := u.ctxAt t
          c.life = .running ∧ c.pc = (s.me.pc + 4 * imm.value) &&& ~~~3#64 ∧ c.priv = .u ∧ c.inH = false ∧
          (∀ b m, c.xReg b m = {}) ∧ c.v = [] ∧ c.k = [] ∧ c.fpcsr.extractLsb' 0 8 = 0 ∧
          c.kstat = { ie := true } ∧ c.ktr = { vec := s.me.ktr.vec } ∧ c.kscr = 0 ∧ c.uvec = s.me.uvec ∧
          c.uirqv = s.me.uirqv ∧ c.uepc = 0 ∧ c.ucause = 0 ∧ c.uval = 0 ∧ c.vdone = 0 ∧ c.kipE = s.me.kipE ∧ c.kipP = 0 ∧
          c.ktcmp = BitVec.allOnes 64 ∧ c.fstat = {} ∧ c.ftr = { vec := Config.firmwareVector } ∧ c.cnt = (0, 0, 0, 0) ∧
          c.vset = {} ∧ c.mon = [] ∧ c.notes = [] ∧ c.afmt = .e4m3 ∧ c.acmp = false ∧ c.holdTo = s.now + 3) ∧
      (n = 0 ∨ 16 ≤ n ∨ (s.ctxAt t).life = .free → refused (.reap k d a) 8) ∧
      (0 < n → n < 16 → (s.ctxAt t).life = .running → exec (.reap k d a) s = .next (s.park .own)) ∧
      (0 < n → n < 16 → (s.ctxAt t).life = .ended → ∃ u, exec (.reap k d a) s = .next u ∧ u.last = .issued ∧
        u.me.pc = s.me.pc + 8 ∧ u.ctxAt t = { s.ctxAt t with life := .free } ∧ u.mem = s.mem ∧
        (0 < d.val ∧ d.val < 48 → u.me.xReg s.me.inH d.val = { val := (s.ctxAt t).exitv })))

/-- R165, R166, R167, R168. `arm` completes: with the number of the monitor that already names the line (later, where the first `arm`
of the line is held), with 4 where all are in use, else its request is under way for the lowest free monitor. `disarm` completes with
the mask of the monitors removed. An `arm` at 2^52 or above traps with 0x0B. `mwait` completes at its issue where a condition holds,
with its reason: FAULT, INTERRUPT, WRITE with the mask of the triggered monitors in bits 7:4, whose trigger bits are cleared with it
and else kept, or NONE; otherwise it issues and waits. (That a second `arm` of a line waits for one that is held is the model's choice,
log 24, and so is that every late trap counts as FAULT, log 63.) -/
def Obligations.Monitors : Prop :=
  ∀ (s : State) (k : MReg) (d a : SReg) (imm : BitVec 18),
    let ea := s.regVal a + imm.signExtend 64
    let p := { s.linePart ea with data := [some 0] }
    let line := p.va / 256
    let free := fun (m : Nat) => (Tbl.get {} s.me.mon m).used = false
    s.ready k [a] d.val = true →
    (2 ^ 32 ≤ ea.toNat → ea.toNat < 2 ^ 52 → s.mayAccess s.cur .ld 1 [p] = .ok () →
      (∀ m x, s.me.monOf line = some (m, x) → s.armHeld s.cur line = false →
        exec (.arm k d a imm) s = .next (((s.popSrc [a]).writeReg d.val (BitVec.ofNat 64 m)).retire 8)) ∧
      ((s.me.monOf line).isSome = true → s.armHeld s.cur line = true → ∃ t o, exec (.arm k d a imm) s = .next t ∧
        t.last = .issued ∧ t.ops = s.ops ++ [o] ∧ o.kind = .arm armWaits ∧ o.outs = [{ dst := s.dstOf d.val }] ∧
        t.me.mon = s.me.mon ∧ t.me.count .ld = s.me.count .ld + 1 ∧ t.mem = s.mem) ∧
      (s.me.monOf line = none → (∀ m < 4, ¬ free m) →
        exec (.arm k d a imm) s = .next (((s.popSrc [a]).writeReg d.val 4).retire 8)) ∧
      (s.me.monOf line = none → ∀ m < 4, free m → (∀ j < m, ¬ free j) → ∃ t o, exec (.arm k d a imm) s = .next t ∧
        t.last = .issued ∧ Tbl.get {} t.me.mon m = { used := true, op := s.nid, line, reg := false, trig := false } ∧
        t.ops = s.ops ++ [o] ∧ o.kind = .arm m ∧ o.parts = [p] ∧ o.outs = [{ dst := s.dstOf d.val }] ∧
        t.me.count .ld = s.me.count .ld + 1 ∧ t.mem = s.mem)) ∧
    (ea.toNat < 2 ^ 32 → exec (.arm k d a imm) s = .next (s.trapsWith 0x08 ea 8)) ∧
    (2 ^ 52 ≤ ea.toNat → exec (.arm k d a imm) s = .next (s.trapsWith 0x0B ea 8)) ∧
    (s.lateReady s.cur = true → exec (.mwait k d a) s = .next (((s.popSrc [a]).writeReg d.val 4).retire 8)) ∧
    (s.lateReady s.cur = false → s.irqPending s.cur = true →
      exec (.mwait k d a) s = .next (((s.popSrc [a]).writeReg d.val 3).retire 8)) ∧
    (s.lateReady s.cur = false → s.irqPending s.cur = false → (s.me.mon.map (·.1)).Nodup → (∀ x ∈ s.me.mon, x.1 < 4) →
      (∃ x ∈ s.me.mon, x.2.used = true ∧ x.2.trig = true) → ∃ t v, exec (.mwait k d a) s = .next t ∧ t.last = .issued ∧
      t.me.pc = s.me.pc + 8 ∧ t.mem = s.mem ∧ t.ops = s.ops ∧ t.me.mon = s.me.mon.map (fun x => (x.1, { x.2 with trig := false })) ∧
      (0 < d.val → d.val < 48 → t.me.xReg s.me.inH d.val = { val := v }) ∧ v.toNat % 16 = 1 ∧ v.toNat < 256 ∧
      ∀ m < 4, (v.getLsbD (4 + m) = true ↔ ∃ x ∈ s.me.mon, x.1 = m ∧ x.2.used = true ∧ x.2.trig = true)) ∧
    (let hit := fun (x : Nat × Monitor) => x.2.used = true ∧ ((a.val = 0 ∧ imm = 0) ∨ x.2.line = s.relocate s.cid ea.toNat / 256)
     ∃ t v, exec (.disarm k d a imm) s = .next t ∧ t.last = .issued ∧ t.mem = s.mem ∧ t.ops = s.ops ∧
      (0 < d.val → d.val < 48 → t.me.xReg s.me.inH d.val = { val := v }) ∧
      (∀ x, x ∈ t.me.mon ↔ x ∈ s.me.mon ∧ ¬ hit x) ∧
      ((s.me.mon.map (·.1)).Nodup → ∀ m < 64, (v.getLsbD m = true ↔ ∃ x ∈ s.me.mon, x.1 = m ∧ hit x))) ∧
    (s.lateReady s.cur = false → s.irqPending s.cur = false → (∀ x ∈ s.me.mon, x.2.used = true → x.2.trig = false) →
      (s.regVal a = 0 → (∀ x ∈ s.me.mon, x.2.used = false) →
        exec (.mwait k d a) s = .next (((s.popSrc [a]).writeReg d.val 5).retire 8)) ∧
      (s.regVal a ≠ 0 ∨ (∃ x ∈ s.me.mon, x.2.used = true) → exec (.mwait k d a) s = .next ((((s.popSrc [a]).retire 8).modMe
        (fun c => { c with post := .mwait d.val s.now (s.regVal a).toNat s.nid })).bumpId)))

/-- R169, R170. `fset` and `fclr` complete: one full/empty bit is set or cleared and the value stays. `rfill` completes: to a core
of another team with status 4; on its own core with the status of the delivery, which fills an empty register and changes
nothing else; to another core with the fill under way. -/
def Obligations.FullEmptyAndFills : Prop :=
  ∀ (s : State) (k : MReg) (d a b : SReg) (n : BitVec 6),
    let v := s.regVal b
    let ta := (s.regVal a).toNat
    let tr := Tbl.get {} (s.ctxAt ta).x n.toNat
    let bit := fun (i : Instr) (full : Bool) => ∃ t, exec i s = .next t ∧ t.last = .issued ∧ t.mem = s.mem ∧
      s.othersSame t ∧ t.me.xReg s.me.inH d.val = { s.me.xReg s.me.inH d.val with full } ∧
      s.me.scalarsSame t.me d.val ∧ t.me.v = s.me.v
    let vbit := fun (i : Instr) (full : Bool) => ∃ t, exec i s = .next t ∧ t.last = .issued ∧ t.mem = s.mem ∧
      s.othersSame t ∧ Tbl.get {} t.me.v d.val = { Tbl.get {} s.me.v d.val with full } ∧
      (∀ m, m ≠ d.val → Tbl.get {} t.me.v m = Tbl.get {} s.me.v m) ∧ t.me.x = s.me.x
    (s.ready k [] d.val = true → 0 < d.val → d.val < 48 → bit (.fset k false d) true ∧ bit (.fclr k false d) false) ∧
    (s.acting k = true → d.val = 0 → exec (.fset k false d) s = .next (s.retire 8) ∧
      exec (.fclr k false d) s = .next (s.retire 8)) ∧
    (s.acting k = true → (Tbl.get {} s.me.v d.val).pend = false → vbit (.fset k true d) true ∧ vbit (.fclr k true d) false) ∧
    (s.ready k [a, b] d.val = true → s.me.count .st = 0 →
      (20480 ≤ ta ∨ s.sameTeam s.cid (ta / 16) = false →
        exec (.rfill k d a b n) s = .next (((s.popSrc [a, b]).writeReg d.val 4).retire 8)) ∧
      (ta < 20480 → s.sameTeam s.cid (ta / 16) = true → ta / 16 = s.cid → ta ≠ s.cur →
        ∃ t, exec (.rfill k d a b n) s = .next t ∧ t.last = .issued ∧ t.mem = s.mem ∧
          ((s.ctxAt ta).life ≠ .running ∨ tr.full = true ∨ tr.pend = true → t.ctxAt ta = s.ctxAt ta) ∧
          ((s.ctxAt ta).life = .running → tr.full = false → tr.pend = false →
            (t.ctxAt ta).x = Tbl.set {} (s.ctxAt ta).x n.toNat { val := v }) ∧
          (0 < d.val → d.val < 48 → t.me.xReg s.me.inH d.val = { val :=
            if (s.ctxAt ta).life ≠ .running then 3 else if tr.full then 1 else if tr.pend then 2 else 0 })) ∧
      (ta < 20480 → s.sameTeam s.cid (ta / 16) = true → ta / 16 ≠ s.cid → d.val < 56 →
        ∃ t o, exec (.rfill k d a b n) s = .next t ∧ t.last = .issued ∧ t.ops = s.ops ++ [o] ∧
          o.kind = .rfill ta n.toNat v ∧ t.me.count .st = 1 ∧ t.mem = s.mem ∧ s.othersSame t))

/-- R186, R187. The group instructions complete for a member whose `st` count is 0: an arrival is recorded in the current or the next
episode and d receives its number, `gbar` waits for it after issuing, `gwait` completes once it is over, and `gmem` gives the
count and the index of the member, or 0. A core that is no member traps with cause 0x11 and the group. -/
def Obligations.Groups : Prop :=
  ∀ (s : State) (k : MReg) (sw : Bool) (d a b : SReg) (t : Team) (i : Nat) (ms : List Nat),
    let g := (s.regVal a).toNat
    let gs := Tbl.get {} t.groups g
    let outside := fun (j : Instr) => exec j s = .next (s.trapsWith 0x11 (BitVec.ofNat 64 g) 8)
    (s.groupMembers g = none →
      (s.ready k [a] d.val = true → outside (.gbar k sw d a) ∧ outside (.garrive k d a) ∧
        exec (.gmem k d a) s = .next (((s.popSrc [a]).writeReg d.val 0).retire 8)) ∧
      (s.acting k = true → s.allFull [a, b] = true → outside (.gwait k a b))) ∧
    (s.groupMembers g = some (t, i, ms) →
      (s.ready k [a] d.val = true → ∀ r : Word,
        r.toNat = 2 ^ 32 + ms.length * 65536 + (ms.filter (fun j => decide (j < i))).length →
        exec (.gmem k d a) s = .next (((s.popSrc [a]).writeReg d.val r).retire 8)) ∧
      (s.acting k = true → s.allFull [a, b] = true →
        ((s.regVal b).toNat < gs.ep → exec (.gwait k a b) s = .next ((s.popSrc [a, b]).retire 8)) ∧
        (gs.ep ≤ (s.regVal b).toNat → exec (.gwait k a b) s = .next (s.park .own))) ∧
      (s.ready k [a] d.val = true → s.me.count .st = 0 → ¬ (i ∈ gs.arr ∧ i ∈ gs.nxt) →
        let e := if i ∈ gs.arr then gs.ep + 1 else gs.ep
        let u := fun (wells : List Nat) =>
          (((s.popSrc [a]).setTeam
            { t with groups := Tbl.set {} t.groups g (gs.arrive i s.now wells) }).writeReg d.val (BitVec.ofNat 64 e)).retire 8
        exec (.garrive k d a) s = .next (u []) ∧
        exec (.gbar k sw d a) s = .next ((u (if sw then s.exchWells s.cid else [])).modMe (fun c =>
          { c with post := .gbar g e s.me.pc }))))

/-- R192, R195. The task instructions complete: a decrement of a task of the table is under way and counts on `st`, one of no
task answers 1; `tnext` takes the oldest task of the run list, or answers all ones where none is to come; `tdone` of a task
taken on this core ends it, and a failed one raises the error token. -/
def Obligations.Tasks : Prop :=
  ∀ (s : State) (k : MReg) (d a b : SReg) (team : Team) (l : Launch) (task : Task),
    let n := (s.regVal a).toNat
    let dec := fun (i : Instr) (cancel : Bool) =>
      (s.taskTable[n]? = none → exec i s = .next (((s.popSrc [a]).writeReg d.val 1).retire 8)) ∧
      (s.taskTable[n]? = some task → s.teamOf s.cid = some team → s.me.count .st = 0 →
        ∃ t o, exec i s = .next t ∧ t.last = .issued ∧ t.ops = s.ops ++ [o] ∧
          o.kind = .tdec n (cancel || s.myCore.token) ∧ t.me.count .st = 1 ∧ t.mem = s.mem ∧
          (0 < d.val → d.val < 48 → t.me.xReg s.me.inH d.val = { val := 0 }))
    (s.ready k [a] d.val = true → dec (.tdec k d a) false ∧ dec (.tcancel k d a) true) ∧
    (s.tid ≠ 0 → exec (.tnext k d) s = .next (s.trapsWith 0x01 (lowBits (encodeWord (.tnext k d))) 8)) ∧
    (s.tid = 0 → s.ready k [] d.val = true →
      (s.myCore.runl = [] → s.somePending s.cid = false →
        exec (.tnext k d) s = .next ((s.writeReg d.val (BitVec.allOnes 64)).retire 8)) ∧
      (s.myCore.runl = [] → s.somePending s.cid = true → exec (.tnext k d) s = .next (s.park .own)) ∧
      (∀ m ts, s.myCore.runl = m :: ts → s.teamOf s.cid = some team → ∃ t, exec (.tnext k d) s = .next t ∧
        t.last = .issued ∧ t.myCore.runl = ts ∧
        (∀ u ∈ t.teams, u.id = team.id → u.tstate = Tbl.set .pending team.tstate m (.taken s.cur s.now false)) ∧
        (0 < d.val → d.val < 48 → t.me.xReg s.me.inH d.val = { val := BitVec.ofNat 64 m }))) ∧
    (s.ready k [a, b] d.val = true →
      (s.taskTable[n]? = none → exec (.tdone k d a b) s = .next (((s.popSrc [a, b]).writeReg d.val 1).retire 8)) ∧
      (s.taskTable[n]? = some task → s.teamOf s.cid = some team → s.launchOf s.cid = some l →
        ((Tbl.get .pending team.tstate n).takenOn s.cid = false →
          exec (.tdone k d a b) s = .next (((s.popSrc [a, b]).writeReg d.val 2).retire 8)) ∧
        ((Tbl.get .pending team.tstate n).takenOn s.cid = true → ∃ t, exec (.tdone k d a b) s = .next t ∧
          t.last = .issued ∧ t.mem = s.mem ∧ (∀ u ∈ t.teams, u.id = team.id → Tbl.get .pending u.tstate n = .done) ∧
          (∀ m ∈ t.launches, m.id = l.id → m.ntdone = l.ntdone + 1 ∧
            m.token = (l.token || (s.regVal b != 0)) ∧ (s.regVal b ≠ 0 → l.token = false → m.failt = some n)))))

/-! ### Wells, engines, the Calamus and exchange: the instructions (R204-R217, R284-R302, R306-R318, R325-R334) -/

/-- R204, R206, R210, R211, R212, R213, R215, R217. The well instructions complete with their status before the next issue: each
names the first check that fails and then changes nothing; with status 0 the slot and, where the change takes time, the
controller's schedule change as the rules say. `wpoll` gives what the well instructions of earlier cycles have left. The privileged
two trap at U with cause 0x03. That LIMIT counts the slots whose change to exchange mode is under way is the model's choice (log 25). -/
def Obligations.WellInstructions : Prop :=
  ∀ (s : State) (k : MReg) (f : Bool) (d a : SReg) (n m : Fin 16),
    let x := s.slotAt s.cid n.val
    let ans := fun (i : Instr) (xs : List SReg) (v : Word) => exec i s = .next (((s.popSrc xs).writeReg d.val v).retire 8)
    let starts := fun (i : Instr) (kind : MoveKind) (delay : Nat) (y : Slot) => ∃ t mv, exec i s = .next t ∧
      t.last = .issued ∧ t.moves = s.moves ++ [mv] ∧ mv.kind = kind ∧ mv.well = x.well ∧ mv.delay = delay ∧
      t.slotAt s.cid n.val = y ∧ t.mem = s.mem ∧ (0 < d.val → d.val < 48 → t.me.xReg s.me.inH d.val = { val := 0 })
    (s.ready k [] d.val = true →
      ans (.wpoll k d n) [] (match (s.priorSlot s.cid n.val).st with | .detached => 0 | .attached => 1 | .incoming => 2 | .held => 3) ∧
      (x.st ≠ .attached ∨ x.exch = true → ans (.wdetach k d n) [] 5) ∧
      (x.st = .attached → x.exch = false → starts (.wdetach k d n) .detach 24 {}) ∧
      (x.st ≠ .attached → ans (.wmode k f d n) [] 5 ∧ ans (.wclr k d n) [] 5) ∧
      (x.st = .attached → x.wr = false → ans (.wmode k f d n) [] 6 ∧ ans (.wclr k d n) [] 6) ∧
      (x.st = .attached → x.wr = true → x.exch = f → ans (.wmode k f d n) [] 0) ∧
      (x.st = .attached → x.wr = true → x.exch = false → 4 ≤ s.exchCount s.cid → ans (.wmode k true d n) [] 7) ∧
      (x.st = .attached → x.wr = true → x.exch ≠ f → (f = true → s.exchCount s.cid < 4) →
        starts (.wmode k f d n) (.mode f) 2 { x with st := .incoming }) ∧
      (x.st = .attached → x.wr = true →
        starts (.wclr k d n) .clear (if x.exch then 512 else 1024) { x with st := .incoming })) ∧
    (s.acting k = true → s.me.priv = .u → ∀ i ∈ [Instr.wattach k f d a n, Instr.wrel k f d n],
      exec i s = .next (s.trapsWith 0x03 0 8)) ∧
    (s.ready k [] d.val = true → s.me.priv ≠ .u →
      (x.st ≠ .held → ans (.wrel k f d n) [] 5) ∧
      (x.st = .held → starts (.wrel k true d n) .free 24 {} ∧
        ∃ t, exec (.wrel k false d n) s = .next t ∧ t.last = .issued ∧ t.moves = s.moves ∧
          t.slotAt s.cid n.val = { x with st := .attached } ∧ t.mem = s.mem)) ∧
    (s.ready k [a] d.val = true → s.me.priv ≠ .u →
      let desc := s.regVal a
      let clu := fieldOf desc 16 7
      let w := 64 * clu + fieldOf desc 8 6
      (x.st ≠ .detached → ans (.wattach k f d a n) [a] 2) ∧
      (x.st = .detached → 79 < clu ∨ s.teamHolds clu = false → ans (.wattach k f d a n) [a] 3) ∧
      (x.st = .detached → clu ≤ 79 → s.teamHolds clu = true → reaches (s.cid / 16) clu = false →
        ans (.wattach k f d a n) [a] 1) ∧
      (x.st = .detached → clu ≤ 79 → s.teamHolds clu = true → reaches (s.cid / 16) clu = true → (s.bankAt w).bound = true →
        ans (.wattach k f d a n) [a] 2) ∧
      (x.st = .detached → clu ≤ 79 → s.teamHolds clu = true → reaches (s.cid / 16) clu = true → (s.bankAt w).bound = false →
        ∃ t mv, exec (.wattach k f d a n) s = .next t ∧ t.last = .issued ∧ t.moves = s.moves ++ [mv] ∧
          mv.kind = .attach f ∧ mv.well = w ∧ mv.delay = (if f then 24 else 1024) ∧ (t.bankAt w).bound = true ∧
          t.slotAt s.cid n.val = { st := .incoming, well := w, rd := desc.getLsbD 2, wr := desc.getLsbD 3 })) ∧
    (s.ready k [a] d.val = true →
      let y := s.slotAt s.cid n.val
      let tc := (s.regVal a).toNat
      (y.st ≠ .attached ∨ y.exch = true → ans (.wpass k f d a n m) [a] 5) ∧
      (y.st = .attached → y.exch = false → 1280 ≤ tc ∨ s.sameTeam s.cid tc = false → ans (.wpass k f d a n m) [a] 3) ∧
      (y.st = .attached → y.exch = false → tc < 1280 → s.sameTeam s.cid tc = true →
        (reaches (tc / 16) (wellClu y.well) = false → ans (.wpass k f d a n m) [a] 1) ∧
        (reaches (tc / 16) (wellClu y.well) = true → (s.coreAt tc).frozen ≠ none → ans (.wpass k f d a n m) [a] 4) ∧
        (reaches (tc / 16) (wellClu y.well) = true → (s.coreAt tc).frozen = none →
          ((s.slotAt tc m.val).st ≠ .detached → ans (.wpass k f d a n m) [a] 2) ∧
          ((s.slotAt tc m.val).st = .detached → ∃ t mv, exec (.wpass k f d a n m) s = .next t ∧ t.last = .issued ∧
            t.moves = s.moves ++ [mv] ∧ mv.kind = .pass ∧ mv.well = y.well ∧ mv.core = tc ∧ mv.slot = m.val ∧
            t.slotAt s.cid n.val = {} ∧ t.slotAt tc m.val =
              { st := .incoming, well := y.well, rd := y.rd, wr := y.wr && !f } ∧ t.mem = s.mem))))

/-- R284, R286, R287, R288, R290, R293, R294, R295, R306, R313, R314. Where its queue has room and its count may rise, `cpy`, `clw` and
`cflip` complete with one operation more at the end of the queue, their class count up by one (a `cpy` with a follow-on pass: `tl`
as well), and the registers that the operation will fill empty; while a fault of the context's queue waits for its trap, they complete
without one. A `cpy` needs a shape block in an ATTACHED or HELD slot at a multiple of 8, and its follow-on destination in the window.
`qfence` leaves a mark of the operations that the context has in the named queues, without waiting; `wait` completes when every
count is within its limit, 0xFF being none, and parks otherwise; `cfmt` sets the activation format. That an operation which enters a
queue whose fault waits for its trap is cancelled at once is the model's choice (log 30). -/
def Obligations.EngineInstructions : Prop :=
  ∀ (s : State) (k : MReg) (q : Fin 64) (a b c d : SReg) (r : BitVec 18) (ext : CpyExt) (f : WFmt) (sc cmp : Bool)
    (g : AFmt) (m : BitVec 3) (tl cp st ld : BitVec 8),
    let lim := fun (n : Nat) (l : BitVec 8) => l = 0xFF ∨ n ≤ l.toNat
    let shape := s.regVal c
    let slot := (s.slotAt s.cid (shape.toNat / 0x20000)).st
    let room := fun (n cap : Nat) => (s.myCore.queue n).length < cap ∧ s.me.count (queueCls n) < 65535
    let joins := fun (i : Instr) (n len : Nat) (xs : List SReg) (o : State → EOp → Prop) =>
      (s.cancelsNow s.cur n = true → exec i s = .next ((s.popSrc xs).retire len)) ∧
      (s.cancelsNow s.cur n = false → ∃ t x, exec i s = .next t ∧ t.last = .issued ∧
        t.me.pc = s.me.pc + BitVec.ofNat 64 len ∧ t.myCore.queue n = s.myCore.queue n ++ [x] ∧ x.ctx = s.cur ∧
        x.priv = s.me.priv ∧ t.me.count (queueCls n) = s.me.count (queueCls n) + 1 ∧ o t x ∧ t.mem = s.mem ∧ s.othersSame t)
    let empty := fun (t : State) (n : Nat) => t.me.xReg s.me.inH n = { s.me.xReg s.me.inH n with full := false, pend := true }
    (s.acting k = true → s.allFull [a, b, c] = true → cpyOk q b r ext = true →
      (ext.dk = .xfill → ∀ i < r.toNat, s.takes (q.val + i) = true) →
      (ext.dk = .vfill → ∀ i < r.toNat, (Tbl.get {} s.me.v (q.val + i)).pend = false) →
      shape.toNat < 0x200000 → shape.toNat % 8 = 0 → slot = .attached ∨ slot = .held →
      ext.fon = 0 ∨ ((s.regVal b).toNat < 0x200000 ∧ s.me.count .tl < 65535) → room 0 32 →
      joins (.cpy k q a b c r ext) 0 16 [a, b, c] (fun t x =>
        x.kind = .cpy (s.regVal a) (s.regVal b) shape q.val r.toNat ext ∧ x.after = s.fencedBy s.cur 0 ∧
        t.me.count .tl = s.me.count .tl + (if ext.fon = 0 then 0 else 1) ∧
        (ext.dk = .xfill → ∀ i < r.toNat, empty t (q.val + i)) ∧
        (ext.dk = .vfill → ∀ i < r.toNat, Tbl.get {} t.me.v (q.val + i) =
          { Tbl.get {} s.me.v (q.val + i) with full := false, pend := true }))) ∧
    (s.ready k [a] d.val = true → (s.regVal a).toNat % 64 = 0 →
      (s.regVal a).toNat + tileBytes f + (if sc then 256 else 0) ≤ 0x300000 → room 1 16 →
      joins (.clw k f sc d a) 1 8 [a] (fun t x => x.kind = .clw f sc (s.regVal a).toNat d.val ∧
        x.after = s.fencedBy s.cur 1 ∧ x.keep.map (·.dst) = [s.dstOf d.val] ∧
        (0 < d.val → d.val < 48 → empty t d.val) ∧ (48 ≤ d.val → d.val < 56 → s.cLatest = true →
          (t.myCore.cNow (d.val - 48)).full = false))) ∧
    (s.acting k = true → room 1 16 → joins (.cflip k) 1 8 [] (fun _ x => x.kind = .cflip ∧ x.after = s.fencedBy s.cur 1)) ∧
    (s.acting k = true → ∃ t x, exec (.qfence k m) s = .next t ∧ t.last = .issued ∧ t.me.pc = s.me.pc + 8 ∧
      x ∈ t.me.marks ∧ x.queues = m ∧ (∀ i, i ∈ x.ops ↔ ∃ n < 3, m.getLsbD n = true ∧ ∃ o ∈ s.myCore.queue n, o.ctx = s.cur ∧ o.id = i) ∧
      t.mem = s.mem ∧ t.myCore.eops = s.myCore.eops) ∧
    (s.acting k = true →
      (lim (s.me.count .tl) tl ∧ lim (s.me.count .cp) cp ∧ lim (s.me.count .st) st ∧ lim (s.me.count .ld) ld →
        exec (.wait k tl cp st ld) s = .next (s.retire 12)) ∧
      (¬ (lim (s.me.count .tl) tl ∧ lim (s.me.count .cp) cp ∧ lim (s.me.count .st) st ∧ lim (s.me.count .ld) ld) →
        exec (.wait k tl cp st ld) s = .next (s.park .own))) ∧
    (s.acting k = true → exec (.cfmt k g cmp) s =
      .next ((s.modMe (fun c => { c with afmt := g, acmp := cmp })).retire 8))

/-- R296, R297, R298, R301, R302. `fork` completes: it starts a stopped sequencer at a program of 64-byte records, or answers BUSY
or RANGE; `rdv` completes when the named sequencers have stopped and their operations are gone, with the ones that stopped
on a fault; `uiret` returns to the main bank and to the address in shadow `x40`, and outside a handler traps. -/
def Obligations.SequencersAndHandlers : Prop :=
  ∀ (s : State) (k : MReg) (d a b : SReg) (imm : Imm),
    let p := s.regVal a + imm.value
    let n := (s.regVal b).toNat
    (s.ready k [a, b] d.val = true →
      (0x200000 ≤ p.toNat ∨ p.toNat % 64 ≠ 0 →
        exec (.fork k d a b imm) s = .next (s.trapsWith 0x0F p imm.bytes)) ∧
      (p.toNat < 0x200000 → p.toNat % 64 = 0 →
        (4 ≤ n → exec (.fork k d a b imm) s = .next (((s.popSrc [a, b]).writeReg d.val 2).retire imm.bytes)) ∧
        (n < 4 → s.myCore.seqBusy n = true →
          exec (.fork k d a b imm) s = .next (((s.popSrc [a, b]).writeReg d.val 1).retire imm.bytes)) ∧
        (n < 4 → s.myCore.seqBusy n = false → ∃ t, exec (.fork k d a b imm) s = .next t ∧ t.last = .issued ∧
          let q := Tbl.get {} t.myCore.seqs n
          q.running = true ∧ q.pc = p ∧ q.ctx = s.cur ∧ q.priv = s.me.priv ∧ q.recNo = 0 ∧ q.fault = false ∧
          t.me.pc = s.me.pc + BitVec.ofNat 64 imm.bytes ∧ t.mem = s.mem ∧
          (0 < d.val → d.val < 48 → t.me.xReg s.me.inH d.val = { val := 0 })))) ∧
    (s.ready k [a] d.val = true →
      ((∀ i < 4, (s.regVal a).getLsbD i = true → s.myCore.seqBusy i = false) → ∃ t v, exec (.rdv k d a) s = .next t ∧
        t.last = .issued ∧ (∀ i < 64, v.getLsbD i = (decide (i < 4) && (s.regVal a).getLsbD i &&
          (Tbl.get {} s.myCore.seqs i).fault)) ∧
        (∀ i < 4, (s.regVal a).getLsbD i = true → (Tbl.get {} t.myCore.seqs i).fault = false) ∧
        (0 < d.val → d.val < 48 → t.me.xReg s.me.inH d.val = { val := v }) ∧ t.mem = s.mem) ∧
      (∀ i < 4, (s.regVal a).getLsbD i = true → s.myCore.seqBusy i = true →
        exec (.rdv k d a) s = .next (s.park .own))) ∧
    (s.me.inH = false → exec (.uiret k) s =
      .next (s.trapsWith 0x01 (lowBits (encodeWord (.uiret k))) 8)) ∧
    (s.acting k = true → s.me.inH = true → ∃ t, exec (.uiret k) s = .next t ∧ t.last = .issued ∧ t.me.inH = false ∧
      t.me.pc = (s.me.xReg true 40).val &&& ~~~3#64 ∧ t.me.x = s.me.x ∧ t.me.sh = s.me.sh ∧ t.mem = s.mem ∧
      ∀ v m, t.me.xReg v m = s.me.xReg v m)

/-- R315, R316, R317, R318. The array instructions that name a range complete with one operation more in the array queue where their
counts, offsets and range are legal; a count that is not traps with cause 0x0F, then a source that is global; a range that crosses its
slot with cause 0x08; then a destination offset of `cstk` that is not legal with 0x0F. That row0 + n above 256 comes before the range,
that 2^32 and above (2^52 too) is 0x0F, that a start in the hole is 0x08, and the order of the checks of `cstk`, is the model's choice
(log 29). `cstat` completes with the state of the array. -/
def Obligations.ArrayInstructions : Prop :=
  ∀ (s : State) (k : MReg) (a b c d : SReg) (irq : Bool) (tag : BitVec 8),
    let src := s.regVal a
    let n := (s.regVal b).toNat
    let row := (s.regVal c).toNat
    let fits := fun (size : Nat) => src.toNat / 0x20000 = (src.toNat + size - 1) / 0x20000 ∧
      src.toNat + size ≤ 0x200000
    let joins := fun (i : Instr) (kind : EKind) => s.mayEnqueue s.cur 1 = .ok () → s.cancelsNow s.cur 1 = false →
      ∃ t x, exec i s = .next t ∧ t.last = .issued ∧ t.me.pc = s.me.pc + 8 ∧ t.myCore.aq = s.myCore.aq ++ [x] ∧
        x.ctx = s.cur ∧ x.kind = kind ∧ t.me.count .tl = s.me.count .tl + 1 ∧ t.mem = s.mem
    let bad := fun (i : Instr) => exec i s = .next (s.trapsWith 0x0F (lowBits (encodeWord i)) 8)
    (s.acting k = true → s.allFull [a, b, c] = true →
      (1 ≤ n → n ≤ 256 → row + n ≤ 256 → fits (n * stride s.me.afmt) → joins (.cpass k a b c irq tag)
        (.cpass src n row s.me.afmt (if s.me.acmp then some s.myCore.table else none))) ∧
      (1 ≤ n → n ≤ 256 → row + n ≤ 256 → fits (512 * n) → joins (.cdrain k a b c irq tag) (.cdrain src n row)) ∧
      (n = 0 ∨ 256 < n ∨ 256 < row + n → bad (.cpass k a b c irq tag) ∧ bad (.cdrain k a b c irq tag)) ∧
      (1 ≤ n → n ≤ 256 → row + n ≤ 256 → 2 ^ 32 ≤ src.toNat → bad (.cpass k a b c irq tag) ∧ bad (.cdrain k a b c irq tag)) ∧
      (1 ≤ n → n ≤ 256 → row + n ≤ 256 → src.toNat < 2 ^ 32 → ¬ fits (512 * n) →
        exec (.cdrain k a b c irq tag) s = .next (s.trapsWith 0x08 src 8)) ∧
      (0 < row → row % 64 = 0 → row ≤ 0x20000 → n % 64 = 0 → n + row ≤ 0x300000 → fits row →
        joins (.cstk k a b c) (.cstk src n row)) ∧
      (1 ≤ n → n ≤ 256 → row + n ≤ 256 → src.toNat < 2 ^ 32 → ¬ fits (n * stride s.me.afmt) →
        exec (.cpass k a b c irq tag) s = .next (s.trapsWith 0x08 src 8)) ∧
      (row = 0 ∨ row % 64 ≠ 0 ∨ 0x20000 < row → bad (.cstk k a b c)) ∧
      (0 < row → row % 64 = 0 → row ≤ 0x20000 →
        (2 ^ 32 ≤ src.toNat → bad (.cstk k a b c)) ∧
        (src.toNat < 2 ^ 32 → ¬ fits row → exec (.cstk k a b c) s = .next (s.trapsWith 0x08 src 8)) ∧
        (fits row → n % 64 ≠ 0 ∨ 0x300000 < n + row → bad (.cstk k a b c)))) ∧
    (s.ready k [] d.val = true → ∃ t v, exec (.cstat k d) s = .next t ∧ t.last = .issued ∧ t.me.pc = s.me.pc + 8 ∧
      (0 < d.val → d.val < 48 → t.me.xReg s.me.inH d.val = { val := v }) ∧ t.mem = s.mem ∧
      (s.myCore.live.p < 16 → (∀ h, s.myCore.shadow = some h → h.p < 16) → s.myCore.aq.length < 256 →
        v.extractLsb' 0 4 = BitVec.ofNat 4 s.myCore.live.p ∧ v.extractLsb' 4 4 = s.myCore.live.fmt.code.setWidth 4 ∧
        v.extractLsb' 8 3 = s.me.afmt.code.setWidth 3 ∧ v.getLsbD 11 = false ∧
        v.getLsbD 12 = s.me.acmp ∧ v.extractLsb' 13 3 = 0 ∧ v.getLsbD 24 = s.myCore.shadow.isSome ∧ v.extractLsb' 25 7 = 0 ∧
        v.extractLsb' 32 8 = BitVec.ofNat 8 s.myCore.aq.length ∧ v.extractLsb' 40 24 = 0 ∧
        ∀ h, s.myCore.shadow = some h → v.extractLsb' 16 4 = BitVec.ofNat 4 h.p ∧ v.extractLsb' 20 4 = h.fmt.code.setWidth 4))

/-- R326, R327, R333, R334, R336, R337. `xst`, `nred` and `nmc` complete with one operation more in the exchange queue where count,
source, descriptor and group are legal; `smark` does at a bound queue; `sopen` and `sclose` complete with the status of the
rules and change the binding on status 0 alone. (That a context may bind a second of its queues to a stream for sending, and no
second one for receiving, is the model's reading, log 31.) -/
def Obligations.ExchangeInstructions : Prop :=
  ∀ (s : State) (k : MReg) (op : NredOp) (rx : Bool) (a b c d : SReg) (n : Fin 4) (slot : Fin 16) (off : BitVec 11),
    let src := s.regVal a
    let size := (s.regVal c).toNat
    let g := (s.regVal b).toNat
    let legal := size % 64 = 0 ∧ 64 ≤ size ∧ size ≤ 0x10000 ∧ src.toNat + size ≤ 0x200000 ∧
      src.toNat / 0x20000 = (src.toNat + size - 1) / 0x20000
    let joins := fun (i : Instr) (kind : EKind) => s.mayEnqueue s.cur 2 = .ok () → s.cancelsNow s.cur 2 = false →
      ∃ t x, exec i s = .next t ∧ t.last = .issued ∧ t.me.pc = s.me.pc + 8 ∧ t.myCore.eq = s.myCore.eq ++ [x] ∧
        x.ctx = s.cur ∧ x.kind = kind ∧ t.me.count .st = s.me.count .st + 1 ∧ t.mem = s.mem
    let port := s.me.port rx n.val
    let num := src.toNat
    let taken := if rx then (s.boundTo s.cid rx num).isSome else s.boundElse s.cid rx num s.cur
    let ans := fun (i : Instr) (xs : List SReg) (v : Word) => exec i s = .next (((s.popSrc xs).writeReg d.val v).retire 8)
    (s.acting k = true → s.allFull [a, b, c] = true → legal →
      (descOk (s.regVal b) size = true → joins (.xst k a b c) (.xst src (s.regVal b) size)) ∧
      (s.groupMembers g ≠ none → 64 * off.toNat + size ≤ 0x20000 →
        joins (.nred k op a b c slot off) (.nred op src g size slot.val (64 * off.toNat)) ∧
        joins (.nmc k a b c slot off) (.nmc src g size slot.val (64 * off.toNat))) ∧
      (s.groupMembers g = none → ∀ i ∈ [Instr.nred k op a b c slot off, Instr.nmc k a b c slot off],
        exec i s = .next (s.trapsWith 0x11 (BitVec.ofNat 64 g) 8))) ∧
    (s.acting k = true → (s.me.port false n.val).bound ≠ none → joins (.smark k n) (.smark n.val)) ∧
    (s.ready k [a] d.val = true →
      (s.streamOf s.cid num = none → ans (.sopen k rx d a n) [a] 2) ∧
      (∀ x, s.streamOf s.cid num = some x →
        (port.bound ≠ none ∨ taken = true → ans (.sopen k rx d a n) [a] 1) ∧
        (port.bound = none → taken = false → s.roleOk s.cid x rx = false → ans (.sopen k rx d a n) [a] 3) ∧
        (port.bound = none → taken = false → s.roleOk s.cid x rx = true →
          ∃ t, exec (.sopen k rx d a n) s = .next t ∧ t.last = .issued ∧ (t.me.port rx n.val).bound = some num ∧
            (0 < d.val → d.val < 48 → t.me.xReg s.me.inH d.val = { val := 0 }) ∧ t.mem = s.mem))) ∧
    (s.ready k [] d.val = true → (rx = false → port.words = [] ∧ s.markerWaits s.cur n.val = false) →
      (port.bound = none → ans (.sclose k rx d n) [] 5) ∧
      (port.bound ≠ none → ∃ t, exec (.sclose k rx d n) s = .next t ∧ t.last = .issued ∧
        (t.me.port rx n.val).bound = none ∧ (d.val < 56 → t.me.port rx n.val = {}) ∧
        (0 < d.val → d.val < 48 → t.me.xReg s.me.inH d.val = { val := 0 }) ∧ t.mem = s.mem))

/-! ### Events of cores, teams and wells (R22-R25, R34, R42, R43, R108, R157-R161, R168, R170, R186-R197, R207-R217, R301) -/

/-- R22, R25, R59, R111, R170, R171, R197. A result arrives at an awake core, in a cycle in which the register file of its context takes
nothing else: its destination holds the value and is full, its flags are
added, the operation is gone; at a sleeping core the arrival starts the wake instead, which keeps it. Accesses of a store that have
been performed are acknowledged, and its count falls by them; the last ends it. A remote fill is delivered once, after its issue and in
a cycle in which the register file takes nothing else, under the checks of `Deliver`. -/
def Obligations.Arrivals : Prop :=
  ∀ (s : State) (id : Nat) (o : Op) (v m : VWord) (n ta : Nat) (sh : Bool) (w : Word), s.opAt id = some o →
    let c := s.ctxAt o.ctx
    let gone := fun (t : State) => t.ops = s.ops.filter (fun u => u.id != id) ∧ t.mem = s.mem ∧
      ∀ a, a ≠ o.ctx → t.ctxAt a = s.ctxAt a
    let raised := c.fpcsr ||| (o.flags.setWidth 64 <<< 3)
    (o.kind = .alu → (s.coreAt (o.ctx / 16)).sleep = .awake → s.fileBusy o = false →
      (o.outs = [{ dst := .x n sh, val := v }] → ∃ t, exec (.resultArrival id) s = .next t ∧ gone t ∧
        (t.ctxAt o.ctx).xReg sh n = { val := v.setWidth 64 } ∧ (t.ctxAt o.ctx).fpcsr = raised ∧
        (∀ j, j ≠ n → (t.ctxAt o.ctx).xReg sh j = c.xReg sh j) ∧ (t.ctxAt o.ctx).v = c.v) ∧
      (o.outs = [{ dst := .v n m, val := v }] → ∃ t, exec (.resultArrival id) s = .next t ∧ gone t ∧
        Tbl.get {} (t.ctxAt o.ctx).v n = { val := (v &&& m) ||| ((Tbl.get {} c.v n).val &&& ~~~m) } ∧
        (t.ctxAt o.ctx).fpcsr = raised ∧ (t.ctxAt o.ctx).x = c.x)) ∧
    (∀ depth, o.kind = .alu → (s.coreAt (o.ctx / 16)).sleep = .asleep depth →
      (s.coreAt (o.ctx / 16)).late.contains (.result id) = false → ∃ t, exec (.resultArrival id) s = .next t ∧
      (t.coreAt (o.ctx / 16)).late = (s.coreAt (o.ctx / 16)).late ++ [.result id] ∧
      (t.coreAt (o.ctx / 16)).sleep = .waking (s.now + (if depth = 0 then 2 else if depth = 1 then 40 else 400)) ∧
      t.ops = s.ops ∧ t.ctxs = s.ctxs) ∧
    (o.kind.isStore = true → o.cnts = true → o.toAck ≠ [] → ∃ t, exec (.storeAcknowledge id) s = .next t ∧
      (t.ctxAt o.ctx).count .st = c.count .st - o.toAck.length ∧ (t.ctxAt o.ctx).x = c.x ∧ t.mem = s.mem ∧
      (o.acked = [] → (∀ p ∈ o.parts, p.st = .done) → o.toAck = o.accs ∧ gone t)) ∧
    (o.kind = .rfill ta n w → (s.coreAt (ta / 16)).sleep = .awake → s.now ≤ o.issued ∨ s.fileFree ta = false →
      exec (.remoteFillDelivery id) s = .next s) ∧
    (o.kind = .rfill ta n w → o.allDone = false → s.fillBefore o (ta / 16) = false → o.issued < s.now → s.fileFree ta = true →
      (s.coreAt (ta / 16)).sleep = .awake →
      let g := s.ctxAt ta
      let r := Tbl.get {} g.x n
      ∃ t u, exec (.remoteFillDelivery id) s = .next t ∧ t.opAt id = some u ∧ u.allDone = true ∧ t.mem = s.mem ∧
        (g.life ≠ .running ∨ r.full = true ∨ r.pend = true → t.ctxs = s.ctxs) ∧
        (g.life = .running → r.full = false → r.pend = false → (t.ctxAt ta).x = Tbl.set {} g.x n { val := w }) ∧
        (∀ p ∈ u.parts, p.res = if g.life ≠ .running then 3 else if r.full then 1 else if r.pend then 2 else 0))

/-- R34, R43, R157, R301. What a context at an issue point takes: first a late trap, with the pc of the instruction that would issue
next, or of the `vamo` that it comes from (R240); then, at U or at S with its enable, the lowest interrupt that is pending and enabled,
never at F; then, at U and outside a handler, a notice, with the pc, the notice and its address in the shadow bank. -/
def Obligations.IssuePointEntries : Prop :=
  ∀ (s : State) (core tid : Nat),
    let a := 16 * core + tid
    let c := s.ctxAt a
    s.atIssue a = true → c.post = .none →
    (∀ l ls, c.lates = l :: ls → l.deleg = false → ∃ t, exec (.trapEntry core tid) s = .next t ∧
      (t.ctxAt a).lates = ls ∧ t.mem = s.mem ∧
      (c.priv ≠ .f → c.kstat.ktrap = false → l.above = false → l.cause < 256 →
        (t.ctxAt a).ktr = { c.ktr with cause := BitVec.ofNat 64 l.cause, epc := l.at_.getD c.pc, val := l.val } ∧
        (t.ctxAt a).priv = .s ∧ (t.ctxAt a).pc = c.ktr.vec &&& ~~~3#64)) ∧
    (s.lateReady a = false → c.priv = .u ∨ (c.priv = .s ∧ c.kstat.ie = true) → c.kstat.ktrap = false →
      ∀ n : Fin 3, (s.pending a &&& c.kipE).getLsbD n.val = true → (∀ j < n.val, (s.pending a &&& c.kipE).getLsbD j = false) →
      ∃ t, exec (.interruptEntry core tid) s = .next t ∧
        (t.ctxAt a).ktr = { c.ktr with cause := BitVec.ofNat 64 (2 ^ 63 + n.val), epc := c.pc, val := 0 } ∧
        (t.ctxAt a).priv = .s ∧ (t.ctxAt a).pc = c.ktr.vec &&& ~~~3#64 ∧
        (t.ctxAt a).kstat = { c.kstat with ppriv := c.priv, pie := c.kstat.ie, ie := false, ktrap := true } ∧
        (t.coreAt core).frozen = (s.coreAt core).frozen ∧ t.mem = s.mem) ∧
    (c.priv = .f → exec (.interruptEntry core tid) s = .next s) ∧
    (∀ n ns, c.notes = n :: ns → s.lateReady a = false → s.irqPending a = false → c.priv = .u →
      c.uirqv.getLsbD 0 = true → c.inH = false → c.ucause = 0 → tid < 16 →
      ∃ t, exec (.noticeDelivery core tid) s = .next t ∧ (t.ctxAt a).inH = true ∧ (t.ctxAt a).notes = ns ∧
        (t.ctxAt a).lost = false ∧ (t.ctxAt a).pc = c.uirqv &&& ~~~3#64 ∧ (t.ctxAt a).xReg true 40 = { val := c.pc } ∧
        (t.ctxAt a).xReg true 41 = { val := n.word c.lost } ∧ (t.ctxAt a).xReg true 42 = { val := n.addr } ∧
        (t.ctxAt a).x = c.x ∧ (t.ctxAt a).priv = .u ∧ t.mem = s.mem)

/-- R108, R122, R161, R168, R197. The timer ends a `wfi` whose interrupt it is, a timeout ends an `mwait` with code 2, a block that
was asked for arrives in the buffer, a core all of whose contexts rest goes to sleep at its depth, and a wake ends. -/
def Obligations.WaitsAndSleep : Prop :=
  ∀ (s : State) (core tid : Nat),
    let a := 16 * core + tid
    let c := s.ctxAt a
    (c.life = .running → c.ktcmp.toNat ≤ s.cyc.toNat → (s.coreAt core).sleep = .awake → c.post = .wfi →
      c.kipE.getLsbD 1 = true → ∃ t, exec (.timerPending core tid) s = .next t ∧ (t.ctxAt a).post = .none ∧
        (t.ctxAt a).pc = c.pc ∧ t.mem = s.mem) ∧
    (∀ d i n j, c.post = .mwait d i n j → n ≠ 0 → i + n ≤ s.now → (s.coreAt core).sleep = .awake → s.lateReady a = false →
      s.irqPending a = false → (∀ m ∈ c.mon, m.2.used = true → m.2.trig = false) → 0 < d → d < 48 →
      ∃ t, exec (.mwaitTimeout core tid) s = .next t ∧ (t.ctxAt a).post = .none ∧
        (t.ctxAt a).xReg c.inH d = { val := 2 } ∧ (t.ctxAt a).mon = c.mon ∧ t.mem = s.mem) ∧
    (∀ o p u x n bs, s.ops.find? (fun o => o.ctx == a && o.kind == .fetch) = some o → o.parts = [p] → tid < 16 →
      s.isRefused core o.id 0 = false → s.heldBehind o 0 p = false → s.readBlock o p = .ok (u, x, n, bs) → s.slotFree n = true →
      s.accepts (s.vfOfCore core) p.va n (s.resender core o.id 0) = true →
      ∃ t b, exec (.fetchMiss core tid) s = .next t ∧ b ∈ (t.coreAt core).ibuf ∧ b.va = o.size ∧
        b.data = BitVec.ofNat 256 (ofBytes bs) ∧ b.at_ = o.issued ∧ (t.ctxAt a).parked ≠ some .fetch) ∧
    ((s.coreAt core).sleep = .awake → (∀ t < 16, s.resting (16 * core + t) = true) →
      exec (.registerFileSleep core) s = .next (s.modCore core (fun k =>
        { k with sleep := .asleep (k.cSeen 8 s.now).val.toNat }))) ∧
    (∀ n, (s.coreAt core).sleep = .waking n → n ≤ s.now →
      ((s.coreAt core).late = [] → exec (.wakeEnd core) s = .next (s.modCore core (fun k => { k with sleep := .awake, late := [] }))) ∧
      (∀ id o d sh v, (s.coreAt core).late = [.result id] → s.opAt id = some o → o.kind = .alu → o.ctx / 16 = core →
        o.outs = [{ dst := .x d sh, val := v }] → ∃ t, exec (.wakeEnd core) s = .next t ∧ (t.coreAt core).sleep = .awake ∧
          (t.coreAt core).late = [] ∧ (t.ctxAt o.ctx).xReg sh d = { val := v.setWidth 64 } ∧ t.opAt id = none))

/-- R186, R187, R192, R193, R194, R195. An episode that every member has arrived in completes 60 cycles after the last arrival, and
the marked wells exchange their halves. A decrement counts its task's word down once: at zero the task is listed, or cancelled
under a cancel flag or the token; a word that is zero already counts as under; an INCOMING slot is waited for; a detached one, or a
back half, raises the token (of a HELD slot in exchange mode, which two clauses of R193 meet, that is the model's choice, log 35).
A watchdog that has run out traps its context with 0x14 and raises the token, whose arrival cancels what is listed. -/
def Obligations.TeamEvents : Prop :=
  ∀ (s : State) (t : Team) (l : Launch), s.launchAt t.launch = some l → (∀ m ∈ s.launches, m.id = l.id → m = l) →
    let find := s.teams.find? (fun u => u.id == t.id) = some t
    (∀ g, let gs := Tbl.get {} t.groups g
      let ms := Tbl.get [] l.groups g
      find → t.onDevice = true → ms ≠ [] → (∀ m ∈ ms, m ∈ gs.arr) → gs.last + 60 ≤ s.now →
      ∃ u, exec (.episodeComplete t.id g) s = .next u ∧
        (∀ v ∈ u.teams, v.id = t.id → (Tbl.get {} v.groups g).ep = gs.ep + 1 ∧ (Tbl.get {} v.groups g).arr = gs.nxt) ∧
        (∀ w, (u.bankAt w).swap = if w ∈ gs.swp then !(s.bankAt w).swap else (s.bankAt w).swap) ∧
        u.mem.wells = s.mem.wells ∧ u.ctxs = s.ctxs) ∧
    (∀ id o n cancel task, s.opAt id = some o → o.kind = .tdec n cancel → s.teamOf (o.ctx / 16) = some t →
      s.launchOf (o.ctx / 16) = some l → l.tasks[n]? = some task →
      s.decBefore o (t.coreOf task.home) task.slot = false → o.cnts = true →
      let home := t.coreOf task.home
      let x := s.slotAt home task.slot
      let word := BitVec.ofNat 64 (ofBytes (s.readWell x.well task.off 8))
      let next := (word - 1) ||| (if cancel then 0x8000000000000000#64 else 0)
      let done := fun (u : State) => exec (.decrementAtHome id) s = .next u ∧ u.opAt id = none ∧
        (u.ctxAt o.ctx).count .st = (s.ctxAt o.ctx).count .st - 1
      (x.st = .incoming → exec (.decrementAtHome id) s = .next s) ∧
      ((x.st = .attached ∨ x.st = .held) → (x.exch = true → task.off < 0x10000) → s.portFree x.well = false →
        exec (.decrementAtHome id) s = .next s) ∧
      (x.st = .detached ∨ x.st ≠ .incoming ∧ x.exch = true ∧ 0x10000 ≤ task.off →
        ∃ u, done u ∧ ∀ m ∈ u.launches, m.id = l.id → m.token = true) ∧
      (x.st = .attached ∨ x.st = .held → (x.exch = true → task.off < 0x10000) → s.portFree x.well = true →
        (word.extractLsb' 0 31 = 0 → ∃ u, done u ∧
          u.mem = { s.mem with ports := Tbl.set 0 s.mem.ports x.well (s.now + 1) } ∧ ∀ m ∈ u.launches, m.id = l.id → m.nunder = l.nunder + 1) ∧
        (word.extractLsb' 0 31 ≠ 0 → task.off + 8 ≤ 0x20000 → ∃ u, done u ∧
          BitVec.ofNat 64 (ofBytes (u.readWell x.well task.off 8)) = next ∧
          (next.extractLsb' 0 31 = 0 → next.getLsbD 63 = false → (s.coreAt home).token = false →
            (u.coreAt home).runl = (s.coreAt home).runl ++ [n]) ∧
          (next.extractLsb' 0 31 = 0 → next.getLsbD 63 = true ∨ (s.coreAt home).token = true →
            (u.coreAt home).runl = (s.coreAt home).runl ∧ ∀ m ∈ u.launches, m.id = l.id → m.ncanc = l.ncanc + 1) ∧
          (next.extractLsb' 0 31 ≠ 0 → u.teams = s.teams)))) ∧
    (∀ n a since lim, find → Tbl.get .pending t.tstate n = .taken a since false → l.hdr.watchdog = some lim →
      t.onDevice = true → since + lim < s.now → (s.ctxAt a).life = .running →
      ∃ u, exec (.watchdogExpiry t.id n) s = .next u ∧ (∀ m ∈ u.launches, m.id = l.id → m.token = true) ∧
        (u.ctxAt a).lates = (s.ctxAt a).lates ++ [{ cause := 0x14, val := BitVec.ofNat 64 s.now, above := false }]) ∧
    (∀ m core, s.net.tokens.find? (fun m => m.launch == l.id && m.core == core) = some m → s.teamOf core = some t →
      t.launch = l.id → ∃ u, exec (.errorTokenArrival l.id core) s = .next u ∧ (u.coreAt core).token = true ∧
        (u.coreAt core).runl = [] ∧ u.net.tokens = s.net.tokens.erase m ∧
        (∀ v ∈ u.launches, v.id = l.id → v.ncanc = l.ncanc + (s.coreAt core).runl.length))

/-- R207, R211, R212, R213, R214, R215, R216, R217. A scheduled change of a well that waits for nothing more and whose delay is over
ends: the slot is ATTACHED (HELD where its core is frozen), a clear and a plain attach leave zeros in the bytes they name and
only there, a mode change takes the mode, a detached or freed well is FREE and keeps its bytes. -/
def Obligations.WellEvents : Prop :=
  ∀ (s : State) (m : WMove), s.moves.find? (fun x => x.id == m.id) = some m → (s.settleMove m).dueAt s.now = true →
    let x := s.slotAt m.core m.slot
    let st := if (s.coreAt m.core).frozen = none then SlotSt.attached else .held
    let ends := fun (i : Instr) (y : Slot) (zero : Nat → Prop) => ∃ t, exec i s = .next t ∧
      t.moves = s.moves.filter (fun z => z.id != m.id) ∧ t.slotAt m.core m.slot = y ∧
      (∀ off < 0x20000, (zero off → t.wellByte m.well off = 0) ∧ (¬ zero off → t.wellByte m.well off = s.wellByte m.well off)) ∧
      (∀ w off, w ≠ m.well → off < 0x20000 → t.wellByte w off = s.wellByte w off) ∧ t.ctxs = s.ctxs
    (m.kind = .pass → ends (.wellMoveComplete m.id) { x with st } (fun _ => False)) ∧
    (m.kind = .attach true → ends (.wellAttachComplete m.id) { x with st } (fun _ => False)) ∧
    (m.kind = .attach false → ends (.wellAttachComplete m.id) { x with st } (fun _ => True)) ∧
    (m.kind = .clear → ends (.wellClearComplete m.id) { x with st } (fun off => x.exch = true → off < 0x10000)) ∧
    (∀ e, m.kind = .mode e → ends (.wellModeChange m.id) { x with st, exch := e } (fun _ => False)) ∧
    (m.kind = .detach ∨ m.kind = .free → ∃ t, exec (.wellFree m.id) s = .next t ∧ (t.bankAt m.well).bound = false ∧
      t.mem.wells = s.mem.wells ∧ (t.bankAt m.well).swap = (s.bankAt m.well).swap ∧ t.cores = s.cores)

/-! ### Events of the engines (R285-R300, R313-R340) -/

/-- R203, R285, R286, R288, R289, R290, R291, R293, R296, R300. The copy that its cluster's engine serves goes on step by step: its
shape block in accesses of at most 128 bytes, then element after element, which reaches its destination before the next one is read
where they go alone; of a fill each register takes its value in order. A copy that is done leaves its queue, its count falls, its flags
and its notice are given, the engine is free; with a follow-on a pass enters the array queue. A fault, or a data error (0x15; 0x0B
where a peer refuses), cancels it and what its context has queued behind it, and leaves a late trap. A sequencer runs its records: END
stops it, a COPY record issues one copy a cycle, QFENCE leaves a mark, and a record that is not legal, or a 65th, stops it with 0x0F.
That a copy is performed in such steps, of which other agents may come between any two, and which elements go together, is the model's
choice (log 28), and so are the order in which faults are found and what is cancelled with them (log 30). -/
def Obligations.CopyEvents : Prop :=
  ∀ (s : State) (core : Nat) (o : EOp) (src dst shape : Word) (d r : Nat) (ext : CpyExt),
    s.servedCopy core = some o → o.kind = .cpy src dst shape d r ext → o.orphan = false → o.ctx / 16 = core →
    let c := s.ctxAt o.ctx
    (s.copyAtWork core = some o →
      (∀ n u p, s.copyStep o n = .ok (u, p) → ∃ t, exec (.engineCopy { core, num := n }) s = .next t ∧
        ((u.coreAt core).cq = (s.coreAt core).cq → (t.coreAt core).cq.head? = some p) ∧ t.mem = u.mem) ∧
      (∀ n b hs, o.cp.dims = none → o.cp.bytes = b → b = [] ∨ b.length = 128 ∧ 5 < n →
        (b = [] → s.engLook o.binds shape.toNat 8 = .ok hs) → (b ≠ [] → hs = b.take 8) → ofBytes hs = n →
        (n = 0 ∨ 10 < n → s.copyStep o 1 = .error (.fault 0x0F o.cmd)) ∧
        (∀ u bs, 1 ≤ n → n ≤ 10 →
          s.engRead o.binds (if b = [] then shape.toNat else shape.toNat + 128)
            (if b = [] then 8 + 24 * min n 5 else 24 * (n - 5)) = .ok (u, bs) →
          (b = [] → 5 < n → exec (.engineCopy { core, num := 1 }) s =
            .next (u.modHead core 0 (fun _ => { o with cp := { o.cp with bytes := bs } }))) ∧
          (b ≠ [] ∨ n ≤ 5 →
            (dimsOf n ((b ++ bs).drop 8) = none → s.copyStep o 1 = .error (.fault 0x0F o.cmd)) ∧
            (∀ ds, dimsOf n ((b ++ bs).drop 8) = some ds →
              (ext.dk = .mem ∨ dimCount ds * ext.dfmt.width ≤ (if ext.dk = .xfill then 64 else 512) * r →
                exec (.engineCopy { core, num := 1 }) s =
                  .next (u.modHead core 0 (fun _ => { o with cp := { o.cp with dims := some ds, bytes := [] } }))) ∧
              (ext.dk ≠ .mem → (if ext.dk = .xfill then 64 else 512) * r < dimCount ds * ext.dfmt.width →
                s.copyStep o 1 = .error (.fault 0x0F o.cmd)))))) ∧
      (∀ ds j w b v e, ext.dk = .mem → ext.cvt = false → ext.sfmt.width = ext.dfmt.width → 4 < ext.sfmt.width →
        o.cp = { dims := some ds, pos := j } → j < dimCount ds →
        let x := elemAddr src (elemOff ds j).1 ext.sfmt.width
        let y := elemAddr dst (elemOff ds j).2 ext.sfmt.width
        let n := ext.sfmt.width / 8
        engPlace o.binds x.1 n false = .ok (some (w, b)) → engPlace o.binds y.1 n true = .ok (some (v, e)) →
        s.portFree w = true → s.portFree v = true →
        ∃ t u q, exec (.engineCopy { core, num := 1 }) s = .next t ∧ t.copyAtWork core = some q ∧ t.portFree w = false ∧
          exec (.engineCopy { core, num := 1 }) { t with now := t.now + 1 } = .next u ∧
          (∀ i < n, u.wellByte v (e + i) = s.wellByte w (b + i)) ∧
          (∀ z i, i < 0x20000 → ¬ (z = v ∧ e ≤ i ∧ i < e + n) → u.wellByte z i = s.wellByte z i) ∧
          ∃ p, (u.coreAt core).cq.head? = some p ∧ p.id = o.id ∧ p.cp = { dims := some ds, pos := j + 1 } ∧
            (p.done = true ↔ j + 1 = dimCount ds) ∧ u.mem.hbm = s.mem.hbm ∧ u.ctxs = s.ctxs) ∧
      (∀ ds i x v, ext.dk = .xfill → o.cp.dims = some ds → o.cp.pos = dimCount ds → o.cp.num = 0 → o.cp.put = i →
        (fillVals 64 r ext.dfmt.width o.cp.vals)[i]? = some v → o.keep[i]? = some x → (∃ k b, x.dst = .x k b) → o.fin ≤ s.now →
        (s.coreAt core).sleep = .awake → s.fileFree o.ctx = true →
        ∃ t p, exec (.engineCopy { core, num := 0 }) s = .next t ∧
          (∀ k b, x.dst = .x k b → (t.ctxAt o.ctx).xReg b k = { val := v.setWidth 64 }) ∧
          (t.coreAt core).cq.head? = some p ∧ p.cp.put = i + 1 ∧ (p.done = true ↔ i + 1 = r) ∧
          (i + 1 ≠ r → p.fin = s.now + 1) ∧ t.mem = s.mem)) ∧
    (o.done = true → s.putHeld core o = false → ext.fon = 0 → ∃ t, exec (.copyComplete core) s = .next t ∧
      (t.coreAt core).cq = (s.coreAt core).cq.filter (fun x => x.id != o.id) ∧
      (t.ctxAt o.ctx).count .cp = c.count .cp - 1 ∧ (t.ctxAt o.ctx).fpcsr = c.fpcsr ||| (o.flags.setWidth 64 <<< 3) ∧
      (o.irq = true → c.notes.length < 16 → (t.ctxAt o.ctx).notes = c.notes ++ [{ kind := 1, tag := o.tag, addr := 0 }]) ∧
      (t.cluAt (core / 16)).cpyBusy = none ∧ t.mem = s.mem) ∧
    (o.done = true → s.putHeld core o = false → ext.fon ≠ 0 → (s.coreAt core).aq.length < 16 → s.cancelsNow o.ctx 1 = false →
      crosses dst.toNat (ext.fon.toNat * stride c.afmt) = false → ∃ t p, exec (.copyComplete core) s = .next t ∧
        (t.coreAt core).aq = (s.coreAt core).aq ++ [p] ∧ p.ctx = o.ctx ∧
        p.kind = .cpass dst ext.fon.toNat 0 c.afmt (if c.acmp then some (s.coreAt core).table else none) ∧ t.mem = s.mem) ∧
    (s.copyAtWork core = some o → c.life = .running → o.seq = none →
      let fails := fun (f : EngFault) (cause : Nat) (val : Word) (m : Mem) => ∃ t l, exec (.engineFault f) s = .next t ∧
        (t.ctxAt o.ctx).lates = c.lates ++ [l] ∧ l.cause = cause ∧ l.val = val ∧ l.queue = some 0 ∧
        (∀ x ∈ (t.coreAt core).cq, ¬ (x.ctx = o.ctx ∧ x.orphan = false ∧ o.id ≤ x.id)) ∧
        (t.cluAt (core / 16)).cpyBusy = none ∧ t.mem = m
      (∀ cause val rep, s.arrayFault core none = none → s.exchFault core = none →
        s.copyStep o 1 = .error (.fault cause val rep) → fails { core } cause val s.mem) ∧
      (∀ bank off u cause val, s.copyErr o off = some (u, cause, val) → (cause = 0x15 ∨ cause = 0x0B) ∧
        u.mem = { s.mem with ports := u.mem.ports, slices := u.mem.slices } ∧
        fails { core, err := some (0, bank, off) } cause val u.mem)) ∧
    (∀ i, let q := Tbl.get {} (s.coreAt core).seqs i
      (s.now < q.next → exec (.sequencerRecord core i) s = .next s) ∧
      (∀ u bs, q.running = true → q.next ≤ s.now → s.stopped core = false →
        s.bindWaits q.id (q.binds.filter (fun b => b.slot == q.pc.toNat / 0x20000)) = false →
        s.engRead q.binds q.pc.toNat 64 = .ok (u, bs) →
        let word := fun (k : Nat) => BitVec.ofNat 64 (ofBytes ((bs.drop k).take 8))
        let h := word 0
        let kind := fieldOf h 0 8
        let rep := fieldOf h 32 32
        let legal := q.recNo < 64 ∧ kind ≤ 2 ∧ fieldOf h 11 5 = 0 ∧ fieldOf h 16 16 = 0 ∧ word 8 = 0 ∧ (kind = 1 → rep ≠ 0)
        let mine := q.orphan = false ∧ (s.ctxAt q.ctx).life = .running ∧ q.ctx / 16 = core
        let after := fun (P : State → Sequencer → Prop) => ∃ t, exec (.sequencerRecord core i) s = .next t ∧ t.mem = u.mem ∧
          P t (Tbl.get {} (t.coreAt core).seqs i)
        let fails := after (fun t p => p.running = false ∧ p.fault = true ∧ (t.coreAt core).cq = (s.coreAt core).cq ∧
          (mine → ∃ l, (t.ctxAt q.ctx).lates = (s.ctxAt q.ctx).lates ++ [l] ∧ l.cause = 0x0F ∧ l.val = h ∧ l.queue = some 0))
        (¬ legal → fails) ∧
        (legal → kind = 0 → after (fun t p => p.running = false ∧ p.fault = q.fault ∧ (t.coreAt core).cq = (s.coreAt core).cq)) ∧
        (legal → kind = 2 → mine → after (fun t p => p.running = true ∧ p.pc = q.pc + 64 ∧ p.recNo = q.recNo + 1 ∧ p.next = s.now + 1 ∧
          ∃ m ∈ (t.ctxAt q.ctx).marks, m.queues = h.extractLsb' 8 3)) ∧
        (legal → kind = 1 → u.seqCopy core i q word = none → fails) ∧
        (∀ x, legal → kind = 1 → u.seqCopy core i q word = some x → mine → s.cancelsNow q.ctx 0 = false →
          (s.coreAt core).cq.length < 32 → (s.ctxAt q.ctx).count .cp < 65535 → after (fun t p => ∃ y,
            (t.coreAt core).cq = (s.coreAt core).cq ++ [y] ∧ y.kind = x.kind ∧ y.seq = some i ∧ y.ctx = q.ctx ∧
            (t.ctxAt q.ctx).count .cp = (s.ctxAt q.ctx).count .cp + 1 ∧ p.running = true ∧ p.next = s.now + 1 ∧
            (q.repNo + 1 < rep → p.pc = q.pc ∧ p.repNo = q.repNo + 1 ∧ p.recNo = q.recNo) ∧
            (rep ≤ q.repNo + 1 → p.pc = q.pc + 64 ∧ p.repNo = 0 ∧ p.recNo = q.recNo + 1)))))

/-- R203, R293, R310, R311, R313, R314, R315, R316, R317, R320, R321. The head of the array queue starts where nothing holds it, and
one `clw` behind a pass may join it from the pass's vector phase on. An operation makes its accesses to its well one by one: `cpass`
feeds each record that it has read into its row, `cdrain` writes the row out 128 bytes at a time and then clears it, `cstk` copies into
the stacked slice. Behind its last access it ends with its effect: `clw` gives the shadow planes of the tile in the stacked slice,
`cflip` makes them live; it leaves the queue, its count falls, its flags and its notice are given. A fault of an access cancels it and
what its context has queued behind it. That other agents may come between any two accesses, and when `clw` reads the slice, is the
model's choice (log 28); what a fault cancels is log 30. -/
def Obligations.ArrayEvents : Prop :=
  ∀ (s : State) (core : Nat) (o : EOp) (rest : List EOp), (s.coreAt core).aq = o :: rest → o.orphan = false →
    o.ctx / 16 = core → (s.coreAt core).sleep = .awake → (∀ x ∈ rest, x.id ≠ o.id) →
    let k := s.coreAt core
    let c := s.ctxAt o.ctx
    let left := fun (t : State) => (t.coreAt core).aq = k.aq.filter (fun x => x.id != o.id) ∧
      (t.ctxAt o.ctx).count .tl = c.count .tl - 1
    (o.start = none → s.mayStart core o = true → s.stopped core = false → ∃ t x, exec (.arrayOpStart core) s = .next t ∧
      (t.coreAt core).aq = x :: rest ∧ x.start = some s.now ∧ x.kind = o.kind ∧ x.id = o.id ∧
      x.fin = s.now + (s.arrayTime o).1 ∧ t.mem = s.mem ∧ t.ctxs = s.ctxs) ∧
    (∀ S w ws, o.start = some S → S + 128 ≤ s.now → s.stopped core = false → o.isPass = true → o.mate = none → rest = w :: ws →
      w.isClw = true → w.start = none → s.mayStart core w = true → (∀ x ∈ ws, x.id ≠ w.id) →
      ∃ t x y, exec (.arrayOpStart core) s = .next t ∧ (t.coreAt core).aq = x :: y :: ws ∧ x.mate = some w.id ∧ x.kind = o.kind ∧
        y.start = some s.now ∧ y.kind = w.kind ∧
        y.fin = (if s.now + 32 ≤ S + 128 + o.lives then s.now + 32 else o.fin + 32 - (S + 128 + o.lives - s.now)) ∧ t.mem = s.mem) ∧
    (k.endsNext s.now = some o → o.lost = false →
      (∀ u p, o.nextAccess ≠ none → s.arrayAccess o = .ok (u, p) → (u.coreAt core).aq = k.aq →
        ∃ t, exec (.arrayOpComplete core) s = .next t ∧ t.mem = u.mem ∧ t.ctxs = u.ctxs ∧ p.pos = o.pos + 1 ∧
          (t.coreAt core).aq = p :: rest) ∧
      (∀ at_ len u bs, o.nextAccess = some (at_, len, false) → s.engRead o.binds at_ len = .ok (u, bs) →
        (∀ a off n, o.kind = .cstk a off n → at_ = a.toNat + 128 * o.pos ∧ len = min 128 (n - 128 * o.pos) ∧
          ∃ v p, s.arrayAccess o = .ok (v, p) ∧ v.readStack core (off + 128 * o.pos) len = bs ∧
            v.mem.wells = s.mem.wells ∧ v.mem.hbm = s.mem.hbm) ∧
        (∀ a n row f tab, o.kind = .cpass a n row f tab →
          ((o.pos + 1) % beats f ≠ 0 → s.arrayAccess o = .ok (u, { o with pos := o.pos + 1, data := o.data ++ bs })) ∧
          ((o.pos + 1) % beats f = 0 → let r := u.feedRow core (row + o.pos / beats f) k.live f tab (o.data ++ bs)
            s.arrayAccess o = .ok (r.1, { o with pos := o.pos + 1, data := [], flags := o.flags ||| r.2 })))) ∧
      (∀ a n row w off, o.kind = .cdrain a n row → o.pos < 4 * n →
        engPlace o.binds (a.toNat + 128 * o.pos) 128 true = .ok (some (w, off)) → s.portFree w = true → off + 128 ≤ 0x20000 →
        let r := row + o.pos / 4
        ∃ v p, s.arrayAccess o = .ok (v, p) ∧
          (∀ j < 128, v.wellByte w (off + j) = (s.drainRow core r).1.getD (128 * (o.pos % 4) + j) 0) ∧
          (∀ z j, j < 0x20000 → ¬ (z = w ∧ off ≤ j ∧ j < off + 128) → v.wellByte z j = s.wellByte z j) ∧
          (o.pos % 4 = 3 → p.flags = o.flags ||| (s.drainRow core r).2 ∧ v.bandTag core r = 0x3F80 ∧
            ∀ j < 128, r < 256 → v.foot core r j = 0)) ∧
      (o.nextAccess = none → o.keep = [] → (∀ f sc off d, o.kind ≠ .clw f sc off d) → o.kind ≠ .cflip →
        ∃ t, exec (.arrayOpComplete core) s = .next t ∧ left t ∧ t.mem = s.mem ∧
          (t.ctxAt o.ctx).fpcsr = c.fpcsr ||| (o.flags.setWidth 64 <<< 3) ∧
          (o.irq = true → c.notes.length < 16 → (t.ctxAt o.ctx).notes = c.notes ++ [{ kind := 2, tag := o.tag, addr := 0 }])) ∧
      (∀ f sc off d n sh, o.kind = .clw f sc off d → o.keep = [{ dst := .x n sh }] →
        let bs := s.readStack core off (tileBytes f + if sc then 256 else 0)
        badTrit f bs = none → ∃ t, exec (.arrayOpComplete core) s = .next t ∧ left t ∧
          (t.coreAt core).shadow = some (tileOf f sc bs).1 ∧ (t.coreAt core).live = k.live ∧ t.mem = s.mem ∧
          (t.ctxAt o.ctx).fpcsr = c.fpcsr ||| ((tileOf f sc bs).2.setWidth 64 <<< 3) ∧
          (t.ctxAt o.ctx).xReg sh n = { val := BitVec.ofNat 64 (tileOf f sc bs).1.p }) ∧
      (∀ x, o.kind = .cflip → o.keep = [] → k.shadow = some x → ∃ t, exec (.arrayOpComplete core) s = .next t ∧ left t ∧
        (t.coreAt core).live = x ∧ (t.coreAt core).shadow = none ∧ t.mem = s.mem)) ∧
    (o.start.isSome = true → c.life = .running → o.seq = none →
      let fails := fun (cause : Nat) (val : Word) => ∃ t l, exec (.engineFault { core }) s = .next t ∧
        (t.ctxAt o.ctx).lates = c.lates ++ [l] ∧ l.cause = cause ∧ l.val = val ∧ l.queue = some 1 ∧
        (∀ x ∈ (t.coreAt core).aq, ¬ (x.ctx = o.ctx ∧ x.orphan = false ∧ o.id ≤ x.id)) ∧
        (t.ctxAt o.ctx).fpcsr = c.fpcsr ∧ t.mem = s.mem
      (∀ cause val rep, o.nextAccess ≠ none → s.arrayAccess o = .error (.fault cause val rep) → fails cause val) ∧
      (∀ f sc off d i, o.kind = .clw f sc off d → k.endsNext s.now = some o → o.fin ≤ s.now →
        badTrit f (s.readStack core off (tileBytes f + if sc then 256 else 0)) = some i → fails 0x0D (BitVec.ofNat 64 i)) ∧
      (o.kind = .cflip → k.endsNext s.now = some o → o.fin ≤ s.now → k.shadow = none → fails 0x0F o.cmd))

/-- R304, R305, R309, R310, R311. A vector adds to each foot cell of its row the column's exact sum of weight times mantissa, scaled and
rounded once; other rows, and the row of a zero vector, are as they were. What a column gives: the sum of the products, which stays below
2^46 for the weights and mantissas there are, times the group scale, the band scale and the power of two, rounded once to nearest; +0 of a
zero sum; of an infinite factor an infinity or the canonical NaN, and of a poisoned column the canonical NaN with NV. A weight is recoded
to nearest, even at a tie, under the exponent that gives the column's largest one 23 bits. The live planes of a set of columns are the most
non-zero digits of a weight: at most 1 in a T5 tile, 2 in an MXFP4 or E5M2 tile, 3 in an E4M3 tile, 5 in a BF16 or KB4 tile, and 2 in a KB4
tile whose block scales are powers of two; a significand of b bits has at most (b + 2) / 2 digits, and only zero has none. -/
def Obligations.ArrayArithmetic : Prop :=
  (∀ (s : State) (core row : Nat) (t : Tile) (f : AFmt) (tab : Option (List Seg)) (bs : List Byte), row < 256 →
     let r := (s.feedRow core row t f tab bs).1
     (∀ c i j, j < 128 → i < 256 → (c ≠ core ∨ i ≠ row) → r.foot c i j = s.foot c i j) ∧
     ((feed f tab bs).1 = .zero → ∀ j < 128, r.foot core row j = s.foot core row j) ∧
     (∀ a m, (feed f tab bs).1 = .ms a m → ∀ j < 128, r.foot core row j = BitVec.ofNat 32
       (fmt32.add 0 false (fmt32.read false (s.foot core row j).toNat) (fmt32.read false (colOut (t.col j) a m).1)).1) ∧
     (r.mem.hbm = s.mem.hbm ∧ r.mem.wells = s.mem.wells ∧ r.ctxs = s.ctxs ∧ r.cores = s.cores)) ∧
  (∀ (c : Col) (a : Int) (m : List Int),
     let S := ((List.range (min c.n.length m.length)).map (fun k => c.n.getD k 0 * m.getD k 0)).sum
     (c.poison = true → colOut c a m = (fmt32.cnan, fNV)) ∧
     (c.n.length ≤ 128 → (∀ w ∈ c.n, w.natAbs ≤ 2 ^ 23) → (∀ x ∈ m, x.natAbs < 2 ^ 15) → S.natAbs < 2 ^ 46) ∧
     (c.poison = false →
       (∀ i j n k d e, fmtB16.read false c.gs.toNat = .fin i n d → fmtB16.read false c.bs.toNat = .fin j k e →
         (S = 0 → colOut c a m = (0, 0)) ∧
         (S ≠ 0 → colOut c a m =
           fmt32.roundFin 0 false ((i != j) != decide (S < 0)) (S.natAbs * (n * k)) (a + c.g + (d + e)))) ∧
       (∀ i j k e, fmtB16.read false c.gs.toNat = .inf i → fmtB16.read false c.bs.toNat = .fin j k e →
         colOut c a m = if k = 0 ∨ S = 0 then (fmt32.cnan, fNV) else (fmt32.infBits ((i != j) != decide (S < 0)), 0)) ∧
       (∀ sig j k e, fmtB16.read false c.gs.toNat = .nan sig → fmtB16.read false c.bs.toNat = .fin j k e →
         colOut c a m = (fmt32.cnan, if sig then fNV else 0)))) ∧
  (∀ (f : WFmt) (ws : List FVal) (gs bs : Nat), f ≠ .t5 → ws.any wild = false →
     let r := (recode f ws gs bs false).1
     let N := fun (k : Nat) => r.n.getD k 0
     r.poison = false ∧ r.n.length = ws.length ∧
     (∀ (k : Nat) (neg : Bool) (n : Nat) (e : Int), ws[k]? = some (.fin neg n e) →
       let (x, y) := scale2 n 1 (e - r.g)
       let err := 2 * (N k * y - sgn neg x).natAbs
       (N k).natAbs ≤ 2 ^ 23 ∧ err ≤ y ∧ (err = y → N k % 2 = 0)) ∧
     ((∃ v ∈ ws, v.isZero = false) → ∃ k, 2 ^ 22 ≤ (N k).natAbs) ∧ ((∀ v ∈ ws, v.isZero = true) → r.g = 0)) ∧
  (∀ (cols : List Col), (∀ c ∈ cols, ∀ w ∈ c.n, nafCount 25 w.natAbs ≤ planesOf cols) ∧
     (planesOf cols = 0 ∨ ∃ c ∈ cols, ∃ w ∈ c.n, nafCount 25 w.natAbs = planesOf cols)) ∧
  (∀ (f : WFmt) (sc : Bool) (bs : List Byte),
     let t := (tileOf f sc bs).1
     t.p = planesOf t.cols ∧ (∀ c ∈ t.cols, c.n.length ≤ 128 ∧ ∀ w ∈ c.n, w.natAbs ≤ 2 ^ 23) ∧
     t.p ≤ (match f with
       | .t5 => 1
       | .mxfp4 | .e5m2 => 2
       | .e4m3 => 3
       | .bf16 | .kb4 => 5) ∧
     (f = .kb4 → (∀ n < 128, ∀ j < 16, ∃ k, (e3m5 (byteOf bs (80 * n + 64 + j))).1 = 2 ^ k) → t.p ≤ 2)) ∧
  ((∀ (b m sh : Nat), m < 2 ^ b → m * 2 ^ sh < 2 ^ 24 → nafCount 25 (m * 2 ^ sh) ≤ (b + 2) / 2) ∧
   ∀ n < 2 ^ 24, (nafCount 25 n = 0 ↔ n = 0))

/-- R203, R293, R327, R332, R333, R334, R335, R336, R337, R338, R340. The exchange events: a head starts and reads its source access by
access; units of 64 bytes that have been read land whole, each in one access, at each target of `xst` and `nmc` and at a member of a
match: in the back half of an exchange-mode slot, and of `nmc` and `nred` from the start of a plain one; the last one ends the
operation. A target that is no place for them is a fault. A match that every member has started is combined over the members in their
order, and each member then holds the result for its own place; one that cannot be is aborted at every member, with no byte written.
Words leave an output queue in order, those of a reserved stream with the bound of the manual, and reach receive buffers that have
room; a marker moves a stream to its next port set; a lockstep stall holds the team for whole slots. (That a result lands unit by unit,
and that the words of two queues which one context has bound to one stream go in the order of their pushes, is the model's choice, logs
28 and 31.) -/
def Obligations.ExchangeEvents : Prop :=
  ∀ (s : State) (core tid : Nat) (o : EOp) (rest : List EOp) (t : Team) (l : Launch),
    let a := 16 * core + tid
    ((s.coreAt core).eq = o :: rest → o.start = none → s.mayStart core o = true → s.stopped core = false →
      ∃ v x, exec (.exchangeOpStart core) s = .next v ∧ (v.coreAt core).eq = x :: rest ∧ x.start = some s.now ∧ x.kind = o.kind ∧
        x.data = o.data ∧ x.fin = s.now + s.exchTime core o ∧
        (∀ op b g n slot off, o.kind = .nred op b g n slot off → x.k = Tbl.get 0 (s.coreAt core).nredK g ∧
          Tbl.get 0 (v.coreAt core).nredK g = x.k + 1) ∧ v.mem = s.mem) ∧
    (s.movingExch core = some o → s.stopped core = false → s.targets core o ≠ [] → ∀ at_ len u bs, o.nextAccess = some (at_, len, false) →
      s.engRead o.binds at_ len = .ok (u, bs) → exec (.exchangeOpStart core) s =
        .next (u.modHead core 2 (fun _ => { o with pos := o.pos + 1, data := o.data ++ bs }))) ∧
    (∀ target w off, s.stopped core = false → s.movingExch core = some o → target ∈ s.targets core o →
      s.landUnit core target o = some (w, off) → let i := Tbl.get 0 o.landed target
      let units := o.landing.1 / 64
      i < units → 64 * (i + 1) ≤ o.data.length → s.portFree w = true → off + 64 * (i + 1) ≤ 0x20000 →
      ∃ v, exec (.unitLanding core target) s = .next v ∧ v.portFree w = false ∧
        (∀ j < 64, v.wellByte w (off + 64 * i + j) = o.data.getD (64 * i + j) 0) ∧
        (∀ z j, j < 0x20000 → ¬ (z = w ∧ off + 64 * i ≤ j ∧ j < off + 64 * i + 64) → v.wellByte z j = s.wellByte z j) ∧
        ((∀ c ∈ s.targets core o, (if c = target then i + 1 else Tbl.get 0 o.landed c) = units) → o.orphan = false → o.ctx / 16 = core →
          (v.coreAt core).eq = (s.coreAt core).eq.filter (fun y => y.id != o.id) ∧
          (v.ctxAt o.ctx).count .st = (s.ctxAt o.ctx).count .st - 1) ∧
        ((∃ c ∈ s.targets core o, (if c = target then i + 1 else Tbl.get 0 o.landed c) ≠ units) →
          ∃ y, (v.coreAt core).eq.head? = some y ∧ y.id = o.id ∧ Tbl.get 0 y.landed target = i + 1)) ∧
    (∀ target n slot off plain, o.landing = (n, slot, off, plain) → let x := s.slotAt target slot
      let r := s.landAt core target o
      (s.sameTeam core target = false ∨ x.st = .detached → r = .bad) ∧
      (s.sameTeam core target = true → x.st = .incoming → r = .wait) ∧
      (s.sameTeam core target = true → x.st = .attached ∨ x.st = .held →
        (x.exch = true → off + n ≤ 0x10000 → r = .place x.well (0x10000 + off)) ∧
        (x.exch = false → r = if plain then .place x.well off else .bad))) ∧
    (∀ target, s.movingExch core = some o → o.orphan = false → o.ctx / 16 = core → o.seq = none → (s.ctxAt o.ctx).life = .running →
      (∀ op b g n slot off, o.kind ≠ .nred op b g n slot off) → s.arrayFault core none = none →
      let fails := fun (cause : Nat) (val : Word) => ∃ v f, exec (.engineFault { core }) s = .next v ∧ v.mem = s.mem ∧
        (v.ctxAt o.ctx).lates = (s.ctxAt o.ctx).lates ++ [f] ∧ f.cause = cause ∧ f.val = val ∧ f.queue = some 2 ∧
        (∀ x ∈ (v.coreAt core).eq, ¬ (x.ctx = o.ctx ∧ x.orphan = false ∧ o.id ≤ x.id))
      (o.nextAccess = none → target ∈ s.targets core o → Tbl.get 0 o.landed target < o.landing.1 / 64 → s.landAt core target o = .bad →
        fails 0x0F o.cmd) ∧
      (∀ at_ len cause val rep, o.nextAccess = some (at_, len, false) → s.engRead o.binds at_ len = .error (.fault cause val rep) →
        fails cause val)) ∧
    (∀ g, s.teams.find? (fun u => u.id == t.id) = some t → t.onDevice = true → s.launchAt t.launch = some l →
      let ms := Tbl.get [] l.groups g
      let cores := (sortBy (fun a b => decide (a ≤ b)) ms).map t.coreOf
      cores.Nodup →
      (∀ (op : NredOp) (n k : Nat) (w off : Nat → Nat), 0 < cores.length → k ∉ (Tbl.get {} t.groups g).aborts →
        (∀ i ∈ ms, s.missesNred (t.coreOf i) g k = false) →
        (∀ c ∈ cores, ∃ x src slot p, s.nredAt c g = some x ∧ x.kind = .nred op src g n slot p ∧ x.k = k ∧ x.bad = false ∧
          x.nextAccess = none ∧ x.fin ≤ s.now + n / 16 ∧ s.landAt c c x = .place (w c) (off c)) →
        ∃ v bytes, exec (.networkReduction t.id g) s = .next v ∧ v.mem = s.mem ∧ v.ctxs = s.ctxs ∧
          (∀ e < n / 4, ofBytes ((bytes.drop (4 * e)).take 4) =
            reduceElem op (cores.map (fun e => ((s.nredAt e g).map (·.data)).getD [])) e % 2 ^ 32) ∧
          ∀ c ∈ cores, ∃ y, (v.coreAt c).eq.head? = some y ∧ y.data = bytes ∧ y.dest = some (w c, off c)) ∧
      (∀ k ps, s.nredsOf t ms g = some (k, ps) → (∀ p ∈ ps, p.2.ctx / 16 = p.1 ∧ p.2.orphan = false ∧ (s.ctxAt p.2.ctx).life = .running) →
        k ∈ (Tbl.get {} t.groups g).aborts ∨ (∃ p ∈ ps, p.2.bad = true ∨ s.landAt p.1 p.1 p.2 = .bad) ∨
          (∃ p ∈ ps, ∃ q ∈ ps, p.2.nredKey ≠ q.2.nredKey) ∨ (∃ i ∈ ms, s.missesNred (t.coreOf i) g k = true) →
        ∃ v, exec (.networkReduction t.id g) s = .next v ∧ v.mem = s.mem ∧
          (∀ u ∈ v.teams, u.id = t.id → k ∈ (Tbl.get {} u.groups g).aborts) ∧
          ∀ p ∈ ps, (∃ f, (v.ctxAt p.2.ctx).lates = (s.ctxAt p.2.ctx).lates ++ [f] ∧ f.cause = 0x10 ∧ f.val = BitVec.ofNat 64 g ∧
            f.queue = some 2) ∧ (∀ x ∈ (v.coreAt p.1).eq, ¬ (x.ctx = p.2.ctx ∧ x.orphan = false ∧ p.2.id ≤ x.id)))) ∧
    (∀ (n : Fin 4) num x, tid < 16 → s.teamOf core = some t → s.launchOf core = some l →
      ((s.ctxAt a).port false n.val).bound = some num → s.streamOf core num = some x →
      let k := min 4 (min (s.freeWords a n.val) ((s.ctxAt a).lead n.val))
      let ws := ((s.ctxAt a).port false n.val).words
      let mine := s.now % 32 = 0 ∧ x.slots.getLsbD (s.now % 2048 / 32) = true
      (x.slots ≠ 0 → ¬ mine → exec (.wordInjection core tid n) s = .next s) ∧
      (x.slots = 0 ∨ mine ∧ (Tbl.get (0, 0) t.inj x.num).1 ≠ s.now → 0 < k →
        ∃ v, exec (.wordInjection core tid n) s = .next v ∧
          ((v.ctxAt a).port false n.val).words = ws.drop k ∧
          (∃ fs, v.net.flits = s.net.flits ++ fs ∧ (∀ f ∈ fs, f.team = t.id ∧ f.stream = x.num) ∧
            (x.slots = 0 → fs.map (·.word) = ws.take k ∧ ∀ f ∈ fs, f.dests = t.destsOf l x) ∧
            (x.slots ≠ 0 → (∀ y ∈ ws.take k, ∀ c ∈ t.destsOf l x, ∃ f ∈ fs, f.word = y ∧ c ∈ f.dests) ∧
              ∀ f ∈ fs, ∀ c ∈ f.dests, f.due = s.now + (if core / 16 = c / 16 then 1 else 3) * 2048 + 800)) ∧
          (x.slots ≠ 0 → ∀ u ∈ v.teams, u.id = t.id → Tbl.get (0, 0) u.inj x.num = (s.now, k)))) ∧
    (∀ f c, s.net.flits.find? (fun g => g.id == f.id) = some f → f.dests = [c] → ((s.coreAt c).rxOf f.stream).length < 64 →
      (∀ g ∈ s.net.flits.takeWhile (fun g => g.id != f.id), g.team = f.team → g.stream = f.stream → c ∉ g.dests) →
      s.boundTo c true f.stream = none → ∃ v, exec (.wordDelivery f.id) s = .next v ∧
        (v.coreAt c).rxOf f.stream = (s.coreAt c).rxOf f.stream ++ [f.word] ∧
        v.net.flits = s.net.flits.filter (fun g => g.id != f.id) ∧ v.ctxs = s.ctxs) ∧
    (∀ n num x, s.movingExch core = some o → s.teamOf core = some t → o.kind = .smark n →
      ((s.ctxAt o.ctx).port false n).bound = some num → s.streamOf core num = some x → o.ahead = 0 → 0 < s.positions t x →
      ∃ v, exec (.markerSend core) s = .next v ∧ (v.coreAt core).eq = (s.coreAt core).eq.filter (fun y => y.id != o.id) ∧
        ∀ u ∈ v.teams, u.id = t.id → Tbl.get 0 u.setIx num = (Tbl.get 0 t.setIx num + 1) % Nat.max 1 x.sets.length) ∧
    (tid < 16 → s.teamOf core = some t → s.lockWait a = true → s.portClear a = true → ∃ v L, exec (.lockstepStall core tid) s = .next v ∧
      L % 32 = 0 ∧ s.now - (s.ctxAt a).parkAt ≤ L ∧ L < s.now - (s.ctxAt a).parkAt + 32 ∧ (v.ctxAt a).parked = none ∧
      (s.ctxAt a).parkAt + 16 + L ≤ (v.ctxAt a).holdTo ∧ (0 < L → ∀ c ∈ t.cores,
        ((s.ctxAt a).parkAt + 16, (s.ctxAt a).parkAt + 16 + L) ∈ (v.coreAt c).stall ∧
        ∀ w ∈ (s.coreAt c).stall, s.now < w.2 → w ∈ (v.coreAt c).stall) ∧ v.mem = s.mem)

/-! ### Launches, the network, the host, the firmware and the package (R177-R196, R268-R282, R347-R409) -/

/-- R180, R182, R183, R184, R281, R347, R348, R349, R370, R371. At a quantum boundary, served once, the queues age and the scheduler begins
a pass over them; between boundaries it goes on with the pass one line part at a time. A queue's turn reads its next record; a record that
fails a check, in the order of the table, has a completion record with the status of that check to be written, and starts nothing; one that
passes is dispatched, or waits where no run is free. A completion record is written at `done`, its bytes as R184 lays them out, and the queue
goes on; of one that does not translate nothing is written, and bit 7 is set. A team that starts has context 0 of each core running at the
entry, and no other. A launch that is done ends: its cores are released and its completion record is written. A quiet team whose stores have
been performed is saved, and a pass fills what is free; a restored one starts with rotation 15, an empty buffer and its monitors
triggered. The Blotter zeroes a frame that is owed line by line, raising each
version once, and after the last line the frame is in the pool. A probe that comes back confirms a cycle, which moves one packet on
around it. The model's choices: the boundaries, and that the device reads and writes part by part in steps of its own (log 40, 42), what a
stop waits for and what follows it (log 43), what a restore clears (log 44), that the accesses of a complete team go on (log 26), a scrubbed
sector that reads 0 under every key (log 59), the numbers of the routers (log 52). -/
def Obligations.LaunchEvents : Prop :=
  ∀ (s : State),
    let recAt := fun (s : State) (vf : Nat) (r : DoneRec) (n : Nat) (x : Xlat) =>
      r.done.toNat % 256 + 32 ≤ 256 ∧ r.done.toNat + 32 ≤ 2 ^ 52 ∧ s.reachFor vf r.done.toNat { wr := true, size := 32 } = .ok (n, x) ∧
      s.slotFree n = true ∧ s.accepts vf r.done.toNat n none = true ∧ x.tgt ≠ 2 ∧
      s.takesLine n r.done.toNat (physKey x) (s.keyFor vf x) = true
    let goesOn := fun (s t : State) (vf q : Nat) (r : DoneRec) =>
      (t.queueAt vf q).head = (s.queueAt vf q).head + 1 ∧ (t.queueAt vf q).busy = none ∧ (t.queueAt vf q).ending = none ∧
      (r.irq = true → (t.vfAt vf).irqstat.getLsbD 0 = true)
    let written := fun (s t : State) (vf q : Nat) (r : DoneRec) (x : Xlat) => goesOn s t vf q r ∧
      ∀ p i, i < 256 → t.lineByte (s.keyFor vf x) p i =
        if p = physKey x ∧ r.done.toNat % 256 ≤ i ∧ i < r.done.toNat % 256 + 32 then
          (toBytes 4 r.status ++ toBytes 4 r.n.1 ++ toBytes 4 r.n.2.1 ++ toBytes 4 r.n.2.2 ++ toBytes 8 s.now ++ toBytes 4 r.failt ++
            toBytes 4 0).getD (i - r.done.toNat % 256) 0
        else s.lineByte (s.keyFor vf x) p i
    (∀ vf : Nat,
      let v := s.vfAt vf
      (s.boundary vf = true ↔ v.live = true ∧ v.rst = none ∧ v.quantum ≠ 0 ∧ s.cyc.toNat % v.quantum.toNat = 0 ∧ v.lastQ ≠ some s.now) ∧
      (s.boundary vf = true → ∃ t, exec (.schedulerQuantum vf) s = .next t ∧ (t.vfAt vf).lastQ = some s.now ∧ (t.vfAt vf).pass.isSome = true ∧
        t.launches = s.launches ∧ t.teams = s.teams ∧ t.ctxs = s.ctxs ∧ t.mem = s.mem ∧
        ∀ q, let x := s.queueAt vf q
          (x.open_ = false → t.queueAt vf q = x) ∧
          (x.open_ = true → t.queueAt vf q = { x with waited := if x.seen = true then x.waited + 1 else 0, seen := true })) ∧
      (s.boundary vf = false → v.pass = none → v.preps = [] → (∀ q, (s.queueAt vf q).ending = none) →
        exec (.schedulerQuantum vf) s = .next s) ∧
      (∀ q qs again, s.boundary vf = false → v.live = true → v.preps = [] → (∀ i, (s.queueAt vf i).ending = none) →
        let x := s.queueAt vf q
        let now := fun (a : Option (Seek × DevAcc)) => { v with pass := some { queues := q :: qs, at_ := a, again } }
        (v.pass = some { queues := q :: qs, at_ := none, again } → x.busy = none →
          (x.open_ = false → exec (.schedulerQuantum vf) s = .next (s.setVf vf { v with pass := some { queues := qs, at_ := none, again } })) ∧
          (x.open_ = true → x.cont = none → exec (.schedulerQuantum vf) s = .next (s.setVf vf (now (some (.record,
            { va := (x.base + BitVec.ofNat 64 (64 * (x.head.toNat % 2 ^ x.log2))).toNat, n := 64 })))))) ∧
        (∀ k a n y, v.pass = some { queues := q :: qs, at_ := some (k, a), again } → x.open_ = true → a.hold = none → a.bad = false →
          let va := a.va + a.pos
          let len := min (256 - va % 256) (a.n - a.pos)
          va + len ≤ 2 ^ 52 → s.reachFor vf va { rd := true, size := len } = .ok (n, y) → s.slotFree n = true →
          s.accepts vf va n none = true → y.tgt ≠ 2 → y.addr % 256 = va % 256 → s.takesLine n va (physKey y) (s.keyFor vf y) = true →
          ∃ (u : State) (bs : List Byte), bs.length = len ∧ (∀ i < len, bs.getD i 0 = s.lineByte (s.keyFor vf y) (physKey y) (va % 256 + i)) ∧
            (∀ p i, i < 256 → u.lineByte (s.keyFor vf y) p i = s.lineByte (s.keyFor vf y) p i) ∧ u.vfs = s.vfs ∧
            exec (.schedulerQuantum vf) s = .next (if a.n ≤ a.pos + len then u.sought vf q k (some (a.got ++ bs))
              else u.setVf vf (now (some (k, { a with pos := a.pos + len, got := a.got ++ bs })))))) ∧
      (∀ q r b (l : Launch) (tb : Tabs), l.replay = none →
        let refuses := fun (r : LRec) (t : State) (status : Nat) =>
          (t.queueAt vf q).ending = some { recs := [DoneRec.mk r.done r.irq status (0, 0, 0) 0xFFFFFFFF], acc := { va := r.done.toNat, n := 32 } } ∧
          (t.queueAt vf q).busy = none ∧ t.launches = s.launches ∧ t.teams = s.teams ∧ t.ctxs = s.ctxs ∧ t.mem = s.mem
        (headerOk r b = false → refuses r (s.sought vf q (.header r none) (some b)) 2) ∧
        (parseGroups (16 * l.lrec.clusters) b = none → refuses l.lrec (s.sought vf q (.groups l tb) (some b)) 3) ∧
        (leAt b 0 4 = 0 ∨ 255 < leAt b 0 4 ∨ l.lrec.isize < tb.slot + 8 + 32 * leAt b 0 4 →
          refuses l.lrec (s.sought vf q (.streamCount l tb) (some b)) 4) ∧
        (parseStreams (16 * l.lrec.clusters) l.groups b = none → refuses l.lrec (s.sought vf q (.streams l tb) (some b)) 4) ∧
        (s.runsEver vf l.lrec.clusters ≠ [] → s.couldAdmit l l.lrec.clusters = false → refuses l.lrec (s.streamsRead vf q l tb) 4) ∧
        (leAt b 0 4 = 0 ∨ 65536 < leAt b 0 4 ∨ l.lrec.isize < tb.task + 8 + 16 * leAt b 0 4 →
          refuses l.lrec (s.sought vf q (.taskCount l tb) (some b)) 5) ∧
        (parseTasks (16 * l.lrec.clusters) l.hdr.wells b = none → refuses l.lrec (s.sought vf q (.tasks l) (some b)) 5) ∧
        (s.runsEver vf l.lrec.clusters = [] → refuses l.lrec (s.tasksRead vf q l) 6) ∧
        ((parseRec b).graph ≠ 0 → (s.graphAt vf (parseRec b).graph).count = 0 →
          refuses (parseRec b) (s.sought vf q .record (some b)) 8) ∧
        (s.runsEver vf l.lrec.clusters ≠ [] → l.vf = vf → l.queue = q →
          (∀ u, s.dispatch l = some u → let t := s.tasksRead vf q l
            t.launches = s.launches ++ [{ l with id := s.nid }] ∧ (t.queueAt vf q).busy = some s.nid ∧
            (t.queueAt vf q).head = (s.queueAt vf q).head ∧ ∃ x ∈ t.teams, x.launch = s.nid ∧ x.st = .starting) ∧
          (s.dispatch l = none → let t := s.tasksRead vf q l
            (t.queueAt vf q).want = some l.lrec.clusters ∧ (t.queueAt vf q).busy = (s.queueAt vf q).busy ∧ t.launches = s.launches) ∧
          (∀ f, l.lrec.teams ≠ 0 → l.streams = [] → (∀ x ∈ s.teams, x.launch ≠ s.nid) → f ∈ s.runsFor vf l.lrec.clusters →
            (∀ c ∈ State.runOf f l.lrec.clusters, s.teamOn c = none) → (s.dispatch l).isSome = true))) ∧
      (∀ q (r : DoneRec), s.boundary vf = false → v.live = true → q < 16 → (∀ i < q, (s.queueAt vf i).ending = none) →
        (s.queueAt vf q).ending = some { recs := [r], acc := { va := r.done.toNat, n := 32 } } →
        (∀ n x, recAt s vf r n x → ∃ t, exec (.schedulerQuantum vf) s = .next t ∧ written s t vf q r x) ∧
        (∀ e, r.done.toNat % 256 + 32 ≤ 256 → r.done.toNat + 32 ≤ 2 ^ 52 →
          s.reachFor vf r.done.toNat { wr := true, size := 32 } = .error (some e) →
          ∃ t, exec (.schedulerQuantum vf) s = .next t ∧ goesOn s t vf q r ∧ (t.vfAt vf).irqstat.getLsbD 7 = true ∧ t.mem = s.mem))) ∧
    (∀ (l : Launch) (t : Team) (p : Prep), t.cores.Nodup → let u := s.startTeam l t p
      ∀ c ∈ t.cores, (u.ctxAt (16 * c)).life = .running ∧ (u.ctxAt (16 * c)).priv = .u ∧
        (u.ctxAt (16 * c)).pc = (l.lrec.image + BitVec.ofNat 64 l.hdr.entry) &&& ~~~3#64 ∧
        (∀ n, 0 < n → n < 16 → u.ctxAt (16 * c + n) = {}) ∧ (u.coreAt c).pblock = l.lrec.params ∧
        ∀ n, let x := u.slotAt c n
          (l.hdr.wells ≤ n → x = {}) ∧
          (n < l.hdr.wells → x.st = .attached ∧ x.well = 64 * (c / 16) + c % 16 * l.hdr.wells + n ∧ x.rd = true ∧ x.wr = true ∧
            x.exch = decide (l.hdr.wells - l.hdr.xwells ≤ n))) ∧
    (∀ l, s.launchAt l.id = some l → s.launchDone l = true → let u := s.launchGone l.id
      ∃ t, exec (.launchEnd l.id) s = .next t ∧
      u.launches = s.launches.filter (fun x => x.id != l.id) ∧ u.teams = s.teams.filter (fun x => x.launch != l.id) ∧
      t.launches = u.launches ∧ t.teams = u.teams ∧
      (∀ x ∈ s.teams, x.launch = l.id → x.onDevice = true → ∀ c ∈ x.cores, ∀ n, t.slotAt c n = {}) ∧
      (l.replay = none →
        let r := DoneRec.mk l.lrec.done l.lrec.irq l.status (l.ntdone, l.ncanc, l.nunder) (l.failt.getD 0xFFFFFFFF)
        (∀ n x, recAt u l.vf r n x → written u t l.vf l.queue r x) ∧
        (∀ n x, r.done.toNat + 32 ≤ 2 ^ 52 → u.reachFor l.vf r.done.toNat { wr := true, size := min (256 - r.done.toNat % 256) 32 } = .ok (n, x) →
          u.slotFree n = false → (t.queueAt l.vf l.queue).ending = some { recs := [r], acc := { va := r.done.toNat, n := 32 } } ∧
            (t.queueAt l.vf l.queue).head = (s.queueAt l.vf l.queue).head ∧ t.mem = u.mem))) ∧
    (∀ x : Team, s.teams.filter (fun t => [x.id].contains t.id) = [x] →
      (s.quiet x = false ∨ s.swept x = false ∨ s.resetting x = true → exec (.synchronizedStop [x.id]) s = .next s) ∧
      (s.quiet x = true → s.swept x = true → s.resetting x = false →
      let mine := fun (a : Nat) => x.cores.contains (a / 16)
      let t := s.saveTeam x
      exec (.synchronizedStop [x.id]) s = .next (t.afterStop [x]) ∧ (x.revoked = true → t.afterStop [x] = t) ∧
      let gone := s.teamDone x = true ∧ ∀ l, s.launchAt x.launch = some l → State.tasksDone l x = true
      ∃ sv, (∀ u ∈ t.teams, u.id = x.id → u.saved = some sv ∧ u.resv = [] ∧ (gone → u.st = .complete) ∧ (¬ gone → u.st = .saved)) ∧
        (∀ a, t.ctxAt a = if mine a then {} else s.ctxAt a) ∧
        (¬ gone → (∀ o ∈ t.ops, mine o.ctx = false) ∧ sv.ops = s.ops.filter (fun o => mine o.ctx) ∧
          t.sb = s.sb.map (fun e => if mine e.ctx then { e with ctx := State.awayCtx x e.ctx } else e)) ∧
        (gone → sv.ops = [] ∧ ∀ o ∈ s.ops, mine o.ctx = false → o ∈ t.ops) ∧
        sv.first = x.first ∧ sv.pool = !x.revoked ∧ sv.at_ = s.now ∧
        (∀ c ∈ x.cores, ∀ p ∈ (s.coreAt c).slots, p.2.st ≠ .detached → (t.bankAt p.2.well).bound = false))) ∧
    (∀ (x : Team) (l : Launch) (sv : Saved), s.teams.find? (fun t => t.id == x.id) = some x → x.saved = some sv →
      s.launchAt x.launch = some l → x.st = .restoring → s.resetting x = false →
      (∀ r ∈ (s.vfAt l.vf).answers, r.team = some x.id → r.late = false) →
      let m : Moving := { old := { x with first := sv.first }, new := x }
      let t := s.putBack l x sv
      (sv.ctxs.map (fun p => m.ctx p.1)).Nodup → (sv.cores.map (fun p => m.core p.1)).Nodup →
      exec (.teamRestore x.id) s = .next (t.makeRoom l.vf) ∧ (t.makeRoom l.vf).ctxs = t.ctxs ∧
        (∀ u ∈ t.teams, u.id = x.id → u.st = .resident ∧ u.saved = none ∧ u.since = s.now) ∧
        (∀ p ∈ sv.ctxs, t.ctxAt (m.ctx p.1) = p.2.restored s.now ∧
          ∀ z ∈ (t.ctxAt (m.ctx p.1)).mon, z.2.used = true → z.2.trig = true) ∧
        (∀ p ∈ sv.cores, t.coreAt (m.core p.1) = (m.coreState p.2).restarted s.now (s.vfAt l.vf).mapgen ∧
          (t.coreAt (m.core p.1)).rot = 15 ∧ (t.coreAt (m.core p.1)).ibuf = [] ∧ (t.coreAt (m.core p.1)).kinds = [])) ∧
    (∀ f, s.pkg.owed.any (fun (a, b, _) => a ≤ f && f < b) = true →
      let p := 2 * (f * 256 + Tbl.get 0 s.pkg.scrub f)
      ∃ t, exec (.frameScrub f) s = .next t ∧
        (∀ key pk i, i < 256 →
          (pk = p → t.lineByte key pk i = 0 ∧ t.version pk = s.version pk + 1) ∧
          (pk ≠ p → t.lineByte key pk i = s.lineByte key pk i ∧ (pk % 2 = 0 → t.version pk = s.version pk))) ∧
        (Tbl.get 0 s.pkg.scrub f = 255 → (∀ v ∈ s.vfs, v.2.carve = []) →
          t.pkg.owed.any (fun (a, b, _) => a ≤ f && f < b) = false)) ∧
    (∀ b, s.stalled b = false → exec (.deadlockProbe b) s = .next s) ∧
    (∀ b c, s.probe b (s.net.rbufs.length + 1) b [] = some c → (∀ d ∈ s.net.cycles, ∀ x ∈ d, x ∉ c) →
      ∃ t, exec (.deadlockProbe b) s = .next t ∧ t.net.cycles = s.net.cycles ++ [c] ∧
        ∀ r ∈ c.map routerOf, ∀ n ∈ slicesOf r, (t.sliceAt n).recov = true) ∧
    (∀ c rest, s.net.cycles = c :: rest → c.Nodup → ∃ t, exec .deadlockRecoveryStep s = .next t ∧ t.net.cycles = rest ∧
      (∀ i < c.length, (t.net.buf (c.getD i 0)).packets =
        (s.net.buf (c.getD i 0)).packets.drop 1 ++
          ((s.net.buf (c.getD ((i + c.length - 1) % c.length) 0)).packets.head?.map Packet.moved).toList ∧
        (t.net.buf (c.getD i 0)).since = s.now) ∧
      ∀ r ∈ c.map routerOf, ∀ n ∈ slicesOf r,
        (t.sliceAt n).recov = rest.any (fun d => d.any (fun b => (slicesOf (routerOf b)).contains n)))

/-- R34, R196, R281, R362, R368, R369, R372, R373, R375, R376, R377, R379. What the host and a peer package do, and what an NI does with
a refused request. Apertures read and write the memory of their region, under its key, and nothing else; an access whose slice is busy or
refuses it is held by its link, and what the host does for a function comes after what the link holds of it; the register window reads
as written under its fields; a doorbell sets its bit; launch queues, graphs, carve-outs and interrupt bits follow the rules; a refused
request may go again. An access by Itnik address is the event of its region, register or command, and one of the coherent aperture that
crosses lines goes part by part. The model's choices: the bits that a register drops, and the event that a write of a register is (log 46),
the carve-outs that wait (log 45), the bounds of the memories and whose bit 7 it is (log 49), graph commands that wait, start at any value written, or are ignored (log 48), the answer
to a peer (log 32), the lists of the links (log 33). -/
def Obligations.HostEvents : Prop :=
  ∀ (s : State) (vf : Nat) (v : Word) (q : HostAcc) (p : PeerAcc),
    let f := s.vfAt vf
    let n := q.len
    let failed := fun (t : State) => (t.vfAt q.vf).irqstat.getLsbD 7 = true ∧ t.mem = s.mem ∧
      t.hostRd = s.hostRd ++ (if q.wr = none then [(q.addr, List.replicate q.size 0xFF)] else [])
    let links := fun (a : Outside) (t : State) (k : Nat) => ∃ h : Held, t.held = s.held ++ [h] ∧ h.acc = a ∧ h.slice = k ∧
      h.refused = true ∧ h.again = false ∧ h.at_ = s.now ∧ t.mem.lines = s.mem.lines ∧ t.mem.hbm = s.mem.hbm ∧ t.hostRd = s.hostRd ∧
      t.peerRd = s.peerRd
    let joined := (hostParts q).map HostAcc.len
    ((∀ x ∈ hostParts q, oneLine x.addr x.len = true ∧ 0 < x.len ∧ x.vf = q.vf) ∧ joined.sum = n ∧
      (∀ i x, (hostParts q)[i]? = some x → x.addr = q.addr + (joined.take i).sum) ∧
      (∀ bs, q.wr = some bs → (hostParts q).flatMap (fun x => x.wr.getD []) = bs) ∧ (q.wr = none → ∀ x ∈ hostParts q, x.wr = none)) ∧
    (let direct := fun (i : Instr) (tier : Bool) (key base lim top : Nat) =>
      let lo := base + q.addr
      (lim < q.addr + n ∨ top < lo + n → ∃ t, exec i s = .next t ∧ failed t) ∧
      (q.addr + n ≤ lim → lo + n ≤ top → q.wr = none → exec i s = .next (s.giveHost q.addr (s.mem.readUnder tier key lo q.size))) ∧
      (∀ bs, q.addr + n ≤ lim → lo + n ≤ top → q.wr = some bs → ∃ t, exec i s = .next t ∧ t.mem.vers = s.mem.vers ∧
        t.mem.lines = s.mem.lines ∧ t.mem.wells = s.mem.wells ∧ t.mem.area (!tier) = s.mem.area (!tier) ∧ t.ctxs = s.ctxs ∧
        (∀ a, t.mem.byteUnder tier key a = if lo ≤ a ∧ a < lo + bs.length then bs.getD (a - lo) 0 else s.mem.byteUnder tier key a) ∧
        (∀ k a, (∀ j < bs.length, (lo + j) / 64 ≠ a / 64) → t.mem.byteUnder tier k a = s.mem.byteUnder tier k a));
    (64 ≤ q.vf ∨ s.linkHolds q.vf = true → ∀ i ∈ [Instr.hostCoherentAccess q, .hostRawAccess q, .hostTierAccess q, .hostAccessToNoRegion q],
      exec i s = .next s) ∧
    (q.vf < 64 → s.linkHolds q.vf = false →
      (q.addr < 2 ^ 32 ∨ 2 ^ 52 < q.addr + n → ∃ t, exec (.hostCoherentAccess q) s = .next t ∧ failed t) ∧
      (2 ^ 32 ≤ q.addr → q.addr + n ≤ 2 ^ 52 →
        exec (.hostCoherentAccess q) s = .next ((hostParts q).foldl (fun u x => u.enters (.host x)) s) ∧
        (∀ x y, hostParts q = [x, y] → s.linkReach q.vf x.addr { rd := x.wr.isNone, wr := x.wr.isSome, size := x.len } none = .error .busy →
          exec (.hostCoherentAccess q) s = .next { s with held := s.held ++ [{ acc := .host x }, { acc := .host y }] }) ∧
        (oneLine q.addr n = true → 0 < n →
          let r := s.linkReach q.vf q.addr { rd := q.wr.isNone, wr := q.wr.isSome, size := n } none
          (∀ k x, r = .ok (k, x) →
            (∀ bs, q.wr = some bs →
              exec (.hostCoherentAccess q) s = .next ((s.writeGlobal k q.vf q.addr (bs.map some) x).admitted k none)) ∧
            (∀ u bs, q.wr = none → s.readGlobal k q.vf q.addr q.size x = (u, bs) →
              exec (.hostCoherentAccess q) s = .next ((u.giveHost q.addr bs).admitted k none))) ∧
          (r = .error .busy → exec (.hostCoherentAccess q) s = .next { s with held := s.held ++ [{ acc := .host q }] }) ∧
          (∀ k, r = .error (.refused k) → ∃ t, exec (.hostCoherentAccess q) s = .next t ∧ links (.host q) t k) ∧
          (∀ u, r = .error (.fails u) → ∃ t, exec (.hostCoherentAccess q) s = .next t ∧ failed t))) ∧
      direct (.hostRawAccess q) false (s.vfAt q.vf).key (s.vfAt q.vf).segb.toNat (s.vfAt q.vf).segn.toNat hbmBytes ∧
      direct (.hostTierAccess q) true noKey 0 s.pkg.tierSize s.pkg.tierSize ∧
      ((∀ r, regionOf q.addr = some r → r.takes n = false) → ∃ t, exec (.hostAccessToNoRegion q) s = .next t ∧ failed t))) ∧
    (let a := q.addr
      let w := fun (bs : List Byte) => BitVec.ofNat 64 (ofBytes bs)
      let dev := fun (k : Nat) => 2 ^ 60 * k ≤ a ∧ a < 2 ^ 60 * k + 64 * 2 ^ 52;
      s.takeTurn (.link q) = s.linkAccess q ∧
      ((a < 0x40000 ∨ (0x40000 ≤ a ∧ a < 0x41000)) → n ≠ 8 ∨ a % 8 ≠ 0 →
        s.linkAccess q = exec (.hostAccessToNoRegion { q with vf := if a < 0x40000 then a / 0x1000 else q.vf }) s) ∧
      (n = 8 → a % 8 = 0 →
        (a < 0x40000 → (∀ bs, q.wr = some bs → s.linkAccess q = windowWrite (a / 0x1000) (a % 0x1000) (w bs) s) ∧
          (q.wr = none → s.linkAccess q = if a % 0x1000 = 0xC0 then exec (.prq (a / 0x1000)) s
            else .next (s.giveHost a (toBytes 8 (s.readWindow (a / 0x1000) (a % 0x1000)).toNat)))) ∧
        (0x40000 ≤ a → a < 0x41000 → (q.wr = none → s.linkAccess q = .next (s.giveHost a (toBytes 8 (s.readFirmware (a % 0x1000)).toNat))) ∧
          (∀ bs, q.wr = some bs → s.linkAccess q = if a % 0x1000 = 0x008 then commandWrite (w bs) s
            else exec (.registerWindowWrite 64 (a % 0x1000) (w bs)) s))) ∧
      (dev 1 → 2 ^ 32 ≤ a % 2 ^ 52 → s.linkAccess q = exec (.hostCoherentAccess { q with vf := a / 2 ^ 52 % 256, addr := a % 2 ^ 52 }) s) ∧
      (dev 2 → s.linkAccess q = exec (.hostRawAccess { q with vf := a / 2 ^ 52 % 256, addr := a % 2 ^ 52 }) s) ∧
      (2 ^ 60 * 3 ≤ a → a < 2 ^ 62 → s.linkAccess q = exec (.hostTierAccess { q with addr := a - 2 ^ 60 * 3 }) s) ∧
      (0x41000 ≤ a → ¬ (dev 1 ∧ 2 ^ 32 ≤ a % 2 ^ 52) → ¬ dev 2 → a < 2 ^ 60 * 3 ∨ 2 ^ 62 ≤ a →
        s.linkAccess q = exec (.hostAccessToNoRegion q) s)) ∧
    (let goes := fun (off : Nat) (i : Instr) => windowWrite vf off v s = exec i s;
      goes 0x018 (.quantumWrite vf v) ∧ goes 0x020 (.sdoor vf v) ∧ goes 0x030 (.reset vf v) ∧ goes 0x048 (.carveoutWrite vf false v) ∧
      goes 0x050 (.carveoutWrite vf true v) ∧ goes 0x090 (.sdgo vf v) ∧ goes 0x0B0 (.mvgo vf v) ∧ goes 0x0C8 (.prans vf v) ∧ goes 0x0E0 (.gpgo vf v) ∧
      goes 0x0F0 (.gdef vf v) ∧ goes 0x308 (.irqstatClear vf v) ∧
      (∀ k : Fin 16, goes (0x118 + 32 * k.val) (.qtail vf k v) ∧
        goes (0x108 + 32 * k.val) (if v.getLsbD 10 = true then .qctlResume vf k v else .registerWindowWrite vf (0x108 + 32 * k.val) v) ∧
        goes (0x100 + 32 * k.val) (.registerWindowWrite vf (0x100 + 32 * k.val) v)) ∧
      ∀ off ∈ [0x000, 0x008, 0x010, 0x028, 0x040, 0x058, 0x060, 0x080, 0x088, 0x0A0, 0x0A8, 0x0D0, 0x0D8, 0x0E8, 0x300],
        goes off (.registerWindowWrite vf off v)) ∧
    (let a := s.pkg.fwarg0
      let b := s.pkg.fwarg1
      let c := s.pkg.fwarg2
      let goes := fun (code : Nat) (i : Instr) => commandWrite (BitVec.ofNat 64 code) s = exec i s;
      goes 1 (.createFunction a b c) ∧ goes 2 (.addCluster a b c) ∧ goes 3 (.removeCluster a b c) ∧ goes 4 (.addSlice a b c) ∧
      goes 5 (.writeHashMask a b c) ∧ goes 6 (.lendCluster a b c) ∧ goes 7 (.revokeLentCluster a b c) ∧ goes 8 (.bindExport a b c) ∧
      goes 9 (.destroyFunction a b c) ∧ goes 10 (.clearBootRecord a b c) ∧ goes 11 (.attestationReport a b c) ∧
      (v = 0 ∨ 11 < v.toNat → commandWrite v s = exec (.unlistedCommand v) s)) ∧
    (s.pkg.boot = .up →
      (∃ t, exec (.registerWindowWrite 64 0x010 v) s = .next t ∧ t.readFirmware 0x010 = v ∧ t.pkg.fwstat = s.pkg.fwstat) ∧
      (∃ t, exec (.registerWindowWrite 64 0x018 v) s = .next t ∧ t.readFirmware 0x018 = v ∧ t.pkg.fwstat = s.pkg.fwstat) ∧
      (∃ t, exec (.registerWindowWrite 64 0x020 v) s = .next t ∧ t.readFirmware 0x020 = v ∧ t.pkg.fwstat = s.pkg.fwstat)) ∧
    (s.pkg.boot ≠ .up → exec (.registerWindowWrite 64 0x010 v) s = .next s) ∧
    (vf < 64 → s.linkHolds vf = false →
    (∀ off ∈ [0x010, 0x060, 0x080, 0x088, 0x0A0, 0x0A8, 0x0D0, 0x0D8, 0x300], ∃ t,
      exec (.registerWindowWrite vf off v) s = .next t ∧ t.readWindow vf off = v ∧ t.mem = s.mem ∧ t.ctxs = s.ctxs) ∧
    (∃ t, exec (.registerWindowWrite vf 0x040 v) s = .next t ∧ t.readWindow vf 0x040 = v &&& 0x000FFFFFFFFFF000#64) ∧
    (∃ t, exec (.registerWindowWrite vf 0x058 v) s = .next t ∧ t.readWindow vf 0x058 = v &&& ~~~0xFFFF#64) ∧
    (∃ t, exec (.registerWindowWrite vf 0x028 v) s = .next t ∧ t.readWindow vf 0x028 = v &&& ~~~0xFFF#64) ∧
    (∃ t, exec (.registerWindowWrite vf 0x0E8 v) s = .next t ∧ t.readWindow vf 0x0E8 = v &&& ~~~63#64) ∧
    (∀ off ∈ [0x000, 0x008], exec (.registerWindowWrite vf off v) s = .next s) ∧
    (∃ t, exec (.registerWindowWrite vf 0x308 v) s = .next t ∧ t.readWindow vf 0x308 = s.readWindow vf 0x308 &&& ~~~v) ∧
    (∀ k < 16, let x := s.queueAt vf k
      (∃ t, exec (.registerWindowWrite vf (0x100 + 32 * k) v) s = .next t ∧
        t.queueAt vf k = if x.head = x.tail then { x with base := v &&& ~~~63#64 } else x) ∧
      (∃ t, exec (.registerWindowWrite vf (0x108 + 32 * k) v) s = .next t ∧ (t.queueAt vf k).prio = fieldOf v 4 2 ∧
        (t.queueAt vf k).enable = v.getLsbD 8 ∧ (t.queueAt vf k).frozen = x.frozen ∧
        (x.head = x.tail → 2 ≤ fieldOf v 0 4 → fieldOf v 0 4 ≤ 12 → (t.queueAt vf k).log2 = fieldOf v 0 4) ∧
        (x.head ≠ x.tail → (t.queueAt vf k).log2 = x.log2))) ∧
    (∃ t, exec (.quantumWrite vf v) s = .next t ∧ (t.readWindow vf 0x018).toNat = max 65536 (min v.toNat 0xFFFFFFFF)) ∧
    (∃ t, exec (.irqstatClear vf v) s = .next t ∧ t.readWindow vf 0x308 = s.readWindow vf 0x308 &&& ~~~v) ∧
    (let a := fieldOf v 0 15
      let named := a < 20480 ∧ (s.cluAt (a / 256)).owner ≠ none ∧ s.vfOfCore (a / 16) = vf
      (named → ∃ t, exec (.sdoor vf v) s = .next t ∧ (t.ctxAt a).kipP.getLsbD 0 = true ∧
        (∀ b, b ≠ a → t.ctxAt b = s.ctxAt b) ∧ t.vfs = s.vfs) ∧
      (¬ named → ∃ t, exec (.sdoor vf v) s = .next t ∧ (t.vfAt vf).irqstat.getLsbD 7 = true ∧ t.ctxs = s.ctxs)) ∧
    (∀ bound : Bool,
      let w := v &&& ~~~0xFFFF#64
      let y := f.carved bound w
      (f.carve ≠ [] ∨ s.carveWaits vf y = true → ∃ t, exec (.carveoutWrite vf bound v) s = .next t ∧
        t.vfAt vf = { f with carve := f.carve ++ [(bound, w)] } ∧ (t.wstat vf).getLsbD 5 = true) ∧
      (f.carve = [] → s.carveWaits vf y = false → ∃ t, exec (.carveoutWrite vf bound v) s = .next t ∧
        t.vfAt vf = y ∧ (t.wstat vf).getLsbD 5 = false ∧
        ∀ n, f.frames.1 ≤ n → n < f.frames.2 → ¬ (y.frames.1 ≤ n ∧ n < y.frames.2) →
          t.pkg.owed.any (fun (a, b, g) => a ≤ n && n < b && g == vf) = true)) ∧
    (∀ k : Fin 16, let x := s.queueAt vf k.val
      (2 ^ x.log2 < ((v.setWidth 32 : BitVec 32) - x.head).toNat → exec (.qtail vf k v) s = .next s) ∧
      (((v.setWidth 32 : BitVec 32) - x.head).toNat ≤ 2 ^ x.log2 → ∃ t, exec (.qtail vf k v) s = .next t ∧
        t.queueAt vf k.val = { x with tail := v.setWidth 32 }) ∧
      (v.getLsbD 10 = true → ∃ t, exec (.qctlResume vf k v) s = .next t ∧ (t.queueAt vf k.val).frozen = false ∧
        (t.queueAt vf k.val).head = x.head ∧ (t.queueAt vf k.val).tail = x.tail)) ∧
    (let m := f.gpnum.toNat;
      (s.graphAt vf m).count ≠ 0 ∨ f.pendFor m = true →
      (f.pend ≠ [] ∨ s.patchWaits vf m = true → ∃ t, exec (.gpgo vf v) s = .next t ∧
        (t.vfAt vf).pend = f.pend ++ [.patch m f.gpaddr] ∧ t.graphAt vf m = s.graphAt vf m ∧ (t.wstat vf).getLsbD 3 = true) ∧
      (f.pend = [] → s.patchWaits vf m = false → ∃ t, exec (.gpgo vf v) s = .next t ∧
        (t.graphAt vf m).cur = (s.graphAt vf m).cur + 1 ∧
        Tbl.get 0 (t.graphAt vf m).gens ((s.graphAt vf m).cur + 1) = f.gpaddr ∧ (t.vfAt vf).irqstat.getLsbD 5 = true)) ∧
    (let m := fieldOf v 0 8
      let c := fieldOf v 8 8
      let g : Graph := { base := f.gdbase, count := c, cur := 1, gens := Tbl.set 0 [] 1 f.gpaddr };
      m ≠ 0 → 0 < c → c ≤ 64 →
      (s.replayLive vf m = true ∨ f.pendFor m = true → ∃ t, exec (.gdef vf v) s = .next t ∧
        (t.vfAt vf).pend = f.pend ++ [.define m g] ∧ t.graphAt vf m = s.graphAt vf m) ∧
      (s.replayLive vf m = false → f.pendFor m = false → ∃ t, exec (.gdef vf v) s = .next t ∧ t.graphAt vf m = g ∧
        (t.vfAt vf).pend = f.pend))) ∧
    (∀ m a xs, f.pend = .patch m a :: xs → s.patchWaits vf m = false → ∃ t, exec (.patchTaken vf) s = .next t ∧
      (t.vfAt vf).pend = xs ∧ Tbl.get 0 (t.graphAt vf m).gens ((s.graphAt vf m).cur + 1) = a ∧
      (t.vfAt vf).irqstat.getLsbD 5 = true) ∧
    (∀ m g xs, f.pend = .define m g :: xs → s.replayLive vf m = false → ∃ t, exec (.patchTaken vf) s = .next t ∧
      (t.vfAt vf).pend = xs ∧ t.graphAt vf m = g) ∧
    (∀ op part core r, s.holder op part = some core → r ∈ (s.coreAt core).refu →
      let due := fun (r : Refused) => r.isOf op part && r.gen.isNone && !r.permit && !r.again && decide (r.at_ + 1024 ≤ s.now)
      due r = true → ∃ t, exec (.noresHoldExpiry op part) s = .next t ∧ t.mem = s.mem ∧
        (t.coreAt core).refu = (s.coreAt core).refu.map (fun r => if due r then { r with again := true } else r)) ∧
    (∀ k, let x := s.sliceAt k
      let live := x.kept.filter (fun y => decide (s.now < y.2))
      let free := x.freed + (x.kept.length - live.length)
      let last := if x.full = true ∧ free = 0 then some (s.now / 2) else x.last;
      (x.recov = true → exec (.retryPermit k) s = .next s) ∧
      (x.full = true → free = 0 → s.slotFree k = false → exec (.retryPermit k) s = .next s) ∧
      (x.recov = false → x.full = false ∨ 0 < free ∨ s.slotFree k = true →
        (x.permits = [] → x.full = true → exec (.retryPermit k) s = .next (s.setSlice k { x with full := false, kept := live, freed := 0, last })) ∧
        (∀ ni rest, x.permits = ni :: rest → ∃ t, exec (.retryPermit k) s = .next t ∧
          t.sliceAt k = { x with permits := rest, kept := live ++ [(ni, s.now + 512)], freed := free - 1, last } ∧
          (ni < hostNi → t.held = s.held ∧ t.vfs = s.vfs ∧ (t.coreAt ni).refu = (s.coreAt ni).refu.map (fun r =>
            if r.slice = k ∧ r.gen = none then { r with again := true } else r)) ∧
          (ni = devNi → t.held = s.held ∧ t.cores = s.cores ∧ t.vfs = s.vfs.map (fun y => (y.1, y.2.mapAcc (fun a => a.permit k)))) ∧
          (hostNi ≤ ni → ni ≠ devNi → t.cores = s.cores ∧ t.vfs = s.vfs ∧ t.held = s.held.map (fun h =>
            if h.acc.ni = ni ∧ h.slice = k ∧ h.gen = none then { h with again := true } else h))))) ∧
    (∀ core r g, r ∈ (s.coreAt core).refu → r.gen = some g → r.again = false → genReached (s.coreAt core).mapgen g = true →
      ∃ t, exec (.genReplay core) s = .next t ∧ { r with again := true } ∈ (t.coreAt core).refu ∧
        (∀ x ∈ (s.coreAt core).refu, x.gen = none → x ∈ (t.coreAt core).refu) ∧ t.mem = s.mem) ∧
    (oneLine p.va p.req.len = false ∨ s.pkg.ports = [] → exec (.peerRequest p) s = .next s) ∧
    (oneLine p.va p.req.len = true → s.pkg.ports ≠ [] →
      let a := Outside.peer p
      (s.held.any (fun g => a.behind g.acc) = true → exec (.peerRequest p) s = .next { s with held := s.held ++ [{ acc := a }] }) ∧
      (s.held.any (fun g => a.behind g.acc) = false →
        ((∀ x ∈ s.pkg.exports, ¬ (x.1 = p.pkg ∧ x.2.1 = p.pvf)) → exec (.peerRequest p) s = .next (s.givePeer p.va none)) ∧
        (∀ l, s.pkg.exports.find? (fun x => x.1 == p.pkg && x.2.1 == p.pvf) = some (p.pkg, p.pvf, l) →
          let r := s.linkReach l p.va (peerAcc p.req) none
          (∀ k x u bs, r = .ok (k, x) → s.peerDo k l p.va x p.req = (u, bs) →
            exec (.peerRequest p) s = .next ((u.givePeer p.va (some bs)).admitted k none)) ∧
          (r = .error .busy → exec (.peerRequest p) s = .next { s with held := s.held ++ [{ acc := a }] }) ∧
          (∀ k, r = .error (.refused k) → ∃ t, exec (.peerRequest p) s = .next t ∧ links a t k) ∧
          (∀ u, r = .error (.fails u) → exec (.peerRequest p) s = .next (u.givePeer p.va none)))))

/-- R230, R274, R275, R277, R278, R280, R360. Shoot-downs, page moves and page requests, each after what the host's link holds of the
function: at the start of a shoot-down no NI of the partition keeps a pointer or a leaf of the range, its generation has moved on, the
partition's monitors of the range are triggered and no byte of memory has changed; a line that moves keeps its bytes and takes a version
above both; a refused page request leaves its held accesses a plain fault, also those of a team that is saved, and a resolved one gives
its notice when they have been performed. The model's choices: that the entries are dropped when the shoot-down starts and its completion
is a later event, that an `mvgo` of any value starts a move and takes both places then, and that an `sdgo` while one runs, an `mvgo` while
a page moves, and one from or to a place that does not exist, are ignored (log 48); which monitors an unmapping triggers (log 21); an
answer to a request whose fault has been taken to S (log 38). -/
def Obligations.MaintenanceEvents : Prop :=
  ∀ (s : State) (vf : Nat) (v : Word),
    let f := s.vfAt vf
    let backed := ∀ pk l, s.lineOf pk = some l → ∀ i < 256, l.written i = false → l.holds i = true → l.byte i = s.backing l.key pk i
    let host := vf < 64 ∧ s.linkHolds vf = false
    (¬ host → ∀ i ∈ [Instr.sdgo vf v, .mvgo vf v, .prq vf, .prans vf v], exec i s = .next s) ∧
    (v ≠ 1 ∨ f.sdRun ≠ none → exec (.sdgo vf v) s = .next s) ∧
    (f.move ≠ none ∨ s.frameOk vf f.mvframe = false → exec (.mvgo vf v) s = .next s) ∧
    (host → v = 1 → f.sdRun = none → let lo := f.sdbase.toNat / 65536
      let n := f.sdcount.toNat
      ∃ t, exec (.sdgo vf v) s = .next t ∧ (t.vfAt vf).sdRun = some (lo, n) ∧ (t.wstat vf).getLsbD 1 = true ∧
        (∀ k < 128, (s.sliceAt k).owner = some vf → (t.sliceAt k).gen = (s.sliceAt k).gen + 1 ∧
          ∀ e ∈ (t.sliceAt k).tc, e.vf = vf → e.covers lo n = false) ∧
        (∀ a, s.vfOfCore (a / 16) = vf → ∀ m ∈ (t.ctxAt a).mon, m.2.used = true → m.2.reg = true →
          pageIn lo n (m.2.line * 256) = false) ∧
        (backed → ∀ key pk i, i < 256 → (∀ l, s.lineOf pk = some l → l.key = key) → t.lineByte key pk i = s.lineByte key pk i) ∧ t.mem.vers = s.mem.vers) ∧
    (f.sdRun ≠ none → ∃ t, exec (.shootDownComplete vf) s = .next t ∧ (t.vfAt vf).sdRun = none ∧
      (t.vfAt vf).irqstat.getLsbD 3 = true ∧ t.mem = s.mem) ∧
    (let page := f.mvpage.toNat / 65536 % 2 ^ 36
      ∀ lvl e path x, host → f.move = none → s.walkRoot vf (page * 65536) = .ok ((lvl, e) :: path) →
        useLeaf f (page * 65536) { size := 65536 } e (lvl == 2) [] = .ok x →
      (2 ≤ x.tgt ∨ s.inMemory x 65536 = false → exec (.mvgo vf v) s = .next s) ∧
      (s.frameOk vf f.mvframe = true → x.tgt < 2 → s.inMemory x 65536 = true →
        ∃ t m, exec (.mvgo vf v) s = .next t ∧ (t.vfAt vf).move = some m ∧ m.page = page ∧ m.src = physKey x ∧
          m.tgt = fieldOf f.mvframe 10 2 ∧ m.dst = s.framePlace vf f.mvframe ∧
          (m.tgt = 0 ∨ m.tgt = 3 → m.dst + 65536 ≤ hbmBytes) ∧ (m.tgt = 1 → m.dst + 65536 ≤ s.pkg.tierSize) ∧
          (∀ l, l ∈ m.lines ↔ 256 * page ≤ l ∧ l < 256 * page + 256) ∧ t.mem = s.mem)) ∧
    (∀ m line, f.move = some m → m.lines.contains line = true →
      let rest := m.lines.filter (fun l => l != line)
      let i := line - 256 * m.page
      let y : Xlat := { tgt := m.tgt, peer := 0, addr := m.dst + 256 * i, kind := .rc, path := [] }
      let old := m.src + 2 * i
      let new := physKey y
      s.lineOf new = none → new ≠ old → ∃ t, exec (.lineMove vf line) s = .next t ∧
        (t.vfAt vf).move = some { m with lines := rest } ∧ t.lineOf old = none ∧
        (∀ i < 256, t.lineByte (if m.tgt = 3 then s.pkg.ckey else f.key) new i = s.lineByte f.key old i) ∧
        (new % 2 = 0 → t.version new = (if old % 2 = 1 then s.version new else
          if (s.version old).toNat ≤ (s.version new).toNat then s.version new else s.version old) + 1) ∧
        (rest = [] → (t.vfAt vf).irqstat.getLsbD 4 = true)) ∧
    (host → ∃ t, exec (.prq vf) s = .next t ∧ t.mem = s.mem ∧ t.ops = s.ops ∧
      (f.prqs = [] → t = s.giveHost (0x1000 * vf + 0xC0) (List.replicate 8 0)) ∧
      (∀ r rs, f.prqs = r :: rs → (t.vfAt vf).prqs = rs ∧ (t.vfAt vf).asked = f.asked ++ [r] ∧
        t.hostRd = s.hostRd ++ [(0x1000 * vf + 0xC0, toBytes 8 r.word.toNat)])) ∧
    (∀ r, host → f.asked.find? (fun r => r.page % 2 ^ 36 == fieldOf v 16 36 && r.tok == fieldOf v 0 15) = some r →
      let taken := fun (os : List Op) => ∀ o ∈ os, o.ctx = r.ctx → ∀ p ∈ o.parts, p.st = .held → p.va / 65536 = r.page → p.deleg = false
      let named := fun (os : List Op) (ids : List Nat) => ∀ o ∈ os, o.ctx = r.ctx →
        (∃ p ∈ o.parts, p.st = .held ∧ p.deleg = true ∧ p.va / 65536 = r.page) → o.id ∈ ids
      ∃ t, exec (.prans vf v) s = .next t ∧ (t.vfAt vf).asked = f.asked.erase r ∧ t.mem = s.mem ∧
        (r.void = true → (t.vfAt vf).answers = f.answers ∧ t.ops = s.ops ∧ t.teams = s.teams) ∧
        (r.void = false → (∀ x ∈ s.teams, r.team = some x.id → x.saved = none) →
          (v.getLsbD 15 = true → (t.vfAt vf).answers = f.answers ∧ taken t.ops) ∧
          (v.getLsbD 15 = false → ∃ ids, (t.vfAt vf).answers = f.answers ++ [{ r with ops := ids }] ∧ named s.ops ids)) ∧
        (∀ x sv, r.void = false → s.teams.find? (fun t => r.team == some t.id && t.saved.isSome) = some x → x.saved = some sv → t.ops = s.ops ∧
          (v.getLsbD 15 = true → (t.vfAt vf).answers = f.answers ∧
            ∀ u ∈ t.teams, u.id = x.id → ∃ w, u.saved = some w ∧ taken w.ops) ∧
          (v.getLsbD 15 = false → ∃ ids, (t.vfAt vf).answers = f.answers ++ [{ r with ops := ids, late := true }] ∧
            named sv.ops ids))) ∧
    (∀ page tok r, f.answers.find? (fun r => r.page == page && r.tok == tok) = some r → r.late = false →
      s.asker r = true → s.ops.any r.blocked = false →
      ∃ t, exec (.pageResolved vf page tok) s = .next t ∧ (t.vfAt vf).answers = f.answers.erase r ∧
        ((s.ctxAt r.ctx).notes.length < 16 → (t.ctxAt r.ctx).notes = (s.ctxAt r.ctx).notes ++
          [{ kind := 3, tag := 0, addr := BitVec.ofNat 64 r.va }]) ∧
        (16 ≤ (s.ctxAt r.ctx).notes.length → (t.ctxAt r.ctx).notes = (s.ctxAt r.ctx).notes ∧ (t.ctxAt r.ctx).lost = true) ∧
        t.mem = s.mem ∧ t.ops = s.ops)

/-- R229, R281, R352, R353, R355, R356, R357, R358, R361, R377, R379, R400, R401, R402, R403, R405, R408. The commands of the firmware
window: each answers in `fwstat` and, where its arguments are legal, has the effect of its rule; a reset stops the function's teams,
freezes its queues, and ends with its clusters zeroed and its launches gone; a start runs its steps in order, up to the first required
one that fails; a loss of power keeps the non-volatile store alone. The model's choices: the stop of a reset 4,096 cycles ahead, the
last cluster that is refused, and the limit of 400,000 cycles (log 47); commands that run on, and those that come meanwhile (log 50);
what power takes with it (logs 51, 1); keys as numbers (log 59); the bits that a hash mask drops (log 46); the index bytes of a
signature (log 5). -/
def Obligations.FirmwareEvents : Prop :=
  ∀ (s : State) (a0 a1 a2 v : Word) (vf : Nat),
    let f := s.vfAt vf
    let c := a1.toNat
    let answers := fun (i : Instr) (code : Word) (o : State → Prop) => s.pkg.boot = .up → s.pkg.fwstat ≠ 1 →
      ∃ t, exec i s = .next t ∧ t.pkg.fwstat = code ∧ o t
    let refuses := fun (i : Instr) (code : Word) => answers i code (fun t => t.ctxs = s.ctxs ∧ t.mem = s.mem ∧ t.vfs = s.vfs ∧
      t.clus = s.clus ∧ t.teams = s.teams)
    let zero := fun (t : State) (k : Nat) => (∀ w off, w / 64 = k → off < 0x20000 → t.wellByte w off = 0) ∧
      ∀ a, a / 256 = k → t.ctxAt a = {}
    (64 ≤ a0.toNat → refuses (.createFunction a0 a1 a2) 2) ∧
    (a0.toNat < 64 → (s.vfAt a0.toNat).live = true → refuses (.createFunction a0 a1 a2) 3) ∧
    (a0.toNat < 64 → (s.vfAt a0.toNat).live = false → answers (.createFunction a0 a1 a2) 0 (fun t =>
      t.vfAt a0.toNat = { live := true, key := 3 + s.nid } ∧ ∀ j, j ≠ a0.toNat → t.vfAt j = s.vfAt j)) ∧
    (s.liveVf a0 = false → ∀ i ∈ [Instr.addCluster a0 a1 a2, .removeCluster a0 a1 a2, .addSlice a0 a1 a2, .writeHashMask a0 a1 a2,
      .lendCluster a0 a1 a2, .bindExport a0 a1 a2, .destroyFunction a0 a1 a2], refuses i 2) ∧
    (s.liveVf a0 = true → c < 80 → a2.toNat < 2 → (s.cluAt c).fenced = false →
      ((s.cluAt c).owner ≠ none → refuses (.addCluster a0 a1 a2) 3) ∧
      ((s.cluAt c).owner = none → answers (.addCluster a0 a1 a2) 0 (fun t => (t.cluAt c).owner = some a0.toNat ∧
        (t.cluAt c).margin = (a2 == 1) ∧ zero t c))) ∧
    (s.liveVf a0 = true → c < 80 → (s.cluAt c).owner = some a0.toNat →
      let more := ∃ k < 80, k ≠ c ∧ (s.cluAt k).owner = some a0.toNat
      (s.teamOn c ≠ none ∨ (s.cluAt c).lentTo ≠ none ∨ ¬ more → refuses (.removeCluster a0 a1 a2) 3) ∧
      (s.teamOn c = none → (s.cluAt c).lentTo = none → more → answers (.removeCluster a0 a1 a2) 0 (fun t => (t.cluAt c).owner = none))) ∧
    (s.liveVf a0 = true → c < 128 → (s.sliceAt c).fenced = false →
      ((s.sliceAt c).owner ≠ none ∨ (s.sliceAt c).commons = true → refuses (.addSlice a0 a1 a2) 3) ∧
      ((s.sliceAt c).owner = none → (s.sliceAt c).commons = false → answers (.addSlice a0 a1 a2) 0 (fun t =>
        (t.sliceAt c).owner = some a0.toNat ∧ ∀ pk l, t.lineOf pk = some l → l.slice ≠ c))) ∧
    (s.liveVf a0 = true → c < 8 → answers (.writeHashMask a0 a1 a2) 1 (fun t => (t.vfAt a0.toNat).newMask = some (c, a2 &&& State.hashBits) ∧
      (t.vfAt a0.toNat).hmask = (s.vfAt a0.toNat).hmask)) ∧
    (∀ n w, f.newMask = some (n, w) → ∃ t, exec (.masksTaken vf) s = .next t ∧ t.pkg.fwstat = 0 ∧
      Tbl.get 0 (t.vfAt vf).hmask n = w ∧ (t.vfAt vf).mapgen = (f.mapgen + 1) % 65536 ∧ (t.vfAt vf).newMask = none ∧
      ∀ pk l, t.lineOf pk = some l → l.vf = vf → (s.sliceAt l.slice).commons = false →
        homeUnder (t.vfAt vf).hmask (l.vline * 256) = homeUnder f.hmask (l.vline * 256)) ∧
    (s.liveVf a0 = true → s.liveVf a2 = true → a0 ≠ a2 → c < 80 → (s.cluAt c).owner = some a0.toNat → (s.cluAt c).margin = true →
      (∃ k < 80, (s.cluAt k).owner = some a2.toNat ∧ dieOfClu k = dieOfClu c) →
      ((s.cluAt c).lentTo ≠ none ∨ s.teamOn c ≠ none → refuses (.lendCluster a0 a1 a2) 3) ∧
      ((s.cluAt c).lentTo = none → s.teamOn c = none → (∀ t ∈ s.teams, t.st ≠ .waiting ∧ t.st ≠ .saved) →
        answers (.lendCluster a0 a1 a2) 0 (fun t => (t.cluAt c).lentTo = some a2.toNat ∧ t.vfOfClu c = a2.toNat ∧ zero t c))) ∧
    (a0.toNat < 80 → (s.cluAt a0.toNat).lentTo ≠ none → answers (.revokeLentCluster a0 a1 a2) 1 (fun t =>
      (t.cluAt a0.toNat).revoke = some s.now ∧ (∀ x, s.teamOn a0.toNat = some x → x.st = .resident →
        ∀ y ∈ t.teams, y.id = x.id → y.st = .stopping (s.now + 4096) ∧ y.revoked = true) ∧
      (∀ x n, s.teamOn a0.toNat = some x → x.st = .stopping n →
        ∀ y ∈ t.teams, y.id = x.id → y.st = .stopping (min (s.now + 4096) n) ∧ y.revoked = true))) ∧
    (∀ k, (s.cluAt k).revoke ≠ none → s.teamOn k = none → ∃ t, exec (.returnToLender k) s = .next t ∧ t.pkg.fwstat = 0 ∧
      (t.cluAt k).lentTo = none ∧ (t.cluAt k).revoke = none ∧ zero t k) ∧
    (s.liveVf a0 = true → a1.toNat < 144 → a2.toNat < 64 → s.pkg.exports.length < 256 → answers (.bindExport a0 a1 a2) 0 (fun t =>
      t.pkg.exports.find? (fun x => x.1 == a1.toNat && x.2.1 == a2.toNat) = some (a1.toNat, a2.toNat, a0.toNat))) ∧
    (s.liveVf a0 = true →
      ((s.vfAt a0.toNat).wasRst = false → refuses (.destroyFunction a0 a1 a2) 3) ∧
      ((s.vfAt a0.toNat).wasRst = true → (s.vfAt a0.toNat).rst = none → (∀ l ∈ s.launches, l.vf ≠ a0.toNat) →
        (∀ x ∈ s.clus, x.2.owner = some a0.toNat → x.2.lentTo = none) → answers (.destroyFunction a0 a1 a2) 0 (fun t =>
          t.vfAt a0.toNat = {} ∧ (∀ k, (t.cluAt k).owner ≠ some a0.toNat) ∧ (∀ k, (t.sliceAt k).owner ≠ some a0.toNat) ∧
          ∀ x ∈ t.pkg.exports, x.2.2 ≠ a0.toNat))) ∧
    (a0 = 0 ∨ 11 < a0.toNat → refuses (.unlistedCommand a0) 2) ∧
    (answers (.clearBootRecord a0 a1 a2) 0 (fun t => t.pkg.nv.res = 0 ∧ t.pkg.nv.rate = 0 ∧ t.pkg.nv.fencedC = [] ∧
      t.pkg.nv.fencedS = [] ∧ t.pkg.nv.leaf = s.pkg.nv.leaf ∧ t.pkg.nv.base = s.pkg.nv.base)) ∧
    (2 ^ 20 ≤ s.pkg.nv.leaf → refuses (.attestationReport a0 a1 a2) 3) ∧
    (s.pkg.nv.leaf < 2 ^ 20 → answers (.attestationReport a0 a1 a2) 0 (fun t => t.pkg.nv.leaf = s.pkg.nv.leaf + 1 ∧
      (let body := s.attestBody a0 a1 s.pkg.nv.leaf; body.length = 128 ∧ t.pkg.report = body ++ signature body s.pkg.nv.leaf) ∧ t.pkg.report.length = 2948)) ∧
    (∀ i ∈ [Instr.createFunction a0 a1 a2, .addCluster a0 a1 a2, .removeCluster a0 a1 a2, .addSlice a0 a1 a2, .writeHashMask a0 a1 a2,
      .lendCluster a0 a1 a2, .revokeLentCluster a0 a1 a2, .bindExport a0 a1 a2, .destroyFunction a0 a1 a2, .clearBootRecord a0 a1 a2,
      .attestationReport a0 a1 a2],
      (s.pkg.boot ≠ .up → exec i s = .next s) ∧
      (s.pkg.boot = .up → s.pkg.fwstat = 1 →
        exec i s = .next (s.setPkg { s.pkg with fwarg0 := a0, fwarg1 := a1, fwarg2 := a2 }))) ∧
    (v ≠ 1 ∨ f.rst ≠ none → exec (.reset vf v) s = .next s) ∧
    (64 ≤ vf ∨ s.linkHolds vf = true → exec (.reset vf v) s = .next s) ∧
    (vf < 64 → s.linkHolds vf = false → v = 1 → f.rst = none → ∃ t, exec (.reset vf v) s = .next t ∧
      (t.vfAt vf).rst = some (s.now + 4096) ∧
      (t.vfAt vf).irqstat.getLsbD 6 = true ∧ (∀ k < 16, (t.queueAt vf k).frozen = true) ∧
      (∀ u ∈ t.teams, (∃ x ∈ s.teams, x.id = u.id ∧ x.onDevice = true ∧ (s.launchAt x.launch).any (fun l => l.vf == vf) = true) →
        ∃ n ≤ s.now + 4096, u.st = .stopping n ∧
          ((∀ x ∈ s.teams, x.id = u.id → x.st = .resident) → n = s.now + 4096)) ∧ t.mem = s.mem ∧ t.ctxs = s.ctxs) ∧
    (f.rst = none → exec (.resetDone vf) s = .next s) ∧
    (∀ n, f.rst = some n → f.wiped = false →
      let ready := n ≤ s.now ∧ (s.peerWaits (s.clustersOf vf) = false ∨ n + 400000 ≤ s.now) ∧ f.sdRun = none ∧
        f.move.any (fun m => !m.lines.isEmpty) = false ∧ ∀ x ∈ s.teamsOn vf, s.quiet x = true
      (¬ ready → exec (.resetDone vf) s = .next s) ∧
      (ready → (s.dump vf n).length = 4352 + 17408 * (s.clustersOf vf).length ∧
        ∃ t, exec (.resetDone vf) s = .next t ∧ (t.vfAt vf).rst = some n ∧ (t.vfAt vf).wiped = true ∧
          (t.vfAt vf).irqstat = f.irqstat ∧ (∀ l ∈ t.launches, l.vf ≠ vf) ∧ (∀ k ∈ s.clustersOf vf, zero t k) ∧
          (∀ l, s.launches.filter (fun l => l.vf == vf) = [l] → l.replay = none → (f.queues.map (·.1)).Nodup →
            let r := DoneRec.mk l.lrec.done l.lrec.irq 7 (l.ntdone, l.ncanc, l.nunder) (l.failt.getD 0xFFFFFFFF)
            (t.queueAt vf l.queue).ending = some { recs := [r], acc := { va := r.done.toNat, n := 32 } }))) ∧
    (∀ n, f.rst = some n → f.wiped = true →
      ((∃ q ∈ f.queues, q.2.ending ≠ none) → exec (.resetDone vf) s = .next s) ∧
      ((∀ q ∈ f.queues, q.2.ending = none) → ∃ t, exec (.resetDone vf) s = .next t ∧ (t.vfAt vf).rst = none ∧
        (t.vfAt vf).irqstat = f.irqstat ||| 4 ∧ (t.vfAt vf).wasRst = true ∧ t.mem = s.mem ∧ t.ctxs = s.ctxs ∧ t.launches = s.launches)) ∧
    (s.pkg.boot = .up → ∀ inp, exec (.deviceStart inp) s = .next s) ∧
    (s.pkg.boot ≠ .up → ∀ inp, inp.cutAt = none → ∃ t, exec (.deviceStart inp) s = .next t ∧ t.now = 0 ∧ t.ctxs = [] ∧
      t.mem.hbm = [] ∧ t.mem.wells = [] ∧ t.pkg.nv.starts = s.pkg.nv.starts + 1 ∧
      let signed := inp.firmware.elim inp.sigOk (fun (image, sig) => firmwareGood image sig)
      let ok := fun (k : Nat) => if k = 0 then inp.romOk else if k = 1 then signed else if k = 2 then inp.versOk
        else if k = 3 then inp.stackFails.all (fun n => n ≤ 3) else if k = 4 then inp.linksOk else if k = 7 then inp.itnikOk
        else if k = 10 then inp.keyOk else if k = 11 then inp.scrubOk else true
      (∀ n < 12, ok n = false → (∀ k < n, ok k = true) → t.pkg.boot = .stopped n ∧ t.pkg.fwstat = 2 ∧ t.pkg.fwarg0 = BitVec.ofNat 64 n ∧
        fieldOf (t.pkg.nv.res.setWidth 64) (2 * n) 2 = 2 ∧ ∀ k, n < k → k < 12 → fieldOf (t.pkg.nv.res.setWidth 64) (2 * k) 2 = 0) ∧
      (ok 0 = true → ok 1 = true → ok 2 = true →
        ∀ k < 8, fieldOf (t.pkg.nv.rate.setWidth 64) (2 * k) 2 =
          trainAt (fieldOf (s.pkg.nv.rate.setWidth 64) (2 * k) 2) (inp.stackFails.getD k 0)) ∧
      ((∀ k < 12, ok k = true) → t.pkg.boot = .up ∧ t.pkg.pkgid = inp.pkgid ∧
        (∀ k < 80, (t.cluAt k).fenced = (s.pkg.nv.fencedC.contains k || inp.badClusters.contains k)) ∧
        (∀ k < 128, (t.sliceAt k).fenced = (s.pkg.nv.fencedS.contains k || inp.badSlices.contains k)) ∧
        (∀ k < 18, k ∈ t.pkg.ports ↔ k ∉ s.pkg.nv.badPort ∧ k ∉ inp.badPorts) ∧
        (∀ k < 8, (∃ x ∈ t.pkg.cxl, k ∈ x) ↔ k ∉ s.pkg.nv.badCxl ∧ k ∉ inp.badCxl) ∧
        (∀ x ∈ t.pkg.cxl, x.length ∈ [1, 2, 4, 8]) ∧ (t.pkg.cxl.flatMap id).Nodup)) ∧
    (s.pkg.boot ≠ .up → ∀ inp, inp.cutAt = some (0, .inside) → ∃ t, exec (.deviceStart inp) s = .next t ∧
      t.pkg.boot = .off ∧ t.pkg.nv.res = 2 ∧ t.pkg.nv.starts = s.pkg.nv.starts + 1) ∧
    (∃ t, exec .powerLoss s = .next t ∧ t.pkg.boot = .off ∧ t.pkg.nvA = s.pkg.nvA ∧ t.pkg.nvB = s.pkg.nvB ∧ t.ctxs = [] ∧
      t.cores = [] ∧ t.mem.hbm = [] ∧ t.mem.tier = [] ∧ t.mem.wells = [] ∧ t.vfs = [] ∧ t.launches = []) ∧
    (s.pkg.boot = .up → s.cyc.toNat % 2 ^ 31 = 0 → s.pkg.nv.count < s.cyc.toNat → ∃ t, exec .timebaseRecord s = .next t ∧
      t.pkg.nv.count = s.cyc.toNat ∧ t.mem = s.mem ∧ t.ctxs = s.ctxs) ∧
    (∀ die < 4, ∀ hot, ∃ t, exec (.thermalLimit die hot) s = .next t ∧ t.pkg.therm.getLsbD die = hot ∧
      (∀ j < 4, j ≠ die → t.pkg.therm.getLsbD j = s.pkg.therm.getLsbD j) ∧ t.ctxs = s.ctxs)

/-! ### The whole machine -/

/-- The memories keep their canonical form (R202, R222): for every state in which HBM, the second tier, the wells and the stacked slices
list their bytes in strictly rising order, and none that reads 0, every state that a step leads to does too. The form is the model's choice,
and so is the 0 that a byte of HBM or the second tier reads as which nothing has written (log 1). -/
def Obligations.MemSoundStep : Prop :=
  ∀ (s t : State), s.memSound = true → step s = .next t → t.memSound = true

/-- What stands before the first start and after it (R229, R400, R403; what an unlisted byte and a register without a reset value
read as is the model's choice, logs 1 and 2): no context runs, no well is bound, the memories are empty and in canonical
form; the first step runs the start sequence and the timebase counts from 0; a part without power takes no step but a start, and one
that has not started, or whose start has stopped, takes no turn but a start, a loss of power, the timebase, or a read of the firmware
window. -/
def Obligations.AtReset : Prop :=
  State.reset.memSound = true ∧ (∀ a, (State.reset.ctxAt a).life = .free) ∧ (∀ w, (State.reset.bankAt w).bound = false) ∧
  (∀ a, Memory.read State.reset.mem.hbm a = 0) ∧ State.reset.now = 0 ∧
  (∃ t, step State.reset = .next t ∧ t.pkg.boot = .up ∧ t.now = 0 ∧ t.memSound = true ∧ (∀ a, (t.ctxAt a).life = .free)) ∧
  (∀ s : State, s.pkg.boot = .off → s.turn.1.starts = false → step s = .fault .poweredOff) ∧
  (∀ s : State, (s.pkg.boot = .cold ∨ ∃ n, s.pkg.boot = .stopped n) → s.turn.1.unstarted = false → step s = .next s.turn.2)
end

