-- ==== Sys2Proof/Laws/Tbl.lean ====
section
/-!
SUPPORT. Laws of tables and memories: a read after a write, and that every operation keeps the canonical form.
-/

namespace Sys2Proof.Machine

namespace Tbl

variable {α : Type}

/-! ### Reading after writing -/

theorem get_erase_same (d : α) (t : Tbl α) (k : Nat) : get d (erase t k) k = d := by
  induction t with
  | nil => rfl
  | cons p t ih =>
    by_cases h : p.1 = k
    · simpa [erase, h] using ih
    · simpa [erase, get, h] using ih

theorem get_erase_ne (d : α) (t : Tbl α) {k j : Nat} (h : j ≠ k) : get d (erase t k) j = get d t j := by
  induction t with
  | nil => rfl
  | cons p t ih =>
    by_cases hk : p.1 = k
    · have hj : p.1 ≠ j := fun e => h (e ▸ hk)
      simpa [erase, get, hk, hj, h.symm] using ih
    · by_cases hj : p.1 = j <;> simp_all [erase, get]

theorem get_insert_same (d : α) (t : Tbl α) (k : Nat) (v : α) (h : ∀ p ∈ t, p.1 ≠ k) : get d (insert k v t) k = v := by
  induction t with
  | nil => simp [insert, get]
  | cons p t ih =>
    unfold insert
    split
    · simp [get]
    · have hp : p.1 ≠ k := h p (by simp)
      simpa [get, hp] using ih (fun q hq => h q (by simp [hq]))

theorem get_insert_ne (d : α) (t : Tbl α) {k j : Nat} (v : α) (h : j ≠ k) : get d (insert k v t) j = get d t j := by
  induction t with
  | nil => simp [insert, get, h.symm]
  | cons p t ih =>
    unfold insert
    split
    · simp [get, h.symm]
    · simp only [get]
      split <;> simp_all

theorem mem_insert {t : Tbl α} {k : Nat} {v : α} {p : Nat × α} (h : p ∈ insert k v t) : p = (k, v) ∨ p ∈ t := by
  induction t with
  | nil => simpa [insert] using h
  | cons q t ih =>
    unfold insert at h
    split at h
    · simpa using h
    · rcases List.mem_cons.mp h with rfl | h
      · simp
      · rcases ih h with rfl | h <;> simp_all

variable [DecidableEq α]

@[simp] theorem get_set_same (d : α) (t : Tbl α) (k : Nat) (v : α) : get d (set d t k v) k = v := by
  unfold set
  split
  · next h => rw [get_erase_same, h]
  · exact get_insert_same d _ k v (fun p hp => by simpa [erase] using (List.mem_filter.mp hp).2)

theorem get_set_ne (d : α) (t : Tbl α) {k j : Nat} (v : α) (h : j ≠ k) : get d (set d t k v) j = get d t j := by
  unfold set
  split
  · exact get_erase_ne d t h
  · rw [get_insert_ne d _ v h, get_erase_ne d t h]

theorem get_set (d : α) (t : Tbl α) (k j : Nat) (v : α) : get d (set d t k v) j = if j = k then v else get d t j := by
  split
  · next h => rw [h, get_set_same]
  · next h => exact get_set_ne d t v h

/-! ### The canonical form -/

theorem wf_iff (d : α) (t : Tbl α) : wf d t = true ↔ t.Pairwise (fun p q => p.1 < q.1) ∧ ∀ p ∈ t, p.2 ≠ d := by
  induction t with
  | nil => simp [wf]
  | cons p t ih =>
    cases t with
    | nil => simp [wf]
    | cons q t =>
      have : wf d (p :: q :: t) = true ↔ (p.2 ≠ d ∧ p.1 < q.1) ∧ wf d (q :: t) = true := by
        simp [wf]
      rw [this, ih]
      constructor
      · rintro ⟨⟨hd, hlt⟩, hp, hv⟩
        refine ⟨List.pairwise_cons.mpr ⟨fun r hr => ?_, hp⟩, ?_⟩
        · rcases List.mem_cons.mp hr with rfl | hr
          · exact hlt
          · exact Nat.lt_trans hlt ((List.pairwise_cons.mp hp).1 r hr)
        · intro r hr
          rcases List.mem_cons.mp hr with rfl | hr
          · exact hd
          · exact hv r hr
      · rintro ⟨hp, hv⟩
        have h := List.pairwise_cons.mp hp
        exact ⟨⟨hv p (by simp), h.1 q (by simp)⟩, h.2, fun r hr => hv r (by simp [hr])⟩

theorem wf_filter (d : α) (t : Tbl α) (f : Nat × α → Bool) (h : wf d t = true) : wf d (t.filter f) = true := by
  rw [wf_iff] at *
  exact ⟨h.1.filter f, fun p hp => h.2 p (List.mem_filter.mp hp).1⟩

theorem wf_erase (d : α) (t : Tbl α) (k : Nat) (h : wf d t = true) : wf d (erase t k) = true := wf_filter d t _ h

theorem wf_clear (d : α) (t : Tbl α) (lo hi : Nat) (h : wf d t = true) : wf d (clear t lo hi) = true := wf_filter d t _ h

theorem wf_insert (d : α) (t : Tbl α) (k : Nat) (v : α) (hv : v ≠ d) (hk : ∀ p ∈ t, p.1 ≠ k) (h : wf d t = true) :
    wf d (insert k v t) = true := by
  rw [wf_iff] at *
  refine ⟨?_, fun p hp => ?_⟩
  · obtain ⟨hp, -⟩ := h
    induction t with
    | nil => simp [insert]
    | cons q t ih =>
      have hq := List.pairwise_cons.mp hp
      have hne : q.1 ≠ k := hk q (by simp)
      unfold insert
      split
      · next hlt =>
        refine List.pairwise_cons.mpr ⟨fun r hr => ?_, hp⟩
        rcases List.mem_cons.mp hr with rfl | hr
        · exact hlt
        · exact Nat.lt_trans hlt (hq.1 r hr)
      · next hlt =>
        refine List.pairwise_cons.mpr ⟨fun r hr => ?_, ih (fun p hp => hk p (by simp [hp])) hq.2⟩
        rcases mem_insert hr with rfl | hr
        · exact Nat.lt_of_le_of_ne (Nat.not_lt.mp hlt) hne
        · exact hq.1 r hr
  · rcases mem_insert hp with rfl | hp
    · exact hv
    · exact h.2 p hp

theorem wf_set (d : α) (t : Tbl α) (k : Nat) (v : α) (h : wf d t = true) : wf d (set d t k v) = true := by
  unfold set
  split
  · exact wf_erase d t k h
  · next hv => exact wf_insert d _ k v hv (fun p hp => by simpa [erase] using (List.mem_filter.mp hp).2) (wf_erase d t k h)

theorem wf_putAll (d : α) (t : Tbl α) (l : List (Nat × α)) (h : wf d t = true) : wf d (putAll d t l) = true := by
  induction l generalizing t with
  | nil => exact h
  | cons p l ih => exact ih _ (wf_set d t p.1 p.2 h)

end Tbl

namespace Memory

theorem read_write (m : Memory) (a b : Nat) (v : Byte) : (m.write a v).read b = if b = a then v else m.read b :=
  Tbl.get_set unlisted m a b v

@[simp] theorem read_write_same (m : Memory) (a : Nat) (v : Byte) : (m.write a v).read a = v := Tbl.get_set_same _ _ _ _

theorem read_write_ne (m : Memory) {a b : Nat} (v : Byte) (h : b ≠ a) : (m.write a v).read b = m.read b :=
  Tbl.get_set_ne _ _ _ h

/-- Writing bytes upward leaves every other address alone. -/
theorem read_writeN_outside (m : Memory) (a b : Nat) (bs : List Byte) (h : b < a ∨ a + bs.length ≤ b) :
    (m.writeN a bs).read b = m.read b := by
  induction bs generalizing m a with
  | nil => rfl
  | cons v bs ih =>
    have hl : (v :: bs).length = bs.length + 1 := rfl
    rw [writeN, ih _ _ (by omega), read_write_ne _ _ (by omega)]

theorem wf_write (m : Memory) (a : Nat) (b : Byte) (h : m.wf = true) : (m.write a b).wf = true := Tbl.wf_set _ _ _ _ h

theorem wf_writeN (m : Memory) (a : Nat) (bs : List Byte) (h : m.wf = true) : (m.writeN a bs).wf = true := by
  induction bs generalizing m a with
  | nil => exact h
  | cons b bs ih => exact ih _ _ (wf_write m a b h)

theorem wf_clear (m : Memory) (lo hi : Nat) (h : m.wf = true) : wf (Tbl.clear m lo hi) = true := Tbl.wf_filter _ _ _ h

end Memory

end Sys2Proof.Machine
end

