-- ==== Sys2Proof/Laws/State.lean ====
section
/-!
SUPPORT. The small laws of the state: what each update leaves of every field, and what reading a directory gives after
a write to it.
-/

namespace Sys2Proof.Machine

namespace State

variable (s : State)

/-! ### `setCtx` -/

@[simp] theorem setCtx_cores (a : Nat) (c : Ctx) : (s.setCtx a c).cores = s.cores := rfl
@[simp] theorem setCtx_mem (a : Nat) (c : Ctx) : (s.setCtx a c).mem = s.mem := rfl
@[simp] theorem setCtx_ops (a : Nat) (c : Ctx) : (s.setCtx a c).ops = s.ops := rfl
@[simp] theorem setCtx_sb (a : Nat) (c : Ctx) : (s.setCtx a c).sb = s.sb := rfl
@[simp] theorem setCtx_moves (a : Nat) (c : Ctx) : (s.setCtx a c).moves = s.moves := rfl
@[simp] theorem setCtx_clus (a : Nat) (c : Ctx) : (s.setCtx a c).clus = s.clus := rfl
@[simp] theorem setCtx_vfs (a : Nat) (c : Ctx) : (s.setCtx a c).vfs = s.vfs := rfl
@[simp] theorem setCtx_launches (a : Nat) (c : Ctx) : (s.setCtx a c).launches = s.launches := rfl
@[simp] theorem setCtx_teams (a : Nat) (c : Ctx) : (s.setCtx a c).teams = s.teams := rfl
@[simp] theorem setCtx_net (a : Nat) (c : Ctx) : (s.setCtx a c).net = s.net := rfl
@[simp] theorem setCtx_pkg (a : Nat) (c : Ctx) : (s.setCtx a c).pkg = s.pkg := rfl
@[simp] theorem setCtx_hostRd (a : Nat) (c : Ctx) : (s.setCtx a c).hostRd = s.hostRd := rfl
@[simp] theorem setCtx_peerRd (a : Nat) (c : Ctx) : (s.setCtx a c).peerRd = s.peerRd := rfl
@[simp] theorem setCtx_peerOut (a : Nat) (c : Ctx) : (s.setCtx a c).peerOut = s.peerOut := rfl
@[simp] theorem setCtx_held (a : Nat) (c : Ctx) : (s.setCtx a c).held = s.held := rfl
@[simp] theorem setCtx_far (a : Nat) (c : Ctx) : (s.setCtx a c).far = s.far := rfl
@[simp] theorem setCtx_now (a : Nat) (c : Ctx) : (s.setCtx a c).now = s.now := rfl
@[simp] theorem setCtx_cur (a : Nat) (c : Ctx) : (s.setCtx a c).cur = s.cur := rfl
@[simp] theorem setCtx_nid (a : Nat) (c : Ctx) : (s.setCtx a c).nid = s.nid := rfl
@[simp] theorem setCtx_nfree (a : Nat) (c : Ctx) : (s.setCtx a c).nfree = s.nfree := rfl
@[simp] theorem setCtx_last (a : Nat) (c : Ctx) : (s.setCtx a c).last = s.last := rfl
@[simp] theorem setCtx_agenda (a : Nat) (c : Ctx) : (s.setCtx a c).agenda = s.agenda := rfl

/-! ### `modCtx` -/

@[simp] theorem modCtx_cores (a : Nat) (f : Ctx → Ctx) : (s.modCtx a f).cores = s.cores := rfl
@[simp] theorem modCtx_mem (a : Nat) (f : Ctx → Ctx) : (s.modCtx a f).mem = s.mem := rfl
@[simp] theorem modCtx_ops (a : Nat) (f : Ctx → Ctx) : (s.modCtx a f).ops = s.ops := rfl
@[simp] theorem modCtx_sb (a : Nat) (f : Ctx → Ctx) : (s.modCtx a f).sb = s.sb := rfl
@[simp] theorem modCtx_moves (a : Nat) (f : Ctx → Ctx) : (s.modCtx a f).moves = s.moves := rfl
@[simp] theorem modCtx_clus (a : Nat) (f : Ctx → Ctx) : (s.modCtx a f).clus = s.clus := rfl
@[simp] theorem modCtx_vfs (a : Nat) (f : Ctx → Ctx) : (s.modCtx a f).vfs = s.vfs := rfl
@[simp] theorem modCtx_launches (a : Nat) (f : Ctx → Ctx) : (s.modCtx a f).launches = s.launches := rfl
@[simp] theorem modCtx_teams (a : Nat) (f : Ctx → Ctx) : (s.modCtx a f).teams = s.teams := rfl
@[simp] theorem modCtx_net (a : Nat) (f : Ctx → Ctx) : (s.modCtx a f).net = s.net := rfl
@[simp] theorem modCtx_pkg (a : Nat) (f : Ctx → Ctx) : (s.modCtx a f).pkg = s.pkg := rfl
@[simp] theorem modCtx_hostRd (a : Nat) (f : Ctx → Ctx) : (s.modCtx a f).hostRd = s.hostRd := rfl
@[simp] theorem modCtx_peerRd (a : Nat) (f : Ctx → Ctx) : (s.modCtx a f).peerRd = s.peerRd := rfl
@[simp] theorem modCtx_peerOut (a : Nat) (f : Ctx → Ctx) : (s.modCtx a f).peerOut = s.peerOut := rfl
@[simp] theorem modCtx_held (a : Nat) (f : Ctx → Ctx) : (s.modCtx a f).held = s.held := rfl
@[simp] theorem modCtx_far (a : Nat) (f : Ctx → Ctx) : (s.modCtx a f).far = s.far := rfl
@[simp] theorem modCtx_now (a : Nat) (f : Ctx → Ctx) : (s.modCtx a f).now = s.now := rfl
@[simp] theorem modCtx_cur (a : Nat) (f : Ctx → Ctx) : (s.modCtx a f).cur = s.cur := rfl
@[simp] theorem modCtx_nid (a : Nat) (f : Ctx → Ctx) : (s.modCtx a f).nid = s.nid := rfl
@[simp] theorem modCtx_nfree (a : Nat) (f : Ctx → Ctx) : (s.modCtx a f).nfree = s.nfree := rfl
@[simp] theorem modCtx_last (a : Nat) (f : Ctx → Ctx) : (s.modCtx a f).last = s.last := rfl
@[simp] theorem modCtx_agenda (a : Nat) (f : Ctx → Ctx) : (s.modCtx a f).agenda = s.agenda := rfl

/-! ### `setMe` -/

@[simp] theorem setMe_cores (c : Ctx) : (s.setMe c).cores = s.cores := rfl
@[simp] theorem setMe_mem (c : Ctx) : (s.setMe c).mem = s.mem := rfl
@[simp] theorem setMe_ops (c : Ctx) : (s.setMe c).ops = s.ops := rfl
@[simp] theorem setMe_sb (c : Ctx) : (s.setMe c).sb = s.sb := rfl
@[simp] theorem setMe_moves (c : Ctx) : (s.setMe c).moves = s.moves := rfl
@[simp] theorem setMe_clus (c : Ctx) : (s.setMe c).clus = s.clus := rfl
@[simp] theorem setMe_vfs (c : Ctx) : (s.setMe c).vfs = s.vfs := rfl
@[simp] theorem setMe_launches (c : Ctx) : (s.setMe c).launches = s.launches := rfl
@[simp] theorem setMe_teams (c : Ctx) : (s.setMe c).teams = s.teams := rfl
@[simp] theorem setMe_net (c : Ctx) : (s.setMe c).net = s.net := rfl
@[simp] theorem setMe_pkg (c : Ctx) : (s.setMe c).pkg = s.pkg := rfl
@[simp] theorem setMe_hostRd (c : Ctx) : (s.setMe c).hostRd = s.hostRd := rfl
@[simp] theorem setMe_peerRd (c : Ctx) : (s.setMe c).peerRd = s.peerRd := rfl
@[simp] theorem setMe_peerOut (c : Ctx) : (s.setMe c).peerOut = s.peerOut := rfl
@[simp] theorem setMe_held (c : Ctx) : (s.setMe c).held = s.held := rfl
@[simp] theorem setMe_far (c : Ctx) : (s.setMe c).far = s.far := rfl
@[simp] theorem setMe_now (c : Ctx) : (s.setMe c).now = s.now := rfl
@[simp] theorem setMe_cur (c : Ctx) : (s.setMe c).cur = s.cur := rfl
@[simp] theorem setMe_nid (c : Ctx) : (s.setMe c).nid = s.nid := rfl
@[simp] theorem setMe_nfree (c : Ctx) : (s.setMe c).nfree = s.nfree := rfl
@[simp] theorem setMe_last (c : Ctx) : (s.setMe c).last = s.last := rfl
@[simp] theorem setMe_agenda (c : Ctx) : (s.setMe c).agenda = s.agenda := rfl

/-! ### `modMe` -/

@[simp] theorem modMe_cores (f : Ctx → Ctx) : (s.modMe f).cores = s.cores := rfl
@[simp] theorem modMe_mem (f : Ctx → Ctx) : (s.modMe f).mem = s.mem := rfl
@[simp] theorem modMe_ops (f : Ctx → Ctx) : (s.modMe f).ops = s.ops := rfl
@[simp] theorem modMe_sb (f : Ctx → Ctx) : (s.modMe f).sb = s.sb := rfl
@[simp] theorem modMe_moves (f : Ctx → Ctx) : (s.modMe f).moves = s.moves := rfl
@[simp] theorem modMe_clus (f : Ctx → Ctx) : (s.modMe f).clus = s.clus := rfl
@[simp] theorem modMe_vfs (f : Ctx → Ctx) : (s.modMe f).vfs = s.vfs := rfl
@[simp] theorem modMe_launches (f : Ctx → Ctx) : (s.modMe f).launches = s.launches := rfl
@[simp] theorem modMe_teams (f : Ctx → Ctx) : (s.modMe f).teams = s.teams := rfl
@[simp] theorem modMe_net (f : Ctx → Ctx) : (s.modMe f).net = s.net := rfl
@[simp] theorem modMe_pkg (f : Ctx → Ctx) : (s.modMe f).pkg = s.pkg := rfl
@[simp] theorem modMe_hostRd (f : Ctx → Ctx) : (s.modMe f).hostRd = s.hostRd := rfl
@[simp] theorem modMe_peerRd (f : Ctx → Ctx) : (s.modMe f).peerRd = s.peerRd := rfl
@[simp] theorem modMe_peerOut (f : Ctx → Ctx) : (s.modMe f).peerOut = s.peerOut := rfl
@[simp] theorem modMe_held (f : Ctx → Ctx) : (s.modMe f).held = s.held := rfl
@[simp] theorem modMe_far (f : Ctx → Ctx) : (s.modMe f).far = s.far := rfl
@[simp] theorem modMe_now (f : Ctx → Ctx) : (s.modMe f).now = s.now := rfl
@[simp] theorem modMe_cur (f : Ctx → Ctx) : (s.modMe f).cur = s.cur := rfl
@[simp] theorem modMe_nid (f : Ctx → Ctx) : (s.modMe f).nid = s.nid := rfl
@[simp] theorem modMe_nfree (f : Ctx → Ctx) : (s.modMe f).nfree = s.nfree := rfl
@[simp] theorem modMe_last (f : Ctx → Ctx) : (s.modMe f).last = s.last := rfl
@[simp] theorem modMe_agenda (f : Ctx → Ctx) : (s.modMe f).agenda = s.agenda := rfl

/-! ### `setCore` -/

@[simp] theorem setCore_ctxs (k : Nat) (c : Core) : (s.setCore k c).ctxs = s.ctxs := rfl
@[simp] theorem setCore_mem (k : Nat) (c : Core) : (s.setCore k c).mem = s.mem := rfl
@[simp] theorem setCore_ops (k : Nat) (c : Core) : (s.setCore k c).ops = s.ops := rfl
@[simp] theorem setCore_sb (k : Nat) (c : Core) : (s.setCore k c).sb = s.sb := rfl
@[simp] theorem setCore_moves (k : Nat) (c : Core) : (s.setCore k c).moves = s.moves := rfl
@[simp] theorem setCore_clus (k : Nat) (c : Core) : (s.setCore k c).clus = s.clus := rfl
@[simp] theorem setCore_vfs (k : Nat) (c : Core) : (s.setCore k c).vfs = s.vfs := rfl
@[simp] theorem setCore_launches (k : Nat) (c : Core) : (s.setCore k c).launches = s.launches := rfl
@[simp] theorem setCore_teams (k : Nat) (c : Core) : (s.setCore k c).teams = s.teams := rfl
@[simp] theorem setCore_net (k : Nat) (c : Core) : (s.setCore k c).net = s.net := rfl
@[simp] theorem setCore_pkg (k : Nat) (c : Core) : (s.setCore k c).pkg = s.pkg := rfl
@[simp] theorem setCore_hostRd (k : Nat) (c : Core) : (s.setCore k c).hostRd = s.hostRd := rfl
@[simp] theorem setCore_peerRd (k : Nat) (c : Core) : (s.setCore k c).peerRd = s.peerRd := rfl
@[simp] theorem setCore_peerOut (k : Nat) (c : Core) : (s.setCore k c).peerOut = s.peerOut := rfl
@[simp] theorem setCore_held (k : Nat) (c : Core) : (s.setCore k c).held = s.held := rfl
@[simp] theorem setCore_far (k : Nat) (c : Core) : (s.setCore k c).far = s.far := rfl
@[simp] theorem setCore_now (k : Nat) (c : Core) : (s.setCore k c).now = s.now := rfl
@[simp] theorem setCore_cur (k : Nat) (c : Core) : (s.setCore k c).cur = s.cur := rfl
@[simp] theorem setCore_nid (k : Nat) (c : Core) : (s.setCore k c).nid = s.nid := rfl
@[simp] theorem setCore_nfree (k : Nat) (c : Core) : (s.setCore k c).nfree = s.nfree := rfl
@[simp] theorem setCore_last (k : Nat) (c : Core) : (s.setCore k c).last = s.last := rfl
@[simp] theorem setCore_agenda (k : Nat) (c : Core) : (s.setCore k c).agenda = s.agenda := rfl

/-! ### `modCore` -/

@[simp] theorem modCore_ctxs (k : Nat) (f : Core → Core) : (s.modCore k f).ctxs = s.ctxs := rfl
@[simp] theorem modCore_mem (k : Nat) (f : Core → Core) : (s.modCore k f).mem = s.mem := rfl
@[simp] theorem modCore_ops (k : Nat) (f : Core → Core) : (s.modCore k f).ops = s.ops := rfl
@[simp] theorem modCore_sb (k : Nat) (f : Core → Core) : (s.modCore k f).sb = s.sb := rfl
@[simp] theorem modCore_moves (k : Nat) (f : Core → Core) : (s.modCore k f).moves = s.moves := rfl
@[simp] theorem modCore_clus (k : Nat) (f : Core → Core) : (s.modCore k f).clus = s.clus := rfl
@[simp] theorem modCore_vfs (k : Nat) (f : Core → Core) : (s.modCore k f).vfs = s.vfs := rfl
@[simp] theorem modCore_launches (k : Nat) (f : Core → Core) : (s.modCore k f).launches = s.launches := rfl
@[simp] theorem modCore_teams (k : Nat) (f : Core → Core) : (s.modCore k f).teams = s.teams := rfl
@[simp] theorem modCore_net (k : Nat) (f : Core → Core) : (s.modCore k f).net = s.net := rfl
@[simp] theorem modCore_pkg (k : Nat) (f : Core → Core) : (s.modCore k f).pkg = s.pkg := rfl
@[simp] theorem modCore_hostRd (k : Nat) (f : Core → Core) : (s.modCore k f).hostRd = s.hostRd := rfl
@[simp] theorem modCore_peerRd (k : Nat) (f : Core → Core) : (s.modCore k f).peerRd = s.peerRd := rfl
@[simp] theorem modCore_peerOut (k : Nat) (f : Core → Core) : (s.modCore k f).peerOut = s.peerOut := rfl
@[simp] theorem modCore_held (k : Nat) (f : Core → Core) : (s.modCore k f).held = s.held := rfl
@[simp] theorem modCore_far (k : Nat) (f : Core → Core) : (s.modCore k f).far = s.far := rfl
@[simp] theorem modCore_now (k : Nat) (f : Core → Core) : (s.modCore k f).now = s.now := rfl
@[simp] theorem modCore_cur (k : Nat) (f : Core → Core) : (s.modCore k f).cur = s.cur := rfl
@[simp] theorem modCore_nid (k : Nat) (f : Core → Core) : (s.modCore k f).nid = s.nid := rfl
@[simp] theorem modCore_nfree (k : Nat) (f : Core → Core) : (s.modCore k f).nfree = s.nfree := rfl
@[simp] theorem modCore_last (k : Nat) (f : Core → Core) : (s.modCore k f).last = s.last := rfl
@[simp] theorem modCore_agenda (k : Nat) (f : Core → Core) : (s.modCore k f).agenda = s.agenda := rfl

/-! ### `setVf` -/

@[simp] theorem setVf_ctxs (v : Nat) (f : VF) : (s.setVf v f).ctxs = s.ctxs := rfl
@[simp] theorem setVf_cores (v : Nat) (f : VF) : (s.setVf v f).cores = s.cores := rfl
@[simp] theorem setVf_mem (v : Nat) (f : VF) : (s.setVf v f).mem = s.mem := rfl
@[simp] theorem setVf_ops (v : Nat) (f : VF) : (s.setVf v f).ops = s.ops := rfl
@[simp] theorem setVf_sb (v : Nat) (f : VF) : (s.setVf v f).sb = s.sb := rfl
@[simp] theorem setVf_moves (v : Nat) (f : VF) : (s.setVf v f).moves = s.moves := rfl
@[simp] theorem setVf_clus (v : Nat) (f : VF) : (s.setVf v f).clus = s.clus := rfl
@[simp] theorem setVf_launches (v : Nat) (f : VF) : (s.setVf v f).launches = s.launches := rfl
@[simp] theorem setVf_teams (v : Nat) (f : VF) : (s.setVf v f).teams = s.teams := rfl
@[simp] theorem setVf_net (v : Nat) (f : VF) : (s.setVf v f).net = s.net := rfl
@[simp] theorem setVf_pkg (v : Nat) (f : VF) : (s.setVf v f).pkg = s.pkg := rfl
@[simp] theorem setVf_hostRd (v : Nat) (f : VF) : (s.setVf v f).hostRd = s.hostRd := rfl
@[simp] theorem setVf_peerRd (v : Nat) (f : VF) : (s.setVf v f).peerRd = s.peerRd := rfl
@[simp] theorem setVf_peerOut (v : Nat) (f : VF) : (s.setVf v f).peerOut = s.peerOut := rfl
@[simp] theorem setVf_held (v : Nat) (f : VF) : (s.setVf v f).held = s.held := rfl
@[simp] theorem setVf_far (v : Nat) (f : VF) : (s.setVf v f).far = s.far := rfl
@[simp] theorem setVf_now (v : Nat) (f : VF) : (s.setVf v f).now = s.now := rfl
@[simp] theorem setVf_cur (v : Nat) (f : VF) : (s.setVf v f).cur = s.cur := rfl
@[simp] theorem setVf_nid (v : Nat) (f : VF) : (s.setVf v f).nid = s.nid := rfl
@[simp] theorem setVf_nfree (v : Nat) (f : VF) : (s.setVf v f).nfree = s.nfree := rfl
@[simp] theorem setVf_last (v : Nat) (f : VF) : (s.setVf v f).last = s.last := rfl
@[simp] theorem setVf_agenda (v : Nat) (f : VF) : (s.setVf v f).agenda = s.agenda := rfl

/-! ### `modVf` -/

@[simp] theorem modVf_ctxs (v : Nat) (f : VF → VF) : (s.modVf v f).ctxs = s.ctxs := rfl
@[simp] theorem modVf_cores (v : Nat) (f : VF → VF) : (s.modVf v f).cores = s.cores := rfl
@[simp] theorem modVf_mem (v : Nat) (f : VF → VF) : (s.modVf v f).mem = s.mem := rfl
@[simp] theorem modVf_ops (v : Nat) (f : VF → VF) : (s.modVf v f).ops = s.ops := rfl
@[simp] theorem modVf_sb (v : Nat) (f : VF → VF) : (s.modVf v f).sb = s.sb := rfl
@[simp] theorem modVf_moves (v : Nat) (f : VF → VF) : (s.modVf v f).moves = s.moves := rfl
@[simp] theorem modVf_clus (v : Nat) (f : VF → VF) : (s.modVf v f).clus = s.clus := rfl
@[simp] theorem modVf_launches (v : Nat) (f : VF → VF) : (s.modVf v f).launches = s.launches := rfl
@[simp] theorem modVf_teams (v : Nat) (f : VF → VF) : (s.modVf v f).teams = s.teams := rfl
@[simp] theorem modVf_net (v : Nat) (f : VF → VF) : (s.modVf v f).net = s.net := rfl
@[simp] theorem modVf_pkg (v : Nat) (f : VF → VF) : (s.modVf v f).pkg = s.pkg := rfl
@[simp] theorem modVf_hostRd (v : Nat) (f : VF → VF) : (s.modVf v f).hostRd = s.hostRd := rfl
@[simp] theorem modVf_peerRd (v : Nat) (f : VF → VF) : (s.modVf v f).peerRd = s.peerRd := rfl
@[simp] theorem modVf_peerOut (v : Nat) (f : VF → VF) : (s.modVf v f).peerOut = s.peerOut := rfl
@[simp] theorem modVf_held (v : Nat) (f : VF → VF) : (s.modVf v f).held = s.held := rfl
@[simp] theorem modVf_far (v : Nat) (f : VF → VF) : (s.modVf v f).far = s.far := rfl
@[simp] theorem modVf_now (v : Nat) (f : VF → VF) : (s.modVf v f).now = s.now := rfl
@[simp] theorem modVf_cur (v : Nat) (f : VF → VF) : (s.modVf v f).cur = s.cur := rfl
@[simp] theorem modVf_nid (v : Nat) (f : VF → VF) : (s.modVf v f).nid = s.nid := rfl
@[simp] theorem modVf_nfree (v : Nat) (f : VF → VF) : (s.modVf v f).nfree = s.nfree := rfl
@[simp] theorem modVf_last (v : Nat) (f : VF → VF) : (s.modVf v f).last = s.last := rfl
@[simp] theorem modVf_agenda (v : Nat) (f : VF → VF) : (s.modVf v f).agenda = s.agenda := rfl

/-! ### `setClu` -/

@[simp] theorem setClu_ctxs (k : Nat) (c : Cluster) : (s.setClu k c).ctxs = s.ctxs := rfl
@[simp] theorem setClu_cores (k : Nat) (c : Cluster) : (s.setClu k c).cores = s.cores := rfl
@[simp] theorem setClu_mem (k : Nat) (c : Cluster) : (s.setClu k c).mem = s.mem := rfl
@[simp] theorem setClu_ops (k : Nat) (c : Cluster) : (s.setClu k c).ops = s.ops := rfl
@[simp] theorem setClu_sb (k : Nat) (c : Cluster) : (s.setClu k c).sb = s.sb := rfl
@[simp] theorem setClu_moves (k : Nat) (c : Cluster) : (s.setClu k c).moves = s.moves := rfl
@[simp] theorem setClu_vfs (k : Nat) (c : Cluster) : (s.setClu k c).vfs = s.vfs := rfl
@[simp] theorem setClu_launches (k : Nat) (c : Cluster) : (s.setClu k c).launches = s.launches := rfl
@[simp] theorem setClu_teams (k : Nat) (c : Cluster) : (s.setClu k c).teams = s.teams := rfl
@[simp] theorem setClu_net (k : Nat) (c : Cluster) : (s.setClu k c).net = s.net := rfl
@[simp] theorem setClu_pkg (k : Nat) (c : Cluster) : (s.setClu k c).pkg = s.pkg := rfl
@[simp] theorem setClu_hostRd (k : Nat) (c : Cluster) : (s.setClu k c).hostRd = s.hostRd := rfl
@[simp] theorem setClu_peerRd (k : Nat) (c : Cluster) : (s.setClu k c).peerRd = s.peerRd := rfl
@[simp] theorem setClu_peerOut (k : Nat) (c : Cluster) : (s.setClu k c).peerOut = s.peerOut := rfl
@[simp] theorem setClu_held (k : Nat) (c : Cluster) : (s.setClu k c).held = s.held := rfl
@[simp] theorem setClu_far (k : Nat) (c : Cluster) : (s.setClu k c).far = s.far := rfl
@[simp] theorem setClu_now (k : Nat) (c : Cluster) : (s.setClu k c).now = s.now := rfl
@[simp] theorem setClu_cur (k : Nat) (c : Cluster) : (s.setClu k c).cur = s.cur := rfl
@[simp] theorem setClu_nid (k : Nat) (c : Cluster) : (s.setClu k c).nid = s.nid := rfl
@[simp] theorem setClu_nfree (k : Nat) (c : Cluster) : (s.setClu k c).nfree = s.nfree := rfl
@[simp] theorem setClu_last (k : Nat) (c : Cluster) : (s.setClu k c).last = s.last := rfl
@[simp] theorem setClu_agenda (k : Nat) (c : Cluster) : (s.setClu k c).agenda = s.agenda := rfl

/-! ### `modClu` -/

@[simp] theorem modClu_ctxs (k : Nat) (f : Cluster → Cluster) : (s.modClu k f).ctxs = s.ctxs := rfl
@[simp] theorem modClu_cores (k : Nat) (f : Cluster → Cluster) : (s.modClu k f).cores = s.cores := rfl
@[simp] theorem modClu_mem (k : Nat) (f : Cluster → Cluster) : (s.modClu k f).mem = s.mem := rfl
@[simp] theorem modClu_ops (k : Nat) (f : Cluster → Cluster) : (s.modClu k f).ops = s.ops := rfl
@[simp] theorem modClu_sb (k : Nat) (f : Cluster → Cluster) : (s.modClu k f).sb = s.sb := rfl
@[simp] theorem modClu_moves (k : Nat) (f : Cluster → Cluster) : (s.modClu k f).moves = s.moves := rfl
@[simp] theorem modClu_vfs (k : Nat) (f : Cluster → Cluster) : (s.modClu k f).vfs = s.vfs := rfl
@[simp] theorem modClu_launches (k : Nat) (f : Cluster → Cluster) : (s.modClu k f).launches = s.launches := rfl
@[simp] theorem modClu_teams (k : Nat) (f : Cluster → Cluster) : (s.modClu k f).teams = s.teams := rfl
@[simp] theorem modClu_net (k : Nat) (f : Cluster → Cluster) : (s.modClu k f).net = s.net := rfl
@[simp] theorem modClu_pkg (k : Nat) (f : Cluster → Cluster) : (s.modClu k f).pkg = s.pkg := rfl
@[simp] theorem modClu_hostRd (k : Nat) (f : Cluster → Cluster) : (s.modClu k f).hostRd = s.hostRd := rfl
@[simp] theorem modClu_peerRd (k : Nat) (f : Cluster → Cluster) : (s.modClu k f).peerRd = s.peerRd := rfl
@[simp] theorem modClu_peerOut (k : Nat) (f : Cluster → Cluster) : (s.modClu k f).peerOut = s.peerOut := rfl
@[simp] theorem modClu_held (k : Nat) (f : Cluster → Cluster) : (s.modClu k f).held = s.held := rfl
@[simp] theorem modClu_far (k : Nat) (f : Cluster → Cluster) : (s.modClu k f).far = s.far := rfl
@[simp] theorem modClu_now (k : Nat) (f : Cluster → Cluster) : (s.modClu k f).now = s.now := rfl
@[simp] theorem modClu_cur (k : Nat) (f : Cluster → Cluster) : (s.modClu k f).cur = s.cur := rfl
@[simp] theorem modClu_nid (k : Nat) (f : Cluster → Cluster) : (s.modClu k f).nid = s.nid := rfl
@[simp] theorem modClu_nfree (k : Nat) (f : Cluster → Cluster) : (s.modClu k f).nfree = s.nfree := rfl
@[simp] theorem modClu_last (k : Nat) (f : Cluster → Cluster) : (s.modClu k f).last = s.last := rfl
@[simp] theorem modClu_agenda (k : Nat) (f : Cluster → Cluster) : (s.modClu k f).agenda = s.agenda := rfl

/-! ### `setMem` -/

@[simp] theorem setMem_ctxs (m : Mem) : (s.setMem m).ctxs = s.ctxs := rfl
@[simp] theorem setMem_cores (m : Mem) : (s.setMem m).cores = s.cores := rfl
@[simp] theorem setMem_ops (m : Mem) : (s.setMem m).ops = s.ops := rfl
@[simp] theorem setMem_sb (m : Mem) : (s.setMem m).sb = s.sb := rfl
@[simp] theorem setMem_moves (m : Mem) : (s.setMem m).moves = s.moves := rfl
@[simp] theorem setMem_clus (m : Mem) : (s.setMem m).clus = s.clus := rfl
@[simp] theorem setMem_vfs (m : Mem) : (s.setMem m).vfs = s.vfs := rfl
@[simp] theorem setMem_launches (m : Mem) : (s.setMem m).launches = s.launches := rfl
@[simp] theorem setMem_teams (m : Mem) : (s.setMem m).teams = s.teams := rfl
@[simp] theorem setMem_net (m : Mem) : (s.setMem m).net = s.net := rfl
@[simp] theorem setMem_pkg (m : Mem) : (s.setMem m).pkg = s.pkg := rfl
@[simp] theorem setMem_hostRd (m : Mem) : (s.setMem m).hostRd = s.hostRd := rfl
@[simp] theorem setMem_peerRd (m : Mem) : (s.setMem m).peerRd = s.peerRd := rfl
@[simp] theorem setMem_peerOut (m : Mem) : (s.setMem m).peerOut = s.peerOut := rfl
@[simp] theorem setMem_held (m : Mem) : (s.setMem m).held = s.held := rfl
@[simp] theorem setMem_far (m : Mem) : (s.setMem m).far = s.far := rfl
@[simp] theorem setMem_now (m : Mem) : (s.setMem m).now = s.now := rfl
@[simp] theorem setMem_cur (m : Mem) : (s.setMem m).cur = s.cur := rfl
@[simp] theorem setMem_nid (m : Mem) : (s.setMem m).nid = s.nid := rfl
@[simp] theorem setMem_nfree (m : Mem) : (s.setMem m).nfree = s.nfree := rfl
@[simp] theorem setMem_last (m : Mem) : (s.setMem m).last = s.last := rfl
@[simp] theorem setMem_agenda (m : Mem) : (s.setMem m).agenda = s.agenda := rfl

/-! ### `setOps` -/

@[simp] theorem setOps_ctxs (o : List Op) : (s.setOps o).ctxs = s.ctxs := rfl
@[simp] theorem setOps_cores (o : List Op) : (s.setOps o).cores = s.cores := rfl
@[simp] theorem setOps_mem (o : List Op) : (s.setOps o).mem = s.mem := rfl
@[simp] theorem setOps_sb (o : List Op) : (s.setOps o).sb = s.sb := rfl
@[simp] theorem setOps_moves (o : List Op) : (s.setOps o).moves = s.moves := rfl
@[simp] theorem setOps_clus (o : List Op) : (s.setOps o).clus = s.clus := rfl
@[simp] theorem setOps_vfs (o : List Op) : (s.setOps o).vfs = s.vfs := rfl
@[simp] theorem setOps_launches (o : List Op) : (s.setOps o).launches = s.launches := rfl
@[simp] theorem setOps_teams (o : List Op) : (s.setOps o).teams = s.teams := rfl
@[simp] theorem setOps_net (o : List Op) : (s.setOps o).net = s.net := rfl
@[simp] theorem setOps_pkg (o : List Op) : (s.setOps o).pkg = s.pkg := rfl
@[simp] theorem setOps_hostRd (o : List Op) : (s.setOps o).hostRd = s.hostRd := rfl
@[simp] theorem setOps_peerRd (o : List Op) : (s.setOps o).peerRd = s.peerRd := rfl
@[simp] theorem setOps_peerOut (o : List Op) : (s.setOps o).peerOut = s.peerOut := rfl
@[simp] theorem setOps_held (o : List Op) : (s.setOps o).held = s.held := rfl
@[simp] theorem setOps_far (o : List Op) : (s.setOps o).far = s.far := rfl
@[simp] theorem setOps_now (o : List Op) : (s.setOps o).now = s.now := rfl
@[simp] theorem setOps_cur (o : List Op) : (s.setOps o).cur = s.cur := rfl
@[simp] theorem setOps_nid (o : List Op) : (s.setOps o).nid = s.nid := rfl
@[simp] theorem setOps_nfree (o : List Op) : (s.setOps o).nfree = s.nfree := rfl
@[simp] theorem setOps_last (o : List Op) : (s.setOps o).last = s.last := rfl
@[simp] theorem setOps_agenda (o : List Op) : (s.setOps o).agenda = s.agenda := rfl

/-! ### `setSb` -/

@[simp] theorem setSb_ctxs (b : List SEntry) : (s.setSb b).ctxs = s.ctxs := rfl
@[simp] theorem setSb_cores (b : List SEntry) : (s.setSb b).cores = s.cores := rfl
@[simp] theorem setSb_mem (b : List SEntry) : (s.setSb b).mem = s.mem := rfl
@[simp] theorem setSb_ops (b : List SEntry) : (s.setSb b).ops = s.ops := rfl
@[simp] theorem setSb_moves (b : List SEntry) : (s.setSb b).moves = s.moves := rfl
@[simp] theorem setSb_clus (b : List SEntry) : (s.setSb b).clus = s.clus := rfl
@[simp] theorem setSb_vfs (b : List SEntry) : (s.setSb b).vfs = s.vfs := rfl
@[simp] theorem setSb_launches (b : List SEntry) : (s.setSb b).launches = s.launches := rfl
@[simp] theorem setSb_teams (b : List SEntry) : (s.setSb b).teams = s.teams := rfl
@[simp] theorem setSb_net (b : List SEntry) : (s.setSb b).net = s.net := rfl
@[simp] theorem setSb_pkg (b : List SEntry) : (s.setSb b).pkg = s.pkg := rfl
@[simp] theorem setSb_hostRd (b : List SEntry) : (s.setSb b).hostRd = s.hostRd := rfl
@[simp] theorem setSb_peerRd (b : List SEntry) : (s.setSb b).peerRd = s.peerRd := rfl
@[simp] theorem setSb_peerOut (b : List SEntry) : (s.setSb b).peerOut = s.peerOut := rfl
@[simp] theorem setSb_held (b : List SEntry) : (s.setSb b).held = s.held := rfl
@[simp] theorem setSb_far (b : List SEntry) : (s.setSb b).far = s.far := rfl
@[simp] theorem setSb_now (b : List SEntry) : (s.setSb b).now = s.now := rfl
@[simp] theorem setSb_cur (b : List SEntry) : (s.setSb b).cur = s.cur := rfl
@[simp] theorem setSb_nid (b : List SEntry) : (s.setSb b).nid = s.nid := rfl
@[simp] theorem setSb_nfree (b : List SEntry) : (s.setSb b).nfree = s.nfree := rfl
@[simp] theorem setSb_last (b : List SEntry) : (s.setSb b).last = s.last := rfl
@[simp] theorem setSb_agenda (b : List SEntry) : (s.setSb b).agenda = s.agenda := rfl

/-! ### `setFar` -/

@[simp] theorem setFar_sb (b : List SEntry) : (s.setFar b).sb = s.sb := rfl
@[simp] theorem setFar_ctxs (b : List SEntry) : (s.setFar b).ctxs = s.ctxs := rfl
@[simp] theorem setFar_cores (b : List SEntry) : (s.setFar b).cores = s.cores := rfl
@[simp] theorem setFar_mem (b : List SEntry) : (s.setFar b).mem = s.mem := rfl
@[simp] theorem setFar_ops (b : List SEntry) : (s.setFar b).ops = s.ops := rfl
@[simp] theorem setFar_moves (b : List SEntry) : (s.setFar b).moves = s.moves := rfl
@[simp] theorem setFar_clus (b : List SEntry) : (s.setFar b).clus = s.clus := rfl
@[simp] theorem setFar_vfs (b : List SEntry) : (s.setFar b).vfs = s.vfs := rfl
@[simp] theorem setFar_launches (b : List SEntry) : (s.setFar b).launches = s.launches := rfl
@[simp] theorem setFar_teams (b : List SEntry) : (s.setFar b).teams = s.teams := rfl
@[simp] theorem setFar_net (b : List SEntry) : (s.setFar b).net = s.net := rfl
@[simp] theorem setFar_pkg (b : List SEntry) : (s.setFar b).pkg = s.pkg := rfl
@[simp] theorem setFar_hostRd (b : List SEntry) : (s.setFar b).hostRd = s.hostRd := rfl
@[simp] theorem setFar_peerRd (b : List SEntry) : (s.setFar b).peerRd = s.peerRd := rfl
@[simp] theorem setFar_peerOut (b : List SEntry) : (s.setFar b).peerOut = s.peerOut := rfl
@[simp] theorem setFar_held (b : List SEntry) : (s.setFar b).held = s.held := rfl
@[simp] theorem setFar_now (b : List SEntry) : (s.setFar b).now = s.now := rfl
@[simp] theorem setFar_cur (b : List SEntry) : (s.setFar b).cur = s.cur := rfl
@[simp] theorem setFar_nid (b : List SEntry) : (s.setFar b).nid = s.nid := rfl
@[simp] theorem setFar_nfree (b : List SEntry) : (s.setFar b).nfree = s.nfree := rfl
@[simp] theorem setFar_last (b : List SEntry) : (s.setFar b).last = s.last := rfl
@[simp] theorem setFar_agenda (b : List SEntry) : (s.setFar b).agenda = s.agenda := rfl

/-! ### `setMoves` -/

@[simp] theorem setMoves_ctxs (m : List WMove) : (s.setMoves m).ctxs = s.ctxs := rfl
@[simp] theorem setMoves_cores (m : List WMove) : (s.setMoves m).cores = s.cores := rfl
@[simp] theorem setMoves_mem (m : List WMove) : (s.setMoves m).mem = s.mem := rfl
@[simp] theorem setMoves_ops (m : List WMove) : (s.setMoves m).ops = s.ops := rfl
@[simp] theorem setMoves_sb (m : List WMove) : (s.setMoves m).sb = s.sb := rfl
@[simp] theorem setMoves_clus (m : List WMove) : (s.setMoves m).clus = s.clus := rfl
@[simp] theorem setMoves_vfs (m : List WMove) : (s.setMoves m).vfs = s.vfs := rfl
@[simp] theorem setMoves_launches (m : List WMove) : (s.setMoves m).launches = s.launches := rfl
@[simp] theorem setMoves_teams (m : List WMove) : (s.setMoves m).teams = s.teams := rfl
@[simp] theorem setMoves_net (m : List WMove) : (s.setMoves m).net = s.net := rfl
@[simp] theorem setMoves_pkg (m : List WMove) : (s.setMoves m).pkg = s.pkg := rfl
@[simp] theorem setMoves_hostRd (m : List WMove) : (s.setMoves m).hostRd = s.hostRd := rfl
@[simp] theorem setMoves_peerRd (m : List WMove) : (s.setMoves m).peerRd = s.peerRd := rfl
@[simp] theorem setMoves_peerOut (m : List WMove) : (s.setMoves m).peerOut = s.peerOut := rfl
@[simp] theorem setMoves_held (m : List WMove) : (s.setMoves m).held = s.held := rfl
@[simp] theorem setMoves_far (m : List WMove) : (s.setMoves m).far = s.far := rfl
@[simp] theorem setMoves_now (m : List WMove) : (s.setMoves m).now = s.now := rfl
@[simp] theorem setMoves_cur (m : List WMove) : (s.setMoves m).cur = s.cur := rfl
@[simp] theorem setMoves_nid (m : List WMove) : (s.setMoves m).nid = s.nid := rfl
@[simp] theorem setMoves_nfree (m : List WMove) : (s.setMoves m).nfree = s.nfree := rfl
@[simp] theorem setMoves_last (m : List WMove) : (s.setMoves m).last = s.last := rfl
@[simp] theorem setMoves_agenda (m : List WMove) : (s.setMoves m).agenda = s.agenda := rfl

/-! ### `setNet` -/

@[simp] theorem setNet_ctxs (n : Net) : (s.setNet n).ctxs = s.ctxs := rfl
@[simp] theorem setNet_cores (n : Net) : (s.setNet n).cores = s.cores := rfl
@[simp] theorem setNet_mem (n : Net) : (s.setNet n).mem = s.mem := rfl
@[simp] theorem setNet_ops (n : Net) : (s.setNet n).ops = s.ops := rfl
@[simp] theorem setNet_sb (n : Net) : (s.setNet n).sb = s.sb := rfl
@[simp] theorem setNet_moves (n : Net) : (s.setNet n).moves = s.moves := rfl
@[simp] theorem setNet_clus (n : Net) : (s.setNet n).clus = s.clus := rfl
@[simp] theorem setNet_vfs (n : Net) : (s.setNet n).vfs = s.vfs := rfl
@[simp] theorem setNet_launches (n : Net) : (s.setNet n).launches = s.launches := rfl
@[simp] theorem setNet_teams (n : Net) : (s.setNet n).teams = s.teams := rfl
@[simp] theorem setNet_pkg (n : Net) : (s.setNet n).pkg = s.pkg := rfl
@[simp] theorem setNet_hostRd (n : Net) : (s.setNet n).hostRd = s.hostRd := rfl
@[simp] theorem setNet_peerRd (n : Net) : (s.setNet n).peerRd = s.peerRd := rfl
@[simp] theorem setNet_peerOut (n : Net) : (s.setNet n).peerOut = s.peerOut := rfl
@[simp] theorem setNet_held (n : Net) : (s.setNet n).held = s.held := rfl
@[simp] theorem setNet_far (n : Net) : (s.setNet n).far = s.far := rfl
@[simp] theorem setNet_now (n : Net) : (s.setNet n).now = s.now := rfl
@[simp] theorem setNet_cur (n : Net) : (s.setNet n).cur = s.cur := rfl
@[simp] theorem setNet_nid (n : Net) : (s.setNet n).nid = s.nid := rfl
@[simp] theorem setNet_nfree (n : Net) : (s.setNet n).nfree = s.nfree := rfl
@[simp] theorem setNet_last (n : Net) : (s.setNet n).last = s.last := rfl
@[simp] theorem setNet_agenda (n : Net) : (s.setNet n).agenda = s.agenda := rfl

/-! ### `setPkg` -/

@[simp] theorem setPkg_ctxs (p : Pkg) : (s.setPkg p).ctxs = s.ctxs := rfl
@[simp] theorem setPkg_cores (p : Pkg) : (s.setPkg p).cores = s.cores := rfl
@[simp] theorem setPkg_mem (p : Pkg) : (s.setPkg p).mem = s.mem := rfl
@[simp] theorem setPkg_ops (p : Pkg) : (s.setPkg p).ops = s.ops := rfl
@[simp] theorem setPkg_sb (p : Pkg) : (s.setPkg p).sb = s.sb := rfl
@[simp] theorem setPkg_moves (p : Pkg) : (s.setPkg p).moves = s.moves := rfl
@[simp] theorem setPkg_clus (p : Pkg) : (s.setPkg p).clus = s.clus := rfl
@[simp] theorem setPkg_vfs (p : Pkg) : (s.setPkg p).vfs = s.vfs := rfl
@[simp] theorem setPkg_launches (p : Pkg) : (s.setPkg p).launches = s.launches := rfl
@[simp] theorem setPkg_teams (p : Pkg) : (s.setPkg p).teams = s.teams := rfl
@[simp] theorem setPkg_net (p : Pkg) : (s.setPkg p).net = s.net := rfl
@[simp] theorem setPkg_hostRd (p : Pkg) : (s.setPkg p).hostRd = s.hostRd := rfl
@[simp] theorem setPkg_peerRd (p : Pkg) : (s.setPkg p).peerRd = s.peerRd := rfl
@[simp] theorem setPkg_peerOut (p : Pkg) : (s.setPkg p).peerOut = s.peerOut := rfl
@[simp] theorem setPkg_held (p : Pkg) : (s.setPkg p).held = s.held := rfl
@[simp] theorem setPkg_far (p : Pkg) : (s.setPkg p).far = s.far := rfl
@[simp] theorem setPkg_now (p : Pkg) : (s.setPkg p).now = s.now := rfl
@[simp] theorem setPkg_cur (p : Pkg) : (s.setPkg p).cur = s.cur := rfl
@[simp] theorem setPkg_nid (p : Pkg) : (s.setPkg p).nid = s.nid := rfl
@[simp] theorem setPkg_nfree (p : Pkg) : (s.setPkg p).nfree = s.nfree := rfl
@[simp] theorem setPkg_last (p : Pkg) : (s.setPkg p).last = s.last := rfl
@[simp] theorem setPkg_agenda (p : Pkg) : (s.setPkg p).agenda = s.agenda := rfl

/-! ### `setLaunches` -/

@[simp] theorem setLaunches_ctxs (l : List Launch) : (s.setLaunches l).ctxs = s.ctxs := rfl
@[simp] theorem setLaunches_cores (l : List Launch) : (s.setLaunches l).cores = s.cores := rfl
@[simp] theorem setLaunches_mem (l : List Launch) : (s.setLaunches l).mem = s.mem := rfl
@[simp] theorem setLaunches_ops (l : List Launch) : (s.setLaunches l).ops = s.ops := rfl
@[simp] theorem setLaunches_sb (l : List Launch) : (s.setLaunches l).sb = s.sb := rfl
@[simp] theorem setLaunches_moves (l : List Launch) : (s.setLaunches l).moves = s.moves := rfl
@[simp] theorem setLaunches_clus (l : List Launch) : (s.setLaunches l).clus = s.clus := rfl
@[simp] theorem setLaunches_vfs (l : List Launch) : (s.setLaunches l).vfs = s.vfs := rfl
@[simp] theorem setLaunches_teams (l : List Launch) : (s.setLaunches l).teams = s.teams := rfl
@[simp] theorem setLaunches_net (l : List Launch) : (s.setLaunches l).net = s.net := rfl
@[simp] theorem setLaunches_pkg (l : List Launch) : (s.setLaunches l).pkg = s.pkg := rfl
@[simp] theorem setLaunches_hostRd (l : List Launch) : (s.setLaunches l).hostRd = s.hostRd := rfl
@[simp] theorem setLaunches_peerRd (l : List Launch) : (s.setLaunches l).peerRd = s.peerRd := rfl
@[simp] theorem setLaunches_peerOut (l : List Launch) : (s.setLaunches l).peerOut = s.peerOut := rfl
@[simp] theorem setLaunches_held (l : List Launch) : (s.setLaunches l).held = s.held := rfl
@[simp] theorem setLaunches_far (l : List Launch) : (s.setLaunches l).far = s.far := rfl
@[simp] theorem setLaunches_now (l : List Launch) : (s.setLaunches l).now = s.now := rfl
@[simp] theorem setLaunches_cur (l : List Launch) : (s.setLaunches l).cur = s.cur := rfl
@[simp] theorem setLaunches_nid (l : List Launch) : (s.setLaunches l).nid = s.nid := rfl
@[simp] theorem setLaunches_nfree (l : List Launch) : (s.setLaunches l).nfree = s.nfree := rfl
@[simp] theorem setLaunches_last (l : List Launch) : (s.setLaunches l).last = s.last := rfl
@[simp] theorem setLaunches_agenda (l : List Launch) : (s.setLaunches l).agenda = s.agenda := rfl

/-! ### `setTeams` -/

@[simp] theorem setTeams_ctxs (t : List Team) : (s.setTeams t).ctxs = s.ctxs := rfl
@[simp] theorem setTeams_cores (t : List Team) : (s.setTeams t).cores = s.cores := rfl
@[simp] theorem setTeams_mem (t : List Team) : (s.setTeams t).mem = s.mem := rfl
@[simp] theorem setTeams_ops (t : List Team) : (s.setTeams t).ops = s.ops := rfl
@[simp] theorem setTeams_sb (t : List Team) : (s.setTeams t).sb = s.sb := rfl
@[simp] theorem setTeams_moves (t : List Team) : (s.setTeams t).moves = s.moves := rfl
@[simp] theorem setTeams_clus (t : List Team) : (s.setTeams t).clus = s.clus := rfl
@[simp] theorem setTeams_vfs (t : List Team) : (s.setTeams t).vfs = s.vfs := rfl
@[simp] theorem setTeams_launches (t : List Team) : (s.setTeams t).launches = s.launches := rfl
@[simp] theorem setTeams_net (t : List Team) : (s.setTeams t).net = s.net := rfl
@[simp] theorem setTeams_pkg (t : List Team) : (s.setTeams t).pkg = s.pkg := rfl
@[simp] theorem setTeams_hostRd (t : List Team) : (s.setTeams t).hostRd = s.hostRd := rfl
@[simp] theorem setTeams_peerRd (t : List Team) : (s.setTeams t).peerRd = s.peerRd := rfl
@[simp] theorem setTeams_peerOut (t : List Team) : (s.setTeams t).peerOut = s.peerOut := rfl
@[simp] theorem setTeams_held (t : List Team) : (s.setTeams t).held = s.held := rfl
@[simp] theorem setTeams_far (t : List Team) : (s.setTeams t).far = s.far := rfl
@[simp] theorem setTeams_now (t : List Team) : (s.setTeams t).now = s.now := rfl
@[simp] theorem setTeams_cur (t : List Team) : (s.setTeams t).cur = s.cur := rfl
@[simp] theorem setTeams_nid (t : List Team) : (s.setTeams t).nid = s.nid := rfl
@[simp] theorem setTeams_nfree (t : List Team) : (s.setTeams t).nfree = s.nfree := rfl
@[simp] theorem setTeams_last (t : List Team) : (s.setTeams t).last = s.last := rfl
@[simp] theorem setTeams_agenda (t : List Team) : (s.setTeams t).agenda = s.agenda := rfl

/-! ### `setTeam` -/

@[simp] theorem setTeam_ctxs (t : Team) : (s.setTeam t).ctxs = s.ctxs := rfl
@[simp] theorem setTeam_cores (t : Team) : (s.setTeam t).cores = s.cores := rfl
@[simp] theorem setTeam_mem (t : Team) : (s.setTeam t).mem = s.mem := rfl
@[simp] theorem setTeam_ops (t : Team) : (s.setTeam t).ops = s.ops := rfl
@[simp] theorem setTeam_sb (t : Team) : (s.setTeam t).sb = s.sb := rfl
@[simp] theorem setTeam_moves (t : Team) : (s.setTeam t).moves = s.moves := rfl
@[simp] theorem setTeam_clus (t : Team) : (s.setTeam t).clus = s.clus := rfl
@[simp] theorem setTeam_vfs (t : Team) : (s.setTeam t).vfs = s.vfs := rfl
@[simp] theorem setTeam_launches (t : Team) : (s.setTeam t).launches = s.launches := rfl
@[simp] theorem setTeam_net (t : Team) : (s.setTeam t).net = s.net := rfl
@[simp] theorem setTeam_pkg (t : Team) : (s.setTeam t).pkg = s.pkg := rfl
@[simp] theorem setTeam_hostRd (t : Team) : (s.setTeam t).hostRd = s.hostRd := rfl
@[simp] theorem setTeam_peerRd (t : Team) : (s.setTeam t).peerRd = s.peerRd := rfl
@[simp] theorem setTeam_peerOut (t : Team) : (s.setTeam t).peerOut = s.peerOut := rfl
@[simp] theorem setTeam_held (t : Team) : (s.setTeam t).held = s.held := rfl
@[simp] theorem setTeam_far (t : Team) : (s.setTeam t).far = s.far := rfl
@[simp] theorem setTeam_now (t : Team) : (s.setTeam t).now = s.now := rfl
@[simp] theorem setTeam_cur (t : Team) : (s.setTeam t).cur = s.cur := rfl
@[simp] theorem setTeam_nid (t : Team) : (s.setTeam t).nid = s.nid := rfl
@[simp] theorem setTeam_nfree (t : Team) : (s.setTeam t).nfree = s.nfree := rfl
@[simp] theorem setTeam_last (t : Team) : (s.setTeam t).last = s.last := rfl
@[simp] theorem setTeam_agenda (t : Team) : (s.setTeam t).agenda = s.agenda := rfl

/-! ### `setLaunch` -/

@[simp] theorem setLaunch_ctxs (l : Launch) : (s.setLaunch l).ctxs = s.ctxs := rfl
@[simp] theorem setLaunch_cores (l : Launch) : (s.setLaunch l).cores = s.cores := rfl
@[simp] theorem setLaunch_mem (l : Launch) : (s.setLaunch l).mem = s.mem := rfl
@[simp] theorem setLaunch_ops (l : Launch) : (s.setLaunch l).ops = s.ops := rfl
@[simp] theorem setLaunch_sb (l : Launch) : (s.setLaunch l).sb = s.sb := rfl
@[simp] theorem setLaunch_moves (l : Launch) : (s.setLaunch l).moves = s.moves := rfl
@[simp] theorem setLaunch_clus (l : Launch) : (s.setLaunch l).clus = s.clus := rfl
@[simp] theorem setLaunch_vfs (l : Launch) : (s.setLaunch l).vfs = s.vfs := rfl
@[simp] theorem setLaunch_teams (l : Launch) : (s.setLaunch l).teams = s.teams := rfl
@[simp] theorem setLaunch_net (l : Launch) : (s.setLaunch l).net = s.net := rfl
@[simp] theorem setLaunch_pkg (l : Launch) : (s.setLaunch l).pkg = s.pkg := rfl
@[simp] theorem setLaunch_hostRd (l : Launch) : (s.setLaunch l).hostRd = s.hostRd := rfl
@[simp] theorem setLaunch_peerRd (l : Launch) : (s.setLaunch l).peerRd = s.peerRd := rfl
@[simp] theorem setLaunch_peerOut (l : Launch) : (s.setLaunch l).peerOut = s.peerOut := rfl
@[simp] theorem setLaunch_held (l : Launch) : (s.setLaunch l).held = s.held := rfl
@[simp] theorem setLaunch_far (l : Launch) : (s.setLaunch l).far = s.far := rfl
@[simp] theorem setLaunch_now (l : Launch) : (s.setLaunch l).now = s.now := rfl
@[simp] theorem setLaunch_cur (l : Launch) : (s.setLaunch l).cur = s.cur := rfl
@[simp] theorem setLaunch_nid (l : Launch) : (s.setLaunch l).nid = s.nid := rfl
@[simp] theorem setLaunch_nfree (l : Launch) : (s.setLaunch l).nfree = s.nfree := rfl
@[simp] theorem setLaunch_last (l : Launch) : (s.setLaunch l).last = s.last := rfl
@[simp] theorem setLaunch_agenda (l : Launch) : (s.setLaunch l).agenda = s.agenda := rfl

/-! ### `setOp` -/

@[simp] theorem setOp_ctxs (o : Op) : (s.setOp o).ctxs = s.ctxs := rfl
@[simp] theorem setOp_cores (o : Op) : (s.setOp o).cores = s.cores := rfl
@[simp] theorem setOp_mem (o : Op) : (s.setOp o).mem = s.mem := rfl
@[simp] theorem setOp_sb (o : Op) : (s.setOp o).sb = s.sb := rfl
@[simp] theorem setOp_moves (o : Op) : (s.setOp o).moves = s.moves := rfl
@[simp] theorem setOp_clus (o : Op) : (s.setOp o).clus = s.clus := rfl
@[simp] theorem setOp_vfs (o : Op) : (s.setOp o).vfs = s.vfs := rfl
@[simp] theorem setOp_launches (o : Op) : (s.setOp o).launches = s.launches := rfl
@[simp] theorem setOp_teams (o : Op) : (s.setOp o).teams = s.teams := rfl
@[simp] theorem setOp_net (o : Op) : (s.setOp o).net = s.net := rfl
@[simp] theorem setOp_pkg (o : Op) : (s.setOp o).pkg = s.pkg := rfl
@[simp] theorem setOp_hostRd (o : Op) : (s.setOp o).hostRd = s.hostRd := rfl
@[simp] theorem setOp_peerRd (o : Op) : (s.setOp o).peerRd = s.peerRd := rfl
@[simp] theorem setOp_peerOut (o : Op) : (s.setOp o).peerOut = s.peerOut := rfl
@[simp] theorem setOp_held (o : Op) : (s.setOp o).held = s.held := rfl
@[simp] theorem setOp_far (o : Op) : (s.setOp o).far = s.far := rfl
@[simp] theorem setOp_now (o : Op) : (s.setOp o).now = s.now := rfl
@[simp] theorem setOp_cur (o : Op) : (s.setOp o).cur = s.cur := rfl
@[simp] theorem setOp_nid (o : Op) : (s.setOp o).nid = s.nid := rfl
@[simp] theorem setOp_nfree (o : Op) : (s.setOp o).nfree = s.nfree := rfl
@[simp] theorem setOp_last (o : Op) : (s.setOp o).last = s.last := rfl
@[simp] theorem setOp_agenda (o : Op) : (s.setOp o).agenda = s.agenda := rfl

/-! ### `dropOp` -/

@[simp] theorem dropOp_ctxs (id : Nat) : (s.dropOp id).ctxs = s.ctxs := rfl
@[simp] theorem dropOp_cores (id : Nat) : (s.dropOp id).cores = s.cores := rfl
@[simp] theorem dropOp_mem (id : Nat) : (s.dropOp id).mem = s.mem := rfl
@[simp] theorem dropOp_sb (id : Nat) : (s.dropOp id).sb = s.sb := rfl
@[simp] theorem dropOp_moves (id : Nat) : (s.dropOp id).moves = s.moves := rfl
@[simp] theorem dropOp_clus (id : Nat) : (s.dropOp id).clus = s.clus := rfl
@[simp] theorem dropOp_vfs (id : Nat) : (s.dropOp id).vfs = s.vfs := rfl
@[simp] theorem dropOp_launches (id : Nat) : (s.dropOp id).launches = s.launches := rfl
@[simp] theorem dropOp_teams (id : Nat) : (s.dropOp id).teams = s.teams := rfl
@[simp] theorem dropOp_net (id : Nat) : (s.dropOp id).net = s.net := rfl
@[simp] theorem dropOp_pkg (id : Nat) : (s.dropOp id).pkg = s.pkg := rfl
@[simp] theorem dropOp_hostRd (id : Nat) : (s.dropOp id).hostRd = s.hostRd := rfl
@[simp] theorem dropOp_peerRd (id : Nat) : (s.dropOp id).peerRd = s.peerRd := rfl
@[simp] theorem dropOp_peerOut (id : Nat) : (s.dropOp id).peerOut = s.peerOut := rfl
@[simp] theorem dropOp_held (id : Nat) : (s.dropOp id).held = s.held := rfl
@[simp] theorem dropOp_far (id : Nat) : (s.dropOp id).far = s.far := rfl
@[simp] theorem dropOp_now (id : Nat) : (s.dropOp id).now = s.now := rfl
@[simp] theorem dropOp_cur (id : Nat) : (s.dropOp id).cur = s.cur := rfl
@[simp] theorem dropOp_nid (id : Nat) : (s.dropOp id).nid = s.nid := rfl
@[simp] theorem dropOp_nfree (id : Nat) : (s.dropOp id).nfree = s.nfree := rfl
@[simp] theorem dropOp_last (id : Nat) : (s.dropOp id).last = s.last := rfl
@[simp] theorem dropOp_agenda (id : Nat) : (s.dropOp id).agenda = s.agenda := rfl

/-! ### `bumpId` -/

@[simp] theorem bumpId_ctxs : (s.bumpId).ctxs = s.ctxs := rfl
@[simp] theorem bumpId_cores : (s.bumpId).cores = s.cores := rfl
@[simp] theorem bumpId_mem : (s.bumpId).mem = s.mem := rfl
@[simp] theorem bumpId_ops : (s.bumpId).ops = s.ops := rfl
@[simp] theorem bumpId_sb : (s.bumpId).sb = s.sb := rfl
@[simp] theorem bumpId_moves : (s.bumpId).moves = s.moves := rfl
@[simp] theorem bumpId_clus : (s.bumpId).clus = s.clus := rfl
@[simp] theorem bumpId_vfs : (s.bumpId).vfs = s.vfs := rfl
@[simp] theorem bumpId_launches : (s.bumpId).launches = s.launches := rfl
@[simp] theorem bumpId_teams : (s.bumpId).teams = s.teams := rfl
@[simp] theorem bumpId_net : (s.bumpId).net = s.net := rfl
@[simp] theorem bumpId_pkg : (s.bumpId).pkg = s.pkg := rfl
@[simp] theorem bumpId_hostRd : (s.bumpId).hostRd = s.hostRd := rfl
@[simp] theorem bumpId_peerRd : (s.bumpId).peerRd = s.peerRd := rfl
@[simp] theorem bumpId_peerOut : (s.bumpId).peerOut = s.peerOut := rfl
@[simp] theorem bumpId_held : (s.bumpId).held = s.held := rfl
@[simp] theorem bumpId_far : (s.bumpId).far = s.far := rfl
@[simp] theorem bumpId_now : (s.bumpId).now = s.now := rfl
@[simp] theorem bumpId_cur : (s.bumpId).cur = s.cur := rfl
@[simp] theorem bumpId_nfree : (s.bumpId).nfree = s.nfree := rfl
@[simp] theorem bumpId_last : (s.bumpId).last = s.last := rfl
@[simp] theorem bumpId_agenda : (s.bumpId).agenda = s.agenda := rfl

/-! ### `setSlot` -/

@[simp] theorem setSlot_ctxs (core n : Nat) (x : Slot) : (s.setSlot core n x).ctxs = s.ctxs := rfl
@[simp] theorem setSlot_mem (core n : Nat) (x : Slot) : (s.setSlot core n x).mem = s.mem := rfl
@[simp] theorem setSlot_ops (core n : Nat) (x : Slot) : (s.setSlot core n x).ops = s.ops := rfl
@[simp] theorem setSlot_sb (core n : Nat) (x : Slot) : (s.setSlot core n x).sb = s.sb := rfl
@[simp] theorem setSlot_moves (core n : Nat) (x : Slot) : (s.setSlot core n x).moves = s.moves := rfl
@[simp] theorem setSlot_clus (core n : Nat) (x : Slot) : (s.setSlot core n x).clus = s.clus := rfl
@[simp] theorem setSlot_vfs (core n : Nat) (x : Slot) : (s.setSlot core n x).vfs = s.vfs := rfl
@[simp] theorem setSlot_launches (core n : Nat) (x : Slot) : (s.setSlot core n x).launches = s.launches := rfl
@[simp] theorem setSlot_teams (core n : Nat) (x : Slot) : (s.setSlot core n x).teams = s.teams := rfl
@[simp] theorem setSlot_net (core n : Nat) (x : Slot) : (s.setSlot core n x).net = s.net := rfl
@[simp] theorem setSlot_pkg (core n : Nat) (x : Slot) : (s.setSlot core n x).pkg = s.pkg := rfl
@[simp] theorem setSlot_hostRd (core n : Nat) (x : Slot) : (s.setSlot core n x).hostRd = s.hostRd := rfl
@[simp] theorem setSlot_peerRd (core n : Nat) (x : Slot) : (s.setSlot core n x).peerRd = s.peerRd := rfl
@[simp] theorem setSlot_peerOut (core n : Nat) (x : Slot) : (s.setSlot core n x).peerOut = s.peerOut := rfl
@[simp] theorem setSlot_held (core n : Nat) (x : Slot) : (s.setSlot core n x).held = s.held := rfl
@[simp] theorem setSlot_far (core n : Nat) (x : Slot) : (s.setSlot core n x).far = s.far := rfl
@[simp] theorem setSlot_now (core n : Nat) (x : Slot) : (s.setSlot core n x).now = s.now := rfl
@[simp] theorem setSlot_cur (core n : Nat) (x : Slot) : (s.setSlot core n x).cur = s.cur := rfl
@[simp] theorem setSlot_nid (core n : Nat) (x : Slot) : (s.setSlot core n x).nid = s.nid := rfl
@[simp] theorem setSlot_nfree (core n : Nat) (x : Slot) : (s.setSlot core n x).nfree = s.nfree := rfl
@[simp] theorem setSlot_last (core n : Nat) (x : Slot) : (s.setSlot core n x).last = s.last := rfl
@[simp] theorem setSlot_agenda (core n : Nat) (x : Slot) : (s.setSlot core n x).agenda = s.agenda := rfl

/-! ### `setBank` -/

@[simp] theorem setBank_ctxs (w : Nat) (b : Bank) : (s.setBank w b).ctxs = s.ctxs := rfl
@[simp] theorem setBank_cores (w : Nat) (b : Bank) : (s.setBank w b).cores = s.cores := rfl
@[simp] theorem setBank_ops (w : Nat) (b : Bank) : (s.setBank w b).ops = s.ops := rfl
@[simp] theorem setBank_sb (w : Nat) (b : Bank) : (s.setBank w b).sb = s.sb := rfl
@[simp] theorem setBank_moves (w : Nat) (b : Bank) : (s.setBank w b).moves = s.moves := rfl
@[simp] theorem setBank_clus (w : Nat) (b : Bank) : (s.setBank w b).clus = s.clus := rfl
@[simp] theorem setBank_vfs (w : Nat) (b : Bank) : (s.setBank w b).vfs = s.vfs := rfl
@[simp] theorem setBank_launches (w : Nat) (b : Bank) : (s.setBank w b).launches = s.launches := rfl
@[simp] theorem setBank_teams (w : Nat) (b : Bank) : (s.setBank w b).teams = s.teams := rfl
@[simp] theorem setBank_net (w : Nat) (b : Bank) : (s.setBank w b).net = s.net := rfl
@[simp] theorem setBank_pkg (w : Nat) (b : Bank) : (s.setBank w b).pkg = s.pkg := rfl
@[simp] theorem setBank_hostRd (w : Nat) (b : Bank) : (s.setBank w b).hostRd = s.hostRd := rfl
@[simp] theorem setBank_peerRd (w : Nat) (b : Bank) : (s.setBank w b).peerRd = s.peerRd := rfl
@[simp] theorem setBank_peerOut (w : Nat) (b : Bank) : (s.setBank w b).peerOut = s.peerOut := rfl
@[simp] theorem setBank_held (w : Nat) (b : Bank) : (s.setBank w b).held = s.held := rfl
@[simp] theorem setBank_far (w : Nat) (b : Bank) : (s.setBank w b).far = s.far := rfl
@[simp] theorem setBank_now (w : Nat) (b : Bank) : (s.setBank w b).now = s.now := rfl
@[simp] theorem setBank_cur (w : Nat) (b : Bank) : (s.setBank w b).cur = s.cur := rfl
@[simp] theorem setBank_nid (w : Nat) (b : Bank) : (s.setBank w b).nid = s.nid := rfl
@[simp] theorem setBank_nfree (w : Nat) (b : Bank) : (s.setBank w b).nfree = s.nfree := rfl
@[simp] theorem setBank_last (w : Nat) (b : Bank) : (s.setBank w b).last = s.last := rfl
@[simp] theorem setBank_agenda (w : Nat) (b : Bank) : (s.setBank w b).agenda = s.agenda := rfl

/-! ### `setSlice` -/

@[simp] theorem setSlice_ctxs (n : Nat) (x : Slice) : (s.setSlice n x).ctxs = s.ctxs := rfl
@[simp] theorem setSlice_cores (n : Nat) (x : Slice) : (s.setSlice n x).cores = s.cores := rfl
@[simp] theorem setSlice_ops (n : Nat) (x : Slice) : (s.setSlice n x).ops = s.ops := rfl
@[simp] theorem setSlice_sb (n : Nat) (x : Slice) : (s.setSlice n x).sb = s.sb := rfl
@[simp] theorem setSlice_moves (n : Nat) (x : Slice) : (s.setSlice n x).moves = s.moves := rfl
@[simp] theorem setSlice_clus (n : Nat) (x : Slice) : (s.setSlice n x).clus = s.clus := rfl
@[simp] theorem setSlice_vfs (n : Nat) (x : Slice) : (s.setSlice n x).vfs = s.vfs := rfl
@[simp] theorem setSlice_launches (n : Nat) (x : Slice) : (s.setSlice n x).launches = s.launches := rfl
@[simp] theorem setSlice_teams (n : Nat) (x : Slice) : (s.setSlice n x).teams = s.teams := rfl
@[simp] theorem setSlice_net (n : Nat) (x : Slice) : (s.setSlice n x).net = s.net := rfl
@[simp] theorem setSlice_pkg (n : Nat) (x : Slice) : (s.setSlice n x).pkg = s.pkg := rfl
@[simp] theorem setSlice_hostRd (n : Nat) (x : Slice) : (s.setSlice n x).hostRd = s.hostRd := rfl
@[simp] theorem setSlice_peerRd (n : Nat) (x : Slice) : (s.setSlice n x).peerRd = s.peerRd := rfl
@[simp] theorem setSlice_peerOut (n : Nat) (x : Slice) : (s.setSlice n x).peerOut = s.peerOut := rfl
@[simp] theorem setSlice_held (n : Nat) (x : Slice) : (s.setSlice n x).held = s.held := rfl
@[simp] theorem setSlice_far (n : Nat) (x : Slice) : (s.setSlice n x).far = s.far := rfl
@[simp] theorem setSlice_now (n : Nat) (x : Slice) : (s.setSlice n x).now = s.now := rfl
@[simp] theorem setSlice_cur (n : Nat) (x : Slice) : (s.setSlice n x).cur = s.cur := rfl
@[simp] theorem setSlice_nid (n : Nat) (x : Slice) : (s.setSlice n x).nid = s.nid := rfl
@[simp] theorem setSlice_nfree (n : Nat) (x : Slice) : (s.setSlice n x).nfree = s.nfree := rfl
@[simp] theorem setSlice_last (n : Nat) (x : Slice) : (s.setSlice n x).last = s.last := rfl
@[simp] theorem setSlice_agenda (n : Nat) (x : Slice) : (s.setSlice n x).agenda = s.agenda := rfl

/-! ### `countUp` -/

@[simp] theorem countUp_cores (a : Nat) (k : Cls) (n : Nat) : (s.countUp a k n).cores = s.cores := rfl
@[simp] theorem countUp_mem (a : Nat) (k : Cls) (n : Nat) : (s.countUp a k n).mem = s.mem := rfl
@[simp] theorem countUp_ops (a : Nat) (k : Cls) (n : Nat) : (s.countUp a k n).ops = s.ops := rfl
@[simp] theorem countUp_sb (a : Nat) (k : Cls) (n : Nat) : (s.countUp a k n).sb = s.sb := rfl
@[simp] theorem countUp_moves (a : Nat) (k : Cls) (n : Nat) : (s.countUp a k n).moves = s.moves := rfl
@[simp] theorem countUp_clus (a : Nat) (k : Cls) (n : Nat) : (s.countUp a k n).clus = s.clus := rfl
@[simp] theorem countUp_vfs (a : Nat) (k : Cls) (n : Nat) : (s.countUp a k n).vfs = s.vfs := rfl
@[simp] theorem countUp_launches (a : Nat) (k : Cls) (n : Nat) : (s.countUp a k n).launches = s.launches := rfl
@[simp] theorem countUp_teams (a : Nat) (k : Cls) (n : Nat) : (s.countUp a k n).teams = s.teams := rfl
@[simp] theorem countUp_net (a : Nat) (k : Cls) (n : Nat) : (s.countUp a k n).net = s.net := rfl
@[simp] theorem countUp_pkg (a : Nat) (k : Cls) (n : Nat) : (s.countUp a k n).pkg = s.pkg := rfl
@[simp] theorem countUp_hostRd (a : Nat) (k : Cls) (n : Nat) : (s.countUp a k n).hostRd = s.hostRd := rfl
@[simp] theorem countUp_peerRd (a : Nat) (k : Cls) (n : Nat) : (s.countUp a k n).peerRd = s.peerRd := rfl
@[simp] theorem countUp_peerOut (a : Nat) (k : Cls) (n : Nat) : (s.countUp a k n).peerOut = s.peerOut := rfl
@[simp] theorem countUp_held (a : Nat) (k : Cls) (n : Nat) : (s.countUp a k n).held = s.held := rfl
@[simp] theorem countUp_far (a : Nat) (k : Cls) (n : Nat) : (s.countUp a k n).far = s.far := rfl
@[simp] theorem countUp_now (a : Nat) (k : Cls) (n : Nat) : (s.countUp a k n).now = s.now := rfl
@[simp] theorem countUp_cur (a : Nat) (k : Cls) (n : Nat) : (s.countUp a k n).cur = s.cur := rfl
@[simp] theorem countUp_nid (a : Nat) (k : Cls) (n : Nat) : (s.countUp a k n).nid = s.nid := rfl
@[simp] theorem countUp_nfree (a : Nat) (k : Cls) (n : Nat) : (s.countUp a k n).nfree = s.nfree := rfl
@[simp] theorem countUp_last (a : Nat) (k : Cls) (n : Nat) : (s.countUp a k n).last = s.last := rfl
@[simp] theorem countUp_agenda (a : Nat) (k : Cls) (n : Nat) : (s.countUp a k n).agenda = s.agenda := rfl

/-! ### `countDown` -/

@[simp] theorem countDown_cores (a : Nat) (k : Cls) (n : Nat) : (s.countDown a k n).cores = s.cores := rfl
@[simp] theorem countDown_mem (a : Nat) (k : Cls) (n : Nat) : (s.countDown a k n).mem = s.mem := rfl
@[simp] theorem countDown_ops (a : Nat) (k : Cls) (n : Nat) : (s.countDown a k n).ops = s.ops := rfl
@[simp] theorem countDown_sb (a : Nat) (k : Cls) (n : Nat) : (s.countDown a k n).sb = s.sb := rfl
@[simp] theorem countDown_moves (a : Nat) (k : Cls) (n : Nat) : (s.countDown a k n).moves = s.moves := rfl
@[simp] theorem countDown_clus (a : Nat) (k : Cls) (n : Nat) : (s.countDown a k n).clus = s.clus := rfl
@[simp] theorem countDown_vfs (a : Nat) (k : Cls) (n : Nat) : (s.countDown a k n).vfs = s.vfs := rfl
@[simp] theorem countDown_launches (a : Nat) (k : Cls) (n : Nat) : (s.countDown a k n).launches = s.launches := rfl
@[simp] theorem countDown_teams (a : Nat) (k : Cls) (n : Nat) : (s.countDown a k n).teams = s.teams := rfl
@[simp] theorem countDown_net (a : Nat) (k : Cls) (n : Nat) : (s.countDown a k n).net = s.net := rfl
@[simp] theorem countDown_pkg (a : Nat) (k : Cls) (n : Nat) : (s.countDown a k n).pkg = s.pkg := rfl
@[simp] theorem countDown_hostRd (a : Nat) (k : Cls) (n : Nat) : (s.countDown a k n).hostRd = s.hostRd := rfl
@[simp] theorem countDown_peerRd (a : Nat) (k : Cls) (n : Nat) : (s.countDown a k n).peerRd = s.peerRd := rfl
@[simp] theorem countDown_peerOut (a : Nat) (k : Cls) (n : Nat) : (s.countDown a k n).peerOut = s.peerOut := rfl
@[simp] theorem countDown_held (a : Nat) (k : Cls) (n : Nat) : (s.countDown a k n).held = s.held := rfl
@[simp] theorem countDown_far (a : Nat) (k : Cls) (n : Nat) : (s.countDown a k n).far = s.far := rfl
@[simp] theorem countDown_now (a : Nat) (k : Cls) (n : Nat) : (s.countDown a k n).now = s.now := rfl
@[simp] theorem countDown_cur (a : Nat) (k : Cls) (n : Nat) : (s.countDown a k n).cur = s.cur := rfl
@[simp] theorem countDown_nid (a : Nat) (k : Cls) (n : Nat) : (s.countDown a k n).nid = s.nid := rfl
@[simp] theorem countDown_nfree (a : Nat) (k : Cls) (n : Nat) : (s.countDown a k n).nfree = s.nfree := rfl
@[simp] theorem countDown_last (a : Nat) (k : Cls) (n : Nat) : (s.countDown a k n).last = s.last := rfl
@[simp] theorem countDown_agenda (a : Nat) (k : Cls) (n : Nat) : (s.countDown a k n).agenda = s.agenda := rfl

/-! ### Reading a directory -/

theorem ctxAt_setCtx (a b : Nat) (c : Ctx) : (s.setCtx a c).ctxAt b = if b = a then c else s.ctxAt b := Tbl.get_set _ _ _ _ _
@[simp] theorem ctxAt_setCtx_same (a : Nat) (c : Ctx) : (s.setCtx a c).ctxAt a = c := Tbl.get_set_same _ _ _ _
theorem ctxAt_modCtx (a b : Nat) (f : Ctx → Ctx) : (s.modCtx a f).ctxAt b = if b = a then f (s.ctxAt a) else s.ctxAt b :=
  ctxAt_setCtx s a b _
@[simp] theorem ctxAt_modCtx_same (a : Nat) (f : Ctx → Ctx) : (s.modCtx a f).ctxAt a = f (s.ctxAt a) := ctxAt_setCtx_same s a _
@[simp] theorem ctxAt_modMe_same (f : Ctx → Ctx) : (s.modMe f).ctxAt s.cur = f s.me := ctxAt_setCtx_same s _ _
theorem ctxAt_modMe_ne {b : Nat} (f : Ctx → Ctx) (h : b ≠ s.cur) : (s.modMe f).ctxAt b = s.ctxAt b := Tbl.get_set_ne _ _ _ h
@[simp] theorem me_setMe (c : Ctx) : (s.setMe c).me = c := ctxAt_setCtx_same s _ _
@[simp] theorem me_modMe (f : Ctx → Ctx) : (s.modMe f).me = f s.me := ctxAt_setCtx_same s _ _
@[simp] theorem me_modCore (k : Nat) (f : Core → Core) : (s.modCore k f).me = s.me := rfl
@[simp] theorem ctxAt_modCore (k a : Nat) (f : Core → Core) : (s.modCore k f).ctxAt a = s.ctxAt a := rfl

theorem coreAt_setCore (k j : Nat) (c : Core) : (s.setCore k c).coreAt j = if j = k then c else s.coreAt j := Tbl.get_set _ _ _ _ _
@[simp] theorem coreAt_setCore_same (k : Nat) (c : Core) : (s.setCore k c).coreAt k = c := Tbl.get_set_same _ _ _ _
theorem coreAt_modCore (k j : Nat) (f : Core → Core) :
    (s.modCore k f).coreAt j = if j = k then f (s.coreAt k) else s.coreAt j := coreAt_setCore s k j _
@[simp] theorem coreAt_modCore_same (k : Nat) (f : Core → Core) : (s.modCore k f).coreAt k = f (s.coreAt k) :=
  coreAt_setCore_same s k _
@[simp] theorem coreAt_modMe (k : Nat) (f : Ctx → Ctx) : (s.modMe f).coreAt k = s.coreAt k := rfl
@[simp] theorem coreAt_modCtx (a k : Nat) (f : Ctx → Ctx) : (s.modCtx a f).coreAt k = s.coreAt k := rfl

theorem vfAt_setVf (v w : Nat) (f : VF) : (s.setVf v f).vfAt w = if w = v then f else s.vfAt w := Tbl.get_set _ _ _ _ _
@[simp] theorem vfAt_setVf_same (v : Nat) (f : VF) : (s.setVf v f).vfAt v = f := Tbl.get_set_same _ _ _ _
@[simp] theorem vfAt_modVf_same (v : Nat) (f : VF → VF) : (s.modVf v f).vfAt v = f (s.vfAt v) := vfAt_setVf_same s v _
theorem cluAt_setClu (k j : Nat) (c : Cluster) : (s.setClu k c).cluAt j = if j = k then c else s.cluAt j := Tbl.get_set _ _ _ _ _
@[simp] theorem cluAt_setClu_same (k : Nat) (c : Cluster) : (s.setClu k c).cluAt k = c := Tbl.get_set_same _ _ _ _
@[simp] theorem cluAt_modClu_same (k : Nat) (f : Cluster → Cluster) : (s.modClu k f).cluAt k = f (s.cluAt k) :=
  cluAt_setClu_same s k _

theorem slotAt_setSlot (core n j : Nat) (x : Slot) :
    (s.setSlot core n x).slotAt core j = if j = n then x else s.slotAt core j := by
  simp [setSlot, slotAt, Tbl.get_set]
@[simp] theorem slotAt_setSlot_same (core n : Nat) (x : Slot) : (s.setSlot core n x).slotAt core n = x := by
  simp [slotAt_setSlot]
theorem slotAt_setSlot_ne {core k : Nat} (n j : Nat) (x : Slot) (h : k ≠ core) :
    (s.setSlot core n x).slotAt k j = s.slotAt k j := by
  simp [setSlot, slotAt, coreAt_modCore, h]

theorem bankAt_setBank (w v : Nat) (b : Bank) : (s.setBank w b).bankAt v = if v = w then b else s.bankAt v := Tbl.get_set _ _ _ _ _
theorem sliceAt_setSlice (n m : Nat) (x : Slice) : (s.setSlice n x).sliceAt m = if m = n then x else s.sliceAt m :=
  Tbl.get_set _ _ _ _ _

/-! ### `noteSlots`, `putSlot` -/

@[simp] theorem noteSlots_ctxs (core : Nat) : (s.noteSlots core).ctxs = s.ctxs := rfl
@[simp] theorem noteSlots_mem (core : Nat) : (s.noteSlots core).mem = s.mem := rfl
@[simp] theorem noteSlots_ops (core : Nat) : (s.noteSlots core).ops = s.ops := rfl
@[simp] theorem noteSlots_moves (core : Nat) : (s.noteSlots core).moves = s.moves := rfl
@[simp] theorem noteSlots_now (core : Nat) : (s.noteSlots core).now = s.now := rfl
@[simp] theorem putSlot_ctxs (core n : Nat) (x : Slot) : (s.putSlot core n x).ctxs = s.ctxs := rfl
@[simp] theorem putSlot_mem (core n : Nat) (x : Slot) : (s.putSlot core n x).mem = s.mem := rfl
@[simp] theorem putSlot_ops (core n : Nat) (x : Slot) : (s.putSlot core n x).ops = s.ops := rfl
@[simp] theorem putSlot_moves (core n : Nat) (x : Slot) : (s.putSlot core n x).moves = s.moves := rfl
@[simp] theorem putSlot_now (core n : Nat) (x : Slot) : (s.putSlot core n x).now = s.now := rfl

@[simp] theorem slotAt_noteSlots (core k n : Nat) : (s.noteSlots core).slotAt k n = s.slotAt k n := by
  by_cases h : k = core
  · subst h
    simp only [noteSlots, slotAt, coreAt_modCore_same]
    split <;> rfl
  · simp [noteSlots, slotAt, coreAt_modCore, h]
theorem slotAt_putSlot (core n j : Nat) (x : Slot) :
    (s.putSlot core n x).slotAt core j = if j = n then x else s.slotAt core j := by
  simp [putSlot, slotAt_setSlot]
@[simp] theorem slotAt_putSlot_same (core n : Nat) (x : Slot) : (s.putSlot core n x).slotAt core n = x := by
  simp [slotAt_putSlot]
theorem slotAt_putSlot_ne {core k : Nat} (n j : Nat) (x : Slot) (h : k ≠ core) :
    (s.putSlot core n x).slotAt k j = s.slotAt k j := by
  simp [putSlot, slotAt_setSlot_ne _ _ _ _ h]

end State

end Sys2Proof.Machine
end

