-- ==== Sys2Proof/Laws/Ops.lean ====
section
/-!
SUPPORT. What the shared operations of an instruction come to: the checks that may park it, the gate of the k field, the
outcome, and the registers after a write.
-/

namespace Sys2Proof.Machine

namespace State

variable (s : State)

/-! ### The checks -/

theorem needSrc_ok (ns : List SReg) (h : s.allFull ns = true) : s.needSrc ns = .ok () := by
  induction ns with
  | nil => rfl
  | cons n ns ih =>
    have h' : (s.regAt n.val).full = true ∧ s.allFull ns = true := by simpa [allFull] using h
    simp [needSrc, h'.1, ih h'.2]

/-- A source that is empty parks the instruction, and nothing else comes of it (R23). -/
theorem needSrc_parks (ns : List SReg) (h : s.allFull ns = false) : ∃ w, s.needSrc ns = .error (.park w) := by
  induction ns with
  | nil => simp [allFull] at h
  | cons n ns ih =>
    cases hn : (s.regAt n.val).full with
    | false => exact ⟨_, by simp [needSrc, hn]; rfl⟩
    | true =>
      obtain ⟨w, hw⟩ := ih (by simpa [allFull, hn] using h)
      exact ⟨w, by simpa [needSrc, hn] using hw⟩

theorem needDst_ok (d : Nat) (h : s.takes d = true) : s.needDst d = .ok () := by
  unfold takes at h; unfold needDst
  split
  · rfl
  · split
    · simp_all
    · split <;> simp_all

/-- A destination with a result outstanding, or a full output queue, parks the instruction (R21, R24). -/
theorem needDst_parks (d : Nat) (h : s.takes d = false) : ∃ w, s.needDst d = .error (.park w) := by
  unfold takes at h; unfold needDst
  split
  · simp_all
  · split
    · exact ⟨.dest, by simp_all⟩
    · split
      · refine ⟨.queue (d - 56) true, if_neg ?_⟩
        simp_all
      · simp_all

theorem needVec_ok (vs : List VReg) (h : s.vecFull vs = true) : s.needVec vs = .ok () := by
  induction vs with
  | nil => rfl
  | cons n ns ih =>
    have h' : (s.vecAt n).full = true ∧ s.vecFull ns = true := by simpa [vecFull] using h
    simp [needVec, h'.1, ih h'.2]

theorem needVDst_ok (d : VReg) (h : s.vecTakes d = true) : s.needVDst d = .ok () := by
  unfold vecTakes at h; unfold needVDst; simp_all

theorem gated_acting (k : MReg) (len : Nat) (r : Eff) (h : s.acting k = true) : s.gated k len r = r := by
  simp only [acting] at h; simp [gated, h]

/-- With the gate shut the instruction only advances the pc (R86). -/
theorem gated_shut (k : MReg) (len : Nat) (r : Eff) (h : s.acting k = false) : s.gated k len r = .ok (s.retire len) := by
  simp only [acting] at h; simp [gated, h]

/-- What readiness gives: the gate is open, the sources are full, the destination takes a result. -/
theorem ready_iff (k : MReg) (ns : List SReg) (d : Nat) :
    s.ready k ns d = true ↔ s.acting k = true ∧ s.allFull ns = true ∧ s.takes d = true := by
  simp [ready, and_assoc]

theorem vecReady_iff (xs : List SReg) (vs : List VReg) (d : VReg) :
    s.vecReady xs vs d = true ↔ s.allFull xs = true ∧ s.vecFull vs = true ∧ s.vecTakes d = true := by
  simp [vecReady, and_assoc]

/-- `k0` lets every instruction act (R17, R86). -/
@[simp] theorem acting_zero : s.acting 0 = true := by simp [acting, maskBit, maskVal]

/-! ### The outcome -/

@[simp] theorem finish_ok (len : Nat) (t : State) : s.finish len (.ok t) = .next t := rfl
@[simp] theorem finish_park (len : Nat) (w : Wait) : s.finish len (.error (.park w)) = .next (s.park w) := rfl
@[simp] theorem finish_trap (len c : Nat) (v : Word) :
    s.finish len (.error (.trap c v false)) = .next ((s.takeTrap c v s.me.pc false false).endedPast len) := rfl
@[simp] theorem finish_trap_next (len c : Nat) (v : Word) :
    s.finish len (.error (.trap c v true)) = .next ((s.takeTrap c v (s.me.pc + BitVec.ofNat 64 len) false false).endedPast len) := rfl

/-- An instruction always has an outcome: the machine goes on (R39, R154). -/
theorem finish_next (len : Nat) (r : Eff) : ∃ t, s.finish len r = .next t := by
  unfold finish
  split
  · exact ⟨_, rfl⟩
  · exact ⟨_, rfl⟩
  · exact ⟨_, rfl⟩

@[simp] theorem fired_some (t : State) : s.fired (some t) = .next t := rfl
/-- An event that is not able to happen changes nothing. -/
@[simp] theorem fired_none : s.fired none = .next s := rfl

/-! ### The scalar operand forms -/

/-- Where no source is a queue port, a result is written at issue (R22). -/
theorem putResult_of_not_pops (ns : List SReg) (d : SReg) (v : Word) (h : pops ns = false) :
    s.putResult ns d v = (s.popSrc ns).writeReg d.val v := by simp [putResult, h]

/-- Where a queue is popped into an `x` register, the result is deferred (R22, log 62). -/
theorem putResult_of_pops (ns : List SReg) (d : SReg) (v : Word) (h : pops ns = true) (h0 : 0 < d.val) (h1 : d.val < 48) :
    s.putResult ns d v = (s.popSrc ns).deferS d v popLat := by simp [putResult, h, h0, h1]

theorem opRR_ok (k : MReg) (d a b : SReg) (f : Word → Word → Word) (h : s.ready k [a, b] d.val = true) :
    s.opRR k d a b f = .ok ((s.putResult [a, b] d (f (s.regVal a) (s.regVal b))).retire 8) := by
  obtain ⟨hk, hs, hd⟩ := (s.ready_iff k _ _).mp h
  simp [opRR, s.gated_acting _ _ _ hk, s.needSrc_ok _ hs, s.needDst_ok _ hd, bind, Except.bind]

theorem opRI_ok (k : MReg) (d a : SReg) (i : Imm) (f : Word → Word → Word) (h : s.ready k [a] d.val = true) :
    s.opRI k d a i f = .ok ((s.putResult [a] d (f (s.regVal a) i.value)).retire i.bytes) := by
  obtain ⟨hk, hs, hd⟩ := (s.ready_iff k _ _).mp h
  simp [opRI, s.gated_acting _ _ _ hk, s.needSrc_ok _ hs, s.needDst_ok _ hd, bind, Except.bind]

theorem opR_ok (k : MReg) (d a : SReg) (f : Word → Word) (h : s.ready k [a] d.val = true) :
    s.opR k d a f = .ok ((s.putResult [a] d (f (s.regVal a))).retire 8) := by
  obtain ⟨hk, hs, hd⟩ := (s.ready_iff k _ _).mp h
  simp [opR, s.gated_acting _ _ _ hk, s.needSrc_ok _ hs, s.needDst_ok _ hd, bind, Except.bind]

theorem opRRd_ok (k : MReg) (d a b : SReg) (lat : Nat) (chk : Word → Option Stop) (f : Word → Word → Word)
    (h : s.ready k [a, b] d.val = true) (hc : chk (s.regVal b) = none) :
    s.opRRd k d a b lat chk f = .ok (((s.popSrc [a, b]).deferS d (f (s.regVal a) (s.regVal b)) lat).retire 8) := by
  obtain ⟨hk, hs, hd⟩ := (s.ready_iff k _ _).mp h
  simp [opRRd, s.gated_acting _ _ _ hk, s.needSrc_ok _ hs, s.needDst_ok _ hd, hc, bind, Except.bind]

theorem opRRd_trap (k : MReg) (d a b : SReg) (lat : Nat) (chk : Word → Option Stop) (f : Word → Word → Word) (e : Stop)
    (h : s.ready k [a, b] d.val = true) (hc : chk (s.regVal b) = some e) :
    s.opRRd k d a b lat chk f = .error e := by
  obtain ⟨hk, hs, hd⟩ := (s.ready_iff k _ _).mp h
  simp [opRRd, s.gated_acting _ _ _ hk, s.needSrc_ok _ hs, s.needDst_ok _ hd, hc, bind, Except.bind]

theorem opRId_ok (k : MReg) (d a : SReg) (i : Imm) (lat : Nat) (chk : Word → Option Stop) (f : Word → Word → Word)
    (h : s.ready k [a] d.val = true) (hc : chk i.value = none) :
    s.opRId k d a i lat chk f = .ok (((s.popSrc [a]).deferS d (f (s.regVal a) i.value) lat).retire i.bytes) := by
  obtain ⟨hk, hs, hd⟩ := (s.ready_iff k _ _).mp h
  simp [opRId, s.gated_acting _ _ _ hk, s.needSrc_ok _ hs, s.needDst_ok _ hd, hc, bind, Except.bind]

/-! ### Ports of wells, slice cycles -/

@[simp] theorem usePort_ctxs (w : Nat) : (s.usePort w).ctxs = s.ctxs := rfl
@[simp] theorem usePort_ops (w : Nat) : (s.usePort w).ops = s.ops := rfl
@[simp] theorem usePort_cores (w : Nat) : (s.usePort w).cores = s.cores := rfl
@[simp] theorem usePort_mem (w : Nat) : (s.usePort w).mem = { s.mem with ports := Tbl.set 0 s.mem.ports w (s.now + 1) } := rfl
@[simp] theorem portFree_usePort_same (w : Nat) : (s.usePort w).portFree w = false := by
  simp [portFree, usePort, setMem]
theorem portFree_usePort_ne {v w : Nat} (h : v ≠ w) : (s.usePort w).portFree v = s.portFree v := by
  simp [portFree, usePort, setMem, Tbl.get_set, h]

@[simp] theorem admitted_ctxs (n : Nat) (ni : Option Nat) : (s.admitted n ni).ctxs = s.ctxs := rfl
@[simp] theorem admitted_ops (n : Nat) (ni : Option Nat) : (s.admitted n ni).ops = s.ops := rfl
@[simp] theorem admitted_sb (n : Nat) (ni : Option Nat) : (s.admitted n ni).sb = s.sb := rfl
@[simp] theorem admitted_lines (n : Nat) (ni : Option Nat) : (s.admitted n ni).mem.lines = s.mem.lines := rfl
@[simp] theorem admitted_hbm (n : Nat) (ni : Option Nat) : (s.admitted n ni).mem.hbm = s.mem.hbm := rfl
@[simp] theorem admitted_vers (n : Nat) (ni : Option Nat) : (s.admitted n ni).mem.vers = s.mem.vers := rfl
/-- One request of a slice per slice cycle (R225). -/
@[simp] theorem slotFree_admitted_same (n : Nat) (ni : Option Nat) : (s.admitted n ni).slotFree n = false := by
  simp only [slotFree, admitted, sliceAt_setSlice, ↓reduceIte, Option.all_some, setSlice_now]
  split <;> try split
  all_goals simp <;> omega

end State

end Sys2Proof.Machine
end

