-- ==== Sys2Proof/Laws/PerInstr.lean ====
section
/-!
SUPPORT. The fields of every instruction read back: `ofFields` of the fields that `toRaw` gives is the instruction (R81-R92). One
lemma for each constructor; an event has no fields.
-/

namespace Sys2Proof.Laws.RoundTrip
set_option linter.unusedSimpArgs false
set_option Elab.async false

open Sys2Proof

/-- The fields of the instruction, where it has fields, are those of no other. -/
def Statement (i : Instr) : Prop := i.wellFormed = true → ∀ r, toRaw i = some r → ofFields r = .ok i

/-! ### Fields -/

@[simp] theorem sReg_bits (s : SReg) : sReg (sBits s) = .ok s := by
  simp only [sReg, sBits, BitVec.toNat_ofNat, Nat.mod_eq_of_lt (show s.val < 2 ^ 6 by omega)]; simp [s.isLt]
@[simp] theorem vReg_bits (v : VReg) : vReg (vBits v) = .ok v := by
  simp only [vReg, vBits, BitVec.toNat_ofNat, Nat.mod_eq_of_lt (show v.val < 2 ^ 6 by omega)]; simp [v.isLt]
@[simp] theorem mReg_bits (m : MReg) : mReg (mBits m) = .ok m := by
  simp only [mReg, mBits, BitVec.toNat_ofNat, Nat.mod_eq_of_lt (show m.val < 2 ^ 6 by omega)]; simp [m.isLt]
@[simp] theorem kBits_toFin (k : MReg) : (kBits k).toFin = k := by revert k; decide
@[simp] theorem fin4_toFin (n : Fin 4) : (BitVec.ofNat 2 n.val).toFin = n := by revert n; decide
@[simp] theorem fin16_toFin (n : Fin 16) : (BitVec.ofNat 4 n.val).toFin = n := by revert n; decide
@[simp] theorem fin64_toFin (n : Fin 64) : (BitVec.ofNat 6 n.val).toFin = n := by revert n; decide

@[simp] theorem ty_code (t : Ty) : Ty.ofCode t.code = some t := by cases t <;> rfl
@[simp] theorem scope_code (x : Scope) : Scope.ofCode x.code = some x := by cases x <;> rfl
@[simp] theorem size_code (x : Size) : Size.ofCode x.code = x := by cases x <;> rfl
@[simp] theorem order_code (x : Order) : Order.ofCode x.code = x := by cases x <;> rfl
@[simp] theorem amoOp_code (x : AmoOp) : AmoOp.ofCode x.code = some x := by cases x <;> rfl
@[simp] theorem redOp_code (x : RedOp) : RedOp.ofCode x.code = some x := by cases x <;> rfl
@[simp] theorem nredOp_code (x : NredOp) : NredOp.ofCode x.code = some x := by cases x <;> rfl
@[simp] theorem scheme_code (x : Scheme) : Scheme.ofCode x.code = some x := by cases x <;> rfl
@[simp] theorem wFmt_code (x : WFmt) : WFmt.ofCode x.code = some x := by cases x <;> rfl
@[simp] theorem aFmt_code (x : AFmt) : AFmt.ofCode x.code = some x := by cases x <;> rfl
@[simp] theorem laneW_code (x : LaneW) : LaneW.ofCode x.code = some x := by cases x <;> rfl
@[simp] theorem cpyDst_code (x : CpyDst) : CpyDst.ofCode x.code = some x := by cases x <;> rfl
@[simp] theorem cc_code (x : Cc) : Cc.ofCode x.code = some x := by cases x <;> rfl
@[simp] theorem vcc_code (x : VCc) : VCc.ofCode x.code = some x := by cases x <;> rfl

/-! ### Fields of a word as the decoder reads them -/

/-- Bits of a word from `i` on, `n` of them. -/
def partAt {w : Nat} (x : BitVec w) (i n : Nat) : BitVec n := x.extractLsb' i n
/-- Bit `i` of a word. -/
def flagAt {w : Nat} (x : BitVec w) (i : Nat) : Bool := x.getLsbD i
/-- A number held in the `k` bits of a word from `i` on. -/
def numAt {w : Nat} (k : Nat) (x : BitVec w) (i : Nat) : Fin (2 ^ k) := (x.extractLsb' i k).toFin
/-- The low bits of a word. -/
def lowAt {w : Nat} (x : BitVec w) (n : Nat) : BitVec n := x.setWidth n

@[simp] theorem dab_eq (r : Raw) (mk : MkDab) : r.dab mk = (do return mk r.kReg (← sReg r.d) (← sReg r.a) (← sReg r.b)) := rfl
@[simp] theorem dai_eq (r : Raw) (mk : MkDai) : r.dai mk = (do return mk r.kReg (← sReg r.d) (← sReg r.a) r.immOf) := rfl
@[simp] theorem da_eq (r : Raw) (mk : MReg → SReg → SReg → Instr) : r.da mk = (do return mk r.kReg (← sReg r.d) (← sReg r.a)) := rfl
@[simp] theorem d1_eq (r : Raw) (mk : MReg → SReg → Instr) : r.d1 mk = (do return mk r.kReg (← sReg r.d)) := rfl
@[simp] theorem abc_eq (r : Raw) (mk : MReg → SReg → SReg → SReg → Instr) :
    r.abc mk = (do return mk r.kReg (← sReg r.a) (← sReg r.b) (← sReg r.c)) := rfl
@[simp] theorem vvv_eq (r : Raw) (mk : MkVvv) : r.vvv mk = (do return mk r.kReg (← r.ty) (← vReg r.d) (← vReg r.a) (← vReg r.b)) := rfl
@[simp] theorem vvs_eq (r : Raw) (mk : MkVvs) : r.vvs mk = (do return mk r.kReg (← r.ty) (← vReg r.d) (← vReg r.a) (← sReg r.b)) := rfl
@[simp] theorem vv_eq (r : Raw) (mk : MReg → Ty → VReg → VReg → Instr) : r.vv mk = (do return mk r.kReg (← r.ty) (← vReg r.d) (← vReg r.a)) := rfl
@[simp] theorem kReg_eq (r : Raw) : r.kReg = r.k.toFin := rfl
@[simp] theorem ty_eq (r : Raw) : r.ty = listed (Ty.ofCode (partAt r.minor 0 4)) := rfl
@[simp] theorem op_eq (r : Raw) : r.op = partAt r.minor 4 4 := rfl
@[simp] theorem size_eq (r : Raw) : r.size = Size.ofCode (partAt r.minor 0 2) := rfl
@[simp] theorem order_eq (r : Raw) : r.order = Order.ofCode (partAt r.minor 2 2) := rfl
@[simp] theorem scope_eq (r : Raw) : r.scope = listed (Scope.ofCode (partAt r.imm 0 3)) := rfl
@[simp] theorem slot_eq (r : Raw) (n : Nat) : r.slot n = numAt 4 r.imm n := rfl
@[simp] theorem flag_eq (r : Raw) (n : Nat) : r.flag n = flagAt r.imm n := rfl
@[simp] theorem pos_eq (r : Raw) : decodeInteger.pos r = numAt 6 r.imm 0 := rfl
@[simp] theorem wm1_eq (r : Raw) : decodeInteger.wm1 r = numAt 6 r.imm 6 := rfl
@[simp] theorem port_eq (r : Raw) : decodeEngines.port r = numAt 2 r.imm 0 := rfl
@[simp] theorem immOf_withImm (r : Raw) (i : Imm) (h : r.len = 0#2) : (r.withImm i).immOf = i := by
  cases i <;> simp [Raw.withImm, Raw.immOf, h]
@[simp] theorem withImm_k (r : Raw) (i : Imm) : (r.withImm i).k = r.k := by cases i <;> rfl
@[simp] theorem withImm_d (r : Raw) (i : Imm) : (r.withImm i).d = r.d := by cases i <;> rfl
@[simp] theorem withImm_a (r : Raw) (i : Imm) : (r.withImm i).a = r.a := by cases i <;> rfl
@[simp] theorem withImm_b (r : Raw) (i : Imm) : (r.withImm i).b = r.b := by cases i <;> rfl
@[simp] theorem withImm_c (r : Raw) (i : Imm) : (r.withImm i).c = r.c := by cases i <;> rfl
@[simp] theorem withImm_minor (r : Raw) (i : Imm) : (r.withImm i).minor = r.minor := by cases i <;> rfl
@[simp] theorem kReg_withImm (r : Raw) (i : Imm) : (r.withImm i).kReg = r.kReg := by cases i <;> rfl
@[simp] theorem listed_some {α : Type} (x : α) : listed (some x) = .ok x := rfl
@[simp] theorem ok_bind {α β : Type} (x : α) (f : α → Except DecErr β) : (Except.ok x >>= f) = f x := rfl
@[simp] theorem pure_eq {α : Type} (x : α) : (pure x : Except DecErr α) = .ok x := rfl

/-! ### The fields of the encoder -/

theorem part_low {v w n : Nat} (x : BitVec v) (y : BitVec w) {i : Nat} (h : i + n ≤ w) :
    (x ++ y).extractLsb' i n = y.extractLsb' i n := BitVec.extractLsb'_append_eq_of_add_le h
theorem part_high {v w n : Nat} (x : BitVec v) (y : BitVec w) {i : Nat} (h : w ≤ i) :
    (x ++ y).extractLsb' i n = x.extractLsb' (i - w) n := BitVec.extractLsb'_append_eq_of_le h
theorem part_all {w : Nat} (y : BitVec w) : y.extractLsb' 0 w = y := BitVec.extractLsb'_eq_self
theorem low_all {v w : Nat} (x : BitVec v) (y : BitVec w) : (x ++ y).extractLsb' 0 w = y :=
  (part_low x y (by omega)).trans (part_all y)
theorem high_all {v w : Nat} (x : BitVec v) (y : BitVec w) : (x ++ y).extractLsb' w v = x :=
  (part_high x y (Nat.le_refl w)).trans (by rw [Nat.sub_self]; exact part_all x)
theorem mid_all {u v w : Nat} (x : BitVec u) (y : BitVec v) (z : BitVec w) : (x ++ (y ++ z)).extractLsb' w v = y :=
  (part_low x (y ++ z) (by omega)).trans (high_all y z)
theorem mid_low {u v w n i : Nat} (x : BitVec u) (y : BitVec v) (z : BitVec w) (h : i + n ≤ w): (x ++ (y ++ z)).extractLsb' i n = z.extractLsb' i n :=
  (part_low x (y ++ z) (by omega)).trans (part_low y z h)
theorem bit_flag {v w : Nat} (x : BitVec v) (b : Bool) (y : BitVec w) : (x ++ (flagBit 1 b ++ y)).getLsbD w = b := by
  rw [BitVec.getLsbD_append, if_pos (by omega), BitVec.getLsbD_append, if_neg (by omega), Nat.sub_self]
  cases b <;> rfl


@[simp] theorem rawS_eq (m : BitVec 8) (k : MReg) (d a b : SReg) (n : BitVec 8) :
    rawS m k d a b n = { major := m, k := kBits k, d := sBits d, a := sBits a, b := sBits b, minor := n } := rfl
@[simp] theorem rawV_eq (m : BitVec 8) (k : MReg) (d a : VReg) (b : BitVec 6) (n : BitVec 8) :
    rawV m k d a b n = { major := m, k := kBits k, d := vBits d, a := vBits a, b := b, minor := n } := rfl
@[simp] theorem withImm_i18 (r : Raw) (v : BitVec 18) : r.withImm (.i18 v) = { r with imm := v } := rfl
@[simp] theorem withImm_i32 (r : Raw) (v : BitVec 32) : r.withImm (.i32 v) = { r with len := 1, hi := v.setWidth 64 } := rfl
@[simp] theorem withImm_i64 (r : Raw) (v : BitVec 64) : r.withImm (.i64 v) = { r with len := 2, hi := v } := rfl
theorem bit_skip {v w : Nat} (x : BitVec v) (y : BitVec w) {i : Nat} (h : i < w) : (x ++ y).getLsbD i = y.getLsbD i := by
  rw [BitVec.getLsbD_append, if_pos h]
@[simp] theorem opTy_lo (op : BitVec 4) (t : Ty) : partAt (opTy op t) 0 4 = t.code := low_all op t.code
@[simp] theorem opTy_hi (op : BitVec 4) (t : Ty) : partAt (opTy op t) 4 4 = op := high_all op t.code
@[simp] theorem atomic_size (op : BitVec 4) (o : Order) (z : Size) : partAt (atomicMinor op o z) 0 2 = z.code :=
  (mid_low op o.code z.code (by omega)).trans (part_all _)
@[simp] theorem atomic_order (op : BitVec 4) (o : Order) (z : Size) : partAt (atomicMinor op o z) 2 2 = o.code :=
  mid_all op o.code z.code
@[simp] theorem atomic_op (op : BitVec 4) (o : Order) (z : Size) : partAt (atomicMinor op o z) 4 4 = op :=
  high_all op (o.code ++ z.code)
@[simp] theorem scopeImm_scope (x : Scope) : partAt (scopeImm x) 0 3 = x.code := by cases x <;> rfl
@[simp] theorem nib_slot (n : Fin 16) : numAt 4 (nib n) 0 = n := by revert n; decide
@[simp] theorem ld_size (x : Bool) (z : Size) : partAt (w := 8) (0#5 ++ (flagBit 1 x ++ z.code)) 0 2 = z.code :=
  (mid_low 0#5 (flagBit 1 x) z.code (by omega)).trans (part_all _)
@[simp] theorem ld_sign (x : Bool) (z : Size) : flagAt (w := 8) (0#5 ++ (flagBit 1 x ++ z.code)) 2 = x :=
  bit_flag 0#5 x z.code
@[simp] theorem st_size (z : Size) : partAt (w := 8) (0#6 ++ z.code) 0 2 = z.code := low_all 0#6 z.code
@[simp] theorem fence_scope (x : Bool) (z : Scope) : partAt (w := 8) (0#4 ++ (flagBit 1 x ++ z.code)) 0 3 = z.code :=
  (mid_low 0#4 (flagBit 1 x) z.code (by omega)).trans (part_all _)
@[simp] theorem fence_un (x : Bool) (z : Scope) : flagAt (w := 8) (0#4 ++ (flagBit 1 x ++ z.code)) 3 = x :=
  bit_flag 0#4 x z.code
@[simp] theorem bf_pos (p w : Fin 64) : numAt 6 (toRaw.bfImm p w) 0 = p := by
  unfold numAt
  rw [show (toRaw.bfImm p w).extractLsb' 0 6 = BitVec.ofNat 6 p.val from
    (part_low 0#5 (0#1 ++ (BitVec.ofNat 6 w.val ++ BitVec.ofNat 6 p.val)) (by omega)).trans
    ((mid_low 0#1 (BitVec.ofNat 6 w.val) (BitVec.ofNat 6 p.val) (by omega)).trans (part_all _)), fin64_toFin]
@[simp] theorem bf_wm1 (p w : Fin 64) : numAt 6 (toRaw.bfImm p w) 6 = w := by
  unfold numAt
  rw [show (toRaw.bfImm p w).extractLsb' 6 6 = BitVec.ofNat 6 w.val from
    (part_low 0#5 (0#1 ++ (BitVec.ofNat 6 w.val ++ BitVec.ofNat 6 p.val)) (by omega)).trans
    (mid_all 0#1 (BitVec.ofNat 6 w.val) (BitVec.ofNat 6 p.val)), fin64_toFin]
@[simp] theorem port_n (x : Bool) (n : Fin 4) : numAt 2 (toRaw.portImm x n) 0 = n := by revert x n; decide
@[simp] theorem port_rx (x : Bool) (n : Fin 4) : flagAt (toRaw.portImm x n) 2 = x := by revert x n; decide
@[simp] theorem slot_flag (x : Bool) (n : Fin 16) : flagAt (w := 18) (0#13 ++ (flagBit 1 x ++ toRaw.slotBits n)) 4 = x :=
  bit_flag 0#13 x (toRaw.slotBits n)
@[simp] theorem slot_low (x : Bool) (n : Fin 16) : numAt (w := 18) 4 (0#13 ++ (flagBit 1 x ++ toRaw.slotBits n)) 0 = n := by
  revert x n; decide
@[simp] theorem pass_flag (x : Bool) (m n : Fin 16) :
    flagAt (w := 18) (0#9 ++ (flagBit 1 x ++ (toRaw.slotBits m ++ toRaw.slotBits n))) 8 = x :=
  bit_flag 0#9 x (toRaw.slotBits m ++ toRaw.slotBits n)
@[simp] theorem pass_from (x : Bool) (m n : Fin 16) :
    numAt (w := 18) 4 (0#9 ++ (flagBit 1 x ++ (toRaw.slotBits m ++ toRaw.slotBits n))) 0 = n := by
  revert x m n; decide
@[simp] theorem pass_to (x : Bool) (m n : Fin 16) :
    numAt (w := 18) 4 (0#9 ++ (flagBit 1 x ++ (toRaw.slotBits m ++ toRaw.slotBits n))) 4 = m := by
  revert x m n; decide
@[simp] theorem tag_flag (x : Bool) (t : BitVec 8) : flagAt (w := 18) (0#9 ++ (flagBit 1 x ++ t)) 8 = x := bit_flag 0#9 x t
@[simp] theorem tag_low (x : Bool) (t : BitVec 8) : lowAt (w := 18) (0#9 ++ (flagBit 1 x ++ t)) 8 = t := by
  unfold lowAt
  rw [BitVec.setWidth_eq_extractLsb' (by omega)]
  exact (mid_low 0#9 (flagBit 1 x) t (by omega)).trans (part_all _)
@[simp] theorem coll_slot (o : BitVec 3) (f : BitVec 11) (n : Fin 16) :
    numAt (w := 18) 4 (o ++ (f ++ toRaw.slotBits n)) 0 = n := by
  unfold numAt
  rw [show (o ++ (f ++ toRaw.slotBits n) : BitVec 18).extractLsb' 0 4 = BitVec.ofNat 4 n.val from
    (mid_low o f (toRaw.slotBits n) (by omega)).trans (part_all _), fin16_toFin]
@[simp] theorem coll_off (o : BitVec 3) (f : BitVec 11) (n : Fin 16) :
    partAt (w := 18) (o ++ (f ++ toRaw.slotBits n)) 4 11 = f := mid_all o f (toRaw.slotBits n)
@[simp] theorem coll_op (o : BitVec 3) (f : BitVec 11) (n : Fin 16) :
    partAt (w := 18) (o ++ (f ++ toRaw.slotBits n)) 15 3 = o := high_all o (f ++ toRaw.slotBits n)
@[simp] theorem quant_scheme (x : Bool) (z : Scheme) (t : Ty) :
    partAt (w := 8) (flagBit 1 x ++ (z.code ++ t.code)) 4 3 = z.code := mid_all (flagBit 1 x) z.code t.code
@[simp] theorem quant_ty (x : Bool) (z : Scheme) (t : Ty) :
    partAt (w := 8) (flagBit 1 x ++ (z.code ++ t.code)) 0 4 = t.code :=
  (mid_low (flagBit 1 x) z.code t.code (by omega)).trans (part_all _)
@[simp] theorem quant_flag (x : Bool) (z : Scheme) (t : Ty) :
    flagAt (w := 8) (flagBit 1 x ++ (z.code ++ t.code)) 7 = x := by
  cases x <;> cases z <;> cases t <;> rfl
@[simp] theorem cvt_lo (t u : Ty) : partAt (w := 8) (t.code ++ u.code) 0 4 = u.code := low_all t.code u.code
@[simp] theorem cvt_hi (t u : Ty) : partAt (w := 8) (t.code ++ u.code) 4 4 = t.code := high_all t.code u.code
@[simp] theorem comp_flag (x : Bool) : flagAt (w := 8) (flagBit 1 x ++ 0#7) 7 = x := by cases x <;> rfl
@[simp] theorem fmt_code (x : Bool) (f : AFmt) : partAt (w := 8) (flagBit 1 x ++ (0#4 ++ f.code)) 0 3 = f.code := by
  cases x <;> cases f <;> rfl
@[simp] theorem fmt_flag (x : Bool) (f : AFmt) : flagAt (w := 8) (flagBit 1 x ++ (0#4 ++ f.code)) 7 = x := by
  cases x <;> cases f <;> rfl
@[simp] theorem bit0_18 (x : Bool) : flagAt (flagBit 18 x) 0 = x := by cases x <;> rfl
@[simp] theorem bit0_8 (x : Bool) : flagAt (flagBit 8 x) 0 = x := by cases x <;> rfl
@[simp] theorem wait_ld (t c s l : BitVec 8) : partAt (w := 64) (0#32 ++ (t ++ (c ++ (s ++ l)))) 0 8 = l :=
  (part_low 0#32 (t ++ (c ++ (s ++ l))) (by omega)).trans ((part_low t (c ++ (s ++ l)) (by omega)).trans
    ((mid_low c s l (by omega)).trans (part_all _)))
@[simp] theorem wait_st (t c s l : BitVec 8) : partAt (w := 64) (0#32 ++ (t ++ (c ++ (s ++ l)))) 8 8 = s :=
  (part_low 0#32 (t ++ (c ++ (s ++ l))) (by omega)).trans
    ((part_low t (c ++ (s ++ l)) (by omega)).trans (mid_all c s l))
@[simp] theorem wait_cp (t c s l : BitVec 8) : partAt (w := 64) (0#32 ++ (t ++ (c ++ (s ++ l)))) 16 8 = c :=
  (part_low 0#32 (t ++ (c ++ (s ++ l))) (by omega)).trans (mid_all t c (s ++ l))
@[simp] theorem wait_tl (t c s l : BitVec 8) : partAt (w := 64) (0#32 ++ (t ++ (c ++ (s ++ l)))) 24 8 = t :=
  mid_all 0#32 t (c ++ (s ++ l))
@[simp] theorem ext_sfmt (e : CpyExt) : partAt e.bits 60 4 = e.sfmt.code := high_all e.sfmt.code
  (e.dfmt.code ++ (flagBit 1 e.cvt ++ (e.dk.code ++ (flagBit 1 e.irq ++ (e.fon ++ (e.tag ++ 0#36))))))
@[simp] theorem ext_dfmt (e : CpyExt) : partAt e.bits 56 4 = e.dfmt.code := mid_all e.sfmt.code e.dfmt.code
  (flagBit 1 e.cvt ++ (e.dk.code ++ (flagBit 1 e.irq ++ (e.fon ++ (e.tag ++ 0#36)))))
@[simp] theorem ext_cvt (e : CpyExt) : flagAt e.bits 55 = e.cvt :=
  (bit_skip e.sfmt.code (e.dfmt.code ++ (flagBit 1 e.cvt ++ (e.dk.code ++ (flagBit 1 e.irq ++ (e.fon ++ (e.tag ++ 0#36))))))
    (by omega)).trans (bit_flag e.dfmt.code e.cvt (e.dk.code ++ (flagBit 1 e.irq ++ (e.fon ++ (e.tag ++ 0#36)))))
@[simp] theorem ext_dk (e : CpyExt) : partAt e.bits 53 2 = e.dk.code :=
  (part_low e.sfmt.code (e.dfmt.code ++ (flagBit 1 e.cvt ++ (e.dk.code ++ (flagBit 1 e.irq ++ (e.fon ++ (e.tag ++ 0#36))))))
    (by omega)).trans ((part_low e.dfmt.code _ (by omega)).trans
    (mid_all (flagBit 1 e.cvt) e.dk.code (flagBit 1 e.irq ++ (e.fon ++ (e.tag ++ 0#36)))))
@[simp] theorem ext_irq (e : CpyExt) : flagAt e.bits 52 = e.irq :=
  (bit_skip e.sfmt.code (e.dfmt.code ++ (flagBit 1 e.cvt ++ (e.dk.code ++ (flagBit 1 e.irq ++ (e.fon ++ (e.tag ++ 0#36))))))
    (by omega)).trans ((bit_skip e.dfmt.code _ (by omega)).trans ((bit_skip (flagBit 1 e.cvt) _ (by omega)).trans
    (bit_flag e.dk.code e.irq (e.fon ++ (e.tag ++ 0#36)))))
@[simp] theorem ext_fon (e : CpyExt) : partAt e.bits 44 8 = e.fon :=
  (part_low e.sfmt.code (e.dfmt.code ++ (flagBit 1 e.cvt ++ (e.dk.code ++ (flagBit 1 e.irq ++ (e.fon ++ (e.tag ++ 0#36))))))
    (by omega)).trans ((part_low e.dfmt.code _ (by omega)).trans ((part_low (flagBit 1 e.cvt) _ (by omega)).trans
    ((part_low e.dk.code _ (by omega)).trans (mid_all (flagBit 1 e.irq) e.fon (e.tag ++ 0#36)))))
@[simp] theorem ext_tag (e : CpyExt) : partAt e.bits 36 8 = e.tag :=
  (part_low e.sfmt.code (e.dfmt.code ++ (flagBit 1 e.cvt ++ (e.dk.code ++ (flagBit 1 e.irq ++ (e.fon ++ (e.tag ++ 0#36))))))
    (by omega)).trans ((part_low e.dfmt.code _ (by omega)).trans ((part_low (flagBit 1 e.cvt) _ (by omega)).trans
    ((part_low e.dk.code _ (by omega)).trans ((part_low (flagBit 1 e.irq) _ (by omega)).trans (mid_all e.fon e.tag 0#36)))))

theorem op_rawV (m : BitVec 8) (k : MReg) (d a : VReg) (b : BitVec 6) (op : BitVec 4) (t : Ty) :
    (rawV m k d a b (opTy op t)).op = op := opTy_hi op t
theorem op_rawVc (m : BitVec 8) (k : MReg) (d a : VReg) (b c : BitVec 6) (op : BitVec 4) (t : Ty) :
    Raw.op { rawV m k d a b (opTy op t) with c := c } = op := opTy_hi op t

/-! ### The constructors -/

theorem add (k : MReg) (d : SReg) (a : SReg) (b : SReg) : Statement (.add k d a b) := by
  intro _ r h
  obtain rfl := Option.some.inj h
  exact (rfl : _ = (fun (r : Raw) => r.dab .add) (rawS 0x00 k d a b 0x00)).trans (by simp [-Nat.reduceAdd])
theorem addImm (k : MReg) (d : SReg) (a : SReg) (i : Imm) : Statement (.addImm k d a i) := by
  intro _ r h
  obtain rfl := Option.some.inj h
  have key : ∀ (i : Imm), ofFields ((rawS 0x01 k d a 0 0x00).withImm i) = (fun (r : Raw) => r.dai .addImm) ((rawS 0x01 k d a 0 0x00).withImm i) := fun i => by
    cases i <;> rfl
  exact (key i).trans (by simp [-Nat.reduceAdd])
theorem sub (k : MReg) (d : SReg) (a : SReg) (b : SReg) : Statement (.sub k d a b) := by
  intro _ r h
  obtain rfl := Option.some.inj h
  exact (rfl : _ = (fun (r : Raw) => r.dab .sub) (rawS 0x00 k d a b 0x01)).trans (by simp [-Nat.reduceAdd])
theorem subImm (k : MReg) (d : SReg) (a : SReg) (i : Imm) : Statement (.subImm k d a i) := by
  intro _ r h
  obtain rfl := Option.some.inj h
  have key : ∀ (i : Imm), ofFields ((rawS 0x01 k d a 0 0x01).withImm i) = (fun (r : Raw) => r.dai .subImm) ((rawS 0x01 k d a 0 0x01).withImm i) := fun i => by
    cases i <;> rfl
  exact (key i).trans (by simp [-Nat.reduceAdd])
theorem and (k : MReg) (d : SReg) (a : SReg) (b : SReg) : Statement (.and k d a b) := by
  intro _ r h
  obtain rfl := Option.some.inj h
  exact (rfl : _ = (fun (r : Raw) => r.dab .and) (rawS 0x00 k d a b 0x02)).trans (by simp [-Nat.reduceAdd])
theorem andImm (k : MReg) (d : SReg) (a : SReg) (i : Imm) : Statement (.andImm k d a i) := by
  intro _ r h
  obtain rfl := Option.some.inj h
  have key : ∀ (i : Imm), ofFields ((rawS 0x01 k d a 0 0x02).withImm i) = (fun (r : Raw) => r.dai .andImm) ((rawS 0x01 k d a 0 0x02).withImm i) := fun i => by
    cases i <;> rfl
  exact (key i).trans (by simp [-Nat.reduceAdd])
theorem or (k : MReg) (d : SReg) (a : SReg) (b : SReg) : Statement (.or k d a b) := by
  intro _ r h
  obtain rfl := Option.some.inj h
  exact (rfl : _ = (fun (r : Raw) => r.dab .or) (rawS 0x00 k d a b 0x03)).trans (by simp [-Nat.reduceAdd])
theorem orImm (k : MReg) (d : SReg) (a : SReg) (i : Imm) : Statement (.orImm k d a i) := by
  intro _ r h
  obtain rfl := Option.some.inj h
  have key : ∀ (i : Imm), ofFields ((rawS 0x01 k d a 0 0x03).withImm i) = (fun (r : Raw) => r.dai .orImm) ((rawS 0x01 k d a 0 0x03).withImm i) := fun i => by
    cases i <;> rfl
  exact (key i).trans (by simp [-Nat.reduceAdd])
theorem xor (k : MReg) (d : SReg) (a : SReg) (b : SReg) : Statement (.xor k d a b) := by
  intro _ r h
  obtain rfl := Option.some.inj h
  exact (rfl : _ = (fun (r : Raw) => r.dab .xor) (rawS 0x00 k d a b 0x04)).trans (by simp [-Nat.reduceAdd])
theorem xorImm (k : MReg) (d : SReg) (a : SReg) (i : Imm) : Statement (.xorImm k d a i) := by
  intro _ r h
  obtain rfl := Option.some.inj h
  have key : ∀ (i : Imm), ofFields ((rawS 0x01 k d a 0 0x04).withImm i) = (fun (r : Raw) => r.dai .xorImm) ((rawS 0x01 k d a 0 0x04).withImm i) := fun i => by
    cases i <;> rfl
  exact (key i).trans (by simp [-Nat.reduceAdd])
theorem shl (k : MReg) (d : SReg) (a : SReg) (b : SReg) : Statement (.shl k d a b) := by
  intro _ r h
  obtain rfl := Option.some.inj h
  exact (rfl : _ = (fun (r : Raw) => r.dab .shl) (rawS 0x00 k d a b 0x05)).trans (by simp [-Nat.reduceAdd])
theorem shlImm (k : MReg) (d : SReg) (a : SReg) (i : Imm) : Statement (.shlImm k d a i) := by
  intro _ r h
  obtain rfl := Option.some.inj h
  have key : ∀ (i : Imm), ofFields ((rawS 0x01 k d a 0 0x05).withImm i) = (fun (r : Raw) => r.dai .shlImm) ((rawS 0x01 k d a 0 0x05).withImm i) := fun i => by
    cases i <;> rfl
  exact (key i).trans (by simp [-Nat.reduceAdd])
theorem shr (k : MReg) (d : SReg) (a : SReg) (b : SReg) : Statement (.shr k d a b) := by
  intro _ r h
  obtain rfl := Option.some.inj h
  exact (rfl : _ = (fun (r : Raw) => r.dab .shr) (rawS 0x00 k d a b 0x06)).trans (by simp [-Nat.reduceAdd])
theorem shrImm (k : MReg) (d : SReg) (a : SReg) (i : Imm) : Statement (.shrImm k d a i) := by
  intro _ r h
  obtain rfl := Option.some.inj h
  have key : ∀ (i : Imm), ofFields ((rawS 0x01 k d a 0 0x06).withImm i) = (fun (r : Raw) => r.dai .shrImm) ((rawS 0x01 k d a 0 0x06).withImm i) := fun i => by
    cases i <;> rfl
  exact (key i).trans (by simp [-Nat.reduceAdd])
theorem sra (k : MReg) (d : SReg) (a : SReg) (b : SReg) : Statement (.sra k d a b) := by
  intro _ r h
  obtain rfl := Option.some.inj h
  exact (rfl : _ = (fun (r : Raw) => r.dab .sra) (rawS 0x00 k d a b 0x07)).trans (by simp [-Nat.reduceAdd])
theorem sraImm (k : MReg) (d : SReg) (a : SReg) (i : Imm) : Statement (.sraImm k d a i) := by
  intro _ r h
  obtain rfl := Option.some.inj h
  have key : ∀ (i : Imm), ofFields ((rawS 0x01 k d a 0 0x07).withImm i) = (fun (r : Raw) => r.dai .sraImm) ((rawS 0x01 k d a 0 0x07).withImm i) := fun i => by
    cases i <;> rfl
  exact (key i).trans (by simp [-Nat.reduceAdd])
theorem min (k : MReg) (sg : Sign) (d : SReg) (a : SReg) (b : SReg) : Statement (.min k sg d a b) := by
  intro _ r h
  cases sg
  · obtain rfl := Option.some.inj h
    exact (rfl : _ = (fun (r : Raw) => r.dab (fun k => .min k .s)) (rawS 0x00 k d a b (0x08 + (.s : Sign).code))).trans (by simp [-Nat.reduceAdd])
  · obtain rfl := Option.some.inj h
    exact (rfl : _ = (fun (r : Raw) => r.dab (fun k => .min k .z)) (rawS 0x00 k d a b (0x08 + (.z : Sign).code))).trans (by simp [-Nat.reduceAdd])
theorem minImm (k : MReg) (sg : Sign) (d : SReg) (a : SReg) (i : Imm) : Statement (.minImm k sg d a i) := by
  intro _ r h
  cases sg
  · obtain rfl := Option.some.inj h
    have key : ∀ (i : Imm), ofFields ((rawS 0x01 k d a 0 (0x08 + (.s : Sign).code)).withImm i) = (fun (r : Raw) => r.dai (fun k => .minImm k .s)) ((rawS 0x01 k d a 0 (0x08 + (.s : Sign).code)).withImm i) := fun i => by
      cases i <;> rfl
    exact (key i).trans (by simp [-Nat.reduceAdd])
  · obtain rfl := Option.some.inj h
    have key : ∀ (i : Imm), ofFields ((rawS 0x01 k d a 0 (0x08 + (.z : Sign).code)).withImm i) = (fun (r : Raw) => r.dai (fun k => .minImm k .z)) ((rawS 0x01 k d a 0 (0x08 + (.z : Sign).code)).withImm i) := fun i => by
      cases i <;> rfl
    exact (key i).trans (by simp [-Nat.reduceAdd])
theorem max (k : MReg) (sg : Sign) (d : SReg) (a : SReg) (b : SReg) : Statement (.max k sg d a b) := by
  intro _ r h
  cases sg
  · obtain rfl := Option.some.inj h
    exact (rfl : _ = (fun (r : Raw) => r.dab (fun k => .max k .s)) (rawS 0x00 k d a b (0x0A + (.s : Sign).code))).trans (by simp [-Nat.reduceAdd])
  · obtain rfl := Option.some.inj h
    exact (rfl : _ = (fun (r : Raw) => r.dab (fun k => .max k .z)) (rawS 0x00 k d a b (0x0A + (.z : Sign).code))).trans (by simp [-Nat.reduceAdd])
theorem maxImm (k : MReg) (sg : Sign) (d : SReg) (a : SReg) (i : Imm) : Statement (.maxImm k sg d a i) := by
  intro _ r h
  cases sg
  · obtain rfl := Option.some.inj h
    have key : ∀ (i : Imm), ofFields ((rawS 0x01 k d a 0 (0x0A + (.s : Sign).code)).withImm i) = (fun (r : Raw) => r.dai (fun k => .maxImm k .s)) ((rawS 0x01 k d a 0 (0x0A + (.s : Sign).code)).withImm i) := fun i => by
      cases i <;> rfl
    exact (key i).trans (by simp [-Nat.reduceAdd])
  · obtain rfl := Option.some.inj h
    have key : ∀ (i : Imm), ofFields ((rawS 0x01 k d a 0 (0x0A + (.z : Sign).code)).withImm i) = (fun (r : Raw) => r.dai (fun k => .maxImm k .z)) ((rawS 0x01 k d a 0 (0x0A + (.z : Sign).code)).withImm i) := fun i => by
      cases i <;> rfl
    exact (key i).trans (by simp [-Nat.reduceAdd])
theorem mul (k : MReg) (d : SReg) (a : SReg) (b : SReg) : Statement (.mul k d a b) := by
  intro _ r h
  obtain rfl := Option.some.inj h
  exact (rfl : _ = (fun (r : Raw) => r.dab .mul) (rawS 0x02 k d a b 0x00)).trans (by simp [-Nat.reduceAdd])
theorem mulImm (k : MReg) (d : SReg) (a : SReg) (i : Imm) : Statement (.mulImm k d a i) := by
  intro _ r h
  obtain rfl := Option.some.inj h
  have key : ∀ (i : Imm), ofFields ((rawS 0x03 k d a 0 0x00).withImm i) = (fun (r : Raw) => r.dai .mulImm) ((rawS 0x03 k d a 0 0x00).withImm i) := fun i => by
    cases i <;> rfl
  exact (key i).trans (by simp [-Nat.reduceAdd])
theorem mulh (k : MReg) (sg : Sign) (d : SReg) (a : SReg) (b : SReg) : Statement (.mulh k sg d a b) := by
  intro _ r h
  cases sg
  · obtain rfl := Option.some.inj h
    exact (rfl : _ = (fun (r : Raw) => r.dab (fun k => .mulh k .s)) (rawS 0x02 k d a b (0x01 + (.s : Sign).code))).trans (by simp [-Nat.reduceAdd])
  · obtain rfl := Option.some.inj h
    exact (rfl : _ = (fun (r : Raw) => r.dab (fun k => .mulh k .z)) (rawS 0x02 k d a b (0x01 + (.z : Sign).code))).trans (by simp [-Nat.reduceAdd])
theorem mulhImm (k : MReg) (sg : Sign) (d : SReg) (a : SReg) (i : Imm) : Statement (.mulhImm k sg d a i) := by
  intro _ r h
  cases sg
  · obtain rfl := Option.some.inj h
    have key : ∀ (i : Imm), ofFields ((rawS 0x03 k d a 0 (0x01 + (.s : Sign).code)).withImm i) = (fun (r : Raw) => r.dai (fun k => .mulhImm k .s)) ((rawS 0x03 k d a 0 (0x01 + (.s : Sign).code)).withImm i) := fun i => by
      cases i <;> rfl
    exact (key i).trans (by simp [-Nat.reduceAdd])
  · obtain rfl := Option.some.inj h
    have key : ∀ (i : Imm), ofFields ((rawS 0x03 k d a 0 (0x01 + (.z : Sign).code)).withImm i) = (fun (r : Raw) => r.dai (fun k => .mulhImm k .z)) ((rawS 0x03 k d a 0 (0x01 + (.z : Sign).code)).withImm i) := fun i => by
      cases i <;> rfl
    exact (key i).trans (by simp [-Nat.reduceAdd])
theorem div (k : MReg) (sg : Sign) (d : SReg) (a : SReg) (b : SReg) : Statement (.div k sg d a b) := by
  intro _ r h
  cases sg
  · obtain rfl := Option.some.inj h
    exact (rfl : _ = (fun (r : Raw) => r.dab (fun k => .div k .s)) (rawS 0x02 k d a b (0x03 + (.s : Sign).code))).trans (by simp [-Nat.reduceAdd])
  · obtain rfl := Option.some.inj h
    exact (rfl : _ = (fun (r : Raw) => r.dab (fun k => .div k .z)) (rawS 0x02 k d a b (0x03 + (.z : Sign).code))).trans (by simp [-Nat.reduceAdd])
theorem divImm (k : MReg) (sg : Sign) (d : SReg) (a : SReg) (i : Imm) : Statement (.divImm k sg d a i) := by
  intro _ r h
  cases sg
  · obtain rfl := Option.some.inj h
    have key : ∀ (i : Imm), ofFields ((rawS 0x03 k d a 0 (0x03 + (.s : Sign).code)).withImm i) = (fun (r : Raw) => r.dai (fun k => .divImm k .s)) ((rawS 0x03 k d a 0 (0x03 + (.s : Sign).code)).withImm i) := fun i => by
      cases i <;> rfl
    exact (key i).trans (by simp [-Nat.reduceAdd])
  · obtain rfl := Option.some.inj h
    have key : ∀ (i : Imm), ofFields ((rawS 0x03 k d a 0 (0x03 + (.z : Sign).code)).withImm i) = (fun (r : Raw) => r.dai (fun k => .divImm k .z)) ((rawS 0x03 k d a 0 (0x03 + (.z : Sign).code)).withImm i) := fun i => by
      cases i <;> rfl
    exact (key i).trans (by simp [-Nat.reduceAdd])
theorem rem (k : MReg) (sg : Sign) (d : SReg) (a : SReg) (b : SReg) : Statement (.rem k sg d a b) := by
  intro _ r h
  cases sg
  · obtain rfl := Option.some.inj h
    exact (rfl : _ = (fun (r : Raw) => r.dab (fun k => .rem k .s)) (rawS 0x02 k d a b (0x05 + (.s : Sign).code))).trans (by simp [-Nat.reduceAdd])
  · obtain rfl := Option.some.inj h
    exact (rfl : _ = (fun (r : Raw) => r.dab (fun k => .rem k .z)) (rawS 0x02 k d a b (0x05 + (.z : Sign).code))).trans (by simp [-Nat.reduceAdd])
theorem remImm (k : MReg) (sg : Sign) (d : SReg) (a : SReg) (i : Imm) : Statement (.remImm k sg d a i) := by
  intro _ r h
  cases sg
  · obtain rfl := Option.some.inj h
    have key : ∀ (i : Imm), ofFields ((rawS 0x03 k d a 0 (0x05 + (.s : Sign).code)).withImm i) = (fun (r : Raw) => r.dai (fun k => .remImm k .s)) ((rawS 0x03 k d a 0 (0x05 + (.s : Sign).code)).withImm i) := fun i => by
      cases i <;> rfl
    exact (key i).trans (by simp [-Nat.reduceAdd])
  · obtain rfl := Option.some.inj h
    have key : ∀ (i : Imm), ofFields ((rawS 0x03 k d a 0 (0x05 + (.z : Sign).code)).withImm i) = (fun (r : Raw) => r.dai (fun k => .remImm k .z)) ((rawS 0x03 k d a 0 (0x05 + (.z : Sign).code)).withImm i) := fun i => by
      cases i <;> rfl
    exact (key i).trans (by simp [-Nat.reduceAdd])
theorem slt (k : MReg) (d : SReg) (a : SReg) (b : SReg) : Statement (.slt k d a b) := by
  intro _ r h
  obtain rfl := Option.some.inj h
  exact (rfl : _ = (fun (r : Raw) => r.dab .slt) (rawS 0x04 k d a b 0x00)).trans (by simp [-Nat.reduceAdd])
theorem sltImm (k : MReg) (d : SReg) (a : SReg) (i : Imm) : Statement (.sltImm k d a i) := by
  intro _ r h
  obtain rfl := Option.some.inj h
  have key : ∀ (i : Imm), ofFields ((rawS 0x05 k d a 0 0x00).withImm i) = (fun (r : Raw) => r.dai .sltImm) ((rawS 0x05 k d a 0 0x00).withImm i) := fun i => by
    cases i <;> rfl
  exact (key i).trans (by simp [-Nat.reduceAdd])
theorem sltu (k : MReg) (d : SReg) (a : SReg) (b : SReg) : Statement (.sltu k d a b) := by
  intro _ r h
  obtain rfl := Option.some.inj h
  exact (rfl : _ = (fun (r : Raw) => r.dab .sltu) (rawS 0x04 k d a b 0x01)).trans (by simp [-Nat.reduceAdd])
theorem sltuImm (k : MReg) (d : SReg) (a : SReg) (i : Imm) : Statement (.sltuImm k d a i) := by
  intro _ r h
  obtain rfl := Option.some.inj h
  have key : ∀ (i : Imm), ofFields ((rawS 0x05 k d a 0 0x01).withImm i) = (fun (r : Raw) => r.dai .sltuImm) ((rawS 0x05 k d a 0 0x01).withImm i) := fun i => by
    cases i <;> rfl
  exact (key i).trans (by simp [-Nat.reduceAdd])
theorem seq (k : MReg) (d : SReg) (a : SReg) (b : SReg) : Statement (.seq k d a b) := by
  intro _ r h
  obtain rfl := Option.some.inj h
  exact (rfl : _ = (fun (r : Raw) => r.dab .seq) (rawS 0x04 k d a b 0x02)).trans (by simp [-Nat.reduceAdd])
theorem seqImm (k : MReg) (d : SReg) (a : SReg) (i : Imm) : Statement (.seqImm k d a i) := by
  intro _ r h
  obtain rfl := Option.some.inj h
  have key : ∀ (i : Imm), ofFields ((rawS 0x05 k d a 0 0x02).withImm i) = (fun (r : Raw) => r.dai .seqImm) ((rawS 0x05 k d a 0 0x02).withImm i) := fun i => by
    cases i <;> rfl
  exact (key i).trans (by simp [-Nat.reduceAdd])
theorem sne (k : MReg) (d : SReg) (a : SReg) (b : SReg) : Statement (.sne k d a b) := by
  intro _ r h
  obtain rfl := Option.some.inj h
  exact (rfl : _ = (fun (r : Raw) => r.dab .sne) (rawS 0x04 k d a b 0x03)).trans (by simp [-Nat.reduceAdd])
theorem sneImm (k : MReg) (d : SReg) (a : SReg) (i : Imm) : Statement (.sneImm k d a i) := by
  intro _ r h
  obtain rfl := Option.some.inj h
  have key : ∀ (i : Imm), ofFields ((rawS 0x05 k d a 0 0x03).withImm i) = (fun (r : Raw) => r.dai .sneImm) ((rawS 0x05 k d a 0 0x03).withImm i) := fun i => by
    cases i <;> rfl
  exact (key i).trans (by simp [-Nat.reduceAdd])
theorem clz (k : MReg) (d : SReg) (a : SReg) : Statement (.clz k d a) := by
  intro _ r h
  obtain rfl := Option.some.inj h
  exact (rfl : _ = (fun (r : Raw) => r.da .clz) (rawS 0x06 k d a 0 0x00)).trans (by simp [-Nat.reduceAdd])
theorem ctz (k : MReg) (d : SReg) (a : SReg) : Statement (.ctz k d a) := by
  intro _ r h
  obtain rfl := Option.some.inj h
  exact (rfl : _ = (fun (r : Raw) => r.da .ctz) (rawS 0x06 k d a 0 0x01)).trans (by simp [-Nat.reduceAdd])
theorem popc (k : MReg) (d : SReg) (a : SReg) : Statement (.popc k d a) := by
  intro _ r h
  obtain rfl := Option.some.inj h
  exact (rfl : _ = (fun (r : Raw) => r.da .popc) (rawS 0x06 k d a 0 0x02)).trans (by simp [-Nat.reduceAdd])
theorem sext (k : MReg) (w : ExtW) (d : SReg) (a : SReg) : Statement (.sext k w d a) := by
  intro _ r h
  cases w
  · obtain rfl := Option.some.inj h
    exact (rfl : _ = (fun (r : Raw) => r.da (fun k => .sext k .w8)) (rawS 0x06 k d a 0 (0x10 + (.w8 : ExtW).code))).trans (by simp [-Nat.reduceAdd])
  · obtain rfl := Option.some.inj h
    exact (rfl : _ = (fun (r : Raw) => r.da (fun k => .sext k .w16)) (rawS 0x06 k d a 0 (0x10 + (.w16 : ExtW).code))).trans (by simp [-Nat.reduceAdd])
  · obtain rfl := Option.some.inj h
    exact (rfl : _ = (fun (r : Raw) => r.da (fun k => .sext k .w32)) (rawS 0x06 k d a 0 (0x10 + (.w32 : ExtW).code))).trans (by simp [-Nat.reduceAdd])
theorem zext (k : MReg) (w : ExtW) (d : SReg) (a : SReg) : Statement (.zext k w d a) := by
  intro _ r h
  cases w
  · obtain rfl := Option.some.inj h
    exact (rfl : _ = (fun (r : Raw) => r.da (fun k => .zext k .w8)) (rawS 0x06 k d a 0 (0x14 + (.w8 : ExtW).code))).trans (by simp [-Nat.reduceAdd])
  · obtain rfl := Option.some.inj h
    exact (rfl : _ = (fun (r : Raw) => r.da (fun k => .zext k .w16)) (rawS 0x06 k d a 0 (0x14 + (.w16 : ExtW).code))).trans (by simp [-Nat.reduceAdd])
  · obtain rfl := Option.some.inj h
    exact (rfl : _ = (fun (r : Raw) => r.da (fun k => .zext k .w32)) (rawS 0x06 k d a 0 (0x14 + (.w32 : ExtW).code))).trans (by simp [-Nat.reduceAdd])
theorem bfx (k : MReg) (sg : Sign) (d : SReg) (a : SReg) (pos : Fin 64) (wm1 : Fin 64) : Statement (.bfx k sg d a pos wm1) := by
  intro _ r h
  cases sg
  · obtain rfl := Option.some.inj h
    exact (rfl : _ = (fun (r : Raw) => r.da (fun k d a => .bfx k .s d a (decodeInteger.pos r) (decodeInteger.wm1 r))) ({ rawS 0x07 k d a 0 0x01 with imm := toRaw.bfImm pos wm1 })).trans (by simp [-Nat.reduceAdd])
  · obtain rfl := Option.some.inj h
    exact (rfl : _ = (fun (r : Raw) => r.da (fun k d a => .bfx k .z d a (decodeInteger.pos r) (decodeInteger.wm1 r))) ({ rawS 0x07 k d a 0 0x00 with imm := toRaw.bfImm pos wm1 })).trans (by simp [-Nat.reduceAdd])
theorem bfi (k : MReg) (d : SReg) (a : SReg) (b : SReg) (pos : Fin 64) (wm1 : Fin 64) : Statement (.bfi k d a b pos wm1) := by
  intro _ r h
  obtain rfl := Option.some.inj h
  exact (rfl : _ = (fun (r : Raw) => r.dab (fun k d a b => .bfi k d a b (decodeInteger.pos r) (decodeInteger.wm1 r))) ({ rawS 0x07 k d a b 0x02 with imm := toRaw.bfImm pos wm1 })).trans (by simp [-Nat.reduceAdd])
theorem sel (k : MReg) (d : SReg) (a : SReg) (b : SReg) (c : SReg) : Statement (.sel k d a b c) := by
  intro _ r h
  obtain rfl := Option.some.inj h
  exact (rfl : _ = (fun (r : Raw) => show Except DecErr Instr from do return .sel r.kReg (← sReg r.d) (← sReg r.a) (← sReg r.b) (← sReg r.c)) ({ rawS 0x08 k d a b 0 with c := sBits c })).trans (by simp [-Nat.reduceAdd])
theorem li (k : MReg) (d : SReg) (i : Imm) : Statement (.li k d i) := by
  intro _ r h
  obtain rfl := Option.some.inj h
  have key : ∀ (i : Imm), ofFields ((rawS 0x09 k d 0 0 0).withImm i) = (fun (r : Raw) => r.d1 (fun k d => .li k d r.immOf)) ((rawS 0x09 k d 0 0 0).withImm i) := fun i => by
    cases i <;> rfl
  exact (key i).trans (by simp [-Nat.reduceAdd])
theorem lea (k : MReg) (d : SReg) (off : BitVec 32) : Statement (.lea k d off) := by
  intro _ r h
  obtain rfl := Option.some.inj h
  exact (rfl : _ = (fun (r : Raw) => r.d1 (fun k d => .lea k d (r.hi.setWidth 32))) ((rawS 0x0A k d 0 0 0).withImm (.i32 off))).trans (by simp [-Nat.reduceAdd])
theorem bcc (k : MReg) (cc : Cc) (a : SReg) (b : SReg) (i : Imm) : Statement (.bcc k cc a b i) := by
  intro _ r h
  obtain rfl := Option.some.inj h
  have key : ∀ (i : Imm), ofFields ((rawS 0x20 k 0 a b cc.code).withImm i) = (fun (r : Raw) => show Except DecErr Instr from do return .bcc r.kReg (← listed (Cc.ofCode r.minor)) (← sReg r.a) (← sReg r.b) r.immOf) ((rawS 0x20 k 0 a b cc.code).withImm i) := fun i => by
    cases i <;> rfl
  exact (key i).trans (by simp [-Nat.reduceAdd])
theorem j (k : MReg) (i : Imm) : Statement (.j k i) := by
  intro _ r h
  obtain rfl := Option.some.inj h
  have key : ∀ (i : Imm), ofFields ((rawS 0x21 k 0 0 0 0).withImm i) = (fun (r : Raw) => show Except DecErr Instr from return .j r.kReg r.immOf) ((rawS 0x21 k 0 0 0 0).withImm i) := fun i => by
    cases i <;> rfl
  exact (key i).trans (by simp [-Nat.reduceAdd])
theorem jal (k : MReg) (d : SReg) (i : Imm) : Statement (.jal k d i) := by
  intro _ r h
  obtain rfl := Option.some.inj h
  have key : ∀ (i : Imm), ofFields ((rawS 0x22 k d 0 0 0).withImm i) = (fun (r : Raw) => r.d1 (fun k d => .jal k d r.immOf)) ((rawS 0x22 k d 0 0 0).withImm i) := fun i => by
    cases i <;> rfl
  exact (key i).trans (by simp [-Nat.reduceAdd])
theorem jr (k : MReg) (d : SReg) (a : SReg) : Statement (.jr k d a) := by
  intro _ r h
  obtain rfl := Option.some.inj h
  exact (rfl : _ = (fun (r : Raw) => r.da .jr) (rawS 0x23 k d a 0 0)).trans (by simp [-Nat.reduceAdd])
theorem loop (k : MReg) (d : SReg) (i : Imm) : Statement (.loop k d i) := by
  intro _ r h
  obtain rfl := Option.some.inj h
  have key : ∀ (i : Imm), ofFields ((rawS 0x24 k d 0 0 0).withImm i) = (fun (r : Raw) => r.d1 (fun k d => .loop k d r.immOf)) ((rawS 0x24 k d 0 0 0).withImm i) := fun i => by
    cases i <;> rfl
  exact (key i).trans (by simp [-Nat.reduceAdd])
theorem ld (k : MReg) (sz : Size) (sx : Bool) (d : SReg) (a : SReg) (i : Imm) : Statement (.ld k sz sx d a i) := by
  intro _ r h
  obtain rfl := Option.some.inj h
  have key : ∀ (i : Imm), ofFields ((rawS 0x30 k d a 0 ((0 : BitVec 5) ++ (flagBit 1 sx ++ sz.code))).withImm i) = (fun (r : Raw) => r.da (fun k d a => .ld k r.size (flagAt r.minor 2) d a r.immOf)) ((rawS 0x30 k d a 0 ((0 : BitVec 5) ++ (flagBit 1 sx ++ sz.code))).withImm i) := fun i => by
    cases i <;> rfl
  exact (key i).trans (by simp [-Nat.reduceAdd])
theorem st (k : MReg) (sz : Size) (a : SReg) (b : SReg) (i : Imm) : Statement (.st k sz a b i) := by
  intro _ r h
  obtain rfl := Option.some.inj h
  have key : ∀ (i : Imm), ofFields ((rawS 0x31 k 0 a b ((0 : BitVec 6) ++ sz.code)).withImm i) = (fun (r : Raw) => show Except DecErr Instr from do return .st r.kReg r.size (← sReg r.a) (← sReg r.b) r.immOf) ((rawS 0x31 k 0 a b ((0 : BitVec 6) ++ sz.code)).withImm i) := fun i => by
    cases i <;> rfl
  exact (key i).trans (by simp [-Nat.reduceAdd])
theorem pf (k : MReg) (a : SReg) (i : BitVec 18) : Statement (.pf k a i) := by
  intro _ r h
  obtain rfl := Option.some.inj h
  exact (rfl : _ = (fun (r : Raw) => show Except DecErr Instr from do return .pf r.kReg (← sReg r.a) r.imm) ({ rawS 0x32 k 0 a 0 0 with imm := i })).trans (by simp [-Nat.reduceAdd])
theorem wb (k : MReg) (a : SReg) (i : BitVec 18) : Statement (.wb k a i) := by
  intro _ r h
  obtain rfl := Option.some.inj h
  exact (rfl : _ = (fun (r : Raw) => show Except DecErr Instr from do return .wb r.kReg (← sReg r.a) r.imm) ({ rawS 0x33 k 0 a 0 0 with imm := i })).trans (by simp [-Nat.reduceAdd])
theorem inv (k : MReg) (a : SReg) (i : BitVec 18) : Statement (.inv k a i) := by
  intro _ r h
  obtain rfl := Option.some.inj h
  exact (rfl : _ = (fun (r : Raw) => show Except DecErr Instr from do return .inv r.kReg (← sReg r.a) r.imm) ({ rawS 0x34 k 0 a 0 0 with imm := i })).trans (by simp [-Nat.reduceAdd])
theorem trap (k : MReg) (i : BitVec 18) : Statement (.trap k i) := by
  intro _ r h
  obtain rfl := Option.some.inj h
  exact (rfl : _ = (fun (r : Raw) => show Except DecErr Instr from return .trap r.kReg r.imm) ({ rawS 0x40 k 0 0 0 0 with imm := i })).trans (by simp [-Nat.reduceAdd])
theorem eret (k : MReg) : Statement (.eret k) := by
  intro _ r h
  obtain rfl := Option.some.inj h
  exact (rfl : _ = (fun (r : Raw) => show Except DecErr Instr from return .eret r.kReg) (rawS 0x41 k 0 0 0 0)).trans (by simp [-Nat.reduceAdd])
theorem csrr (k : MReg) (d : SReg) (n : BitVec 12) : Statement (.csrr k d n) := by
  intro _ r h
  obtain rfl := Option.some.inj h
  exact (rfl : _ = (fun (r : Raw) => r.d1 (fun k d => .csrr k d (r.imm.setWidth 12))) ({ rawS 0x42 k d 0 0 0x00 with imm := n.setWidth 18 })).trans (by simp [-Nat.reduceAdd])
theorem csrw (k : MReg) (d : SReg) (a : SReg) (n : BitVec 12) : Statement (.csrw k d a n) := by
  intro _ r h
  obtain rfl := Option.some.inj h
  exact (rfl : _ = (fun (r : Raw) => r.da (fun k d a => .csrw k d a (r.imm.setWidth 12))) ({ rawS 0x42 k d a 0 0x01 with imm := n.setWidth 18 })).trans (by simp [-Nat.reduceAdd])
theorem csrs (k : MReg) (d : SReg) (a : SReg) (n : BitVec 12) : Statement (.csrs k d a n) := by
  intro _ r h
  obtain rfl := Option.some.inj h
  exact (rfl : _ = (fun (r : Raw) => r.da (fun k d a => .csrs k d a (r.imm.setWidth 12))) ({ rawS 0x42 k d a 0 0x02 with imm := n.setWidth 18 })).trans (by simp [-Nat.reduceAdd])
theorem csrc (k : MReg) (d : SReg) (a : SReg) (n : BitVec 12) : Statement (.csrc k d a n) := by
  intro _ r h
  obtain rfl := Option.some.inj h
  exact (rfl : _ = (fun (r : Raw) => r.da (fun k d a => .csrc k d a (r.imm.setWidth 12))) ({ rawS 0x42 k d a 0 0x03 with imm := n.setWidth 18 })).trans (by simp [-Nat.reduceAdd])
theorem fence (k : MReg) (sc : Scope) (un : Bool) : Statement (.fence k sc un) := by
  intro _ r h
  obtain rfl := Option.some.inj h
  exact (rfl : _ = (fun (r : Raw) => show Except DecErr Instr from do return .fence r.kReg (← listed (Scope.ofCode (partAt r.minor 0 3))) (flagAt r.minor 3)) (rawS 0x43 k 0 0 0 ((0 : BitVec 4) ++ (flagBit 1 un ++ sc.code)))).trans (by simp [-Nat.reduceAdd])
theorem nop (k : MReg) : Statement (.nop k) := by
  intro _ r h
  obtain rfl := Option.some.inj h
  exact (rfl : _ = (fun (r : Raw) => show Except DecErr Instr from return .nop r.kReg) (rawS 0x44 k 0 0 0 0)).trans (by simp [-Nat.reduceAdd])
theorem halt (k : MReg) : Statement (.halt k) := by
  intro _ r h
  obtain rfl := Option.some.inj h
  exact (rfl : _ = (fun (r : Raw) => show Except DecErr Instr from return .halt r.kReg) (rawS 0x45 k 0 0 0 0)).trans (by simp [-Nat.reduceAdd])
theorem brk (k : MReg) : Statement (.brk k) := by
  intro _ r h
  obtain rfl := Option.some.inj h
  exact (rfl : _ = (fun (r : Raw) => show Except DecErr Instr from return .brk r.kReg) (rawS 0x46 k 0 0 0 0)).trans (by simp [-Nat.reduceAdd])
theorem wfi (k : MReg) : Statement (.wfi k) := by
  intro _ r h
  obtain rfl := Option.some.inj h
  exact (rfl : _ = (fun (r : Raw) => show Except DecErr Instr from return .wfi r.kReg) (rawS 0x47 k 0 0 0 0)).trans (by simp [-Nat.reduceAdd])
theorem vaddInt (k : MReg) (t : Ty) (d : VReg) (a : VReg) (b : VReg) : Statement (.vaddInt k t d a b) := by
  intro _ r h
  obtain rfl := Option.some.inj h
  have key : ∀ (t : Ty), ofFields (rawV 0x50 k d a (vBits b) (opTy 0x0 t)) = (fun (r : Raw) => r.vvv .vaddInt) (rawV 0x50 k d a (vBits b) (opTy 0x0 t)) := fun t => by
    show decodeVectorOp _ = _; unfold decodeVectorOp; rw [op_rawV]; rfl
  exact (key t).trans (by simp [-Nat.reduceAdd])
theorem vaddIntScalar (k : MReg) (t : Ty) (d : VReg) (a : VReg) (b : SReg) : Statement (.vaddIntScalar k t d a b) := by
  intro _ r h
  obtain rfl := Option.some.inj h
  have key : ∀ (t : Ty), ofFields (rawV 0x51 k d a (sBits b) (opTy 0x0 t)) = (fun (r : Raw) => r.vvs .vaddIntScalar) (rawV 0x51 k d a (sBits b) (opTy 0x0 t)) := fun t => by
    show decodeVectorOp _ = _; unfold decodeVectorOp; rw [op_rawV]; rfl
  exact (key t).trans (by simp [-Nat.reduceAdd])
theorem vsubInt (k : MReg) (t : Ty) (d : VReg) (a : VReg) (b : VReg) : Statement (.vsubInt k t d a b) := by
  intro _ r h
  obtain rfl := Option.some.inj h
  have key : ∀ (t : Ty), ofFields (rawV 0x50 k d a (vBits b) (opTy 0x1 t)) = (fun (r : Raw) => r.vvv .vsubInt) (rawV 0x50 k d a (vBits b) (opTy 0x1 t)) := fun t => by
    show decodeVectorOp _ = _; unfold decodeVectorOp; rw [op_rawV]; rfl
  exact (key t).trans (by simp [-Nat.reduceAdd])
theorem vsubIntScalar (k : MReg) (t : Ty) (d : VReg) (a : VReg) (b : SReg) : Statement (.vsubIntScalar k t d a b) := by
  intro _ r h
  obtain rfl := Option.some.inj h
  have key : ∀ (t : Ty), ofFields (rawV 0x51 k d a (sBits b) (opTy 0x1 t)) = (fun (r : Raw) => r.vvs .vsubIntScalar) (rawV 0x51 k d a (sBits b) (opTy 0x1 t)) := fun t => by
    show decodeVectorOp _ = _; unfold decodeVectorOp; rw [op_rawV]; rfl
  exact (key t).trans (by simp [-Nat.reduceAdd])
theorem vmulInt (k : MReg) (t : Ty) (d : VReg) (a : VReg) (b : VReg) : Statement (.vmulInt k t d a b) := by
  intro _ r h
  obtain rfl := Option.some.inj h
  have key : ∀ (t : Ty), ofFields (rawV 0x50 k d a (vBits b) (opTy 0x2 t)) = (fun (r : Raw) => r.vvv .vmulInt) (rawV 0x50 k d a (vBits b) (opTy 0x2 t)) := fun t => by
    show decodeVectorOp _ = _; unfold decodeVectorOp; rw [op_rawV]; rfl
  exact (key t).trans (by simp [-Nat.reduceAdd])
theorem vmulIntScalar (k : MReg) (t : Ty) (d : VReg) (a : VReg) (b : SReg) : Statement (.vmulIntScalar k t d a b) := by
  intro _ r h
  obtain rfl := Option.some.inj h
  have key : ∀ (t : Ty), ofFields (rawV 0x51 k d a (sBits b) (opTy 0x2 t)) = (fun (r : Raw) => r.vvs .vmulIntScalar) (rawV 0x51 k d a (sBits b) (opTy 0x2 t)) := fun t => by
    show decodeVectorOp _ = _; unfold decodeVectorOp; rw [op_rawV]; rfl
  exact (key t).trans (by simp [-Nat.reduceAdd])
theorem vminInt (k : MReg) (t : Ty) (d : VReg) (a : VReg) (b : VReg) : Statement (.vminInt k t d a b) := by
  intro _ r h
  obtain rfl := Option.some.inj h
  have key : ∀ (t : Ty), ofFields (rawV 0x50 k d a (vBits b) (opTy 0x3 t)) = (fun (r : Raw) => r.vvv .vminInt) (rawV 0x50 k d a (vBits b) (opTy 0x3 t)) := fun t => by
    show decodeVectorOp _ = _; unfold decodeVectorOp; rw [op_rawV]; rfl
  exact (key t).trans (by simp [-Nat.reduceAdd])
theorem vminIntScalar (k : MReg) (t : Ty) (d : VReg) (a : VReg) (b : SReg) : Statement (.vminIntScalar k t d a b) := by
  intro _ r h
  obtain rfl := Option.some.inj h
  have key : ∀ (t : Ty), ofFields (rawV 0x51 k d a (sBits b) (opTy 0x3 t)) = (fun (r : Raw) => r.vvs .vminIntScalar) (rawV 0x51 k d a (sBits b) (opTy 0x3 t)) := fun t => by
    show decodeVectorOp _ = _; unfold decodeVectorOp; rw [op_rawV]; rfl
  exact (key t).trans (by simp [-Nat.reduceAdd])
theorem vmaxInt (k : MReg) (t : Ty) (d : VReg) (a : VReg) (b : VReg) : Statement (.vmaxInt k t d a b) := by
  intro _ r h
  obtain rfl := Option.some.inj h
  have key : ∀ (t : Ty), ofFields (rawV 0x50 k d a (vBits b) (opTy 0x4 t)) = (fun (r : Raw) => r.vvv .vmaxInt) (rawV 0x50 k d a (vBits b) (opTy 0x4 t)) := fun t => by
    show decodeVectorOp _ = _; unfold decodeVectorOp; rw [op_rawV]; rfl
  exact (key t).trans (by simp [-Nat.reduceAdd])
theorem vmaxIntScalar (k : MReg) (t : Ty) (d : VReg) (a : VReg) (b : SReg) : Statement (.vmaxIntScalar k t d a b) := by
  intro _ r h
  obtain rfl := Option.some.inj h
  have key : ∀ (t : Ty), ofFields (rawV 0x51 k d a (sBits b) (opTy 0x4 t)) = (fun (r : Raw) => r.vvs .vmaxIntScalar) (rawV 0x51 k d a (sBits b) (opTy 0x4 t)) := fun t => by
    show decodeVectorOp _ = _; unfold decodeVectorOp; rw [op_rawV]; rfl
  exact (key t).trans (by simp [-Nat.reduceAdd])
theorem vand (k : MReg) (t : Ty) (d : VReg) (a : VReg) (b : VReg) : Statement (.vand k t d a b) := by
  intro _ r h
  obtain rfl := Option.some.inj h
  have key : ∀ (t : Ty), ofFields (rawV 0x50 k d a (vBits b) (opTy 0x6 t)) = (fun (r : Raw) => r.vvv .vand) (rawV 0x50 k d a (vBits b) (opTy 0x6 t)) := fun t => by
    show decodeVectorOp _ = _; unfold decodeVectorOp; rw [op_rawV]; rfl
  exact (key t).trans (by simp [-Nat.reduceAdd])
theorem vandScalar (k : MReg) (t : Ty) (d : VReg) (a : VReg) (b : SReg) : Statement (.vandScalar k t d a b) := by
  intro _ r h
  obtain rfl := Option.some.inj h
  have key : ∀ (t : Ty), ofFields (rawV 0x51 k d a (sBits b) (opTy 0x6 t)) = (fun (r : Raw) => r.vvs .vandScalar) (rawV 0x51 k d a (sBits b) (opTy 0x6 t)) := fun t => by
    show decodeVectorOp _ = _; unfold decodeVectorOp; rw [op_rawV]; rfl
  exact (key t).trans (by simp [-Nat.reduceAdd])
theorem vor (k : MReg) (t : Ty) (d : VReg) (a : VReg) (b : VReg) : Statement (.vor k t d a b) := by
  intro _ r h
  obtain rfl := Option.some.inj h
  have key : ∀ (t : Ty), ofFields (rawV 0x50 k d a (vBits b) (opTy 0x7 t)) = (fun (r : Raw) => r.vvv .vor) (rawV 0x50 k d a (vBits b) (opTy 0x7 t)) := fun t => by
    show decodeVectorOp _ = _; unfold decodeVectorOp; rw [op_rawV]; rfl
  exact (key t).trans (by simp [-Nat.reduceAdd])
theorem vorScalar (k : MReg) (t : Ty) (d : VReg) (a : VReg) (b : SReg) : Statement (.vorScalar k t d a b) := by
  intro _ r h
  obtain rfl := Option.some.inj h
  have key : ∀ (t : Ty), ofFields (rawV 0x51 k d a (sBits b) (opTy 0x7 t)) = (fun (r : Raw) => r.vvs .vorScalar) (rawV 0x51 k d a (sBits b) (opTy 0x7 t)) := fun t => by
    show decodeVectorOp _ = _; unfold decodeVectorOp; rw [op_rawV]; rfl
  exact (key t).trans (by simp [-Nat.reduceAdd])
theorem vxor (k : MReg) (t : Ty) (d : VReg) (a : VReg) (b : VReg) : Statement (.vxor k t d a b) := by
  intro _ r h
  obtain rfl := Option.some.inj h
  have key : ∀ (t : Ty), ofFields (rawV 0x50 k d a (vBits b) (opTy 0x8 t)) = (fun (r : Raw) => r.vvv .vxor) (rawV 0x50 k d a (vBits b) (opTy 0x8 t)) := fun t => by
    show decodeVectorOp _ = _; unfold decodeVectorOp; rw [op_rawV]; rfl
  exact (key t).trans (by simp [-Nat.reduceAdd])
theorem vxorScalar (k : MReg) (t : Ty) (d : VReg) (a : VReg) (b : SReg) : Statement (.vxorScalar k t d a b) := by
  intro _ r h
  obtain rfl := Option.some.inj h
  have key : ∀ (t : Ty), ofFields (rawV 0x51 k d a (sBits b) (opTy 0x8 t)) = (fun (r : Raw) => r.vvs .vxorScalar) (rawV 0x51 k d a (sBits b) (opTy 0x8 t)) := fun t => by
    show decodeVectorOp _ = _; unfold decodeVectorOp; rw [op_rawV]; rfl
  exact (key t).trans (by simp [-Nat.reduceAdd])
theorem vshl (k : MReg) (t : Ty) (d : VReg) (a : VReg) (b : VReg) : Statement (.vshl k t d a b) := by
  intro _ r h
  obtain rfl := Option.some.inj h
  have key : ∀ (t : Ty), ofFields (rawV 0x50 k d a (vBits b) (opTy 0x9 t)) = (fun (r : Raw) => r.vvv .vshl) (rawV 0x50 k d a (vBits b) (opTy 0x9 t)) := fun t => by
    show decodeVectorOp _ = _; unfold decodeVectorOp; rw [op_rawV]; rfl
  exact (key t).trans (by simp [-Nat.reduceAdd])
theorem vshlScalar (k : MReg) (t : Ty) (d : VReg) (a : VReg) (b : SReg) : Statement (.vshlScalar k t d a b) := by
  intro _ r h
  obtain rfl := Option.some.inj h
  have key : ∀ (t : Ty), ofFields (rawV 0x51 k d a (sBits b) (opTy 0x9 t)) = (fun (r : Raw) => r.vvs .vshlScalar) (rawV 0x51 k d a (sBits b) (opTy 0x9 t)) := fun t => by
    show decodeVectorOp _ = _; unfold decodeVectorOp; rw [op_rawV]; rfl
  exact (key t).trans (by simp [-Nat.reduceAdd])
theorem vshr (k : MReg) (t : Ty) (d : VReg) (a : VReg) (b : VReg) : Statement (.vshr k t d a b) := by
  intro _ r h
  obtain rfl := Option.some.inj h
  have key : ∀ (t : Ty), ofFields (rawV 0x50 k d a (vBits b) (opTy 0xA t)) = (fun (r : Raw) => r.vvv .vshr) (rawV 0x50 k d a (vBits b) (opTy 0xA t)) := fun t => by
    show decodeVectorOp _ = _; unfold decodeVectorOp; rw [op_rawV]; rfl
  exact (key t).trans (by simp [-Nat.reduceAdd])
theorem vshrScalar (k : MReg) (t : Ty) (d : VReg) (a : VReg) (b : SReg) : Statement (.vshrScalar k t d a b) := by
  intro _ r h
  obtain rfl := Option.some.inj h
  have key : ∀ (t : Ty), ofFields (rawV 0x51 k d a (sBits b) (opTy 0xA t)) = (fun (r : Raw) => r.vvs .vshrScalar) (rawV 0x51 k d a (sBits b) (opTy 0xA t)) := fun t => by
    show decodeVectorOp _ = _; unfold decodeVectorOp; rw [op_rawV]; rfl
  exact (key t).trans (by simp [-Nat.reduceAdd])
theorem vsra (k : MReg) (t : Ty) (d : VReg) (a : VReg) (b : VReg) : Statement (.vsra k t d a b) := by
  intro _ r h
  obtain rfl := Option.some.inj h
  have key : ∀ (t : Ty), ofFields (rawV 0x50 k d a (vBits b) (opTy 0xB t)) = (fun (r : Raw) => r.vvv .vsra) (rawV 0x50 k d a (vBits b) (opTy 0xB t)) := fun t => by
    show decodeVectorOp _ = _; unfold decodeVectorOp; rw [op_rawV]; rfl
  exact (key t).trans (by simp [-Nat.reduceAdd])
theorem vsraScalar (k : MReg) (t : Ty) (d : VReg) (a : VReg) (b : SReg) : Statement (.vsraScalar k t d a b) := by
  intro _ r h
  obtain rfl := Option.some.inj h
  have key : ∀ (t : Ty), ofFields (rawV 0x51 k d a (sBits b) (opTy 0xB t)) = (fun (r : Raw) => r.vvs .vsraScalar) (rawV 0x51 k d a (sBits b) (opTy 0xB t)) := fun t => by
    show decodeVectorOp _ = _; unfold decodeVectorOp; rw [op_rawV]; rfl
  exact (key t).trans (by simp [-Nat.reduceAdd])
theorem vaddFp (k : MReg) (t : Ty) (d : VReg) (a : VReg) (b : VReg) : Statement (.vaddFp k t d a b) := by
  intro _ r h
  obtain rfl := Option.some.inj h
  have key : ∀ (t : Ty), ofFields (rawV 0x52 k d a (vBits b) (opTy 0x0 t)) = (fun (r : Raw) => r.vvv .vaddFp) (rawV 0x52 k d a (vBits b) (opTy 0x0 t)) := fun t => by
    show decodeVectorOp _ = _; unfold decodeVectorOp; rw [op_rawV]; rfl
  exact (key t).trans (by simp [-Nat.reduceAdd])
theorem vaddFpScalar (k : MReg) (t : Ty) (d : VReg) (a : VReg) (b : SReg) : Statement (.vaddFpScalar k t d a b) := by
  intro _ r h
  obtain rfl := Option.some.inj h
  have key : ∀ (t : Ty), ofFields (rawV 0x53 k d a (sBits b) (opTy 0x0 t)) = (fun (r : Raw) => r.vvs .vaddFpScalar) (rawV 0x53 k d a (sBits b) (opTy 0x0 t)) := fun t => by
    show decodeVectorOp _ = _; unfold decodeVectorOp; rw [op_rawV]; rfl
  exact (key t).trans (by simp [-Nat.reduceAdd])
theorem vsubFp (k : MReg) (t : Ty) (d : VReg) (a : VReg) (b : VReg) : Statement (.vsubFp k t d a b) := by
  intro _ r h
  obtain rfl := Option.some.inj h
  have key : ∀ (t : Ty), ofFields (rawV 0x52 k d a (vBits b) (opTy 0x1 t)) = (fun (r : Raw) => r.vvv .vsubFp) (rawV 0x52 k d a (vBits b) (opTy 0x1 t)) := fun t => by
    show decodeVectorOp _ = _; unfold decodeVectorOp; rw [op_rawV]; rfl
  exact (key t).trans (by simp [-Nat.reduceAdd])
theorem vsubFpScalar (k : MReg) (t : Ty) (d : VReg) (a : VReg) (b : SReg) : Statement (.vsubFpScalar k t d a b) := by
  intro _ r h
  obtain rfl := Option.some.inj h
  have key : ∀ (t : Ty), ofFields (rawV 0x53 k d a (sBits b) (opTy 0x1 t)) = (fun (r : Raw) => r.vvs .vsubFpScalar) (rawV 0x53 k d a (sBits b) (opTy 0x1 t)) := fun t => by
    show decodeVectorOp _ = _; unfold decodeVectorOp; rw [op_rawV]; rfl
  exact (key t).trans (by simp [-Nat.reduceAdd])
theorem vmulFp (k : MReg) (t : Ty) (d : VReg) (a : VReg) (b : VReg) : Statement (.vmulFp k t d a b) := by
  intro _ r h
  obtain rfl := Option.some.inj h
  have key : ∀ (t : Ty), ofFields (rawV 0x52 k d a (vBits b) (opTy 0x2 t)) = (fun (r : Raw) => r.vvv .vmulFp) (rawV 0x52 k d a (vBits b) (opTy 0x2 t)) := fun t => by
    show decodeVectorOp _ = _; unfold decodeVectorOp; rw [op_rawV]; rfl
  exact (key t).trans (by simp [-Nat.reduceAdd])
theorem vmulFpScalar (k : MReg) (t : Ty) (d : VReg) (a : VReg) (b : SReg) : Statement (.vmulFpScalar k t d a b) := by
  intro _ r h
  obtain rfl := Option.some.inj h
  have key : ∀ (t : Ty), ofFields (rawV 0x53 k d a (sBits b) (opTy 0x2 t)) = (fun (r : Raw) => r.vvs .vmulFpScalar) (rawV 0x53 k d a (sBits b) (opTy 0x2 t)) := fun t => by
    show decodeVectorOp _ = _; unfold decodeVectorOp; rw [op_rawV]; rfl
  exact (key t).trans (by simp [-Nat.reduceAdd])
theorem vminFp (k : MReg) (t : Ty) (d : VReg) (a : VReg) (b : VReg) : Statement (.vminFp k t d a b) := by
  intro _ r h
  obtain rfl := Option.some.inj h
  have key : ∀ (t : Ty), ofFields (rawV 0x52 k d a (vBits b) (opTy 0x3 t)) = (fun (r : Raw) => r.vvv .vminFp) (rawV 0x52 k d a (vBits b) (opTy 0x3 t)) := fun t => by
    show decodeVectorOp _ = _; unfold decodeVectorOp; rw [op_rawV]; rfl
  exact (key t).trans (by simp [-Nat.reduceAdd])
theorem vminFpScalar (k : MReg) (t : Ty) (d : VReg) (a : VReg) (b : SReg) : Statement (.vminFpScalar k t d a b) := by
  intro _ r h
  obtain rfl := Option.some.inj h
  have key : ∀ (t : Ty), ofFields (rawV 0x53 k d a (sBits b) (opTy 0x3 t)) = (fun (r : Raw) => r.vvs .vminFpScalar) (rawV 0x53 k d a (sBits b) (opTy 0x3 t)) := fun t => by
    show decodeVectorOp _ = _; unfold decodeVectorOp; rw [op_rawV]; rfl
  exact (key t).trans (by simp [-Nat.reduceAdd])
theorem vmaxFp (k : MReg) (t : Ty) (d : VReg) (a : VReg) (b : VReg) : Statement (.vmaxFp k t d a b) := by
  intro _ r h
  obtain rfl := Option.some.inj h
  have key : ∀ (t : Ty), ofFields (rawV 0x52 k d a (vBits b) (opTy 0x4 t)) = (fun (r : Raw) => r.vvv .vmaxFp) (rawV 0x52 k d a (vBits b) (opTy 0x4 t)) := fun t => by
    show decodeVectorOp _ = _; unfold decodeVectorOp; rw [op_rawV]; rfl
  exact (key t).trans (by simp [-Nat.reduceAdd])
theorem vmaxFpScalar (k : MReg) (t : Ty) (d : VReg) (a : VReg) (b : SReg) : Statement (.vmaxFpScalar k t d a b) := by
  intro _ r h
  obtain rfl := Option.some.inj h
  have key : ∀ (t : Ty), ofFields (rawV 0x53 k d a (sBits b) (opTy 0x4 t)) = (fun (r : Raw) => r.vvs .vmaxFpScalar) (rawV 0x53 k d a (sBits b) (opTy 0x4 t)) := fun t => by
    show decodeVectorOp _ = _; unfold decodeVectorOp; rw [op_rawV]; rfl
  exact (key t).trans (by simp [-Nat.reduceAdd])
theorem vdiv (k : MReg) (t : Ty) (d : VReg) (a : VReg) (b : VReg) : Statement (.vdiv k t d a b) := by
  intro _ r h
  obtain rfl := Option.some.inj h
  have key : ∀ (t : Ty), ofFields (rawV 0x52 k d a (vBits b) (opTy 0x5 t)) = (fun (r : Raw) => r.vvv .vdiv) (rawV 0x52 k d a (vBits b) (opTy 0x5 t)) := fun t => by
    show decodeVectorOp _ = _; unfold decodeVectorOp; rw [op_rawV]; rfl
  exact (key t).trans (by simp [-Nat.reduceAdd])
theorem vdivScalar (k : MReg) (t : Ty) (d : VReg) (a : VReg) (b : SReg) : Statement (.vdivScalar k t d a b) := by
  intro _ r h
  obtain rfl := Option.some.inj h
  have key : ∀ (t : Ty), ofFields (rawV 0x53 k d a (sBits b) (opTy 0x5 t)) = (fun (r : Raw) => r.vvs .vdivScalar) (rawV 0x53 k d a (sBits b) (opTy 0x5 t)) := fun t => by
    show decodeVectorOp _ = _; unfold decodeVectorOp; rw [op_rawV]; rfl
  exact (key t).trans (by simp [-Nat.reduceAdd])
theorem vfma (k : MReg) (t : Ty) (d : VReg) (a : VReg) (b : VReg) (c : VReg) : Statement (.vfma k t d a b c) := by
  intro _ r h
  obtain rfl := Option.some.inj h
  have key : ∀ (t : Ty), ofFields ({ rawV 0x54 k d a (vBits b) (opTy 0x0 t) with c := vBits c }) = (fun (r : Raw) => show Except DecErr Instr from do return .vfma r.kReg (← r.ty) (← vReg r.d) (← vReg r.a) (← vReg r.b) (← vReg r.c)) ({ rawV 0x54 k d a (vBits b) (opTy 0x0 t) with c := vBits c }) := fun t => by
    show decodeVectorOp _ = _; unfold decodeVectorOp; rw [op_rawVc]; rfl
  exact (key t).trans (by simp [-Nat.reduceAdd])
theorem vfms (k : MReg) (t : Ty) (d : VReg) (a : VReg) (b : VReg) (c : VReg) : Statement (.vfms k t d a b c) := by
  intro _ r h
  obtain rfl := Option.some.inj h
  have key : ∀ (t : Ty), ofFields ({ rawV 0x54 k d a (vBits b) (opTy 0x1 t) with c := vBits c }) = (fun (r : Raw) => show Except DecErr Instr from do return .vfms r.kReg (← r.ty) (← vReg r.d) (← vReg r.a) (← vReg r.b) (← vReg r.c)) ({ rawV 0x54 k d a (vBits b) (opTy 0x1 t) with c := vBits c }) := fun t => by
    show decodeVectorOp _ = _; unfold decodeVectorOp; rw [op_rawVc]; rfl
  exact (key t).trans (by simp [-Nat.reduceAdd])
theorem vsqrt (k : MReg) (t : Ty) (d : VReg) (a : VReg) : Statement (.vsqrt k t d a) := by
  intro _ r h
  obtain rfl := Option.some.inj h
  have key : ∀ (t : Ty), ofFields (rawV 0x55 k d a 0 (opTy 0x0 t)) = (fun (r : Raw) => r.vv .vsqrt) (rawV 0x55 k d a 0 (opTy 0x0 t)) := fun t => by
    show decodeVectorOp _ = _; unfold decodeVectorOp; rw [op_rawV]; rfl
  exact (key t).trans (by simp [-Nat.reduceAdd])
theorem vrcp (k : MReg) (t : Ty) (d : VReg) (a : VReg) : Statement (.vrcp k t d a) := by
  intro _ r h
  obtain rfl := Option.some.inj h
  have key : ∀ (t : Ty), ofFields (rawV 0x55 k d a 0 (opTy 0x1 t)) = (fun (r : Raw) => r.vv .vrcp) (rawV 0x55 k d a 0 (opTy 0x1 t)) := fun t => by
    show decodeVectorOp _ = _; unfold decodeVectorOp; rw [op_rawV]; rfl
  exact (key t).trans (by simp [-Nat.reduceAdd])
theorem vrsq (k : MReg) (t : Ty) (d : VReg) (a : VReg) : Statement (.vrsq k t d a) := by
  intro _ r h
  obtain rfl := Option.some.inj h
  have key : ∀ (t : Ty), ofFields (rawV 0x55 k d a 0 (opTy 0x2 t)) = (fun (r : Raw) => r.vv .vrsq) (rawV 0x55 k d a 0 (opTy 0x2 t)) := fun t => by
    show decodeVectorOp _ = _; unfold decodeVectorOp; rw [op_rawV]; rfl
  exact (key t).trans (by simp [-Nat.reduceAdd])
theorem vabs (k : MReg) (t : Ty) (d : VReg) (a : VReg) : Statement (.vabs k t d a) := by
  intro _ r h
  obtain rfl := Option.some.inj h
  have key : ∀ (t : Ty), ofFields (rawV 0x55 k d a 0 (opTy 0x3 t)) = (fun (r : Raw) => r.vv .vabs) (rawV 0x55 k d a 0 (opTy 0x3 t)) := fun t => by
    show decodeVectorOp _ = _; unfold decodeVectorOp; rw [op_rawV]; rfl
  exact (key t).trans (by simp [-Nat.reduceAdd])
theorem vneg (k : MReg) (t : Ty) (d : VReg) (a : VReg) : Statement (.vneg k t d a) := by
  intro _ r h
  obtain rfl := Option.some.inj h
  have key : ∀ (t : Ty), ofFields (rawV 0x55 k d a 0 (opTy 0x4 t)) = (fun (r : Raw) => r.vv .vneg) (rawV 0x55 k d a 0 (opTy 0x4 t)) := fun t => by
    show decodeVectorOp _ = _; unfold decodeVectorOp; rw [op_rawV]; rfl
  exact (key t).trans (by simp [-Nat.reduceAdd])
theorem vcmp (k : MReg) (cc : VCc) (t : Ty) (d : MReg) (a : VReg) (b : VReg) : Statement (.vcmp k cc t d a b) := by
  intro _ r h
  obtain rfl := Option.some.inj h
  exact (rfl : _ = (fun (r : Raw) => show Except DecErr Instr from do return .vcmp r.kReg (← listed (VCc.ofCode r.op)) (← r.ty) (← mReg r.d) (← vReg r.a) (← vReg r.b)) ({ rawV 0x56 k 0 a (vBits b) (opTy cc.code t) with d := mBits d })).trans (by simp [-Nat.reduceAdd])
theorem vcmpScalar (k : MReg) (cc : VCc) (t : Ty) (d : MReg) (a : VReg) (b : SReg) : Statement (.vcmpScalar k cc t d a b) := by
  intro _ r h
  obtain rfl := Option.some.inj h
  exact (rfl : _ = (fun (r : Raw) => show Except DecErr Instr from  do return .vcmpScalar r.kReg (← listed (VCc.ofCode r.op)) (← r.ty) (← mReg r.d) (← vReg r.a) (← sReg r.b)) ({ rawV 0x57 k 0 a (sBits b) (opTy cc.code t) with d := mBits d })).trans (by simp [-Nat.reduceAdd])
theorem vsel (k : MReg) (w : LaneW) (d : VReg) (a : VReg) (b : VReg) (c : MReg) : Statement (.vsel k w d a b c) := by
  intro _ r h
  obtain rfl := Option.some.inj h
  exact (rfl : _ = (fun (r : Raw) => show Except DecErr Instr from  do return .vsel r.kReg (← listed (LaneW.ofCode r.imm)) (← vReg r.d) (← vReg r.a) (← vReg r.b) (← mReg r.c)) ({ rawV 0x5E k d a (vBits b) 0 with c := mBits c, imm := w.code })).trans (by simp [-Nat.reduceAdd])
theorem vmov (k : MReg) (w : LaneW) (d : VReg) (a : VReg) : Statement (.vmov k w d a) := by
  intro _ r h
  obtain rfl := Option.some.inj h
  exact (rfl : _ = (fun (r : Raw) => show Except DecErr Instr from do return .vmov r.kReg (← listed (LaneW.ofCode r.imm)) (← vReg r.d) (← vReg r.a)) ({ rawV 0x58 k d a 0 0 with imm := w.code })).trans (by simp [-Nat.reduceAdd])
theorem vbcast (k : MReg) (t : Ty) (d : VReg) (a : SReg) : Statement (.vbcast k t d a) := by
  intro _ r h
  obtain rfl := Option.some.inj h
  exact (rfl : _ = (fun (r : Raw) => show Except DecErr Instr from do return .vbcast r.kReg (← r.ty) (← vReg r.d) (← sReg r.a)) ({ rawV 0x59 k d 0 0 (opTy 0 t) with a := sBits a })).trans (by simp [-Nat.reduceAdd])
theorem vext (k : MReg) (t : Ty) (d : SReg) (a : VReg) (b : SReg) (i : BitVec 18) : Statement (.vext k t d a b i) := by
  intro _ r h
  obtain rfl := Option.some.inj h
  exact (rfl : _ = (fun (r : Raw) => show Except DecErr Instr from do return .vext r.kReg (← r.ty) (← sReg r.d) (← vReg r.a) (← sReg r.b) r.imm) ({ rawV 0x5A k 0 a (sBits b) (opTy 0 t) with d := sBits d, imm := i })).trans (by simp [-Nat.reduceAdd])
theorem vins (k : MReg) (t : Ty) (d : VReg) (a : SReg) (b : SReg) (i : BitVec 18) : Statement (.vins k t d a b i) := by
  intro _ r h
  obtain rfl := Option.some.inj h
  exact (rfl : _ = (fun (r : Raw) => show Except DecErr Instr from do return .vins r.kReg (← r.ty) (← vReg r.d) (← sReg r.a) (← sReg r.b) r.imm) ({ rawV 0x5B k d 0 (sBits b) (opTy 0 t) with a := sBits a, imm := i })).trans (by simp [-Nat.reduceAdd])
theorem vperm (k : MReg) (t : Ty) (d : VReg) (a : VReg) (b : VReg) : Statement (.vperm k t d a b) := by
  intro _ r h
  obtain rfl := Option.some.inj h
  exact (rfl : _ = (fun (r : Raw) => r.vvv .vperm) (rawV 0x5C k d a (vBits b) (opTy 0 t))).trans (by simp [-Nat.reduceAdd])
theorem vred (k : MReg) (op : RedOp) (t : Ty) (d : SReg) (a : VReg) : Statement (.vred k op t d a) := by
  intro _ r h
  obtain rfl := Option.some.inj h
  exact (rfl : _ = (fun (r : Raw) => show Except DecErr Instr from do return .vred r.kReg (← listed (RedOp.ofCode r.op)) (← r.ty) (← sReg r.d) (← vReg r.a)) ({ rawV 0x5D k 0 a 0 (opTy op.code t) with d := sBits d })).trans (by simp [-Nat.reduceAdd])
theorem vld (k : MReg) (d : VReg) (a : SReg) (i : Imm) : Statement (.vld k d a i) := by
  intro _ r h
  obtain rfl := Option.some.inj h
  have key : ∀ (i : Imm), ofFields ({ rawV 0x60 k d 0 0 0 with a := sBits a } |>.withImm i) = (fun (r : Raw) => show Except DecErr Instr from do return .vld r.kReg (← vReg r.d) (← sReg r.a) r.immOf) ({ rawV 0x60 k d 0 0 0 with a := sBits a } |>.withImm i) := fun i => by
    cases i <;> rfl
  exact (key i).trans (by simp [-Nat.reduceAdd])
theorem vst (k : MReg) (a : SReg) (b : VReg) (i : Imm) : Statement (.vst k a b i) := by
  intro _ r h
  obtain rfl := Option.some.inj h
  have key : ∀ (i : Imm), ofFields ({ rawV 0x61 k 0 0 (vBits b) 0 with a := sBits a } |>.withImm i) = (fun (r : Raw) => show Except DecErr Instr from do return .vst r.kReg (← sReg r.a) (← vReg r.b) r.immOf) ({ rawV 0x61 k 0 0 (vBits b) 0 with a := sBits a } |>.withImm i) := fun i => by
    cases i <;> rfl
  exact (key i).trans (by simp [-Nat.reduceAdd])
theorem vlds (k : MReg) (d : VReg) (a : SReg) (c : SReg) (i : BitVec 18) : Statement (.vlds k d a c i) := by
  intro _ r h
  obtain rfl := Option.some.inj h
  exact (rfl : _ = (fun (r : Raw) => show Except DecErr Instr from do return .vlds r.kReg (← vReg r.d) (← sReg r.a) (← sReg r.c) r.imm) ({ rawV 0x62 k d 0 0 0 with a := sBits a, c := sBits c, imm := i })).trans (by simp [-Nat.reduceAdd])
theorem vgather (k : MReg) (t : Ty) (d : VReg) (a : SReg) (b : VReg) (i : BitVec 18) : Statement (.vgather k t d a b i) := by
  intro _ r h
  obtain rfl := Option.some.inj h
  exact (rfl : _ = (fun (r : Raw) => show Except DecErr Instr from do return .vgather r.kReg (← r.ty) (← vReg r.d) (← sReg r.a) (← vReg r.b) r.imm) ({ rawV 0x63 k d 0 (vBits b) (opTy 0 t) with a := sBits a, imm := i })).trans (by simp [-Nat.reduceAdd])
theorem vscatter (k : MReg) (t : Ty) (a : SReg) (b : VReg) (c : VReg) (i : BitVec 18) : Statement (.vscatter k t a b c i) := by
  intro _ r h
  obtain rfl := Option.some.inj h
  exact (rfl : _ = (fun (r : Raw) => show Except DecErr Instr from do return .vscatter r.kReg (← r.ty) (← sReg r.a) (← vReg r.b) (← vReg r.c) r.imm) ({ rawV 0x64 k 0 0 (vBits b) (opTy 0 t) with a := sBits a, c := vBits c, imm := i })).trans (by simp [-Nat.reduceAdd])
theorem vcvt (k : MReg) (dt : Ty) (st : Ty) (d : VReg) (a : VReg) (p : BitVec 4) : Statement (.vcvt k dt st d a p) := by
  intro _ r h
  obtain rfl := Option.some.inj h
  exact (rfl : _ = (fun (r : Raw) => show Except DecErr Instr from do return .vcvt r.kReg (← listed (Ty.ofCode r.op)) (← r.ty) (← vReg r.d) (← vReg r.a) (r.imm.setWidth 4)) ({ rawV 0x90 k d a 0 (dt.code ++ st.code) with imm := p.setWidth 18 })).trans (by simp [-Nat.reduceAdd])
theorem vq (k : MReg) (sch : Scheme) (cmp : Bool) (t : Ty) (d : VReg) (c : SReg) (a : VReg) (b : SReg) (p : BitVec 2) : Statement (.vq k sch cmp t d c a b p) := by
  intro _ r h
  obtain rfl := Option.some.inj h
  exact (rfl : _ = (fun (r : Raw) => show Except DecErr Instr from do return .vq r.kReg (← listed (Scheme.ofCode (partAt r.minor 4 3))) (flagAt r.minor 7) (← r.ty) (← vReg r.d) (← sReg r.c) (← vReg r.a) (← sReg r.b) (r.imm.setWidth 2)) ({ rawV 0x91 k d a (sBits b) (flagBit 1 cmp ++ (sch.code ++ t.code)) with c := sBits c, imm := p.setWidth 18 })).trans (by simp [-Nat.reduceAdd])
theorem vdq (k : MReg) (sch : Scheme) (exp : Bool) (t : Ty) (d : VReg) (a : VReg) (b : SReg) (c : SReg) (p : BitVec 2) : Statement (.vdq k sch exp t d a b c p) := by
  intro _ r h
  obtain rfl := Option.some.inj h
  exact (rfl : _ = (fun (r : Raw) => show Except DecErr Instr from do return .vdq r.kReg (← listed (Scheme.ofCode (partAt r.minor 4 3))) (flagAt r.minor 7) (← r.ty) (← vReg r.d) (← vReg r.a) (← sReg r.b) (← sReg r.c) (r.imm.setWidth 2)) ({ rawV 0x92 k d a (sBits b) (flagBit 1 exp ++ (sch.code ++ t.code)) with c := sBits c, imm := p.setWidth 18 })).trans (by simp [-Nat.reduceAdd])
theorem vcomp (k : MReg) (inverse : Bool) (d : VReg) (a : VReg) : Statement (.vcomp k inverse d a) := by
  intro _ r h
  obtain rfl := Option.some.inj h
  exact (rfl : _ = (fun (r : Raw) => show Except DecErr Instr from do return .vcomp r.kReg (flagAt r.minor 7) (← vReg r.d) (← vReg r.a)) (rawV 0x93 k d a 0 (flagBit 1 inverse ++ (0 : BitVec 7)))).trans (by simp [-Nat.reduceAdd])
theorem vqtab (k : MReg) (a : SReg) (i : Imm) : Statement (.vqtab k a i) := by
  intro _ r h
  obtain rfl := Option.some.inj h
  have key : ∀ (i : Imm), ofFields ((rawS 0x94 k 0 a 0 0).withImm i) = (fun (r : Raw) => show Except DecErr Instr from do return .vqtab r.kReg (← sReg r.a) r.immOf) ((rawS 0x94 k 0 a 0 0).withImm i) := fun i => by
    cases i <;> rfl
  exact (key i).trans (by simp [-Nat.reduceAdd])
theorem t5pack (k : MReg) (d : VReg) (a : VReg) (p : BitVec 1) : Statement (.t5pack k d a p) := by
  intro _ r h
  obtain rfl := Option.some.inj h
  exact (rfl : _ = (fun (r : Raw) => show Except DecErr Instr from do return .t5pack r.kReg (← vReg r.d) (← vReg r.a) (r.imm.setWidth 1)) ({ rawV 0x95 k d a 0 0 with imm := p.setWidth 18 })).trans (by simp [-Nat.reduceAdd])
theorem t5unpk (k : MReg) (d : VReg) (a : VReg) (p : BitVec 1) : Statement (.t5unpk k d a p) := by
  intro _ r h
  obtain rfl := Option.some.inj h
  exact (rfl : _ = (fun (r : Raw) => show Except DecErr Instr from do return .t5unpk r.kReg (← vReg r.d) (← vReg r.a) (r.imm.setWidth 1)) ({ rawV 0x96 k d a 0 0 with imm := p.setWidth 18 })).trans (by simp [-Nat.reduceAdd])
theorem spawn (k : MReg) (d : SReg) (a : SReg) (i : Imm) : Statement (.spawn k d a i) := by
  intro _ r h
  obtain rfl := Option.some.inj h
  have key : ∀ (i : Imm), ofFields ((rawS 0xA0 k d a 0 0).withImm i) = (fun (r : Raw) => r.dai .spawn) ((rawS 0xA0 k d a 0 0).withImm i) := fun i => by
    cases i <;> rfl
  exact (key i).trans (by simp [-Nat.reduceAdd])
theorem reap (k : MReg) (d : SReg) (a : SReg) : Statement (.reap k d a) := by
  intro _ r h
  obtain rfl := Option.some.inj h
  exact (rfl : _ = (fun (r : Raw) => r.da .reap) (rawS 0xA1 k d a 0 0)).trans (by simp [-Nat.reduceAdd])
theorem exit (k : MReg) (a : SReg) : Statement (.exit k a) := by
  intro _ r h
  obtain rfl := Option.some.inj h
  exact (rfl : _ = (fun (r : Raw) => show Except DecErr Instr from do return .exit r.kReg (← sReg r.a)) (rawS 0xA2 k 0 a 0 0)).trans (by simp [-Nat.reduceAdd])
theorem arm (k : MReg) (d : SReg) (a : SReg) (i : BitVec 18) : Statement (.arm k d a i) := by
  intro _ r h
  obtain rfl := Option.some.inj h
  exact (rfl : _ = (fun (r : Raw) => r.da (fun k d a => .arm k d a r.imm)) ({ rawS 0xA3 k d a 0 0 with imm := i })).trans (by simp [-Nat.reduceAdd])
theorem disarm (k : MReg) (d : SReg) (a : SReg) (i : BitVec 18) : Statement (.disarm k d a i) := by
  intro _ r h
  obtain rfl := Option.some.inj h
  exact (rfl : _ = (fun (r : Raw) => r.da (fun k d a => .disarm k d a r.imm)) ({ rawS 0xA4 k d a 0 0 with imm := i })).trans (by simp [-Nat.reduceAdd])
theorem mwait (k : MReg) (d : SReg) (a : SReg) : Statement (.mwait k d a) := by
  intro _ r h
  obtain rfl := Option.some.inj h
  exact (rfl : _ = (fun (r : Raw) => r.da .mwait) (rawS 0xA5 k d a 0 0)).trans (by simp [-Nat.reduceAdd])
theorem fset (k : MReg) (vec : Bool) (d : SReg) : Statement (.fset k vec d) := by
  intro _ r h
  obtain rfl := Option.some.inj h
  exact (rfl : _ = (fun (r : Raw) => r.d1 (fun k d => .fset k (r.flag 0) d)) ({ rawS 0xA6 k d 0 0 0 with imm := flagBit 18 vec })).trans (by simp [-Nat.reduceAdd])
theorem fclr (k : MReg) (vec : Bool) (d : SReg) : Statement (.fclr k vec d) := by
  intro _ r h
  obtain rfl := Option.some.inj h
  exact (rfl : _ = (fun (r : Raw) => r.d1 (fun k d => .fclr k (r.flag 0) d)) ({ rawS 0xA7 k d 0 0 0 with imm := flagBit 18 vec })).trans (by simp [-Nat.reduceAdd])
theorem rfill (k : MReg) (d : SReg) (a : SReg) (b : SReg) (n : BitVec 6) : Statement (.rfill k d a b n) := by
  intro _ r h
  obtain rfl := Option.some.inj h
  exact (rfl : _ = (fun (r : Raw) => r.dab (fun k d a b => .rfill k d a b (r.imm.setWidth 6))) ({ rawS 0xA8 k d a b 0 with imm := n.setWidth 18 })).trans (by simp [-Nat.reduceAdd])
theorem gbar (k : MReg) (swap : Bool) (d : SReg) (a : SReg) : Statement (.gbar k swap d a) := by
  intro _ r h
  obtain rfl := Option.some.inj h
  exact (rfl : _ = (fun (r : Raw) => r.da (fun k d a => .gbar k (flagAt r.minor 0) d a)) (rawS 0xB0 k d a 0 (flagBit 8 swap))).trans (by simp [-Nat.reduceAdd])
theorem garrive (k : MReg) (d : SReg) (a : SReg) : Statement (.garrive k d a) := by
  intro _ r h
  obtain rfl := Option.some.inj h
  exact (rfl : _ = (fun (r : Raw) => r.da .garrive) (rawS 0xB1 k d a 0 0)).trans (by simp [-Nat.reduceAdd])
theorem gwait (k : MReg) (a : SReg) (b : SReg) : Statement (.gwait k a b) := by
  intro _ r h
  obtain rfl := Option.some.inj h
  exact (rfl : _ = (fun (r : Raw) => show Except DecErr Instr from do return .gwait r.kReg (← sReg r.a) (← sReg r.b)) (rawS 0xB2 k 0 a b 0)).trans (by simp [-Nat.reduceAdd])
theorem gmem (k : MReg) (d : SReg) (a : SReg) : Statement (.gmem k d a) := by
  intro _ r h
  obtain rfl := Option.some.inj h
  exact (rfl : _ = (fun (r : Raw) => r.da .gmem) (rawS 0xB3 k d a 0 0)).trans (by simp [-Nat.reduceAdd])
theorem tdec (k : MReg) (d : SReg) (a : SReg) : Statement (.tdec k d a) := by
  intro _ r h
  obtain rfl := Option.some.inj h
  exact (rfl : _ = (fun (r : Raw) => r.da .tdec) (rawS 0xB4 k d a 0 0)).trans (by simp [-Nat.reduceAdd])
theorem tnext (k : MReg) (d : SReg) : Statement (.tnext k d) := by
  intro _ r h
  obtain rfl := Option.some.inj h
  exact (rfl : _ = (fun (r : Raw) => r.d1 .tnext) (rawS 0xB5 k d 0 0 0)).trans (by simp [-Nat.reduceAdd])
theorem tdone (k : MReg) (d : SReg) (a : SReg) (b : SReg) : Statement (.tdone k d a b) := by
  intro _ r h
  obtain rfl := Option.some.inj h
  exact (rfl : _ = (fun (r : Raw) => r.dab .tdone) (rawS 0xB6 k d a b 0)).trans (by simp [-Nat.reduceAdd])
theorem tcancel (k : MReg) (d : SReg) (a : SReg) : Statement (.tcancel k d a) := by
  intro _ r h
  obtain rfl := Option.some.inj h
  exact (rfl : _ = (fun (r : Raw) => r.da .tcancel) (rawS 0xB7 k d a 0 0)).trans (by simp [-Nat.reduceAdd])
theorem wpass (k : MReg) (ro : Bool) (d : SReg) (a : SReg) (s : Fin 16) (t : Fin 16) : Statement (.wpass k ro d a s t) := by
  intro _ r h
  obtain rfl := Option.some.inj h
  exact (rfl : _ = (fun (r : Raw) => r.da (fun k d a => .wpass k (r.flag 8) d a (r.slot 0) (r.slot 4))) ({ rawS 0xB8 k d a 0 0 with imm := (0 : BitVec 9) ++ (flagBit 1 ro ++ (toRaw.slotBits t ++ toRaw.slotBits s)) })).trans (by simp [-Nat.reduceAdd])
theorem wpoll (k : MReg) (d : SReg) (s : Fin 16) : Statement (.wpoll k d s) := by
  intro _ r h
  obtain rfl := Option.some.inj h
  exact (rfl : _ = (fun (r : Raw) => r.d1 (fun k d => .wpoll k d (r.slot 0))) ({ rawS 0xB9 k d 0 0 0 with imm := nib s })).trans (by simp [-Nat.reduceAdd])
theorem wdetach (k : MReg) (d : SReg) (s : Fin 16) : Statement (.wdetach k d s) := by
  intro _ r h
  obtain rfl := Option.some.inj h
  exact (rfl : _ = (fun (r : Raw) => r.d1 (fun k d => .wdetach k d (r.slot 0))) ({ rawS 0xBA k d 0 0 0 with imm := nib s })).trans (by simp [-Nat.reduceAdd])
theorem wattach (k : MReg) (keep : Bool) (d : SReg) (a : SReg) (s : Fin 16) : Statement (.wattach k keep d a s) := by
  intro _ r h
  obtain rfl := Option.some.inj h
  exact (rfl : _ = (fun (r : Raw) => r.da (fun k d a => .wattach k (r.flag 4) d a (r.slot 0))) ({ rawS 0xBB k d a 0 0 with imm := (0 : BitVec 13) ++ (flagBit 1 keep ++ toRaw.slotBits s) })).trans (by simp [-Nat.reduceAdd])
theorem wrel (k : MReg) (free : Bool) (d : SReg) (s : Fin 16) : Statement (.wrel k free d s) := by
  intro _ r h
  obtain rfl := Option.some.inj h
  exact (rfl : _ = (fun (r : Raw) => r.d1 (fun k d => .wrel k (r.flag 4) d (r.slot 0))) ({ rawS 0xBC k d 0 0 0 with imm := (0 : BitVec 13) ++ (flagBit 1 free ++ toRaw.slotBits s) })).trans (by simp [-Nat.reduceAdd])
theorem wmode (k : MReg) (m : Bool) (d : SReg) (s : Fin 16) : Statement (.wmode k m d s) := by
  intro _ r h
  obtain rfl := Option.some.inj h
  exact (rfl : _ = (fun (r : Raw) => r.d1 (fun k d => .wmode k (r.flag 4) d (r.slot 0))) ({ rawS 0xBD k d 0 0 0 with imm := (0 : BitVec 13) ++ (flagBit 1 m ++ toRaw.slotBits s) })).trans (by simp [-Nat.reduceAdd])
theorem wclr (k : MReg) (d : SReg) (s : Fin 16) : Statement (.wclr k d s) := by
  intro _ r h
  obtain rfl := Option.some.inj h
  exact (rfl : _ = (fun (r : Raw) => r.d1 (fun k d => .wclr k d (r.slot 0))) ({ rawS 0xBE k d 0 0 0 with imm := nib s })).trans (by simp [-Nat.reduceAdd])
theorem ldv (k : MReg) (set : Bool) (d : SReg) (a : SReg) (c : SReg) : Statement (.ldv k set d a c) := by
  intro _ r h
  obtain rfl := Option.some.inj h
  exact (rfl : _ = (fun (r : Raw) => show Except DecErr Instr from do return .ldv r.kReg (flagAt r.minor 0) (← sReg r.d) (← sReg r.a) (← sReg r.c)) ({ rawS 0xC0 k d a 0 (flagBit 8 set) with c := sBits c })).trans (by simp [-Nat.reduceAdd])
theorem verchk (k : MReg) (d : SReg) : Statement (.verchk k d) := by
  intro _ r h
  obtain rfl := Option.some.inj h
  exact (rfl : _ = (fun (r : Raw) => r.d1 .verchk) (rawS 0xC1 k d 0 0 0)).trans (by simp [-Nat.reduceAdd])
theorem verclr (k : MReg) : Statement (.verclr k) := by
  intro _ r h
  obtain rfl := Option.some.inj h
  exact (rfl : _ = (fun (r : Raw) => show Except DecErr Instr from return .verclr r.kReg) (rawS 0xC2 k 0 0 0 0)).trans (by simp [-Nat.reduceAdd])
theorem cas (k : MReg) (sz : Size) (o : Order) (sc : Scope) (d : SReg) (a : SReg) (b : SReg) (c : SReg) : Statement (.cas k sz o sc d a b c) := by
  intro _ r h
  obtain rfl := Option.some.inj h
  exact (rfl : _ = (fun (r : Raw) => show Except DecErr Instr from do return .cas r.kReg r.size r.order (← r.scope) (← sReg r.d) (← sReg r.a) (← sReg r.b) (← sReg r.c)) ({ rawS 0xC3 k d a b (atomicMinor 0 o sz) with c := sBits c, imm := scopeImm sc })).trans (by simp [-Nat.reduceAdd])
theorem casv (k : MReg) (sz : Size) (o : Order) (sc : Scope) (d : SReg) (a : SReg) (b : SReg) (c : SReg) : Statement (.casv k sz o sc d a b c) := by
  intro _ r h
  obtain rfl := Option.some.inj h
  exact (rfl : _ = (fun (r : Raw) => show Except DecErr Instr from do return .casv r.kReg r.size r.order (← r.scope) (← sReg r.d) (← sReg r.a) (← sReg r.b) (← sReg r.c)) ({ rawS 0xC4 k d a b (atomicMinor 0 o sz) with c := sBits c, imm := scopeImm sc })).trans (by simp [-Nat.reduceAdd])
theorem amo (k : MReg) (op : AmoOp) (sz : Size) (o : Order) (sc : Scope) (d : SReg) (a : SReg) (b : SReg) : Statement (.amo k op sz o sc d a b) := by
  intro _ r h
  obtain rfl := Option.some.inj h
  exact (rfl : _ = (fun (r : Raw) => show Except DecErr Instr from do return .amo r.kReg (← listed (AmoOp.ofCode r.op)) r.size r.order (← r.scope) (← sReg r.d) (← sReg r.a) (← sReg r.b)) ({ rawS 0xC5 k d a b (atomicMinor op.code o sz) with imm := scopeImm sc })).trans (by simp [-Nat.reduceAdd])
theorem red (k : MReg) (op : AmoOp) (sz : Size) (o : Order) (sc : Scope) (a : SReg) (b : SReg) : Statement (.red k op sz o sc a b) := by
  intro _ r h
  obtain rfl := Option.some.inj h
  exact (rfl : _ = (fun (r : Raw) => show Except DecErr Instr from do return .red r.kReg (← listed (AmoOp.ofCode r.op)) r.size r.order (← r.scope) (← sReg r.a) (← sReg r.b)) ({ rawS 0xC6 k 0 a b (atomicMinor op.code o sz) with imm := scopeImm sc })).trans (by simp [-Nat.reduceAdd])
theorem vamo (k : MReg) (op : AmoOp) (sz : Size) (o : Order) (sc : Scope) (d : VReg) (a : SReg) (b : VReg) (c : VReg) : Statement (.vamo k op sz o sc d a b c) := by
  intro _ r h
  obtain rfl := Option.some.inj h
  exact (rfl : _ = (fun (r : Raw) => show Except DecErr Instr from do return .vamo r.kReg (← listed (AmoOp.ofCode r.op)) r.size r.order (← r.scope) (← vReg r.d) (← sReg r.a) (← vReg r.b) (← vReg r.c)) ({ rawS 0xC7 k 0 a 0 (atomicMinor op.code o sz) with d := vBits d, b := vBits b, c := vBits c, imm := scopeImm sc })).trans (by simp [-Nat.reduceAdd])
theorem ldAcq (k : MReg) (sz : Size) (sc : Scope) (d : SReg) (a : SReg) : Statement (.ldAcq k sz sc d a) := by
  intro _ r h
  obtain rfl := Option.some.inj h
  exact (rfl : _ = (fun (r : Raw) => show Except DecErr Instr from do return .ldAcq r.kReg r.size (← r.scope) (← sReg r.d) (← sReg r.a)) ({ rawS 0xC8 k d a 0 (atomicMinor 0 .relaxed sz) with imm := scopeImm sc })).trans (by simp [-Nat.reduceAdd])
theorem stRel (k : MReg) (sz : Size) (sc : Scope) (a : SReg) (b : SReg) : Statement (.stRel k sz sc a b) := by
  intro _ r h
  obtain rfl := Option.some.inj h
  exact (rfl : _ = (fun (r : Raw) => show Except DecErr Instr from do return .stRel r.kReg r.size (← r.scope) (← sReg r.a) (← sReg r.b)) ({ rawS 0xC9 k 0 a b (atomicMinor 0 .relaxed sz) with imm := scopeImm sc })).trans (by simp [-Nat.reduceAdd])
theorem cpy (k : MReg) (d : Fin 64) (a : SReg) (b : SReg) (c : SReg) (r : BitVec 18) (e : CpyExt) : Statement (.cpy k d a b c r e) := by
  intro _ r h
  obtain rfl := Option.some.inj h
  exact (rfl : _ = (fun (r : Raw) => show Except DecErr Instr from do return .cpy r.kReg r.d.toFin (← sReg r.a) (← sReg r.b) (← sReg r.c) r.imm { sfmt := ← listed (Ty.ofCode (partAt r.hi 60 4)), dfmt := ← listed (Ty.ofCode (partAt r.hi 56 4)), cvt := flagAt r.hi 55, dk := ← listed (CpyDst.ofCode (partAt r.hi 53 2)), irq := flagAt r.hi 52, fon := partAt r.hi 44 8, tag := partAt r.hi 36 8 }) ({ rawS 0xD0 k 0 a b 0 with d := BitVec.ofNat 6 d.val, len := 2, c := sBits c, imm := r, hi := e.bits })).trans (by simp [-Nat.reduceAdd])
theorem fork (k : MReg) (d : SReg) (a : SReg) (b : SReg) (i : Imm) : Statement (.fork k d a b i) := by
  intro _ r h
  obtain rfl := Option.some.inj h
  have key : ∀ (i : Imm), ofFields ((rawS 0xD1 k d a b 0).withImm i) = (fun (r : Raw) => show Except DecErr Instr from do return .fork r.kReg (← sReg r.d) (← sReg r.a) (← sReg r.b) r.immOf) ((rawS 0xD1 k d a b 0).withImm i) := fun i => by
    cases i <;> rfl
  exact (key i).trans (by simp [-Nat.reduceAdd])
theorem rdv (k : MReg) (d : SReg) (a : SReg) : Statement (.rdv k d a) := by
  intro _ r h
  obtain rfl := Option.some.inj h
  exact (rfl : _ = (fun (r : Raw) => r.da .rdv) (rawS 0xD2 k d a 0 0)).trans (by simp [-Nat.reduceAdd])
theorem qfence (k : MReg) (m : BitVec 3) : Statement (.qfence k m) := by
  intro _ r h
  obtain rfl := Option.some.inj h
  exact (rfl : _ = (fun (r : Raw) => show Except DecErr Instr from return .qfence r.kReg (r.imm.setWidth 3)) ({ rawS 0xD3 k 0 0 0 0 with imm := m.setWidth 18 })).trans (by simp [-Nat.reduceAdd])
theorem wait (k : MReg) (tl : BitVec 8) (cp : BitVec 8) (st : BitVec 8) (ld : BitVec 8) : Statement (.wait k tl cp st ld) := by
  intro _ r h
  obtain rfl := Option.some.inj h
  exact (rfl : _ = (fun (r : Raw) => show Except DecErr Instr from  return .wait r.kReg (partAt r.hi 24 8) (partAt r.hi 16 8) (partAt r.hi 8 8) (partAt r.hi 0 8)) ({ rawS 0xD4 k 0 0 0 0 with len := 1, hi := (0 : BitVec 32) ++ (tl ++ (cp ++ (st ++ ld))) })).trans (by simp [-Nat.reduceAdd])
theorem uiret (k : MReg) : Statement (.uiret k) := by
  intro _ r h
  obtain rfl := Option.some.inj h
  exact (rfl : _ = (fun (r : Raw) => show Except DecErr Instr from return .uiret r.kReg) (rawS 0xD5 k 0 0 0 0)).trans (by simp [-Nat.reduceAdd])
theorem clw (k : MReg) (f : WFmt) (sc : Bool) (d : SReg) (a : SReg) : Statement (.clw k f sc d a) := by
  intro _ r h
  obtain rfl := Option.some.inj h
  exact (rfl : _ = (fun (r : Raw) => show Except DecErr Instr from do return .clw r.kReg (← listed (WFmt.ofCode r.minor)) (r.flag 0) (← sReg r.d) (← sReg r.a)) ({ rawS 0xD8 k d a 0 f.code with imm := flagBit 18 sc })).trans (by simp [-Nat.reduceAdd])
theorem cflip (k : MReg) : Statement (.cflip k) := by
  intro _ r h
  obtain rfl := Option.some.inj h
  exact (rfl : _ = (fun (r : Raw) => show Except DecErr Instr from return .cflip r.kReg) (rawS 0xD9 k 0 0 0 0)).trans (by simp [-Nat.reduceAdd])
theorem cpass (k : MReg) (a : SReg) (b : SReg) (c : SReg) (irq : Bool) (tag : BitVec 8) : Statement (.cpass k a b c irq tag) := by
  intro _ r h
  obtain rfl := Option.some.inj h
  exact (rfl : _ = (fun (r : Raw) => r.abc (fun k a b c => .cpass k a b c (r.flag 8) (lowAt r.imm 8))) ({ rawS 0xDA k 0 a b 0 with c := sBits c, imm := (0 : BitVec 9) ++ (flagBit 1 irq ++ tag) })).trans (by simp [-Nat.reduceAdd])
theorem cdrain (k : MReg) (a : SReg) (b : SReg) (c : SReg) (irq : Bool) (tag : BitVec 8) : Statement (.cdrain k a b c irq tag) := by
  intro _ r h
  obtain rfl := Option.some.inj h
  exact (rfl : _ = (fun (r : Raw) => r.abc (fun k a b c => .cdrain k a b c (r.flag 8) (lowAt r.imm 8))) ({ rawS 0xDB k 0 a b 0 with c := sBits c, imm := (0 : BitVec 9) ++ (flagBit 1 irq ++ tag) })).trans (by simp [-Nat.reduceAdd])
theorem cstk (k : MReg) (a : SReg) (b : SReg) (c : SReg) : Statement (.cstk k a b c) := by
  intro _ r h
  obtain rfl := Option.some.inj h
  exact (rfl : _ = (fun (r : Raw) => r.abc .cstk) ({ rawS 0xDC k 0 a b 0 with c := sBits c })).trans (by simp [-Nat.reduceAdd])
theorem cfmt (k : MReg) (f : AFmt) (cmp : Bool) : Statement (.cfmt k f cmp) := by
  intro _ r h
  obtain rfl := Option.some.inj h
  exact (rfl : _ = (fun (r : Raw) => show Except DecErr Instr from do return .cfmt r.kReg (← listed (AFmt.ofCode (partAt r.minor 0 3))) (flagAt r.minor 7)) (rawS 0xDD k 0 0 0 (flagBit 1 cmp ++ ((0 : BitVec 4) ++ f.code)))).trans (by simp [-Nat.reduceAdd])
theorem cstat (k : MReg) (d : SReg) : Statement (.cstat k d) := by
  intro _ r h
  obtain rfl := Option.some.inj h
  exact (rfl : _ = (fun (r : Raw) => r.d1 .cstat) (rawS 0xDE k d 0 0 0)).trans (by simp [-Nat.reduceAdd])
theorem xst (k : MReg) (a : SReg) (b : SReg) (c : SReg) : Statement (.xst k a b c) := by
  intro _ r h
  obtain rfl := Option.some.inj h
  exact (rfl : _ = (fun (r : Raw) => r.abc .xst) ({ rawS 0xE0 k 0 a b 0 with c := sBits c })).trans (by simp [-Nat.reduceAdd])
theorem sopen (k : MReg) (rx : Bool) (d : SReg) (a : SReg) (n : Fin 4) : Statement (.sopen k rx d a n) := by
  intro _ r h
  obtain rfl := Option.some.inj h
  exact (rfl : _ = (fun (r : Raw) => r.da (fun k d a => .sopen k (r.flag 2) d a (decodeEngines.port r))) ({ rawS 0xE1 k d a 0 0 with imm := toRaw.portImm rx n })).trans (by simp [-Nat.reduceAdd])
theorem sclose (k : MReg) (rx : Bool) (d : SReg) (n : Fin 4) : Statement (.sclose k rx d n) := by
  intro _ r h
  obtain rfl := Option.some.inj h
  exact (rfl : _ = (fun (r : Raw) => r.d1 (fun k d => .sclose k (r.flag 2) d (decodeEngines.port r))) ({ rawS 0xE5 k d 0 0 0 with imm := toRaw.portImm rx n })).trans (by simp [-Nat.reduceAdd])
theorem smark (k : MReg) (n : Fin 4) : Statement (.smark k n) := by
  intro _ r h
  obtain rfl := Option.some.inj h
  exact (rfl : _ = (fun (r : Raw) => show Except DecErr Instr from return .smark r.kReg (decodeEngines.port r)) ({ rawS 0xE2 k 0 0 0 0 with imm := toRaw.portImm false n })).trans (by simp [-Nat.reduceAdd])
theorem nred (k : MReg) (op : NredOp) (a : SReg) (b : SReg) (c : SReg) (s : Fin 16) (off : BitVec 11) : Statement (.nred k op a b c s off) := by
  intro _ r h
  obtain rfl := Option.some.inj h
  exact (rfl : _ = (fun (r : Raw) => show Except DecErr Instr from do
      let op ← listed (NredOp.ofCode (partAt r.imm 15 3))
      r.abc (fun k a b c => .nred k op a b c (r.slot 0) (partAt r.imm 4 11))) ({ rawS 0xE3 k 0 a b 0 with c := sBits c, imm := op.code ++ (off ++ toRaw.slotBits s) })).trans (by simp [-Nat.reduceAdd])
theorem nmc (k : MReg) (a : SReg) (b : SReg) (c : SReg) (s : Fin 16) (off : BitVec 11) : Statement (.nmc k a b c s off) := by
  intro _ r h
  obtain rfl := Option.some.inj h
  exact (rfl : _ = (fun (r : Raw) => r.abc (fun k a b c => .nmc k a b c (r.slot 0) (partAt r.imm 4 11))) ({ rawS 0xE4 k 0 a b 0 with c := sBits c, imm := (0 : BitVec 3) ++ (off ++ toRaw.slotBits s) })).trans (by simp [-Nat.reduceAdd])
theorem fillWord (bits : BitVec 30) : Statement (.fillWord bits) := fun _ _ h => nomatch h
theorem fetchMiss (core : Nat) (tid : Nat) : Statement (.fetchMiss core tid) := fun _ _ h => nomatch h
theorem resultArrival (op : Nat) : Statement (.resultArrival op) := fun _ _ h => nomatch h
theorem storeAcknowledge (op : Nat) : Statement (.storeAcknowledge op) := fun _ _ h => nomatch h
theorem lateFault (op : Nat) (part : Nat) (dataError : Bool) : Statement (.lateFault op part dataError) := fun _ _ h => nomatch h
theorem trapEntry (core : Nat) (tid : Nat) : Statement (.trapEntry core tid) := fun _ _ h => nomatch h
theorem interruptEntry (core : Nat) (tid : Nat) : Statement (.interruptEntry core tid) := fun _ _ h => nomatch h
theorem timerPending (core : Nat) (tid : Nat) : Statement (.timerPending core tid) := fun _ _ h => nomatch h
theorem noticeDelivery (core : Nat) (tid : Nat) : Statement (.noticeDelivery core tid) := fun _ _ h => nomatch h
theorem registerFileSleep (core : Nat) : Statement (.registerFileSleep core) := fun _ _ h => nomatch h
theorem wakeEnd (core : Nat) : Statement (.wakeEnd core) := fun _ _ h => nomatch h
theorem remoteFillDelivery (op : Nat) : Statement (.remoteFillDelivery op) := fun _ _ h => nomatch h
theorem mwaitTimeout (core : Nat) (tid : Nat) : Statement (.mwaitTimeout core tid) := fun _ _ h => nomatch h
theorem episodeComplete (team : Nat) (group : Nat) : Statement (.episodeComplete team group) := fun _ _ h => nomatch h
theorem decrementAtHome (op : Nat) : Statement (.decrementAtHome op) := fun _ _ h => nomatch h
theorem watchdogExpiry (team : Nat) (task : Nat) : Statement (.watchdogExpiry team task) := fun _ _ h => nomatch h
theorem errorTokenArrival (launch : Nat) (core : Nat) : Statement (.errorTokenArrival launch core) := fun _ _ h => nomatch h
theorem wellMoveComplete (mv : Nat) : Statement (.wellMoveComplete mv) := fun _ _ h => nomatch h
theorem wellAttachComplete (mv : Nat) : Statement (.wellAttachComplete mv) := fun _ _ h => nomatch h
theorem wellClearComplete (mv : Nat) : Statement (.wellClearComplete mv) := fun _ _ h => nomatch h
theorem wellModeChange (mv : Nat) : Statement (.wellModeChange mv) := fun _ _ h => nomatch h
theorem wellFree (mv : Nat) : Statement (.wellFree mv) := fun _ _ h => nomatch h
theorem wellPortAccess (op : Nat) (part : Nat) : Statement (.wellPortAccess op part) := fun _ _ h => nomatch h
theorem entryMoveOutward (op : Nat) (part : Nat) (piece : Nat) : Statement (.entryMoveOutward op part piece) := fun _ _ h => nomatch h
theorem linePartPerform (op : Nat) (part : Nat) : Statement (.linePartPerform op part) := fun _ _ h => nomatch h
theorem loadPartPerform (op : Nat) (part : Nat) : Statement (.loadPartPerform op part) := fun _ _ h => nomatch h
theorem sliceStep (op : Nat) (part : Nat) : Statement (.sliceStep op part) := fun _ _ h => nomatch h
theorem vamoLaneFault (op : Nat) : Statement (.vamoLaneFault op) := fun _ _ h => nomatch h
theorem pageResolved (vf : Nat) (page : Nat) (token : Nat) : Statement (.pageResolved vf page token) := fun _ _ h => nomatch h
theorem engineCopy (w : CopyTurn) : Statement (.engineCopy w) := fun _ _ h => nomatch h
theorem copyComplete (core : Nat) : Statement (.copyComplete core) := fun _ _ h => nomatch h
theorem engineFault (f : EngFault) : Statement (.engineFault f) := fun _ _ h => nomatch h
theorem sequencerRecord (core : Nat) (seq : Nat) : Statement (.sequencerRecord core seq) := fun _ _ h => nomatch h
theorem arrayOpStart (core : Nat) : Statement (.arrayOpStart core) := fun _ _ h => nomatch h
theorem arrayOpComplete (core : Nat) : Statement (.arrayOpComplete core) := fun _ _ h => nomatch h
theorem exchangeOpStart (core : Nat) : Statement (.exchangeOpStart core) := fun _ _ h => nomatch h
theorem unitLanding (core : Nat) (target : Nat) : Statement (.unitLanding core target) := fun _ _ h => nomatch h
theorem networkReduction (team : Nat) (group : Nat) : Statement (.networkReduction team group) := fun _ _ h => nomatch h
theorem wordInjection (core : Nat) (tid : Nat) (n : Fin 4) : Statement (.wordInjection core tid n) := fun _ _ h => nomatch h
theorem wordDelivery (flit : Nat) : Statement (.wordDelivery flit) := fun _ _ h => nomatch h
theorem markerSend (core : Nat) : Statement (.markerSend core) := fun _ _ h => nomatch h
theorem lockstepStall (core : Nat) (tid : Nat) : Statement (.lockstepStall core tid) := fun _ _ h => nomatch h
theorem schedulerQuantum (vf : Nat) : Statement (.schedulerQuantum vf) := fun _ _ h => nomatch h
theorem launchEnd (launch : Nat) : Statement (.launchEnd launch) := fun _ _ h => nomatch h
theorem synchronizedStop (teams : List Nat) : Statement (.synchronizedStop teams) := fun _ _ h => nomatch h
theorem teamRestore (team : Nat) : Statement (.teamRestore team) := fun _ _ h => nomatch h
theorem frameScrub (frame : Nat) : Statement (.frameScrub frame) := fun _ _ h => nomatch h
theorem noresHoldExpiry (op : Nat) (part : Nat) : Statement (.noresHoldExpiry op part) := fun _ _ h => nomatch h
theorem retryPermit (slice : Nat) : Statement (.retryPermit slice) := fun _ _ h => nomatch h
theorem genReplay (core : Nat) : Statement (.genReplay core) := fun _ _ h => nomatch h
theorem deadlockProbe (buffer : Nat) : Statement (.deadlockProbe buffer) := fun _ _ h => nomatch h
theorem deadlockRecoveryStep  : Statement (.deadlockRecoveryStep) := fun _ _ h => nomatch h
theorem shootDownComplete (vf : Nat) : Statement (.shootDownComplete vf) := fun _ _ h => nomatch h
theorem patchTaken (vf : Nat) : Statement (.patchTaken vf) := fun _ _ h => nomatch h
theorem deviceStart (inp : BootInput) : Statement (.deviceStart inp) := fun _ _ h => nomatch h
theorem powerLoss  : Statement (.powerLoss) := fun _ _ h => nomatch h
theorem timebaseRecord  : Statement (.timebaseRecord) := fun _ _ h => nomatch h
theorem lineMove (vf : Nat) (line : Nat) : Statement (.lineMove vf line) := fun _ _ h => nomatch h
theorem masksTaken (vf : Nat) : Statement (.masksTaken vf) := fun _ _ h => nomatch h
theorem resetDone (vf : Nat) : Statement (.resetDone vf) := fun _ _ h => nomatch h
theorem returnToLender (cluster : Nat) : Statement (.returnToLender cluster) := fun _ _ h => nomatch h
theorem agentWriteAtSlice (w : AgentWrite) : Statement (.agentWriteAtSlice w) := fun _ _ h => nomatch h
theorem eviction (line : Nat) : Statement (.eviction line) := fun _ _ h => nomatch h
theorem peerRequest (q : PeerAcc) : Statement (.peerRequest q) := fun _ _ h => nomatch h
theorem hostCoherentAccess (q : HostAcc) : Statement (.hostCoherentAccess q) := fun _ _ h => nomatch h
theorem hostRawAccess (q : HostAcc) : Statement (.hostRawAccess q) := fun _ _ h => nomatch h
theorem hostTierAccess (q : HostAcc) : Statement (.hostTierAccess q) := fun _ _ h => nomatch h
theorem registerWindowWrite (vf : Nat) (off : Nat) (v : Word) : Statement (.registerWindowWrite vf off v) := fun _ _ h => nomatch h
theorem quantumWrite (vf : Nat) (v : Word) : Statement (.quantumWrite vf v) := fun _ _ h => nomatch h
theorem sdoor (vf : Nat) (v : Word) : Statement (.sdoor vf v) := fun _ _ h => nomatch h
theorem reset (vf : Nat) (v : Word) : Statement (.reset vf v) := fun _ _ h => nomatch h
theorem carveoutWrite (vf : Nat) (bound : Bool) (v : Word) : Statement (.carveoutWrite vf bound v) := fun _ _ h => nomatch h
theorem sdgo (vf : Nat) (v : Word) : Statement (.sdgo vf v) := fun _ _ h => nomatch h
theorem mvgo (vf : Nat) (v : Word) : Statement (.mvgo vf v) := fun _ _ h => nomatch h
theorem prq (vf : Nat) : Statement (.prq vf) := fun _ _ h => nomatch h
theorem prans (vf : Nat) (v : Word) : Statement (.prans vf v) := fun _ _ h => nomatch h
theorem gpgo (vf : Nat) (v : Word) : Statement (.gpgo vf v) := fun _ _ h => nomatch h
theorem gdef (vf : Nat) (v : Word) : Statement (.gdef vf v) := fun _ _ h => nomatch h
theorem qtail (vf : Nat) (q : Fin 16) (v : Word) : Statement (.qtail vf q v) := fun _ _ h => nomatch h
theorem qctlResume (vf : Nat) (q : Fin 16) (v : Word) : Statement (.qctlResume vf q v) := fun _ _ h => nomatch h
theorem irqstatClear (vf : Nat) (v : Word) : Statement (.irqstatClear vf v) := fun _ _ h => nomatch h
theorem createFunction (a0 : Word) (a1 : Word) (a2 : Word) : Statement (.createFunction a0 a1 a2) := fun _ _ h => nomatch h
theorem addCluster (a0 : Word) (a1 : Word) (a2 : Word) : Statement (.addCluster a0 a1 a2) := fun _ _ h => nomatch h
theorem removeCluster (a0 : Word) (a1 : Word) (a2 : Word) : Statement (.removeCluster a0 a1 a2) := fun _ _ h => nomatch h
theorem addSlice (a0 : Word) (a1 : Word) (a2 : Word) : Statement (.addSlice a0 a1 a2) := fun _ _ h => nomatch h
theorem writeHashMask (a0 : Word) (a1 : Word) (a2 : Word) : Statement (.writeHashMask a0 a1 a2) := fun _ _ h => nomatch h
theorem lendCluster (a0 : Word) (a1 : Word) (a2 : Word) : Statement (.lendCluster a0 a1 a2) := fun _ _ h => nomatch h
theorem revokeLentCluster (a0 : Word) (a1 : Word) (a2 : Word) : Statement (.revokeLentCluster a0 a1 a2) := fun _ _ h => nomatch h
theorem bindExport (a0 : Word) (a1 : Word) (a2 : Word) : Statement (.bindExport a0 a1 a2) := fun _ _ h => nomatch h
theorem destroyFunction (a0 : Word) (a1 : Word) (a2 : Word) : Statement (.destroyFunction a0 a1 a2) := fun _ _ h => nomatch h
theorem clearBootRecord (a0 : Word) (a1 : Word) (a2 : Word) : Statement (.clearBootRecord a0 a1 a2) := fun _ _ h => nomatch h
theorem attestationReport (a0 : Word) (a1 : Word) (a2 : Word) : Statement (.attestationReport a0 a1 a2) := fun _ _ h => nomatch h
theorem thermalLimit (die : Nat) (hot : Bool) : Statement (.thermalLimit die hot) := fun _ _ h => nomatch h
theorem unlistedCommand (code : Word) : Statement (.unlistedCommand code) := fun _ _ h => nomatch h
theorem hostAccessToNoRegion (q : HostAcc) : Statement (.hostAccessToNoRegion q) := fun _ _ h => nomatch h

end Sys2Proof.Laws.RoundTrip
end

