-- ==== Sys2Proof/Tests/Slice0.lean ====
section
/-!
SUPPORT. The model's own tests: words written out from the encodings of R76-R92 for every instruction, an ill-formed term
for each check of WellFormed, and for every statement states and operands that meet its hypotheses.
-/

namespace Sys2Proof.Tests

-- One test at a time: each of them waits for the kernel, and a thread for each is more than the memory limit of the check allows.
set_option Elab.async false

open Sys2Proof Sys2Proof.Machine

/-- The bits of a 64-bit word, its fields in the order of R82 and R81: imm18, c, minor, bit 31, k, b, a, d, major, length 0b00. -/
def w64 (imm : BitVec 18) (c : BitVec 6) (minor : BitVec 8) (k : BitVec 3) (b a d : BitVec 6) (major : BitVec 8) : Nat :=
  (imm ++ c ++ minor ++ 0#1 ++ k ++ b ++ a ++ d ++ major ++ 0b00#2 : BitVec 64).toNat

/-- The bits of a 96-bit word with j and c zero: its imm32 above a common head whose length code is 0b01 (R76, R82). -/
def w96 (imm : BitVec 32) (minor : BitVec 8) (k : BitVec 3) (b a d : BitVec 6) (major : BitVec 8) : Nat :=
  (imm ++ 0#24 ++ minor ++ 0#1 ++ k ++ b ++ a ++ d ++ major ++ 0b01#2 : BitVec 96).toNat

/-- Every word of a list, with its number of bits, decodes to the instruction beside it. -/
def decodesAll (l : List (Nat × Nat × Instr)) : Bool := l.all (fun (n, w, i) => decodeTableWord n w == some i)

/-- R87, R88: majors 0x00-0x0A. -/
theorem test_words_integer : decodesAll [
    (64, w64 0 0 0x00 0 7 6 5 0x00, .add 0 5 6 7), (64, w64 0 0 0x01 1 7 6 5 0x00, .sub 1 5 6 7),
    (64, w64 0 0 0x02 2 7 6 5 0x00, .and 2 5 6 7), (64, w64 0 0 0x03 3 7 6 5 0x00, .or 3 5 6 7),
    (64, w64 0 0 0x04 4 7 6 5 0x00, .xor 4 5 6 7), (64, w64 0 0 0x05 5 7 6 5 0x00, .shl 5 5 6 7),
    (64, w64 0 0 0x06 6 7 6 5 0x00, .shr 6 5 6 7), (64, w64 0 0 0x07 7 7 6 5 0x00, .sra 7 5 6 7),
    (64, w64 0 0 0x08 0 62 61 59 0x00, .min 0 .s 59 61 62), (64, w64 0 0 0x09 0 7 6 5 0x00, .min 0 .z 5 6 7),
    (64, w64 0 0 0x0A 0 7 6 5 0x00, .max 0 .s 5 6 7), (64, w64 0 0 0x0B 0 7 6 5 0x00, .max 0 .z 5 6 7),
    (64, w64 0x20000 0 0x00 0 0 6 5 0x01, .addImm 0 5 6 (.i18 0x20000)), (96, w96 0x80000001 0x01 0 0 6 5 0x01, .subImm 0 5 6 (.i32 0x80000001)),
    (64, w64 1 0 0x02 0 0 6 5 0x01, .andImm 0 5 6 (.i18 1)), (64, w64 1 0 0x03 0 0 6 5 0x01, .orImm 0 5 6 (.i18 1)),
    (64, w64 0x3FFFF 0 0x04 0 0 6 5 0x01, .xorImm 0 5 6 (.i18 0x3FFFF)), (64, w64 63 0 0x05 0 0 6 5 0x01, .shlImm 0 5 6 (.i18 63)),
    (64, w64 63 0 0x06 0 0 6 5 0x01, .shrImm 0 5 6 (.i18 63)), (64, w64 63 0 0x07 0 0 6 5 0x01, .sraImm 0 5 6 (.i18 63)),
    (64, w64 9 0 0x09 0 0 6 5 0x01, .minImm 0 .z 5 6 (.i18 9)), (64, w64 9 0 0x0A 0 0 6 5 0x01, .maxImm 0 .s 5 6 (.i18 9)),
    (64, w64 0 0 0x00 0 7 6 5 0x02, .mul 0 5 6 7), (64, w64 0 0 0x01 0 7 6 5 0x02, .mulh 0 .s 5 6 7),
    (64, w64 0 0 0x04 0 7 6 5 0x02, .div 0 .z 5 6 7), (64, w64 0 0 0x05 0 7 6 5 0x02, .rem 0 .s 5 6 7),
    (64, w64 3 0 0x00 0 0 6 5 0x03, .mulImm 0 5 6 (.i18 3)), (64, w64 3 0 0x02 0 0 6 5 0x03, .mulhImm 0 .z 5 6 (.i18 3)),
    (64, w64 3 0 0x03 0 0 6 5 0x03, .divImm 0 .s 5 6 (.i18 3)), (96, w96 3 0x06 0 0 6 5 0x03, .remImm 0 .z 5 6 (.i32 3)),
    (64, w64 0 0 0x00 0 7 6 5 0x04, .slt 0 5 6 7), (64, w64 0 0 0x01 0 7 6 5 0x04, .sltu 0 5 6 7),
    (64, w64 0 0 0x02 0 7 6 5 0x04, .seq 0 5 6 7), (64, w64 0 0 0x03 0 7 6 5 0x04, .sne 0 5 6 7),
    (64, w64 1 0 0x00 0 0 6 5 0x05, .sltImm 0 5 6 (.i18 1)), (64, w64 1 0 0x01 0 0 6 5 0x05, .sltuImm 0 5 6 (.i18 1)),
    (64, w64 1 0 0x02 0 0 6 5 0x05, .seqImm 0 5 6 (.i18 1)), (64, w64 1 0 0x03 0 0 6 5 0x05, .sneImm 0 5 6 (.i18 1)),
    (64, w64 0 0 0x00 0 0 6 5 0x06, .clz 0 5 6), (64, w64 0 0 0x01 0 0 6 5 0x06, .ctz 0 5 6),
    (64, w64 0 0 0x02 0 0 6 5 0x06, .popc 0 5 6), (64, w64 0 0 0x11 0 0 6 5 0x06, .sext 0 .w16 5 6),
    (64, w64 0 0 0x16 0 0 6 5 0x06, .zext 0 .w32 5 6), (64, w64 (15 * 64 + 8) 0 0x01 0 0 6 5 0x07, .bfx 0 .s 5 6 8 15),
    (64, w64 (15 * 64 + 8) 0 0x02 0 7 6 5 0x07, .bfi 0 5 6 7 8 15), (64, w64 0 8 0x00 0 7 6 5 0x08, .sel 0 5 6 7 8),
    (64, w64 0x3FFFF 0 0x00 0 0 0 5 0x09, .li 0 5 (.i18 0x3FFFF)), (96, w96 0x12345678 0x00 0 0 0 5 0x0A, .lea 0 5 0x12345678)] = true := by
  decide

/-- R87: majors 0x20-0x47. -/
theorem test_words_control : decodesAll [
    (64, w64 0x3FFFD 0 0x05 1 2 1 0 0x20, .bcc 1 .geu 1 2 (.i18 0x3FFFD)), (96, w96 0x100 0 0 0 0 0 0x21, .j 0 (.i32 0x100)),
    (64, w64 4 0 0 0 0 0 1 0x22, .jal 0 1 (.i18 4)), (64, w64 0 0 0 0 0 1 0 0x23, .jr 0 0 1),
    (64, w64 0x3FFFE 0 0 0 0 0 2 0x24, .loop 0 2 (.i18 0x3FFFE)), (64, w64 16 0 0x05 0 0 10 9 0x30, .ld 0 .b16 true 9 10 (.i18 16)),
    (96, w96 16 0x03 0 11 10 0 0x31, .st 0 .b64 10 11 (.i32 16)), (64, w64 1 0 0 0 0 10 0 0x32, .pf 0 10 1),
    (64, w64 2 0 0 0 0 10 0 0x33, .wb 0 10 2), (64, w64 3 0 0 0 0 10 0 0x34, .inv 0 10 3),
    (64, w64 0x2A 0 0 0 0 0 0 0x40, .trap 0 0x2A), (64, w64 0 0 0 0 0 0 0 0x41, .eret 0),
    (64, w64 0x400 0 0x00 0 0 0 1 0x42, .csrr 0 1 0x400), (64, w64 0x402 0 0x01 0 0 2 1 0x42, .csrw 0 1 2 0x402),
    (64, w64 0x406 0 0x02 0 0 2 1 0x42, .csrs 0 1 2 0x406), (64, w64 0x406 0 0x03 0 0 2 1 0x42, .csrc 0 1 2 0x406),
    (64, w64 0 0 0x0C 0 0 0 0 0x43, .fence 0 .dev true), (64, w64 0 0 0 0 0 0 0 0x44, .nop 0),
    (64, w64 0 0 0 0 0 0 0 0x45, .halt 0), (64, w64 0 0 0 0 0 0 0 0x46, .brk 0), (64, w64 0 0 0 0 0 0 0 0x47, .wfi 0)] = true := by
  decide

/-- R89, R90: majors 0x50-0x57, the op in minor bits 7:4 and the type in bits 3:0. -/
theorem test_words_vector_op : decodesAll [
    (64, w64 0 0 0x02 2 3 2 1 0x50, .vaddInt 2 .s32 1 2 3), (64, w64 0 0 0x10 0 3 2 1 0x50, .vsubInt 0 .s8 1 2 3),
    (64, w64 0 0 0x21 0 3 2 1 0x50, .vmulInt 0 .s16 1 2 3), (64, w64 0 0 0x33 0 3 2 1 0x50, .vminInt 0 .s64 1 2 3),
    (64, w64 0 0 0x44 0 3 2 1 0x50, .vmaxInt 0 .z8 1 2 3), (64, w64 0 0 0x65 0 3 2 1 0x50, .vand 0 .z16 1 2 3),
    (64, w64 0 0 0x76 0 3 2 1 0x50, .vor 0 .z32 1 2 3), (64, w64 0 0 0x87 0 3 2 1 0x50, .vxor 0 .z64 1 2 3),
    (64, w64 0 0 0x90 0 3 2 1 0x50, .vshl 0 .s8 1 2 3), (64, w64 0 0 0xA0 0 3 2 1 0x50, .vshr 0 .s8 1 2 3),
    (64, w64 0 0 0xB0 0 3 2 31 0x50, .vsra 0 .s8 31 2 3), (64, w64 0 0 0x02 0 62 2 1 0x51, .vaddIntScalar 0 .s32 1 2 62),
    (64, w64 0 0 0x12 0 3 2 1 0x51, .vsubIntScalar 0 .s32 1 2 3), (64, w64 0 0 0x22 0 3 2 1 0x51, .vmulIntScalar 0 .s32 1 2 3),
    (64, w64 0 0 0x32 0 3 2 1 0x51, .vminIntScalar 0 .s32 1 2 3), (64, w64 0 0 0x42 0 3 2 1 0x51, .vmaxIntScalar 0 .s32 1 2 3),
    (64, w64 0 0 0x62 0 3 2 1 0x51, .vandScalar 0 .s32 1 2 3), (64, w64 0 0 0x72 0 3 2 1 0x51, .vorScalar 0 .s32 1 2 3),
    (64, w64 0 0 0x82 0 3 2 1 0x51, .vxorScalar 0 .s32 1 2 3), (64, w64 0 0 0x92 0 3 2 1 0x51, .vshlScalar 0 .s32 1 2 3),
    (64, w64 0 0 0xA2 0 3 2 1 0x51, .vshrScalar 0 .s32 1 2 3), (64, w64 0 0 0xB2 0 3 2 1 0x51, .vsraScalar 0 .s32 1 2 3),
    (64, w64 0 0 0x08 0 3 2 1 0x52, .vaddFp 0 .f32 1 2 3), (64, w64 0 0 0x19 0 3 2 1 0x52, .vsubFp 0 .f16 1 2 3),
    (64, w64 0 0 0x2A 0 3 2 1 0x52, .vmulFp 0 .bf16 1 2 3), (64, w64 0 0 0x38 0 3 2 1 0x52, .vminFp 0 .f32 1 2 3),
    (64, w64 0 0 0x48 0 3 2 1 0x52, .vmaxFp 0 .f32 1 2 3), (64, w64 0 0 0x58 0 3 2 1 0x52, .vdiv 0 .f32 1 2 3),
    (64, w64 0 0 0x08 0 3 2 1 0x53, .vaddFpScalar 0 .f32 1 2 3), (64, w64 0 0 0x18 0 3 2 1 0x53, .vsubFpScalar 0 .f32 1 2 3),
    (64, w64 0 0 0x28 0 3 2 1 0x53, .vmulFpScalar 0 .f32 1 2 3), (64, w64 0 0 0x38 0 3 2 1 0x53, .vminFpScalar 0 .f32 1 2 3),
    (64, w64 0 0 0x48 0 3 2 1 0x53, .vmaxFpScalar 0 .f32 1 2 3), (64, w64 0 0 0x58 0 3 2 1 0x53, .vdivScalar 0 .f32 1 2 3),
    (64, w64 0 4 0x08 0 3 2 1 0x54, .vfma 0 .f32 1 2 3 4), (64, w64 0 4 0x18 0 3 2 1 0x54, .vfms 0 .f32 1 2 3 4),
    (64, w64 0 0 0x08 0 0 2 1 0x55, .vsqrt 0 .f32 1 2), (64, w64 0 0 0x18 0 0 2 1 0x55, .vrcp 0 .f32 1 2),
    (64, w64 0 0 0x28 0 0 2 1 0x55, .vrsq 0 .f32 1 2), (64, w64 0 0 0x31 0 0 2 1 0x55, .vabs 0 .s16 1 2),
    (64, w64 0 0 0x49 0 0 2 1 0x55, .vneg 0 .f16 1 2), (64, w64 0 0 0x5A 3 3 2 7 0x56, .vcmp 3 .ge .bf16 7 2 3),
    (64, w64 0 0 0x27 0 40 2 1 0x57, .vcmpScalar 0 .lt .z64 1 2 40)] = true := by
  decide

/-- R90, R91: majors 0x58-0x96. -/
theorem test_words_vector_rest : decodesAll [
    (64, w64 2 0 0 0 0 2 1 0x58, .vmov 0 .w32 1 2), (64, w64 0 0 0x08 0 0 40 1 0x59, .vbcast 0 .f32 1 40),
    (64, w64 3 0 0x02 0 7 2 40 0x5A, .vext 0 .s32 40 2 7 3), (64, w64 3 0 0x02 0 7 40 1 0x5B, .vins 0 .s32 1 40 7 3),
    (64, w64 0 0 0x03 0 3 2 1 0x5C, .vperm 0 .s64 1 2 3), (64, w64 0 0 0x56 0 0 2 40 0x5D, .vred 0 .xor .z32 40 2),
    (64, w64 1 7 0 0 3 2 1 0x5E, .vsel 0 .w16 1 2 3 7), (64, w64 64 0 0 1 0 40 1 0x60, .vld 1 1 40 (.i18 64)),
    (96, w96 64 0 1 3 40 0 0x61, .vst 1 40 3 (.i32 64)), (64, w64 8 41 0 0 0 40 1 0x62, .vlds 0 1 40 41 8),
    (64, w64 8 0 0x08 0 3 40 1 0x63, .vgather 0 .f32 1 40 3 8), (64, w64 8 4 0x03 0 3 40 0 0x64, .vscatter 0 .s64 40 3 4 8),
    (64, w64 1 0 0x8B 0 0 2 1 0x90, .vcvt 0 .f32 .e4m3 1 2 1), (64, w64 3 9 0xB8 0 7 2 1 0x91, .vq 0 .kb4 true .f32 1 9 2 7 3),
    (64, w64 1 0 0x1A 0 7 2 4 0x92, .vdq 0 .mxe5m2 false .bf16 4 2 7 0 1), (64, w64 0 0 0x80 0 0 2 1 0x93, .vcomp 0 true 1 2),
    (64, w64 128 0 0 0 0 40 0 0x94, .vqtab 0 40 (.i18 128)), (64, w64 1 0 0 0 0 2 1 0x95, .t5pack 0 1 2 1),
    (64, w64 1 0 0 0 0 2 4 0x96, .t5unpk 0 4 2 1)] = true := by
  decide

/-- R92: majors 0xA0-0xBE. -/
theorem test_words_parallel : decodesAll [
    (64, w64 8 0 0 0 0 6 5 0xA0, .spawn 0 5 6 (.i18 8)), (64, w64 0 0 0 0 0 6 5 0xA1, .reap 0 5 6),
    (64, w64 0 0 0 0 0 6 0 0xA2, .exit 0 6), (64, w64 8 0 0 0 0 6 5 0xA3, .arm 0 5 6 8), (64, w64 8 0 0 0 0 6 5 0xA4, .disarm 0 5 6 8),
    (64, w64 0 0 0 0 0 6 5 0xA5, .mwait 0 5 6), (64, w64 1 0 0 0 0 0 31 0xA6, .fset 0 true 31), (64, w64 0 0 0 0 0 0 55 0xA7, .fclr 0 false 55),
    (64, w64 47 0 0 0 7 6 5 0xA8, .rfill 0 5 6 7 47), (64, w64 0 0 0x01 0 0 4 3 0xB0, .gbar 0 true 3 4),
    (64, w64 0 0 0 0 0 4 3 0xB1, .garrive 0 3 4), (64, w64 0 0 0 0 5 4 0 0xB2, .gwait 0 4 5), (64, w64 0 0 0 0 0 4 3 0xB3, .gmem 0 3 4),
    (64, w64 0 0 0 0 0 4 3 0xB4, .tdec 0 3 4), (64, w64 0 0 0 0 0 0 3 0xB5, .tnext 0 3), (64, w64 0 0 0 0 5 4 3 0xB6, .tdone 0 3 4 5),
    (64, w64 0 0 0 0 0 4 3 0xB7, .tcancel 0 3 4), (64, w64 0x1A3 0 0 0 0 4 3 0xB8, .wpass 0 true 3 4 3 10),
    (64, w64 15 0 0 0 0 0 3 0xB9, .wpoll 0 3 15), (64, w64 15 0 0 0 0 0 3 0xBA, .wdetach 0 3 15),
    (64, w64 0x1F 0 0 0 0 4 3 0xBB, .wattach 0 true 3 4 15), (64, w64 0x12 0 0 0 0 0 3 0xBC, .wrel 0 true 3 2),
    (64, w64 0x12 0 0 0 0 0 3 0xBD, .wmode 0 true 3 2), (64, w64 2 0 0 0 0 0 3 0xBE, .wclr 0 3 2)] = true := by
  decide

/-- R92: majors 0xC0-0xE5. -/
theorem test_words_engines : decodesAll [
    (64, w64 0 9 0x01 0 0 6 5 0xC0, .ldv 0 true 5 6 9), (64, w64 0 0 0 0 0 0 5 0xC1, .verchk 0 5), (64, w64 0 0 0 0 0 0 0 0xC2, .verclr 0),
    (64, w64 3 8 0x0F 0 7 6 5 0xC3, .cas 0 .b64 .acqrel .die 5 6 7 8), (64, w64 4 8 0x0A 0 7 6 5 0xC4, .casv 0 .b32 .rel .dev 5 6 7 8),
    (64, w64 5 0 0x26 0 7 6 5 0xC5, .amo 0 .or .b32 .acq .sys 5 6 7), (64, w64 2 0 0x92 0 7 6 0 0xC6, .red 0 .addF32 .b32 .relaxed .clu 6 7),
    (64, w64 1 4 0x83 0 3 40 1 0xC7, .vamo 0 .swap .b64 .relaxed .core 1 40 3 4), (64, w64 4 0 0x01 0 0 6 5 0xC8, .ldAcq 0 .b16 .dev 5 6),
    (64, w64 4 0 0x00 0 7 6 0 0xC9, .stRel 0 .b8 .dev 6 7),
    (128, (0xA#4 ++ 0x8#4 ++ 1#1 ++ 0#2 ++ 1#1 ++ 0x10#8 ++ 0x7F#8 ++ 0#36 ++ 0#18 ++ 9#6 ++ 0#8 ++ 0#1 ++ 0#3 ++ 7#6 ++ 6#6 ++ 0#6 ++ 0xD0#8 ++
      0b10#2 : BitVec 128).toNat, .cpy 0 0 6 7 9 0 { sfmt := .bf16, dfmt := .f32, cvt := true, dk := .mem, irq := true, fon := 0x10, tag := 0x7F }),
    (64, w64 0 0 0 0 7 6 5 0xD1, .fork 0 5 6 7 (.i18 0)), (64, w64 0 0 0 0 0 6 5 0xD2, .rdv 0 5 6), (64, w64 5 0 0 0 0 0 0 0xD3, .qfence 0 5),
    (96, w96 0xFF030201 0 0 0 0 0 0xD4, .wait 0 0xFF 3 2 1), (64, w64 0 0 0 0 0 0 0 0xD5, .uiret 0),
    (64, w64 1 0 0x01 0 0 6 5 0xD8, .clw 0 .mxfp4 true 5 6), (64, w64 0 0 0 0 0 0 0 0xD9, .cflip 0),
    (64, w64 0x17F 3 0 0 2 1 0 0xDA, .cpass 0 1 2 3 true 0x7F), (64, w64 0x001 3 0 0 2 1 0 0xDB, .cdrain 0 1 2 3 false 1),
    (64, w64 0 3 0 0 2 1 0 0xDC, .cstk 0 1 2 3), (64, w64 0 0 0x86 0 0 0 0 0xDD, .cfmt 0 .kb4 true), (64, w64 0 0 0 0 0 0 5 0xDE, .cstat 0 5),
    (64, w64 0 3 0 0 2 1 0 0xE0, .xst 0 1 2 3), (64, w64 5 0 0 0 0 6 5 0xE1, .sopen 0 true 5 6 1), (64, w64 3 0 0 0 0 0 0 0xE2, .smark 0 3),
    (64, w64 0x8025 3 0 0 2 1 0 0xE3, .nred 0 .min 1 2 3 5 2), (64, w64 0x7FF1 3 0 0 2 1 0 0xE4, .nmc 0 1 2 3 1 0x7FF),
    (64, w64 5 0 0 0 0 0 5 0xE5, .sclose 0 true 5 1), (32, 0xFFFFFFFF, .fillWord 0x3FFFFFFF)] = true := by
  decide

/-- R84, R85, R87: a reserved minor, a used bit in an unused field, a register number out of range, a length that the major does not take,
bit 31, and a `fence.un` of another scope than 4 are no instruction. -/
theorem test_words_refused :
    [w64 0 0 0x0C 0 7 6 5 0x00, w64 1 0 0 0 7 6 5 0x00, w64 0 1 0 0 7 6 5 0x00, w64 0 0 0 0 63 6 5 0x00, w64 0 0 0 0 7 6 60 0x00,
      w64 0 0 0x02 0 32 2 1 0x50, w64 0 0 0x08 0 3 2 1 0x50, w64 0 0 0x0B 0 0 0 0 0x43, w64 0 0 0 0 0 0 0 0x0A, w64 0 0 0 0 7 6 5 0x00 + 2 ^ 31,
      w64 0 0 0 0 7 6 5 0x0B, w64 0 0 0 0 0 0 0 0xD3].all (fun w => decodeTableWord 64 w == none) = true ∧
    decodeTableWord 96 (w96 0 0 0 7 6 5 0x00) = none := by
  decide

/-- A copy extension of two kinds of destination. -/
def tCpyExt (dk : CpyDst) : CpyExt := { sfmt := .f32, dfmt := .f32, cvt := false, dk, irq := false, fon := 0, tag := 0 }

/-- WellFormed refuses an ill-formed term of each of its checks (R84, R85, R87-R92, R96, R107, R116, R118, R287, R288, R294). -/
theorem test_ill_formed_refused : [
    Instr.add 0 60 1 2, .addImm 0 5 1 (.i64 1), .addImm 0 62 1 (.i18 1), .mul 0 56 1 2, .mulImm 0 5 1 (.i64 1), .clz 0 61 1,
    .bfx 0 .s 5 1 32 32, .bfi 0 5 1 2 63 1, .sel 0 60 1 2 3, .li 0 60 (.i18 0), .lea 0 60 0, .bcc 0 .eq 1 2 (.i64 0), .j 0 (.i64 0),
    .jal 0 60 (.i18 0), .jr 0 60 1, .loop 0 0 (.i18 0), .loop 0 56 (.i18 0), .ld 0 .b64 false 56 1 (.i18 0), .st 0 .b64 1 2 (.i64 0),
    .csrr 0 5 0x009, .csrr 0 60 0x001, .csrw 0 5 1 0x007, .csrs 0 5 1 0x010, .csrc 0 5 1 0x01F, .fence 0 .sys true, .vaddInt 0 .f32 1 2 3,
    .vshlScalar 0 .bf16 1 2 3, .vaddFp 0 .s32 1 2 3, .vdivScalar 0 .e4m3 1 2 3, .vfma 0 .s8 1 2 3 4, .vsqrt 0 .z64 1 2, .vabs 0 .z8 1 2,
    .vneg 0 .e5m2 1 2, .vcmp 0 .eq .e4m3 1 2 3, .vbcast 0 .e2m1 1 2, .vext 0 .e4m3 5 1 2 0, .vext 0 .s8 60 1 2 0, .vins 0 .e5m2 1 2 3 0,
    .vperm 0 .z8 1 2 3, .vred 0 .and .f32 5 1, .vred 0 .add .e4m3 5 1, .vred 0 .add .s8 56 1, .vld 0 1 2 (.i64 0), .vgather 0 .f16 1 2 3 0,
    .vscatter 0 .z32 1 2 3 0, .vcvt 0 .f32 .f32 1 2 0, .vcvt 0 .f32 .e4m3 1 2 4, .vq 0 .kb4 false .s32 1 2 3 4 0,
    .vq 0 .mxe4m3 false .f32 1 2 31 0 0, .vq 0 .mxe4m3 false .f32 1 2 3 0 2, .vq 0 .mxe4m3 false .f32 1 2 3 4 0, .vq 0 .kb4 false .f32 1 56 3 4 0,
    .vdq 0 .kb4 false .f32 31 1 2 3 0, .vqtab 0 1 (.i64 0), .t5pack 0 1 31 0, .t5unpk 0 31 1 0, .spawn 0 60 1 (.i18 0), .spawn 0 5 1 (.i64 0),
    .arm 0 56 1 0, .fset 0 true 32, .fclr 0 false 56, .rfill 0 5 1 2 0, .rfill 0 5 1 2 48, .ldv 0 false 5 1 5, .ldv 0 false 5 1 56, .verchk 0 56,
    .cas 0 .b8 .relaxed .ctx 5 1 2 3, .casv 0 .b16 .relaxed .ctx 5 1 2 3, .cas 0 .b64 .relaxed .ctx 56 1 2 3, .amo 0 .addF32 .b64 .relaxed .ctx 5 1 2,
    .red 0 .swap .b64 .relaxed .ctx 1 2, .red 0 .add .b64 .acq .ctx 1 2, .vamo 0 .add .b8 .relaxed .ctx 1 2 3 4, .ldAcq 0 .b64 .ctx 56 1,
    .cpy 0 1 1 2 3 0 (tCpyExt .mem), .cpy 0 0 1 2 3 1 (tCpyExt .mem), .cpy 0 0 1 2 3 0 { tCpyExt .mem with dfmt := .f16 },
    .cpy 0 0 1 0 3 1 (tCpyExt .xfill), .cpy 0 47 1 0 3 2 (tCpyExt .xfill), .cpy 0 1 1 2 3 1 (tCpyExt .xfill), .cpy 0 1 1 0 3 0 (tCpyExt .xfill),
    .cpy 0 1 1 0 3 1 { tCpyExt .xfill with fon := 16 }, .cpy 0 31 1 0 3 2 (tCpyExt .vfill), .fork 0 5 1 2 (.i64 0), .qfence 0 0,
    .clw 0 .t5 false 56 1].all (fun i => !i.wellFormed) = true := by
  decide

/-! ### A small machine on which the premises of the statements hold -/

/-- The result is the value. -/
def okIs {ε α : Type} [DecidableEq α] (e : Except ε α) (x : α) : Bool :=
  match e with
  | .ok y => decide (y = x)
  | .error _ => false

theorem ok_of {ε α : Type} [DecidableEq α] {e : Except ε α} {x : α} (h : okIs e x = true) : e = .ok x := by
  cases e <;> simp_all [okIs]

/-- The result is this failure. -/
def errIs {ε α : Type} [DecidableEq ε] (e : Except ε α) (x : ε) : Bool :=
  match e with
  | .ok _ => false
  | .error y => decide (y = x)

theorem error_of {ε α : Type} [DecidableEq ε] {e : Except ε α} {x : ε} (h : errIs e x = true) : e = .error x := by
  cases e <;> simp_all [errIs]

/-- The result has a value of which `f` holds. -/
def okAnd {ε α : Type} (e : Except ε α) (f : α → Bool) : Bool :=
  match e with
  | .ok y => f y
  | .error _ => false

theorem exists_of_okAnd {ε α : Type} {e : Except ε α} {f : α → Bool} (h : okAnd e f = true) : ∃ y, e = .ok y ∧ f y = true := by
  cases e with
  | ok y => exact ⟨y, rfl, h⟩
  | error e => cases h

/-- The outcome is a next state of which `f` holds. -/
def goes (o : Out1) (f : State → Bool) : Bool :=
  match o with
  | .next t => f t
  | _ => false

/-- Context 0 of core 0 at U: numbers in x1 and x2, a window address in x3, a global one in x4, others below. -/
def tCtx : Ctx :=
  { life := .running, pc := 0x400000140, ktcmp := BitVec.allOnes 64
    x := [(1, { val := 5 }), (2, { val := 7 }), (3, { val := 0x100 }), (4, { val := 0x400000300 })] }

/-- Core 0: slot 0 attached for both, 1 HELD, 2 on its way, 3 read only, 4 in exchange mode. -/
def tCore : Core :=
  { slots := [(0, { st := .attached, well := 3, rd := true, wr := true }), (1, { st := .held, well := 4, rd := true, wr := true }),
      (2, { st := .incoming, well := 5, rd := true }), (3, { st := .attached, well := 6, rd := true }),
      (4, { st := .attached, well := 7, rd := true, wr := true, exch := true })] }

/-- Function 0: one slice, page tables at 0x100000 that map 32 MiB from 0x400000000 on to 0x2000000. -/
def tVf : VF := { live := true, hmask := [(0, 0x8000000000000000#64)], root := 0x100000, segn := 0x1000000000 }

/-- A team of one cluster: its cores form group 0, two tasks are homed on it, and a stream leads from core 0 to core 1. -/
def tLaunch : Launch :=
  { id := 1, vf := 0, queue := 0
    lrec := { image := 0x400000000, params := 0, teams := 1, clusters := 1, irq := false, done := 0x400200000, graph := 0, isize := 0, cend := 0 }
    hdr := { contexts := 16, traps := 0x40#32 }, groups := [(0, List.range 16), (1, [0, 1])]
    tasks := [{ home := 0, slot := 0, off := 0x40, init := 1 }, { home := 0, slot := 0, off := 0x48, init := 1 }]
    streams := [{ num := 1, src := 0, sets := [1], slots := 0 }] }

def tTeam : Team := { id := 2, launch := 1, num := 0, count := 1, st := .resident }

/-- The machine, powered and started, at cycle 100. -/
def tS : State :=
  { ctxs := [(0, tCtx)], cores := [(0, tCore)], now := 100, nid := 10, pkg := { boot := .up }, vfs := [(0, tVf)]
    clus := [(0, { owner := some 0 })], launches := [tLaunch], teams := [tTeam]
    mem := { slices := [(0, { owner := some 0 })]
             hbm := [(0x100000, 0x01), (0x100001, 0x10), (0x100002, 0x10), (0x101008, 0x01), (0x101009, 0x20), (0x10100A, 0x10),
               (0x102000, 0xF3), (0x102003, 0x02)] } }

/-- The machine with its acting context changed. -/
def tMe (f : Ctx → Ctx) : State := tS.modMe f

/-- The machine with scalar register `n` of its acting context changed. -/
def tReg (n : Nat) (v : Word) : State := tMe (fun c => c.setX false n { val := v })

theorem test_memory_sound : tS.memSound = true := by decide

/-- StepRunsDecoded: a block with an `add`, a `brk`, and an opcode that is none. -/
def tFetch (w : Nat) : State :=
  { tS.modCore 0 (fun k => { k with ibuf := [{ va := 0x400000140, data := BitVec.ofNat 256 w, at_ := 100 }] }) with agenda := [.issue 0 0] }

theorem test_meets_StepRunsDecoded :
    [w64 0 0 0 0 2 1 5 0, w64 0 0 0 0 0 0 0 0x46, w64 0 0 0x0C 0 2 1 5 0].all (fun w =>
      let s := tFetch w
      decide (s.agenda = [.issue 0 0] ∧ ({ s with agenda := [] } : State).hasSlot 0 = true ∧ s.lateReady 0 = false ∧ (s.ctxAt 0).post = .none ∧
        2 ^ 32 ≤ (s.ctxAt 0).pc.toNat ∧ (s.ctxAt 0).pc.toNat < 2 ^ 52 ∧ (s.ctxAt 0).pc.toNat % 4 = 0 ∧ (s.ctxAt 0).fetchF = none ∧
        (s.coreAt 0).ibuf.find? (fun b => b.va == (s.ctxAt 0).pc.toNat / 32 * 32) = (s.coreAt 0).ibuf.head? ∧
        (s.ctxAt 0).sync ≤ 100 ∧ s.irqPending 0 = false ∧ (s.ctxAt 0).notes = [])) = true ∧
    decode ((blockBytes (BitVec.ofNat 256 (w64 0 0 0 0 2 1 5 0))).drop 0) = .ok (.add 0 5 1 2, List.replicate 24 0) ∧
    goes (exec (.brk 0) (tFetch (w64 0 0 0 0 0 0 0 0x46))) (fun t => t.last == .trapped) = true ∧
    decode ((blockBytes (BitVec.ofNat 256 (w64 0 0 0x0C 0 2 1 5 0))).drop 0) = .error .undefinedOpcode := by
  exact ⟨by decide, ok_of (by decide), by decide, error_of (by decide)⟩

/-- DecodeEncode. -/
theorem test_meets_DecodeEncode : (Instr.add 0 5 1 2).wellFormed = true ∧ (encode (.add 0 5 1 2)).isSome = true ∧
    (Instr.li 0 5 (.i64 1)).wellFormed = true ∧ (encode (.li 0 5 (.i64 1))).map List.length = some 16 := by decide

/-- IntegerOperations, BitsAndConstants, MultiplyDivide, ControlTransfers, RegisterOnlyFrame: ready for every source and destination
they name; x6 is zero; with `fpcsr`.idz set a zero divisor traps. -/
theorem test_meets_scalar : tS.ready 0 [1, 2] 5 = true ∧ tS.ready 0 [1] 0 = true ∧ tS.ready 0 [1, 2, 3] 47 = true ∧ tS.ready 0 [] 5 = true ∧
    tS.ready 0 [1, 2] 0 = true ∧ tS.ready 0 [2] 0 = true ∧ tS.acting 0 = true ∧ tS.regVal 6 = 0 ∧ tS.me.idz = false ∧
    (tMe (fun c => { c with fpcsr := 0x10000 })).me.idz = true ∧ (tMe (fun c => { c with fpcsr := 0x10000 })).ready 0 [1, 6] 5 = true ∧
    goes (exec (.add 0 5 1 2) tS) (fun t => t.last == .issued && (t.me.xReg false 5).val == 12 && t.me.pc == 0x400000148) = true := by
  decide

/-- RegisterOnlyFrame, IntegerOperations: a word popped from q0 into x5 (R22). -/
theorem test_meets_queue_pop :
    (let s := tMe (fun c => { c with qin := [(0, { words := [9], bound := some 1 })] })
     s.ready 0 [56, 1] 5 = true ∧ pops [56, 1] = true ∧ pops [1, 2] = false ∧
       goes (exec (.add 0 5 56 1) s) (fun t => t.last == .issued && (t.me.port true 0).words.isEmpty && !(t.me.xReg false 5).full &&
         t.ops.any (fun o => o.outs.any (fun x => x.dst == .x 5 false && x.val == 14))) = true) := by
  decide +kernel

/-- GateShut: k1 holds 0. -/
theorem test_meets_GateShut : Instr.gate (.add 1 5 1 2) = some (1, 8) ∧ tS.mayName (.add 1 5 1 2) = true ∧ tS.acting 1 = false := by decide

/-- InstructionOutcomes, UserKeepsPrivileged. -/
theorem test_meets_InstructionOutcomes : (toRaw (.add 0 5 1 2)).isSome = true ∧ Instr.isVqtab (.add 0 5 1 2) = false ∧
    tS.me.priv = .u ∧ goes (exec (.add 0 5 1 2) tS) (fun t => t.last == .issued) = true := by decide

/-- LocalWindow: each clause at an end of its range. -/
theorem test_meets_LocalWindow :
    checkLocal tS 0 .u 0x10000000000000 1 false = .error (.trap 0x0B 0x10000000000000) ∧
    checkLocal tS 0 .u 0xFFFFFFFFFFFFF 1 false = .ok .global ∧ checkLocal tS 0 .u 0x100000000 128 false = .ok .global ∧
    checkLocal tS 0 .u 0x1FFFFF 2 false = .error (.trap 0x08 0x1FFFFF) ∧ checkLocal tS 0 .u 0x1FFFF 2 false = .error (.trap 0x08 0x1FFFF) ∧
    checkLocal tS 0 .u 0x1FFFFF 1 false = .error (.trap 0x08 0x1FFFFF) ∧ checkLocal tS 0 .u 0x40000 8 false = .error (.park .incoming) ∧
    checkLocal tS 0 .u 0x1FFF8 8 true = .ok (.local 0 3 0x1FFF8) ∧ checkLocal tS 0 .s 0x20000 8 true = .ok (.local 1 4 0) ∧
    checkLocal tS 0 .u 0x20000 8 true = .error (.trap 0x08 0x20000) ∧ checkLocal tS 0 .u 0x60000 8 true = .error (.trap 0x08 0x60000) ∧
    checkLocal tS 0 .u 0x8FFF8 8 true = .ok (.local 4 7 0xFFF8) ∧ checkLocal tS 0 .u 0x8FFF9 8 true = .error (.trap 0x08 0x8FFF9) := by
  exact ⟨error_of (by decide), ok_of (by decide), ok_of (by decide), error_of (by decide), error_of (by decide), error_of (by decide),
    error_of (by decide), ok_of (by decide), ok_of (by decide), error_of (by decide), error_of (by decide), ok_of (by decide),
    error_of (by decide)⟩

/-- LoadsIssue, StoresIssue, WellAccesses: a place in the window, and a global one. -/
theorem test_meets_accesses :
    checkLocal tS 0 .u (tS.regVal 3 + (Imm.i18 8).value) 8 false = .ok (.local 0 3 0x108) ∧
    checkLocal tS 0 .u (tS.regVal 4 + (Imm.i18 0).value) 8 true = .ok .global ∧
    tS.mayAccess 0 .ld 1 (tS.partsAt 0 0 (.local 0 3 0x108) 0x108 0 (readBytes 8)) = .ok () ∧
    tS.mayAccess 0 .st 1 (tS.partsAt 0 0 .global 0x400000300 0 (valueBytes 8 5)) = .ok () ∧
    tS.mayAccess 0 .st 1 [tS.linePart 0x400000300] = .ok () ∧ (tS.regVal 3).toNat % 8 = 0 ∧ (tS.regVal 1).toNat % 4 ≠ 0 ∧
    tS.allFull [1, 2] = true ∧ tS.opsFresh = true ∧ tS.myCore.sleep = .awake ∧ tS.accessBlocked 0 = false ∧ tS.me.count .ld < 65535 ∧
    tS.orderedTo 0 10 .dev false = true ∧ tS.portFree 3 = true := by
  exact ⟨ok_of (by decide), ok_of (by decide), ok_of (by decide), ok_of (by decide), ok_of (by decide), by decide⟩

/-- The machine with one operation under way, number 3 of context 0, with these parts. -/
def tOp (kind : OpKind) (ps : List Part) : State :=
  tS.setOps [{ id := 3, ctx := 0, kind, priv := .u, parts := ps, outs := [{ dst := .x 5 false }], size := 4 }]

/-- A part of four bytes at 0x400000300, which lies at 0x2000300 of HBM. -/
def tPart (d : List (Option Byte)) : Part := { acc := 0, va := 0x400000300, dst := 0, data := d }

/-- A store of which every entry has reached the home slice. -/
def tStore : State :=
  { tOp .store [tPart [some 1, some 2, none, some 4]] with
    sb := [{ id := 4, op := 3, part := 0, piece := 0, ctx := 0, vf := 0, line := 0x4000003, lo := 0, data := [some 1, some 2, none, some 4],
             level := .die, due := 100 }] }

/-- VectorMemoryIssues: k1 = 0 leaves no lane active, k0 all. Vector v1 holds lane offsets of 0, so that every gathered lane lies in slot 0. -/
theorem test_meets_VectorMemoryIssues :
    tS.allFull [3] = true ∧ tS.vecTakes 2 = true ∧ tS.vecFull [1, 2] = true ∧ tS.vecReady [3, 1] [] 2 = true ∧ tS.vecReady [3] [1] 2 = true ∧
    checkLocal tS 0 .u (tS.regVal 3 + (Imm.i18 0x1FEC0).value) 64 false = .ok (.local 0 3 0x1FFC0) ∧
    checkLocal tS 0 .u (tS.regVal 3 + (Imm.i18 0).value) 64 true = .ok (.local 0 3 0x100) ∧
    (tS.activeBytes 0 (List.replicate 64 0)).any Option.isSome = true ∧ (tS.activeBytes 1 (List.replicate 64 0)).any Option.isSome = false ∧
    tS.mayAccess 0 .ld 1 (tS.partsAt 0 0 (.local 0 3 0x100) 0x100 0 (tS.activeBytes 0 (List.replicate 64 0))) = .ok () ∧
    tS.lanePlaces 1 4 false (tS.laneAddr .s32 3 1 0) (List.range 16) = .ok [] ∧
    (∃ ls, tS.lanePlaces 0 4 false (tS.laneAddr .s32 3 1 0) (List.range 16) = .ok ls ∧ decide (ls.length = 16) = true) ∧
    (∃ ls, tS.lanePlaces 0 8 true (tS.laneAddr .s64 3 1 0) (List.range 8) = .ok ls ∧ decide (ls.length = 8 ∧
      okIs (tS.mayAccess 0 .st 8 (tS.laneParts 8 (fun i => valueBytes 8 i) ls)) () = true) = true) := by
  exact ⟨by decide +kernel, by decide +kernel, by decide +kernel, by decide +kernel, by decide +kernel, ok_of (by decide +kernel), ok_of (by decide +kernel), by decide +kernel, by decide +kernel,
    ok_of (by decide +kernel), ok_of (by decide +kernel), exists_of_okAnd (by decide +kernel), exists_of_okAnd (by decide +kernel)⟩

/-- SliceAccessesIssue, ValidateSets. -/
theorem test_meets_slice_issue :
    tS.ready 0 [4, 1, 2] 5 = true ∧ 2 ^ 32 ≤ (tS.regVal 4).toNat ∧ (tS.regVal 4).toNat < 2 ^ 52 ∧ (tS.regVal 4).toNat % 8 = 0 ∧
    tS.takes 6 = true ∧ tS.mayAccess 0 .ld 1 (tS.globalParts 0 0 0x400000300 0 (readBytes 8)) = .ok () ∧
    tS.mayAccess 0 .st 1 (tS.globalParts 0 0 0x400000300 0 (readBytes 4)) = .ok () ∧ tS.vecReady [4] [1, 2] 3 = true ∧
    tS.vamoLanes 1 32 = [] ∧ (tS.vamoLanes 0 64).length = 8 ∧ checkLanes 8 (tS.vamoAddr 64 4 1) (tS.vamoLanes 0 64) = .ok () ∧
    tS.me.count .ld = 0 ∧ tS.me.vset.ents = [] ∧ tS.me.vset.mis = false ∧ tS.me.vset.ovf = false ∧
    (tMe (fun c => { c with vset := { mis := true, ovf := true } })).ready 0 [] 5 = true ∧
    (let s := tMe (fun c => { c with vset := { ents := [{ line := 1, ver := 2, gen := 0, slice := 0 }] } })
     s.mayAccess 0 .ld 1 s.checks = .ok ()) := by
  exact ⟨by decide +kernel, by decide +kernel, by decide +kernel, by decide +kernel, by decide +kernel, ok_of (by decide +kernel), ok_of (by decide +kernel), by decide +kernel, by decide +kernel, by decide +kernel,
    ok_of (by decide +kernel), by decide +kernel, by decide +kernel, by decide +kernel, by decide +kernel, by decide +kernel, ok_of (by decide +kernel)⟩

/-- SliceStores, SliceLoads, SliceAtomics: the part is next for its line, its translation succeeds, and its slice takes it. -/
theorem test_meets_slice_steps :
    [tStore, tOp (.load false) [tPart [some 0, some 0, some 0, some 0]], tOp (.atom .amo .add 1 0) [tPart [some 0, some 0, some 0, some 0]],
      tOp (.atom .cas .swap 0 9) [tPart [some 0, some 0, some 0, some 0]], tOp (.atom .casv .swap 0 9) [tPart [some 0, some 0, some 0, some 0]]].all
      (fun s => match s.partAt 3 0 with
        | some (o, p) => s.partReady o 0 p && !(s.heldBehind o 0 p) && decide (p.data.length = 4) && p.data.any Option.isSome &&
          okAnd (s.reachFor 0 p.va (o.acc p)) (fun (n, x) => decide (n = 0 ∧ x.tgt = 0 ∧ x.addr = 0x2000300 ∧
            x.addr % 256 = p.va % 256 ∧ p.va % 256 + 4 ≤ 256) && s.slotFree n && s.accepts 0 p.va n (some 0) &&
            s.takesLine n p.va (physKey x) (s.keyFor 0 x))
        | none => false) = true ∧
    (let s := tStore.modMe (fun c => { c with mon := [(1, { used := true, line := 0x4000003, reg := true, phys := 0x40006 })] })
     goes (exec (.linePartPerform 3 0) s) (fun t => t.me.mon.all (fun x => x.2.trig)) = true) ∧
    (tOp (.load false) [tPart [some 0]]).ownEntry { id := 3, ctx := 0, kind := .load false, priv := .u } 0 0 0x4000003 = false ∧
    tStore.mem.hbm.all (fun c => c.1 < 0x2000300) = true := by
  decide

/-- OtherSliceEvents: an agent's write at the end of a line, a line that holds its backing bytes, and an entry that may move. -/
theorem test_meets_OtherSliceEvents :
    okAnd (tS.reachFor 0 0x4000003FC { wr := true, size := 4 }) (fun (n, x) => decide (x.tgt = 0 ∧ 0x4000003FC % 256 + 4 ≤ 256) &&
      tS.slotFree n && tS.accepts 0 0x4000003FC n none && tS.takesLine n 0x4000003FC (physKey x) (tS.keyFor 0 x)) = true ∧
    (let w : AgentWrite := { agent := .blotter, vf := 0, va := 0x4000003FC, bytes := [1, 2, 3, 4] }
     tS.held = [] ∧ ({ tS with held := [{ acc := .agent w }] } : State).held.any (fun g => (Outside.agent w).behind g.acc) = true) ∧
    (let l : Line := { slice := 0, vf := 0, vline := 0x4000003, valid := 0, wrtn := 0, data := 0 }
     (tS.setMem { tS.mem with lines := [(0x40006, l)] }).lineOf 0x40006 = some l ∧
       (List.range 256).all (fun i => !(l.holds i && !(l.written i))) = true) ∧
    (let s := tStore.setSb (tStore.sb.map (fun e => { e with level := .csq }))
     s.sb.all (fun e => decide (e.level ≠ .die) && s.mayMove e) = true) := by
  decide +kernel

/-- LateFaults: pages that no entry maps, that a peer holds, that are there, and a well; a `vamo` of which one lane is held. -/
theorem test_meets_LateFaults :
    (match (tOp (.load false) [{ tPart [some 0] with va := 0x500000000 }]).reachFor 0 0x500000000 { rd := true, user := true } with
      | .error (some f) => f.cause == 0x0A
      | _ => false) = true ∧
    (let s := tOp (.load false) [{ tPart [some 0] with va := 0x100, well := some 3, off := 0x100 }]
     (s.partAt 3 0).all (fun (o, p) => o.sent && o.kind.byParts && decide (p.st = .todo) && !(s.portBefore o 0 3) && s.portFree 3) = true) ∧
    (let s := (tOp (.vamo .add) [{ tPart [some 0] with st := .done }, { tPart [some 0] with acc := 1, st := .held, cause := 0x0A }]).modMe
       (fun c => { c with cnt := (1, 0, 0, 0) })
     (s.opAt 3).all (fun o => o.parts.any (fun q => q.st == .held) && !(o.parts.any (fun q => q.st == .todo))) = true ∧
       s.ops.any s.fileBusy = false ∧ 0 < (s.ctxAt 0).count .ld) := by
  decide

/-- CsrAccess: a register of U at U, one of S at S and at U, the hash masks at S and at F. -/
theorem test_meets_CsrAccess :
    (csrLevel 0).rank ≤ tS.me.priv.rank ∧ tS.fpBusy 0 = false ∧ tS.ready 0 [1] 5 = true ∧ tS.ready 0 [0] 5 = true ∧
    tS.me.priv.rank < (csrLevel 0x400).rank ∧ (csrLevel 0x408).rank ≤ (tMe (fun c => { c with priv := .s })).me.priv.rank ∧
    (tMe (fun c => { c with priv := .s })).me.priv ≠ .f ∧ (tMe (fun c => { c with priv := .f })).me.priv = .f ∧
    (csrLevel 0xC05).rank ≤ (tMe (fun c => { c with priv := .f })).me.priv.rank := by
  decide

/-- TrapEntryRule, ReturnFromTrap: each level, under `ktrap`, delegated, and under revoke-on-trap on a core that is not frozen. -/
theorem test_meets_traps :
    tS.me.priv = .u ∧ tS.me.kstat.ktrap = false ∧ (tMe (fun c => { c with kstat := { ktrap := true } })).me.kstat.ktrap = true ∧
    (let s := tMe (fun c => { c with priv := .f, fstat := { ktrap := true } })
     s.me.priv = .f ∧ s.me.fstat.ktrap = true) ∧
    (tS.hdrOf tS.cid).traps.getLsbD 6 = true ∧ tS.myCore.frozen = none ∧ (tS.slotAt 0 0).st = .attached ∧ (tS.slotAt 0 2).st ≠ .attached ∧
    goes (.next (tS.takeTrap 0x13 7 8 false false)) (fun t => t.me.priv == .s && t.me.ktr.cause == 0x13 && t.me.ktr.val == 7 &&
      t.me.ktr.epc == 8 && t.myCore.frozen == some 0 && (t.slotAt 0 0).st == .held && (t.slotAt 0 2).st == .incoming) = true ∧
    (tMe (fun c => { c with priv := .s })).acting 0 = true ∧ (tMe (fun c => { c with priv := .s })).me.kstat.late = false ∧
    (tMe (fun c => { c with priv := .f })).me.fstat.late = false := by
  decide

/-- SystemInstructions: nothing under way; a load under way; an interrupt pending. -/
theorem test_meets_SystemInstructions :
    tS.acting 0 = true ∧ tS.ops = [] ∧ tS.sb = [] ∧ tS.me.count .ld = 0 ∧ tS.me.count .st = 0 ∧ tS.allFull [1] = true ∧
    tS.irqPending 0 = false ∧ tS.lateReady 0 = false ∧
    (tMe (fun c => { c with kipP := 1, kipE := 1 })).irqPending 0 = true ∧
    (tOp (.load false) [tPart [some 0]]).ops.any (fun o => o.ctx == 0 && decide (o.id < 10) && o.kind.isLoad && o.parts.any (fun p =>
      decide (tS.kindOf 0 p.va ≠ some .un))) = true := by
  decide

/-- The machine with vector register `n` of its acting context set. -/
def tVec (s : State) (n : Nat) (v : VWord) : State := s.modMe (fun c => c.setV n { val := v })

/-- v1 holds 1.0 in every FP32 lane, v2 holds -2.0 in lane 0. -/
def tFp : State := tVec (tVec tS 1 (packLanes 32 (List.replicate 16 0x3F800000))) 2 0xC0000000

/-- Rounding: a value of every format at its ends; a third, the root of 2 and a tiny value in range, 2^128 beyond it, a value that is flushed. -/
theorem test_meets_Rounding :
    fmt32.read false 0x7F7FFFFF = .fin false 0xFFFFFF 104 ∧ fmt16.read false 0x0001 = .fin false 1 (-24) ∧
    fmtE2M1.read false 0xF = .fin true 3 1 ∧ fmtE4M3.read false 0x7E = .fin false 14 5 ∧
    (fmt32.round 0 false false 1 3).1 = 0x3EAAAAAB ∧ fmt32.inRange true 1 1 3 ∧ fmt32.inRange true 2 2 1 ∧ fmt32.inRange false 1 1 (2 ^ 140) ∧
    atMost 1 (2 ^ 128) 1 1 (fmt32.emax + 1) ∧ (fmt32.round 1 false true (2 ^ 128) 1).1 = 0xFF7FFFFF ∧
    ¬ atMost 1 1 (2 ^ 140) 1 (fmt32.emin - 1) ∧ fmt32.flush = true ∧ (fmt32.round 0 true false 1 (2 ^ 140)).1 = 0 := by
  unfold Fmt.inRange atMost
  decide +kernel

/-- VectorIntegers, VectorMoves: ready; lane n of `vext` and `vins` active under k0 and not under k1. -/
theorem test_meets_vectors :
    tS.vecReady [] [1, 2] 3 = true ∧ tS.vecReady [1] [2] 3 = true ∧ Ty.s32.isInt = true ∧ tS.allFull [1, 2] = true ∧ tS.takes 5 = true ∧
    tS.maskBit 0 15 = true ∧ tS.maskBit 1 0 = false ∧ (tS.regVal 1 + (10#18).signExtend 64).toNat % 16 = 15 ∧
    goes (exec (.vaddInt 0 .s8 3 1 1) (tVec tS 1 0xFF)) (fun t => t.vecVal 3 == 0xFE) = true := by
  decide +kernel

/-- VectorFloats, ComparesAndReductions: a sum of a zero and of none, a NaN of each kind, an infinity, two values in order, a tree of one node. -/
theorem test_meets_float_values :
    fmt32.read false 0x7F800001 = .nan true ∧ fmt32.read false 0x7FC00000 = .nan false ∧ (FVal.inf true).isInf = true ∧ (FVal.fin true 0 3).isZero = true ∧
    (fmt32.add 0 false (.fin false 1 0) (.fin true 1 0)).1 = 0 ∧ (fmt32.add 3 false (.fin false 1 0) (.fin true 1 0)).1 = 0x80000000 ∧
    (fmt32.sqrt 0 false (.fin false 2 0)).1 = 0x3FB504F3 ∧ (fmt32.rsq 0 false (.fin false 2 0)).1 = 0x3F3504F3 ∧
    (FVal.fin true 1 0).below (.fin false 1 (-3)) ∧ (FVal.inf true).below (.fin true 1 0) ∧ Ty.f32.isInt = false ∧ Ty.s8.isInt = true ∧
    (laneCompare .le .f32 false 0x80000000 0) = (true, 0) ∧ (laneCompare .ne .f32 false 0x7FC00000 0) = (true, 0) ∧
    (laneCompare .lt .f32 false 0x7FC00000 0) = (false, fNV) ∧ treeNode (fun a b : Nat => a + b) (fun i => if i = 2 then none else some i) 2 0 = some 4 := by
  unfold FVal.below
  decide +kernel

/-- VectorFloats, ComparesAndReductions, ConversionsIssue: no flag is enabled, and one that is raised traps when it is. -/
theorem test_meets_VectorFloats :
    tFp.vecReady [] [1, 2] 3 = true ∧ tFp.fpTraps (tFp.laneFlags 0 32 (fun _ => 0x1F)) = false ∧ tFp.me.fen = 0 ∧
    (let s := tFp.modMe (fun c => { c with fpcsr := 0x1F00 })
     s.vecReady [] [1, 2] 3 = true ∧
     s.fpTraps (s.laneFlags 0 32 (fun n => (fmt32.div s.me.rm s.me.ftz (fmt32.read false (laneOf (s.vecVal 1) 32 n))
       (fmt32.read false (laneOf (s.vecVal 2) 32 n))).2)) = true) ∧
    tFp.fpTraps (tFp.reduced 0 .add .f32 1).2 = false ∧ tFp.fpTraps (tFp.converted 0 .bf16 .f32 1 0).2 = false ∧
    tFp.ready 0 [1] 5 = true ∧ tFp.vecFull (groupRegs .f32 1) = true ∧ (groupRegs .f32 4).all tFp.vecTakes = true ∧ 8 ≤ Ty.s8.width ∧
    goes (exec (.vaddFp 0 .f32 3 1 2) tFp) (fun t => t.ops.any (fun o => o.outs.any (fun x => laneOf x.val 32 0 == 0xBF800000))) = true := by
  decide +kernel

/-- PackedTernary: 26 legal bytes, and an illegal one at the end of half 0. -/
theorem test_meets_PackedTernary :
    tS.acting 0 = true ∧ tS.vecFull [1, 2] = true ∧ tS.vecTakes 4 = true ∧ tS.vecTakes (4 + 1) = true ∧
    (List.range 26).all (fun j => laneOf (tS.vecVal 1) 8 j < 243) = true ∧
    (let s := tVec tS 1 (BitVec.ofNat 512 (243 * 256 ^ 25))
     laneOf (s.vecVal 1) 8 25 = 243 ∧ (List.range 25).all (fun j => laneOf (s.vecVal 1) 8 j < 243) = true ∧
       goes (exec (.t5unpk 0 4 1 0) s) (fun t => t.last == .trapped && t.me.ktr.cause == 0x0D && t.me.ktr.val == 25) = true) ∧
    packTrits 1 [-1, 0, 1, 1, -1] = [200] := by
  decide +kernel

/-- The machine while a `vqtab` waits for its 128 bytes. -/
def tTab (bs : List Byte) (arrived : Bool) : State :=
  let q : Part := { acc := 0, va := 0x100, dst := 0, data := bs.map some, well := some 3, off := 0x100, st := .done }
  (tS.setOps [{ id := 3, ctx := 0, kind := .vqtab, priv := .u, arrived := arrived, cnts := !arrived, size := 128, ea := 0x100, parts := [q] }]).modMe
    (fun c => { c with cnt := (1, 0, 0, 0) })

/-- Sixteen entries with x = 0, 1, 2, 4, ... and s = 1.0 (R70, R71). -/
def tTable : List Byte := ((0#32 : BitVec 32) :: (List.range 15).map (fun i => BitVec.ofNat 32 (0x3F800000 + i * 0x800000))).flatMap
  (fun x => toBytes 4 x.toNat ++ toBytes 4 0x3F800000)

/-- TableLoads: the read to be sent, under way, arrived with a legal table, and with one whose entry 0 does not start at 0. -/
theorem test_meets_TableLoads :
    tS.tabOp 0x100 = none ∧ checkLocal tS 0 .u (tS.regVal 3 + (Imm.i18 0).value) 128 false = .ok (.local 0 3 0x100) ∧
    tS.mayAccess 0 .ld 1 (tS.partsAt 0 0 (.local 0 3 0x100) 0x100 0 (readBytes 128)) = .ok () ∧
    (((tTab tTable false).tabOp 0x100).any (fun o => !o.arrived)) = true ∧
    (((tTab tTable true).tabOp 0x100).any (fun o => o.arrived && okAnd (validate 0 [] (tableEntries (o.valueBytes 128))) (fun t => decide (t.length = 16)))) = true ∧
    (((tTab (1 :: tTable.tail) true).tabOp 0x100).any (fun o => o.arrived && errIs (validate 0 [] (tableEntries (o.valueBytes 128))) 0)) = true ∧
    (let s := tTab tTable false
     (s.opAt 3).all (fun o => o.allDone && o.cnts && !o.arrived) = true ∧ (s.coreAt 0).sleep = .awake) := by
  exact ⟨by decide +kernel, ok_of (by decide +kernel), ok_of (by decide +kernel), by decide +kernel, by decide +kernel, by decide +kernel,
    by decide +kernel⟩

/-- SpawnAndReap: context 3 FREE, RUNNING and ENDED; numbers 0, 15 and 16; context 1 may not. -/
theorem test_meets_SpawnAndReap :
    ({ tS with cur := 1 } : State).tid ≠ 0 ∧ tS.tid = 0 ∧ tS.ready 0 [1] 5 = true ∧ (tS.hdrOf tS.cid).contexts = 16 ∧
    (tS.ctxAt 3).life = .free ∧ (tReg 1 15).regVal 1 = 15 ∧ (tReg 1 16).regVal 1 = 16 ∧ tS.regVal 6 = 0 ∧
    ((tS.modCtx 3 (fun c => { c with life := .running })).ctxAt 3).life = .running ∧
    ((tS.modCtx 3 (fun c => { c with life := .ended, exitv := 9 })).ctxAt 3).life = .ended ∧
    goes (exec (.spawn 0 5 1 (.i18 2)) (tReg 1 3)) (fun t => (t.ctxAt 3).life == .running && (t.ctxAt 3).pc == 0x400000148 &&
      (t.me.xReg false 5).val == 0) = true ∧
    goes (exec (.reap 0 5 1) ((tReg 1 3).modCtx 3 (fun c => { c with life := .ended, exitv := 9 })))
      (fun t => (t.ctxAt 3).life == .free && (t.me.xReg false 5).val == 9) = true := by
  decide +kernel

/-- A context with monitors 0 and 2 in use. -/
def tMon : State := tMe (fun c => { c with mon := [(0, { used := true, line := 0x4000003, reg := true }), (2, { used := true, line := 7 })] })

/-- Monitors: the line already named, none free, monitor 1 free; nothing triggered; a timeout of 0 with no monitor. -/
theorem test_meets_Monitors :
    let p : Part := { tS.linePart 0x400000300 with data := [some 0] }
    tS.ready 0 [4] 5 = true ∧ tS.mayAccess 0 .ld 1 [p] = .ok () ∧ (tMon.me.monOf 0x4000003).isSome = true ∧
    tMon.armHeld 0 0x4000003 = false ∧
    (tMon.setOps [{ id := 3, ctx := 0, kind := .arm 0, priv := .u, parts := [{ p with st := .held, cause := 0x0A }] }]).armHeld 0 0x4000003 = true ∧ tS.me.monOf 0x4000003 = none ∧ (Tbl.get {} tMon.me.mon 0).used = true ∧ (Tbl.get {} tMon.me.mon 1).used = false ∧
    tMon.me.mon.all (fun x => !x.2.trig) = true ∧ tS.regVal 6 = 0 ∧ tS.regVal 1 ≠ 0 ∧ tS.me.mon = [] ∧
    ([0, 1, 2, 3].all (fun m => (Tbl.get {} (tMe (fun c => { c with mon := [(0, { used := true }), (1, { used := true }), (2, { used := true }),
      (3, { used := true })] })).me.mon m).used) = true) := by
  exact ⟨by decide +kernel, ok_of (by decide +kernel), by decide +kernel⟩

/-- FullEmptyAndFills: context 1 of the core running with an empty x5; context 16 on the next core of the team; number 20480. -/
theorem test_meets_FullEmptyAndFills :
    tS.ready 0 [] 5 = true ∧ tS.acting 0 = true ∧ (Tbl.get {} tS.me.v 3).pend = false ∧ tS.me.count .st = 0 ∧
    tS.sameTeam tS.cid (16 / 16) = true ∧ tS.sameTeam tS.cid (256 / 16) = false ∧ tS.sameTeam tS.cid (1 / 16) = true ∧
    (let s := (tReg 1 1).modCtx 1 (fun c => { c with life := .running, x := [(5, { full := false })] })
     s.ready 0 [1, 2] 6 = true ∧ (s.regVal 1).toNat ≠ s.cur ∧
     goes (exec (.rfill 0 6 1 2 5) s) (fun t => (t.ctxAt 1).xReg false 5 == { val := 7 } && (t.me.xReg false 6).val == 0) = true) := by
  decide +kernel

/-- Groups: core 0 is a member of group 1, core 2 is not; an arrival that is recorded twice over is not made. -/
theorem test_meets_Groups :
    (tS.groupMembers 1 = some (tTeam, 0, [0, 1])) ∧ tS.groupMembers 2 = none ∧ ({ tS with cur := 32 } : State).groupMembers 1 = none ∧
    (tReg 1 1).ready 0 [1] 5 = true ∧ (tReg 1 1).me.count .st = 0 ∧ 0 ∉ (Tbl.get {} tTeam.groups 1).arr ∧
    (Tbl.get {} tTeam.groups 1).ep ≤ (tS.regVal 1).toNat ∧
    goes (exec (.gbar 0 false 5 1) (tReg 1 1)) (fun t => t.last == .issued && t.me.post == .gbar 1 0 0x400000140) = true := by
  decide +kernel

/-- Tasks: task 1 of two, task 2 of none; an empty run list and one with task 1; task 1 taken on this core. -/
theorem test_meets_Tasks :
    tS.taskTable[1]? = some { home := 0, slot := 0, off := 0x48, init := 1 } ∧ tS.taskTable[2]? = none ∧ tS.teamOf 0 = some tTeam ∧
    tS.launchOf 0 = some tLaunch ∧ tS.myCore.runl = [] ∧ tS.somePending 0 = true ∧
    (tS.setTeam { tTeam with tstate := [(0, .done), (1, .cancelled)] }).somePending 0 = false ∧
    (tS.modCore 0 (fun k => { k with runl := [1] })).myCore.runl = [1] ∧
    (Tbl.get .pending [(1, TaskSt.taken 0 50 false)] 1).takenOn 0 = true ∧ (Tbl.get .pending [(1, TaskSt.taken 16 50 false)] 1).takenOn 0 = false := by
  decide +kernel

/-- The machine at S, with a team of three clusters, well 8 of cluster 0 bound, core 17 frozen and slot 0 of core 2 held by a well. -/
def tPriv : State :=
  (((tMe (fun c => { c with priv := .s })).setTeam { tTeam with count := 3 }).setBank 8 { bound := true }).modCore 17
    (fun k => { k with frozen := some 272 }) |>.setSlot 2 0 { st := .attached, well := 9, rd := true }

/-- A descriptor of `wattach`: cluster, index, reading and writing (R217). -/
def tDesc (clu i : Nat) : Word := BitVec.ofNat 64 (clu * 65536 + i * 256 + 12)

/-- WellInstructions: the slots of tCore, four of them in exchange mode, the clusters that a core reaches and those it does not. -/
theorem test_meets_WellInstructions :
    (tS.slotAt 0 0).st = .attached ∧ (tS.slotAt 0 0).exch = false ∧ (tS.slotAt 0 0).wr = true ∧ (tS.slotAt 0 1).st = .held ∧
    (tS.slotAt 0 3).wr = false ∧ (tS.slotAt 0 4).exch = true ∧ (tS.slotAt 0 5).st = .detached ∧ tS.exchCount 0 < 4 ∧
    4 ≤ ((List.range 3).foldl (fun s n => s.setSlot 0 (8 + n) { st := .attached, well := 20 + n, rd := true, wr := true, exch := true }) tS).exchCount 0 ∧
    tS.me.priv = .u ∧ tS.acting 0 = true ∧ tPriv.ready 0 [1] 5 = true ∧ tPriv.me.priv ≠ .u ∧
    [(80, 0), (3, 0), (2, 0), (0, 8), (1, 5)].all (fun (c, i) => fieldOf (tDesc c i) 16 7 == c && fieldOf (tDesc c i) 8 6 == i) = true ∧
    tPriv.teamHolds 3 = false ∧ tPriv.teamHolds 2 = true ∧ reaches 0 2 = false ∧ reaches 0 1 = true ∧ (tPriv.bankAt 8).bound = true ∧
    (tPriv.bankAt 69).bound = false ∧ tPriv.sameTeam 0 48 = false ∧ tPriv.sameTeam 0 32 = true ∧ reaches (32 / 16) (wellClu 3) = false ∧
    reaches (17 / 16) (wellClu 3) = true ∧ (tPriv.coreAt 17).frozen ≠ none ∧ (tPriv.coreAt 2).frozen = none ∧
    (tPriv.slotAt 2 0).st ≠ .detached ∧ (tPriv.slotAt 2 1).st = .detached := by
  decide +kernel

/-- A shape block is at 0x100 of the window; the destination and source are global. -/
def tExt : CpyExt := { sfmt := .f32, dfmt := .f32, cvt := false, dk := .mem, irq := true, fon := 0, tag := 9 }

/-- EngineInstructions, SequencersAndHandlers: queues with room, a tile at 0, counts at and above a limit; programs inside the window
and at its end, sequencers 0 and 3, one that runs; a handler. -/
theorem test_meets_engines :
    tS.allFull [4, 4, 3] = true ∧ tS.needFill 0 0 .mem = .ok () ∧
    tS.checkCopy (badCommand (.cpy 0 0 4 4 3 0 tExt)) (tS.regVal 4) (tS.regVal 3) 0 = .ok () ∧
    tS.mayEnqueue 0 0 = .ok () ∧ tS.mayEnqueue 0 1 = .ok () ∧ tS.mayEnqueue 0 2 = .ok () ∧ tS.cancelsNow 0 0 = false ∧ tS.cancelsNow 0 1 = false ∧
    (tS.regVal 6).toNat + tileBytes .bf16 + 256 ≤ 0x300000 ∧ tS.me.count .ld ≤ (0 : Byte).toNat ∧
    ¬ ((tMe (fun c => { c with cnt := (0, 1, 0, 0) })).me.count .st ≤ (0 : Byte).toNat) ∧
    (tReg 1 0x1FFFC0).ready 0 [1, 2] 5 = true ∧ (tReg 1 0x1FFFC0).regVal 1 + (Imm.i18 0x40).value = 0x200000 ∧
    ((tReg 1 0x1FFFC0).regVal 1).toNat % 64 = 0 ∧ tS.myCore.seqBusy 3 = false ∧
    (tS.modCore 0 (fun k => { k with seqs := [(3, { running := true })] })).myCore.seqBusy 3 = true ∧ (tReg 1 8).ready 0 [1] 5 = true ∧
    tS.me.inH = false ∧ (tMe (fun c => { c with inH := true })).me.inH = true ∧
    goes (exec (.cpy 0 0 4 4 3 0 tExt) tS) (fun t => t.myCore.cq.length == 1 && t.me.count .cp == 1) = true := by
  exact ⟨by decide +kernel, ok_of (by decide +kernel), ok_of (by decide +kernel), ok_of (by decide +kernel), ok_of (by decide +kernel),
    ok_of (by decide +kernel), by decide +kernel⟩

/-- ArrayInstructions: counts 1 and 256, 0 and 257, a last row beyond 256, a range that ends with its slot and one that crosses it, and a
global one. -/
theorem test_meets_ArrayInstructions :
    (let s := ((tReg 1 (0x20000 - 512)).modMe (fun c => c.setX false 2 { val := 1 })).modMe (fun c => c.setX false 3 { val := 255 })
     s.allFull [1, 2, 3] = true ∧ (s.regVal 3).toNat + (s.regVal 2).toNat ≤ 256 ∧ stride s.me.afmt = 128 ∧
       (s.regVal 1).toNat / 0x20000 = ((s.regVal 1).toNat + 512 - 1) / 0x20000 ∧
       goes (exec (.cdrain 0 1 2 3 false 0) s) (fun t => t.myCore.aq.length == 1) = true) ∧
    (let s := ((tReg 1 (0x20000 - 511)).modMe (fun c => c.setX false 2 { val := 1 })).modMe (fun c => c.setX false 3 { val := 0 })
     ¬ ((s.regVal 1).toNat / 0x20000 = ((s.regVal 1).toNat + 512 - 1) / 0x20000)) ∧
    tS.regVal 6 = 0 ∧ 256 < ((tReg 2 257).regVal 2).toNat ∧ 256 < (tS.regVal 3).toNat + (tS.regVal 1).toNat ∧ 2 ^ 32 ≤ (tS.regVal 4).toNat ∧
    (tReg 3 0x20000).regVal 3 = 0x20000 ∧ (tS.regVal 6).toNat + 0x20000 ≤ 0x300000 ∧ ((tReg 3 32).regVal 3).toNat % 64 ≠ 0 ∧
    tS.ready 0 [] 5 = true ∧ tS.myCore.live.p < 16 ∧ tS.myCore.shadow = none ∧ tS.myCore.aq.length < 256 := by
  decide +kernel

/-- ExchangeInstructions: 64 bytes from 0x100, a legal descriptor, a group and none, stream 1 and none, bound and unbound ports. -/
theorem test_meets_ExchangeInstructions :
    (let s := tReg 5 64
     s.allFull [3, 6, 5] = true ∧ (s.regVal 5).toNat % 64 = 0 ∧ 64 ≤ (s.regVal 5).toNat ∧ descOk (s.regVal 6) 64 = true ∧
       (s.regVal 3).toNat / 0x20000 = ((s.regVal 3).toNat + 64 - 1) / 0x20000 ∧ s.groupMembers 0 ≠ none ∧ s.groupMembers 256 = none ∧
       64 * (0x7FF#11).toNat + 64 ≤ 0x20000) ∧
    ((tMe (fun c => { c with qout := [(3, { bound := some 1 })] })).me.port false 3).bound ≠ none ∧
    (tS.streamOf 0 1).isSome = true ∧ tS.streamOf 0 5 = none ∧ (tS.me.port true 0).bound = none ∧ tS.boundTo 0 true 1 = none ∧
    (tS.streamOf 0 1).all (fun x => tS.roleOk 0 x false && !(tS.roleOk 0 x true) && tS.roleOk 1 x true) = true ∧
    (tMe (fun c => { c with qout := [(3, { bound := some 1 })] })).boundTo 0 false 1 = some (0, 3) ∧
    (tS.me.port false 0).words = [] ∧ tS.markerWaits 0 0 = false := by
  decide +kernel

/-- Arrivals: a scalar and a vector result at an awake core, a sleeping one, a store that is performed, a fill on its way. -/
theorem test_meets_Arrivals :
    (let s := tS.setOps [{ id := 3, ctx := 0, kind := .alu, priv := .u, outs := [{ dst := .x 5 false, val := 9 }] }]
     (s.opAt 3).isSome = true ∧ s.ops.any s.fileBusy = false ∧ (s.coreAt 0).sleep = .awake ∧ goes (exec (.resultArrival 3) s) (fun t => (t.me.xReg false 5).val == 9) = true ∧
       ((s.modCore 0 (fun k => { k with sleep := .asleep 2 })).coreAt 0).sleep = .asleep 2) ∧
    (let s := tS.setOps [{ id := 3, ctx := 0, kind := .alu, priv := .u, outs := [{ dst := .v 2 0xFF, val := 9 }] }]
     goes (exec (.resultArrival 3) s) (fun t => t.vecVal 2 == 9) = true) ∧
    (let s := tOp .store [{ tPart [some 1] with st := .done }]
     (s.opAt 3).all (fun o => o.kind.isStore && o.allDone && o.cnts) = true) ∧
    (let s := tOp (.rfill 1 5 7) [{ tPart [] with well := some 0 }]
     (s.opAt 3).all (fun o => !o.allDone && !(s.fillBefore o 0)) = true ∧ (s.coreAt 0).sleep = .awake) := by
  decide +kernel

/-- IssuePointEntries: a late trap; interrupt 2, the highest, at U and at S with its enable; a notice. -/
theorem test_meets_IssuePointEntries :
    tS.atIssue 0 = true ∧ tS.me.post = .none ∧
    (tMe (fun c => { c with lates := [{ cause := 0x0A, val := 0x400000300, above := false }] })).atIssue 0 = true ∧
    (let s := tMe (fun c => { c with kipP := 4, kipE := 4 })
     s.lateReady 0 = false ∧ s.me.priv = .u ∧ (s.pending 0 &&& s.me.kipE).getLsbD 2 = true ∧ (s.pending 0 &&& s.me.kipE).getLsbD 0 = false ∧
       (s.pending 0 &&& s.me.kipE).getLsbD 1 = false) ∧
    (tMe (fun c => { c with priv := .s, kstat := { ie := true } })).me.kstat.ktrap = false ∧
    (let s := tMe (fun c => { c with notes := [{ kind := 1, tag := 9, addr := 0 }], uirqv := 0x400001001 })
     s.lateReady 0 = false ∧ s.irqPending 0 = false ∧ s.me.priv = .u ∧ s.me.uirqv.getLsbD 0 = true ∧ s.me.inH = false ∧ s.me.ucause = 0 ∧
       goes (exec (.noticeDelivery 0 0) s) (fun t => t.me.inH && t.me.pc == 0x400001000) = true) := by
  decide +kernel

/-- WaitsAndSleep: a `wfi` and its timer, an `mwait` at its timeout, a block that has been asked for, a core at rest, a wake that is over. -/
theorem test_meets_WaitsAndSleep :
    (let s := tMe (fun c => { c with ktcmp := 0, kipE := 2, post := .wfi })
     s.me.life = .running ∧ s.me.ktcmp.toNat ≤ s.cyc.toNat ∧ (s.coreAt 0).sleep = .awake ∧ s.me.kipE.getLsbD 1 = true) ∧
    (let s := tMe (fun c => { c with post := .mwait 5 90 10 4 })
     90 + 10 ≤ s.now ∧ (s.coreAt 0).sleep = .awake ∧ s.lateReady 0 = false ∧ s.irqPending 0 = false ∧ s.me.mon = []) ∧
    (let p : Part := { acc := 0, va := 0x400000140, dst := 0, data := List.replicate 32 (some 0) }
     let o : Op := { id := 3, ctx := 0, kind := .fetch, priv := .u, size := 0x400000140, parts := [p] }
     let s := tS.setOps [o]
     s.ops.find? (fun o => o.ctx == 0 && o.kind == .fetch) = some o ∧ s.isRefused 0 o.id 0 = false ∧ s.heldBehind o 0 p = false ∧
       okAnd (s.readBlock o p) (fun r => r.2.2.2.length == 32 && s.slotFree r.2.2.1 && s.accepts (s.vfOfCore 0) p.va r.2.2.1 (s.resender 0 o.id 0)) = true) ∧
    (List.range 16).all (fun t => (tMe (fun c => { c with parked := some .own })).resting t) = true ∧
    (let s := (tS.setOps [{ id := 3, ctx := 0, kind := .alu, priv := .u, outs := [{ dst := .x 5 false, val := 9 }] }]).modCore 0
       (fun k => { k with sleep := .waking 100, late := [.result 3] })
     (s.coreAt 0).sleep = .waking 100 ∧ (s.opAt 3).isSome = true ∧
       goes (exec (.wakeEnd 0) s) (fun t => (t.me.xReg false 5).val == 9 && (t.coreAt 0).late.isEmpty) = true) ∧
    ((tS.modCore 0 (fun k => { k with sleep := .waking 100 })).coreAt 0).late = [] := by
  decide +kernel

/-- TeamEvents: an episode that all sixteen have arrived in 60 cycles ago; a decrement of a word of 1 and of 0, with the slot attached and
detached; a watchdog that has run out; an error token on its way. -/
theorem test_meets_TeamEvents :
    tS.launchAt tTeam.launch = some tLaunch ∧ tS.launches.all (fun m => decide (m = tLaunch)) = true ∧
    (let t := { tTeam with groups := [(0, { arr := List.range 16, last := 40, swp := [3] })] }
     let s := tS.setTeam t
     s.teams.find? (fun u => u.id == t.id) = some t ∧ Tbl.get [] tLaunch.groups 0 ≠ [] ∧
       (Tbl.get [] tLaunch.groups 0).all (fun m => (Tbl.get {} t.groups 0).arr.contains m) = true ∧ (Tbl.get {} t.groups 0).last + 60 ≤ s.now ∧ t.onDevice = true) ∧
    (let s := (tOp (.tdec 0 false) []).modMe (fun c => { c with cnt := (0, 1, 0, 0) })
     (s.opAt 3).all (fun o => decide (s.teamOf (o.ctx / 16) = some tTeam ∧ s.launchOf (o.ctx / 16) = some tLaunch) && o.cnts &&
       !(s.decBefore o (tTeam.coreOf 0) 0)) = true ∧ (s.slotAt 0 0).st = .attached ∧ ofBytes (s.readWell 3 0x40 8) = 0 ∧
       ofBytes ((s.writeWell 3 0x40 [some 1]).readWell 3 0x40 8) = 1 ∧ 0x40 + 8 ≤ 0x20000 ∧
       ((s.setSlot 0 0 {}).slotAt 0 0).st = .detached ∧ ((s.setSlot 0 0 { st := .incoming }).slotAt 0 0).st = .incoming ∧
       goes (exec (.decrementAtHome 3) (s.setSlot 0 0 {})) (fun t => t.launches.all (·.token) && t.me.count .st == 0) = true ∧
       goes (exec (.decrementAtHome 3) (s.writeWell 3 0x40 [some 1])) (fun t => t.myCore.runl == [0] && t.me.count .st == 0) = true) ∧
    (let t := { tTeam with tstate := [(0, .taken 0 50 false)] }
     let s := (tS.setTeam t).setLaunch { tLaunch with hdr := { tLaunch.hdr with traps := 0x00010040#32 } }
     (s.launchAt 1).all (fun l => l.hdr.watchdog.any (fun lim => decide (50 + lim < (Nat.max s.now 10000000)))) = true ∧ t.onDevice = true) ∧
    (let s := tS.setNet { tS.net with tokens := [{ launch := 1, core := 0, by_ := 300 }] }
     (s.net.tokens.find? (fun m => m.launch == 1 && m.core == 0)).isSome = true ∧ s.teamOf 0 = some tTeam) := by
  decide +kernel

/-- WellEvents: every kind of change, due at this cycle. -/
theorem test_meets_WellEvents :
    [MoveKind.pass, .attach true, .attach false, .clear, .mode true, .detach, .free].all (fun kind =>
      let m : WMove := { id := 3, kind, well := 5, core := 0, slot := 2, ops := [], eops := [], stOf := none, base := 76, delay := 24 }
      let s := tS.setMoves [m]
      decide (s.moves.find? (fun x => x.id == 3) = some m) && (s.settleMove m).dueAt s.now) = true ∧
    (tS.coreAt 0).frozen = none ∧ ((tS.modCore 0 (fun k => { k with frozen := some 0 })).coreAt 0).frozen ≠ none := by
  decide +kernel

/-- A copy of one element from 0x200 to 0x100 of slot 0, its shape block at 0x40 of the same slot; its engine has started it. -/
def tCpy (done : Bool) (fon : Byte) : EOp :=
  { id := 3, ctx := 0, priv := .u, kind := .cpy 0x200 0x100 0x40 0 0 { tExt with fon := fon }, start := some 90, done := done, irq := true, tag := 9,
    binds := [{ slot := 0, well := 3, rd := true, wr := true, exch := false }] }

/-- The machine whose cluster engine serves that copy. The shape block names one element of one row (R288). -/
def tCopy (o : EOp) (shape : List Byte) : State :=
  (((tS.modCore 0 (fun k => { k with cq := [o] })).modClu 0 (fun c => { c with cpyBusy := some 0 })).modMe (fun c => { c with cnt := (0, 0, 1, 0) })).writeWell
    3 0x40 (shape.map some)

/-- Two elements in a row. -/
def tDims : List Dim := [{ ext := 2, ss := 1, ds := 1 }]

/-- CopyEvents: a shape block of one row, one of no dimension, an element to be moved, the first and the last register of a fill, a lost
byte of the shape block, a copy done without and with a follow-on, a sequencer at a record of zeros and one that has just issued. -/
theorem test_meets_CopyEvents :
    (let s := tCopy (tCpy false 0) ([1, 0, 0, 0, 0, 0, 0, 0] ++ [2, 0, 0, 0, 0, 0, 0, 0] ++ [1, 0, 0, 0, 0, 0, 0, 0] ++ [1])
     s.servedCopy 0 = some (tCpy false 0) ∧ s.copyAtWork 0 = some (tCpy false 0) ∧ (tCpy false 0).orphan = false ∧
       okAnd (s.engLook (tCpy false 0).binds 0x40 8) (fun bs => ofBytes bs == 1) = true ∧
       okAnd (s.engRead (tCpy false 0).binds 0x40 32) (fun r => dimsOf 1 (r.2.drop 8) == some tDims) = true ∧
       okAnd (s.copyStep (tCpy false 0) 1) (fun r => r.2.cp.dims == some tDims) = true ∧
       s.copyErr (tCpy false 0) 0x40 = some (s.usePort 3, 0x15, s.wellErr 3 0x40) ∧
       s.arrayFault 0 none = none ∧ s.exchFault 0 = none) ∧
    (let s := tCopy (tCpy false 0) []
     okAnd (s.engLook (tCpy false 0).binds 0x40 8) (fun bs => ofBytes bs == 0) = true ∧ errIs (s.copyStep (tCpy false 0) 1) (.fault 0x0F 0) = true ∧
       s.copyAtWork 0 = some (tCpy false 0)) ∧
    (let o := { tCpy false 0 with cp := { bytes := toBytes 8 6 ++ List.replicate 120 0 } }
     let s := tCopy o []
     s.copyAtWork 0 = some o ∧ o.cp.bytes.length = 128 ∧ ofBytes (o.cp.bytes.take 8) = 6 ∧
       okAnd (s.engRead o.binds (0x40 + 128) 24) (fun r => dimsOf 6 ((o.cp.bytes ++ r.2).drop 8) == none) = true) ∧
    ([0, 1].all (fun j =>
      let o := { tCpy false 0 with cp := { dims := some tDims, pos := j } }
      (tCopy o []).copyAtWork 0 == some o && okAnd (engPlace o.binds (0x200 + 4 * j) 4 false) (fun x => x == some (3, 0x200 + 4 * j)) &&
        okAnd (engPlace o.binds (0x100 + 4 * j) 4 true) (fun x => x == some (3, 0x100 + 4 * j)))) = true ∧
    ([0, 1].all (fun i =>
      let o := { tCpy false 0 with
        kind := .cpy 0x200 0 0x40 5 2 { tExt with dk := .xfill }, keep := [{ dst := .x 5 false }, { dst := .x 6 false }], fin := 100
        cp := { dims := some tDims, pos := 2, vals := [7, 9], put := i } }
      (tCopy o []).copyAtWork 0 == some o && dimCount tDims * 32 ≤ 64 * 2 && (fillVals 64 2 32 [7, 9])[i]? == some (if i = 0 then 0x900000007 else 0) &&
        goes (exec (.engineCopy { core := 0, num := 0 }) (tCopy o [])) (fun t =>
          (t.me.xReg false (5 + i)).val == (if i = 0 then 0x900000007 else 0)))) = true ∧
    (tCopy (tCpy true 0) []).putHeld 0 (tCpy true 0) = false ∧
    (tCopy (tCpy true 16) []).servedCopy 0 = some (tCpy true 16) ∧ ((tCopy (tCpy true 16) []).coreAt 0).aq.length < 16 ∧
    (tCopy (tCpy true 16) []).cancelsNow 0 1 = false ∧ crosses 0x100 (16 * stride tS.me.afmt) = false ∧ tS.me.life = .running := by
  decide +kernel

/-- CopyEvents: a sequencer at a record of zeros, at a QFENCE, at a COPY, and one that has just issued. -/
theorem test_meets_sequencers :
    (let q : Sequencer := { running := true, pc := 0x200, ctx := 0, id := 3, binds := [{ slot := 0, well := 3, rd := true, wr := true, exch := false }] }
     let s := tS.modCore 0 (fun k => { k with seqs := [(1, q), (2, { q with next := 101 })] })
     Tbl.get {} (s.coreAt 0).seqs 1 = q ∧ s.bindWaits q.id q.binds = false ∧ q.next ≤ s.now ∧ s.stopped 0 = false ∧
       s.now < (Tbl.get {} (s.coreAt 0).seqs 2).next ∧
       s.bindWaits q.id (q.binds.filter (fun b => b.slot == q.pc.toNat / 0x20000)) = false ∧
       okAnd (s.engRead q.binds q.pc.toNat 64) (fun r => r.2.take 16 == List.replicate 16 0) = true ∧
       (let w := s.writeWell 3 0x200 ([some 2, some 1] : List (Option Byte))
        okAnd (w.engRead q.binds q.pc.toNat 64) (fun r => decide (fieldOf (BitVec.ofNat 64 (ofBytes (r.2.take 8))) 0 8 = 2)) = true ∧
          goes (exec (.sequencerRecord 0 1) w) (fun t => t.me.marks.length == 1 && (Tbl.get {} (t.coreAt 0).seqs 1).pc == 0x240) = true) ∧
       (let w := s.writeWell 3 0x200 ((toBytes 8 0x100000001 ++ toBytes 8 0 ++ toBytes 8 0x8800000000000000 ++ toBytes 8 0x400000000 ++
          toBytes 8 0x400001000 ++ toBytes 8 0x80 ++ List.replicate 16 0).map some)
        let word := fun (k : Nat) => BitVec.ofNat 64 (ofBytes (((w.readWell 3 0x200 64).drop k).take 8))
        fieldOf (word 0) 0 8 = 1 ∧ fieldOf (word 0) 32 32 = 1 ∧ fieldOf (word 0) 11 5 = 0 ∧ (w.seqCopy 0 1 q word).isSome = true)) := by
  decide +kernel

/-- The machine with one array operation at the head of its queue, started or not. -/
def tArr (kind : EKind) (keep : List Out) (start : Option Nat) : State :=
  (tS.modCore 0 (fun k => { k with
    aq := [{ id := 3, ctx := 0, priv := .u, kind := kind, keep := keep, start := start, binds := [{ slot := 0, well := 3, rd := true, wr := true, exch := false }] }]
    shadow := some {} })).modMe (fun c => { c with cnt := (0, 0, 0, 1) })

/-- ArrayEvents, ArrayArithmetic. -/
theorem test_meets_ArrayEvents :
    (let s := tArr .cflip [] none
     (s.coreAt 0).aq.head?.all (fun o => !o.orphan && s.mayStart 0 o) = true ∧ (s.coreAt 0).sleep = .awake ∧ s.stopped 0 = false) ∧
    (let s := tArr (.clw .e4m3 false 0 5) [{ dst := .x 5 false }] (some 90)
     (s.coreAt 0).endsNext s.now = (s.coreAt 0).aq.head? ∧ badTrit .e4m3 (s.readStack 0 0 (tileBytes .e4m3)) = none) ∧
    (let s := tArr .cflip [] (some 90)
     (s.coreAt 0).endsNext s.now = (s.coreAt 0).aq.head? ∧ (s.coreAt 0).shadow = some {} ∧
       goes (exec (.arrayOpComplete 0) s) (fun t => decide ((t.coreAt 0).shadow = none) && t.me.count .tl == 0) = true) ∧
    (let s := tArr (.cstk 0x100 0 64) [] (some 90)
     (s.coreAt 0).aq.head?.all (fun o => o.nextAccess == some (0x100, 64, false) && (s.coreAt 0).endsNext s.now == some o && !o.lost &&
       okAnd (s.engRead o.binds 0x100 64) (fun r => r.2.length == 64) && okAnd (s.arrayAccess o) (fun r => r.1.mem.wells == s.mem.wells)) = true) ∧
    (let s := tArr (.cpass 0x100 1 0 .e4m3 none) [] (some 90)
     (s.coreAt 0).aq.head?.all (fun o => o.nextAccess == some (0x100, 128, false) && (o.pos + 1) % beats .e4m3 == 0 &&
       okAnd (s.arrayAccess o) (fun r => r.2.pos == 1)) = true) ∧
    (let s := tArr (.cpass 0x100 1 0 .bf16 none) [] (some 90)
     (s.coreAt 0).aq.head?.all (fun o => (o.pos + 1) % beats .bf16 != 0 && okAnd (s.arrayAccess o) (fun r => r.2.data.length == 128)) = true) ∧
    (let s := tArr (.cdrain 0x100 1 0) [] (some 90)
     (s.coreAt 0).aq.head?.all (fun o => okAnd (engPlace o.binds 0x100 128 true) (fun x => x == some (3, 0x100)) && s.portFree 3 &&
       okAnd (s.arrayAccess o) (fun r => r.2.pos == 1)) = true) ∧
    (let s := tArr (.cdrain 0x100 1 0) [] (some 90)
     let o := { (s.coreAt 0).aq.headD (tCpy false 0) with pos := 4, fin := 95 }
     let s := s.modCore 0 (fun k => { k with aq := [o] })
     o.nextAccess = none ∧ (s.coreAt 0).endsNext s.now = some o ∧ goes (exec (.arrayOpComplete 0) s) (fun t => t.me.count .tl == 0) = true) ∧
    (let s := tArr (.cstk 0x40000 0 64) [] (some 90)
     (s.coreAt 0).aq.head?.all (fun o => o.nextAccess.isSome && errIs (s.arrayAccess o) (.fault 0x08 0x40000)) = true ∧
       goes (exec (.engineFault { core := 0 }) s) (fun t => t.me.lates.any (fun l => l.cause == 0x08) && t.myCore.aq.isEmpty) = true) ∧
    (let s := (tArr .cflip [] (some 90)).modCore 0 (fun k => { k with shadow := none })
     (s.coreAt 0).endsNext s.now = (s.coreAt 0).aq.head? ∧ (s.coreAt 0).shadow = none ∧
       goes (exec (.engineFault { core := 0 }) s) (fun t => t.me.lates.any (fun l => l.cause == 0x0F)) = true) ∧
    (let s := (tArr (.cpass 0x100 1 0 .e4m3 none) [] (some 0)).modCore 0 (fun k => { k with
       aq := (k.aq.map (fun o => { o with lives := 64, fin := 900 })) ++ k.aq.map (fun o => { o with id := 4, kind := .clw .e4m3 false 0 5, start := none }) })
     let s : State := { s with now := 200 }
     (match (s.coreAt 0).aq with
       | o :: w :: _ => o.isPass && o.mate.isNone && w.isClw && s.mayStart 0 w && !(s.stopped 0) &&
           goes (exec (.arrayOpStart 0) s) (fun t => t.myCore.aq.all (fun x => x.start.isSome))
       | _ => false) = true) ∧
    (match (feed .e4m3 none (List.replicate 128 0x38)).1 with | .ms _ _ => true | _ => false) = true ∧
    (match (feed .e4m3 none (List.replicate 128 0)).1 with | .zero => true | _ => false) = true ∧ nafCount 25 (3 * 2 ^ 22) = 2 := by
  decide +kernel

/-- ArrayArithmetic: a column of finite factors, one with an infinity, a poisoned one; weights of each sign, and of zero; a KB4 scale that is a power
of two. -/
theorem test_meets_ArrayArithmetic :
    fmtB16.read false 0x3F80 = .fin false 128 (-7) ∧ fmtB16.read false 0x7F80 = .inf false ∧ (fmtB16.read false 0x7F81).isNan = true ∧
    colOut { g := 0, n := [3, -1], gs := 0x3F80, bs := 0x3F80, poison := false } 0 [2, 1] = (0x40A00000, 0) ∧
    ({ g := 0, n := [], gs := 0, bs := 0, poison := true } : Col).poison = true ∧
    (let ws : List FVal := [.fin false 3 0, .fin true 5 (-30), .fin false 0 0]
     ws.any wild = false ∧ ws.any (fun v => !v.isZero) = true ∧ (recode .bf16 ws 0x3F80 0x3F80 false).1.n.length = 3) ∧ WFmt.bf16 ≠ .t5 ∧
    (e3m5 0).1 = 0 ∧ (e3m5 0x60).1 = 2 ^ 5 := by
  decide +kernel

/-- The machine with one exchange operation at the head of core 0's queue; core 1 has the same exchange-mode slot. -/
def tXch (kind : EKind) (start : Option Nat) : State :=
  let o : EOp := { id := 3, ctx := 0, priv := .u, kind := kind, start := start, data := List.replicate 64 1
                   binds := [{ slot := 0, well := 3, rd := true, wr := true, exch := false }] }
  (tS.modCore 0 (fun k => { k with eq := [o] })).setCore 1
    { slots := [(4, { st := .attached, well := 23, rd := true, wr := true, exch := true })], eq := [{ o with id := 4, ctx := 16 }] }

/-- ExchangeEvents. -/
theorem test_meets_ExchangeEvents :
    (let s := tXch (.xst 0x100 0x40000 64) none
     (s.coreAt 0).eq.head?.all (fun o => o.start.isNone && s.mayStart 0 o) = true ∧ s.stopped 0 = false) ∧
    (let s := tXch (.xst 0x100 0x40000 64) (some 90)
     (s.movingExch 0).any (fun o => s.targets 0 o == [0] && o.nextAccess == some (0x100, 64, false) &&
       okAnd (s.engRead o.binds 0x100 64) (fun r => r.2.length == 64)) = true) ∧
    (let s := tXch (.nmc 0x100 1 64 4 0) (some 90)
     (s.movingExch 0).any (fun o => decide (1 ∈ s.targets 0 o) && s.landUnit 0 1 o == some (23, 0x10000)) = true) ∧
    (let s := tXch (.xst 0x100 0x40014 64) (some 90)
     let s := s.modCore 0 (fun k => { k with eq := k.eq.map (fun o => { o with pos := 1 }) })
     (s.movingExch 0).any (fun o => o.nextAccess.isNone && s.targets 0 o == [20] && s.landAt 0 20 o == .bad) = true ∧ s.arrayFault 0 none = none ∧
       goes (exec (.engineFault { core := 0 }) s) (fun t => t.me.lates.any (fun l => l.cause == 0x0F) && t.myCore.eq.isEmpty) = true) ∧
    (let s := tXch (.nred .add 0x40000 1 64 4 0) (some 90)
     (s.movingExch 0).any (fun o => errIs (s.engRead o.binds 0x40000 64) (.fault 0x08 0x40000)) = true) ∧
    (let s := tXch (.xst 0x100 0x40000 64) (some 90)
     (s.movingExch 0).any (fun o => s.landUnit 0 0 o == some (7, 0x10000) && decide (Tbl.get 0 o.landed 0 < 64 / 64) && o.data.length == 64 && s.portFree 7) = true ∧
       fieldOf 0x40000 0 11 = 0) ∧
    (let s := tXch (.nred .add 0x100 1 64 4 0) (some 90)
     let s := (s.modCore 0 (fun k => { k with eq := k.eq.map (fun o => { o with pos := 1 }) })).modCore 1
       (fun k => { k with eq := k.eq.map (fun o => { o with pos := 1 }) })
     (s.nredAt 0 1).all (fun o => o.nextAccess.isNone) = true ∧ s.missesNred 0 1 0 = false ∧ s.missesNred 1 1 0 = false ∧
       goes (exec (.networkReduction 2 1) s) (fun t => (t.coreAt 1).eq.all (fun y => y.dest == some (23, 0x10000))) = true ∧
       (let w := s.modCore 0 (fun k => { k with eq := k.eq.map (fun o => { o with bad := true }) })
        (w.nredsOf tTeam [0, 1] 1).any (fun p => p.1 == 0 && p.2.any (fun q => q.2.bad)) = true ∧
          goes (exec (.networkReduction 2 1) (w.modCtx 16 (fun c => { c with life := .running }))) (fun t =>
            t.me.lates.any (fun l => l.cause == 0x10 && l.val == 1) && t.myCore.eq.isEmpty) = true)) ∧
    (let s := tXch (.nred .add 0x100 1 64 4 0) (some 90)
     (s.nredAt 0 1).any (fun o => s.landAt 0 0 o == .place 7 0x10000 && o.k == 0 && !o.bad && decide (o.fin ≤ s.now)) = true ∧
       tTeam.onDevice = true ∧ (s.nredAt 1 1).any (fun o => s.landAt 1 1 o == .place 23 0x10000 && o.k == 0 && !o.bad) = true ∧
       (sortBy (fun a b => decide (a ≤ b)) (Tbl.get [] tLaunch.groups 1)).map tTeam.coreOf = [0, 1]) ∧
    (let s := tMe (fun c => { c with qout := [(0, { words := [1, 2], bound := some 1 })], pushes := [0, 0] })
     ((s.ctxAt 0).port false 0).bound = some 1 ∧ (s.streamOf 0 1).any (fun x => x.slots == 0) = true ∧ s.freeWords 0 0 = 2) ∧
    (let s := (tMe (fun c => { c with qout := [(0, { words := [1, 2], bound := some 1 })], pushes := [0, 0] })).setLaunch
       { tLaunch with streams := [{ num := 1, src := 0, sets := [1], slots := 1 }] }
     (s.streamOf 0 1).any (fun x => x.slots == 1 && s.now % 32 != 0 && decide (s.positions tTeam x = 0)) = true ∧
       (let s := { s with now := 2048 }
        (s.streamOf 0 1).any (fun x => s.now % 32 == 0 && x.slots.getLsbD (s.now % 2048 / 32) && decide ((Tbl.get (0, 0) tTeam.inj x.num).1 ≠ s.now)) = true ∧
          goes (exec (.wordInjection 0 0 0) s) (fun t => t.teams.all (fun u => Tbl.get (0, 0) u.inj 1 == (2048, 2))) = true)) ∧
    (let f : Flit := { id := 5, team := 2, stream := 1, word := 9, dests := [1], due := 100 }
     let s := tS.setNet { tS.net with flits := [f] }
     s.net.flits.find? (fun g => g.id == f.id) = some f ∧ ((s.coreAt 1).rxOf 1).length < 64 ∧ s.boundTo 1 true 1 = none ∧
       s.net.flits.takeWhile (fun g => g.id != f.id) = []) ∧
    (let s := (tXch (.smark 0) (some 90)).modMe (fun c => { c with qout := [(0, { bound := some 1 })] })
     (s.movingExch 0).any (fun o => o.kind == .smark 0 && o.ahead == 0) = true ∧ ((s.ctxAt 0).port false 0).bound = some 1 ∧
       (s.streamOf 0 1).any (fun x => decide (0 < s.positions tTeam x)) = true) ∧
    (let l := { tLaunch with hdr := { tLaunch.hdr with lockstep := true }, streams := [{ num := 1, src := 1, sets := [0], slots := 1 }] }
     let s := (tS.setLaunch l).modMe (fun c => { c with qin := [(0, { words := [7], bound := some 1 })], parked := some (.queue 0 false) })
     s.lockWait 0 = true ∧ s.portClear 0 = true ∧ (s.modCore 0 (fun k => { k with stall := [(90, 122)] })).myCore.stall.any (fun w => decide (s.now < w.2)) = true) := by
  decide +kernel

/-- A line of slice 0, all of whose sectors are valid. -/
def tLine (vline data : Nat) : Line := { slice := 0, vf := 0, vline, valid := 15, wrtn := 0, data := BitVec.ofNat 2048 data }

/-- A launch record at 0x400100000 that names an image at 0x400000000, and that image: a header with one context and its entry at 0x140. -/
def tLch (teams : Nat) : State :=
  let s := tS.setVf 0 { tVf with queues := [(0, { base := 0x400100000, log2 := 4, enable := true, tail := 1 })], quantum := 65536 }
  { s with
    now := 65536, launches := [], teams := []
    mem := { s.mem with lines := [
      (0x40000, tLine 0x4000000 (0x1484B394B + 0x140 * 2 ^ 64 + 2 ^ 144)), (0x40002, tLine 0x4000001 0),
      (0x42000, tLine 0x4001000 (4 * 2 ^ 32 + teams * 2 ^ 128 + 2 ^ 144 + 2 * 2 ^ 328 + 0x180 * 2 ^ 352))] } }

/-- LaunchEvents: a boundary and none; a queue's turn, and the reading of its record. -/
theorem test_meets_schedulerQuantum :
    (let s := tLch 1
     s.boundary 0 = true ∧ (s.queueAt 0 0).open_ = true ∧ (s.queueAt 0 1).open_ = false) ∧
    (let s := (tLch 1).modVf 0 (fun v => { v with lastQ := some 65536 })
     s.boundary 0 = false ∧ (s.vfAt 0).live = true ∧ (s.vfAt 0).pass = none ∧ (s.vfAt 0).preps = [] ∧
       s.vfs.all (fun v => v.2.queues.all (fun q => q.2.ending.isNone)) = true ∧ (s.queueAt 0 0).cont = none ∧ (s.queueAt 0 0).busy = none) ∧
    (let a : DevAcc := { va := 0x400100000, n := 64 }
     let s := (tLch 1).modVf 0 (fun v => { v with lastQ := some 65536, pass := some { queues := [0], at_ := some (.record, a) } })
     s.boundary 0 = false ∧ (s.vfAt 0).pass = some { queues := [0], at_ := some (.record, a) } ∧ a.hold = none ∧ a.bad = false ∧ a.va + a.pos + 64 ≤ 2 ^ 52 ∧
       min (256 - (a.va + a.pos) % 256) (a.n - a.pos) = 64 ∧ okAnd (s.reachFor 0 a.va { rd := true, size := 64 }) (fun (n, y) => s.slotFree n &&
         s.accepts 0 a.va n none && y.tgt == 0 && y.addr % 256 == 0 && s.takesLine n a.va (physKey y) (s.keyFor 0 y)) = true ∧
       goes (exec (.schedulerQuantum 0) s) (fun t => (t.vfAt 0).pass.any (fun p => p.at_.any (fun k => decide (k.2.va = 0x400000000 ∧ k.2.n = 0x140)))) = true) := by
  decide +kernel

/-- LaunchEvents: what each check refuses, and a launch that passes, with a run that is free and with none. -/
theorem test_meets_checks :
    (let s := tLch 1
     let l := { tLaunch with streams := [] }
     let tb : Tabs := { group := 64, slot := 8, task := 16 }
     headerOk l.lrec [] = false ∧ parseGroups 16 (List.replicate 16384 1) = none ∧ leAt (List.replicate 8 0) 0 4 = 0 ∧ 255 < leAt [0, 1, 0, 0] 0 4 ∧
       l.lrec.isize < tb.slot + 8 + 32 * leAt [1, 0, 0, 0] 0 4 ∧ parseStreams 16 l.groups (toBytes 8 1 ++ List.replicate 32 0xFF) = none ∧
       parseTasks 16 0 (toBytes 8 1 ++ List.replicate 16 0xFF) = none ∧ s.runsEver 0 1 = [0] ∧ s.runsEver 0 2 = [] ∧ l.vf = 0 ∧ l.queue = 0 ∧ l.replay = none ∧
       (s.dispatch l).isSome = true ∧ (tS.dispatch l).isNone = true ∧ 0 ∈ s.runsFor 0 1 ∧ ∀ c ∈ State.runOf 0 1, s.teamOn c = none) ∧
    (let l := { tLaunch with streams := (List.range 65).map (fun i => { num := i, src := 0, sets := [1], slots := 32 }) }
     tS.runsEver 0 1 ≠ [] ∧ tS.couldAdmit l 1 = false) ∧
    (parseRec (List.replicate 32 0 ++ [7])).graph = 7 ∧ (tS.graphAt 0 7).count = 0 := by
  decide +kernel

/-- LaunchEvents: a completion record that is to be written, at an address that translates and at one that does not; a team that starts. -/
theorem test_meets_records :
    (let r : DoneRec := { done := 0x400200020, irq := true, status := 6, n := (0, 0, 0), failt := 0xFFFFFFFF }
     let s := fun (r : DoneRec) => tS.setVf 0 { tVf with queues := [(0, { tail := 1, ending := some { recs := [r], acc := { va := r.done.toNat, n := 32 } } })] }
     let u := s r
     u.boundary 0 = false ∧ (u.vfAt 0).live = true ∧ r.done.toNat % 256 + 32 ≤ 256 ∧ okAnd (u.reachFor 0 r.done.toNat { wr := true, size := 32 }) (fun (n, x) =>
         u.slotFree n && u.accepts 0 r.done.toNat n none && x.tgt == 0 && u.takesLine n r.done.toNat (physKey x) (u.keyFor 0 x) &&
         !((u.setSlice n { u.sliceAt n with last := some 50 }).slotFree n)) = true ∧
       goes (exec (.schedulerQuantum 0) u) (fun t => decide ((t.queueAt 0 0).head = 1 ∧ (t.vfAt 0).irqstat = 1)) = true ∧
       (match (s { r with done := 0x500000000 }).reachFor 0 0x500000000 { wr := true, size := 32 } with
         | .error (some _) => true
         | _ => false) = true) ∧
    tTeam.cores.Nodup ∧ (tS.startTeam tLaunch tTeam { team := 2, acc := { va := 0, n := 0 } }).myCore.pblock = 0 := by
  decide +kernel

/-- LaunchEvents: a launch that is done, a team that is quiet and one that is not, one to be restored, an owed frame, a cycle of two
stalled buffers, moved on. -/
theorem test_meets_LaunchEvents :
    (let s := tS.setTeam { tTeam with st := .complete, tstate := [(0, .done), (1, .cancelled)] }
     s.launchAt tLaunch.id = some tLaunch ∧ s.launchDone tLaunch = true ∧ tLaunch.replay = none ∧
       goes (exec (.launchEnd 1) s) (fun t => (t.queueAt 0 0).ending.isNone && t.launches.isEmpty) = true) ∧
    (let x := { tTeam with st := .stopping 90 }
     let s := tS.setTeam x
     s.teams.filter (fun t => [x.id].contains t.id) = [x] ∧ s.quiet x = true ∧ s.swept x = true ∧ s.resetting x = false ∧
       (s.modCore 0 (fun k => { k with late := [.result 3] })).quiet x = false ∧
       ({ tStore with teams := [x] } : State).swept x = false ∧ (s.saveTeam x).teams.all (fun u => u.saved.isSome) = true) ∧
    (let sv : Saved := { ctxs := [(0, tCtx), (3, { mon := [(0, { used := true, line := 7 })] })], cores := [(0, tCore)], first := 0 }
     let x := { tTeam with st := .restoring, first := 2, saved := some sv }
     let s := tS.setTeam x
     let m : Moving := { old := { x with first := sv.first }, new := x }
     s.teams.find? (fun t => t.id == x.id) = some x ∧ s.launchAt x.launch = some tLaunch ∧ s.resetting x = false ∧
       (s.vfAt 0).answers = [] ∧ (sv.ctxs.map (fun p => m.ctx p.1)).Nodup ∧
       (sv.cores.map (fun p => m.core p.1)).Nodup) ∧
    (let s := tS.setPkg { tS.pkg with owed := [(5, 6, 3)], scrub := [(5, 255)] }
     s.pkg.owed.any (fun (a, b, _) => a ≤ 5 && 5 < b) = true ∧ Tbl.get 0 s.pkg.scrub 5 = 255 ∧ s.vfs.all (fun v => v.2.carve.isEmpty) = true) ∧
    (let s := { tS.setNet { tS.net with rbufs := [(5121, { packets := [{ id := 1, path := [5186, 7] }], since := 0 }),
                  (5186, { packets := [{ id := 2, path := [5121, 9] }], since := 0 })] } with now := 5000 }
     s.probe 5121 (s.net.rbufs.length + 1) 5121 [] = some [5121, 5186] ∧ s.stalled 3 = false ∧
       goes (exec (.deadlockProbe 5121) s) (fun t => t.net.cycles == [[5121, 5186]] && (t.sliceAt 0).recov) = true ∧
       goes (exec .deadlockRecoveryStep (s.setNet { s.net with cycles := [[5121, 5186]] })) (fun t =>
         (t.net.buf 5121).packets == [{ id := 2, path := [9] }] && (t.net.buf 5186).packets == [{ id := 1, path := [7] }]) = true) ∧ ([5121, 5186] : List Nat).Nodup := by
  decide +kernel

/-- HostEvents: an access that translates, one that does not, one whose slice has just taken another, one that is refused, one behind an
access that the link holds, and ones inside and outside each region; a carve-out change that is made and one that waits; a graph under
replay. -/
theorem test_meets_HostEvents :
    (let rd : Acc := { rd := true, size := 8 }
     let full : State := tS.setSlice 0 { tS.sliceAt 0 with recov := true }
     let l : Held := { acc := .host { vf := 0, addr := 0x400000300, size := 8, wr := none } }
     tS.linkHolds 0 = false ∧ ({ tS with held := [l] } : State).linkHolds 0 = true ∧ oneLine 0x400000300 8 = true ∧
       oneLine 0x4000003FC 8 = false ∧ oneLine 0x4000003FF 1 = true ∧
       okAnd (tS.linkReach 0 0x400000300 rd none) (fun r => r.1 == 0) = true ∧ okAnd (tS.linkReach 0 0x400000300 { wr := true, size := 2 } none) (fun r => r.1 == 0) = true ∧
       (match (tS.setSlice 0 { tS.sliceAt 0 with last := some 50 }).linkReach 0 0x400000300 rd none with
         | .error .busy => true
         | _ => false) = true ∧
       errIs (full.linkReach 0 0x400000300 rd none) (.refused 0) = true ∧ errIs (tS.linkReach 0 0x100000000 rd none) (.fails tS) = true) ∧
    (2 : Nat) ^ 32 ≤ 0x400000300 ∧ 0x100 + 8 ≤ (tS.vfAt 0).segn.toNat ∧ (tS.vfAt 0).segb.toNat + 0x100 + 8 ≤ hbmBytes ∧
    (tS.vfAt 0).segn.toNat < 0x1000000000 + 8 ∧ tS.pkg.tierSize < 0x100 + 8 ∧
    (let s := tS.setPkg { tS.pkg with cxl := [[0, 1]] }
     0x100 + 8 ≤ s.pkg.tierSize) ∧
    (let q : HostAcc := { vf := 0, addr := 0x4000003FC, size := 8, wr := none }
     hostParts q = [{ q with size := 4 }, { q with addr := 0x400000400, size := 4 }] ∧ q.addr + q.len ≤ 2 ^ 52 ∧
       errIs ((tS.setSlice 0 { tS.sliceAt 0 with last := some 50 }).linkReach 0 0x4000003FC { rd := true, size := 4 } none) .busy = true) ∧
    ((2 : Nat) ^ 60 ≤ 2 ^ 60 + 0x400000300 ∧ (2 ^ 60 + 0x400000300) % 2 ^ 52 = 0x400000300 ∧ (2 : Nat) ^ 60 * 2 + 8 < 2 ^ 60 * 2 + 64 * 2 ^ 52 ∧
      (2 : Nat) ^ 60 * 3 < 2 ^ 62 ∧ 0x40028 < 0x41000) ∧
    regionOf 0x50000 = none ∧ regionOf 0x48 = some (.window 0 0x48) ∧ (Region.window 0 0x48).takes 4 = false ∧ (Region.window 0 0x48).takes 8 = true ∧
    (tS.queueAt 0 0).head = (tS.queueAt 0 0).tail ∧ (tLch 1).queueAt 0 0 ≠ {} ∧
    ((tLch 1).queueAt 0 0).head ≠ ((tLch 1).queueAt 0 0).tail ∧ (tS.cluAt 0).owner ≠ none ∧ tS.vfOfCore 0 = 0 ∧ (tS.cluAt 1).owner = none ∧
    tVf.carve = [] ∧ tS.carveWaits 0 (tVf.carved false 0x10000) = false ∧
    ((tS.setPkg { tS.pkg with owed := [(0x100000, 0x100001, 3)] }).carveWaits 0 (tVf.carved true 0x2000000000)) = true := by
  decide +kernel

theorem test_meets_HostEvents_graphs :
    (let g : Graph := { base := 0x400000000, count := 2, cur := 1, gens := [] }
     let s := tS.setVf 0 { tVf with gpnum := 7, graphs := [(7, g)] }
     let old : Replay := { graph := 7, gen := 0, top := tLaunch.lrec }
     let r := s.setLaunch { tLaunch with replay := some old }
     (s.graphAt 0 7).count ≠ 0 ∧ (s.vfAt 0).pend = [] ∧ s.patchWaits 0 7 = false ∧ r.patchWaits 0 7 = true ∧ s.replayLive 0 7 = false ∧
       r.replayLive 0 7 = true ∧ (s.vfAt 0).pendFor 7 = false ∧ ({ tVf with pend := [.define 7 g] } : VF).pendFor 7 = true ∧
       goes (exec (.patchTaken 0) (s.modVf 0 (fun v => { v with pend := [.patch 7 5] }))) (fun t => (t.vfAt 0).pend.isEmpty) = true ∧
       goes (exec (.patchTaken 0) (s.modVf 0 (fun v => { v with pend := [.define 7 g] }))) (fun t => (t.vfAt 0).pend.isEmpty) = true) ∧
    (let r : Refused := { op := 3, part := 0, slice := 0, gen := none, permit := false, at_ := 10 }
     let s := { (tOp .store []).modCore 0 (fun k => { k with refu := [r, { r with part := 1, gen := some 0 }] }) with now := 2000 }
     s.holder 3 0 = some 0 ∧ r ∈ (s.coreAt 0).refu ∧ r.at_ + 1024 ≤ s.now ∧ { r with part := 1, gen := some 0 } ∈ (s.coreAt 0).refu ∧
       genReached (s.coreAt 0).mapgen 0 = true ∧
       goes (exec (.noresHoldExpiry 3 0) s) (fun t => t.myCore.refu.map (·.again) == [true, false]) = true ∧
       goes (exec (.genReplay 0) s) (fun t => t.myCore.refu.map (·.again) == [false, true]) = true) ∧
    (let s := tS.setSlice 0 { tS.sliceAt 0 with permits := [0, 16, 1280] }
     (s.sliceAt 0).permits = 0 :: [16, 1280] ∧ (s.sliceAt 0).recov = false ∧ (s.sliceAt 0).full = false ∧
       ((s.setSlice 0 { s.sliceAt 0 with recov := true }).sliceAt 0).recov = true ∧ hostNi ≤ 1280 ∧ devNi ≠ 1280 ∧ hostNi ≤ devNi) ∧
    (let s := fun (p : List Nat) (kept : List (Nat × Nat)) (last : Option Nat) => tS.setSlice 0 { tS.sliceAt 0 with full := true, permits := p, kept, last }
     (s [16] [] (some 50)).slotFree 0 = false ∧ goes (exec (.retryPermit 0) (s [16] [] (some 50))) (fun t => (t.sliceAt 0).permits == [16]) = true ∧ (s [16] [] none).slotFree 0 = true ∧
       goes (exec (.retryPermit 0) (s [16] [] none)) (fun t => (t.sliceAt 0).kept == [(16, 612)] && (t.sliceAt 0).last == some 50) = true ∧
       goes (exec (.retryPermit 0) (s [] [(3, 80)] (some 50))) (fun t => !(t.sliceAt 0).full && (t.sliceAt 0).kept.isEmpty) = true) ∧
    (let s := tS.setPkg { tS.pkg with exports := [(9, 1, 0)], ports := [0] }
     let q : PeerAcc := { pkg := 9, pvf := 1, va := 0x400000300, req := .amo .add 8 1 }
     s.pkg.exports.find? (fun x => x.1 == 9 && x.2.1 == 1) = some (9, 1, 0) ∧ tS.pkg.exports = [] ∧ tS.pkg.ports = [] ∧ s.pkg.ports ≠ [] ∧ s.held = [] ∧
       okAnd (s.linkReach 0 q.va (peerAcc q.req) none) (fun r => r.1 == 0) = true ∧
       ({ s with held := [{ acc := .peer q }] } : State).held.any (fun g => (Outside.peer { q with req := .read 8 }).behind g.acc) = true ∧
       goes (exec (.peerRequest q) s) (fun t => t.peerRd.length == 1 && !(t.sliceAt 0).last.isNone) = true) ∧
    (let s := tS.setPkg { tS.pkg with boot := .stopped 3 }
     s.pkg.boot ≠ .up) ∧
    goes (exec (.registerWindowWrite 0 0x308 5) (tS.setVf 0 { tVf with irqstat := 7 })) (fun t => t.readWindow 0 0x308 == 2) = true := by
  decide +kernel

/-- MaintenanceEvents: no shoot-down and one; a page that may move and one of its lines; page requests not read, asked, and answered, of
a team on the device and of one that is saved. -/
theorem test_meets_MaintenanceEvents :
    tVf.sdRun = none ∧ (tS.sliceAt 0).owner = some 0 ∧ ({ tVf with sdRun := some (0, 1) } : VF).sdRun ≠ none ∧
    (let s := tS.setVf 0 { tVf with mvpage := 0x400000000, mvframe := 0x3000000 }
     let page := (s.vfAt 0).mvpage.toNat / 65536 % 2 ^ 36
     page = 0x40000 ∧ (s.vfAt 0).move = none ∧ okAnd (s.walkRoot 0 (page * 65536)) (fun p => match p with
         | (lvl, e) :: _ => lvl == 2 && decide (fieldOf e 10 2 < 2)
         | [] => false) = true ∧
       okAnd (s.walkRoot 0 (page * 65536)) (fun p => match p with
         | (lvl, e) :: _ => okAnd (useLeaf (s.vfAt 0) (page * 65536) { size := 65536 } e (lvl == 2) []) (fun x => decide (x.tgt < 2) && s.inMemory x 65536)
         | [] => false) = true ∧ s.frameOk 0 0x3000000 = true ∧
       goes (exec (.mvgo 0 1) s) (fun t => match (t.vfAt 0).move with
         | some m =>
             let y : Xlat := { tgt := m.tgt, peer := 0, addr := m.dst + 256 * 3, kind := .rc, path := [] }
             m.lines.contains 0x4000003 && decide (0x4000003 - 256 * m.page = 3 ∧ t.lineOf (physKey y) = none ∧ physKey y ≠ m.src + 2 * 3)
         | none => false) = true) ∧
    (let s := tS.setVf 0 { tVf with segn := 0x2000000, mvpage := 0x400000000, mvframe := 0x1000000 }
     okAnd (s.walkRoot 0 0x400000000) (fun p => match p with
       | (lvl, e) :: _ => (match useLeaf (s.vfAt 0) 0x400000000 { size := 65536 } e (lvl == 2) [] with
         | .ok x => decide (2 ≤ x.tgt) || !(s.inMemory x 65536)
         | .error _ => true)
       | [] => false) = true) ∧
    (let r : PageReq := { wr := false, page := 0x40000, tok := 0, ctx := 0, va := 0x400000300, team := some 2 }
     let s := tS.setVf 0 { tVf with prqs := [r], asked := [r], answers := [r] }
     (s.vfAt 0).prqs = r :: [] ∧ tVf.prqs = [] ∧
       (s.vfAt 0).asked.find? (fun r => r.page % 2 ^ 36 == fieldOf 0x400000000 16 36 && r.tok == fieldOf 0x400000000 0 15) = some r ∧
       s.teams.all (fun x => x.saved.isNone) = true ∧
       (let w := s.setTeam { tTeam with st := .saved, saved := some {} }
        (w.teams.find? (fun t => r.team == some t.id && t.saved.isSome)).isSome = true ∧
          goes (exec (.prans 0 0x400008000) w) (fun t => (t.vfAt 0).asked.isEmpty) = true) ∧
       (s.vfAt 0).answers.find? (fun x => x.page == 0x40000 && x.tok == 0) = some r ∧ r.late = false ∧ s.asker r = true ∧ s.ops = [] ∧ r.void = false ∧ ({ r with void := true } : PageReq).void = true ∧
       ((tOp (.load false) [{ tPart [some 0] with st := .todo }]).ops.any ({ r with ops := [3] } : PageReq).blocked) = true ∧
       (s.ctxAt 0).notes.length < 16 ∧
       16 ≤ ((tMe (fun c => { c with notes := List.replicate 16 { kind := 1, tag := 0, addr := 0 } })).ctxAt 0).notes.length) := by
  decide +kernel

/-- FirmwareEvents: cluster 0 owned, 1 free, 2 of the margin of function 0, 3 lent by it, 4 of function 1; a reset that may end. -/
def tFw : State :=
  { tS with
    clus := [(0, { owner := some 0 }), (2, { owner := some 0, margin := true }), (3, { owner := some 0, margin := true, lentTo := some 1 }),
      (4, { owner := some 1 })]
    vfs := [(0, tVf), (1, { tVf with wasRst := true })] }

theorem test_meets_FirmwareEvents :
    tFw.pkg.boot = .up ∧ tFw.pkg.fwstat ≠ 1 ∧ (tFw.vfAt 0).live = true ∧ (tFw.vfAt 2).live = false ∧ tFw.liveVf 2 = false ∧ tFw.liveVf 0 = true ∧
    (tFw.cluAt 1).owner = none ∧ (tFw.cluAt 1).fenced = false ∧ tFw.teamOn 0 ≠ none ∧ tFw.teamOn 2 = none ∧ (tFw.cluAt 2).lentTo = none ∧
    (tFw.sliceAt 1).owner = none ∧ (tFw.sliceAt 1).fenced = false ∧ tFw.liveVf 1 = true ∧ dieOfClu 4 = dieOfClu 2 ∧
    tFw.teams.all (fun t => decide (t.st ≠ .waiting ∧ t.st ≠ .saved)) = true ∧ (tFw.cluAt 3).lentTo ≠ none ∧
    ((tFw.modClu 3 (fun c => { c with revoke := some 7 })).cluAt 3).revoke ≠ none ∧ tFw.teamOn 3 = none ∧
    (tFw.vfAt 0).wasRst = false ∧ (tFw.vfAt 1).wasRst = true ∧ (tFw.vfAt 1).rst = none ∧
    tFw.launches.all (fun l => l.vf != 1) = true ∧ tFw.clus.all (fun x => decide (x.2.owner = some 1 → x.2.lentTo = none)) = true ∧
    tFw.pkg.nv.leaf < 2 ^ 20 ∧ 2 ^ 20 ≤ ({ leaf := 2 ^ 20 } : NvCopy).leaf ∧
    ((tFw.setVf 1 { tVf with rst := some 90 }).vfAt 1).rst = some 90 ∧ (tFw.vfAt 1).sdRun = none ∧ (tFw.vfAt 1).move = none ∧
    (tFw.cluAt 0).owner = some 0 ∧ ((List.range 80).any (fun k => k != 0 && (tFw.cluAt k).owner == some 0)) = true ∧
    ((List.range 80).any (fun k => k != 4 && (tFw.cluAt k).owner == some 1)) = false ∧ (tFw.sliceAt 1).commons = false ∧
    (tFw.setSlice 2 { commons := true }).sliceAt 2 = { commons := true } ∧ tFw.peerWaits (tFw.clustersOf 1) = false ∧
    (tS.setVf 0 { tVf with newMask := some (0, 1) }).vfAt 0 = { tVf with newMask := some (0, 1) } ∧ State.reset.pkg.boot ≠ .up ∧
    ({ tFw with now := 2 ^ 31 } : State).cyc.toNat % 2 ^ 31 = 0 ∧ tFw.pkg.nv.count < ({ tFw with now := 2 ^ 31 } : State).cyc.toNat := by
  decide +kernel

/-- LateFaults: a load whose page no entry maps, a load and a fetch of a page that is there, and a `vamo` of which one lane has been applied
and one is held. -/
theorem test_meets_LateFaults_steps :
    (let s := tOp (.load false) [{ tPart [some 0] with va := 0x500000000 }]
     (s.partAt 3 0).any (fun (o, p) => s.partReady o 0 p && !(s.heldBehind o 0 p) && p.well.isNone && (match s.reachFor 0 p.va (o.acc p) with
       | .error (some f) => f.cause == 0x0A
       | _ => false)) = true) ∧
    (let s := tOp (.load false) [tPart [some 0]]
     (s.partAt 3 0).any (fun (o, p) => s.partReady o 0 p && !(s.heldBehind o 0 p) && okAnd (s.reachFor 0 p.va (o.acc p)) (fun r =>
       r.2.tgt == 0 && s.slotFree r.1 && s.accepts 0 p.va r.1 (s.resender 0 3 0))) = true) ∧
    (let s := tOp .fetch [tPart [some 0]]
     (s.partAt 3 0).any (fun (o, p) => p.well.isNone && decide (p.st = .todo) && !(s.isRefused 0 3 0) && !(s.heldBehind o 0 p) &&
       okAnd (s.reachFor 0 p.va (o.acc p)) (fun r => r.2.tgt == 0 && s.slotFree r.1 && s.accepts 0 p.va r.1 (s.resender 0 3 0))) = true ∧
     goes (exec (.lateFault 3 0 true) s) (fun t => (t.opAt 3).isNone && t.me.fetchF.any (fun x => x.2.1 == 0x15)) = true) ∧
    (let s := (tOp (.vamo .add) [{ tPart [some 0] with st := .done }, { tPart [some 0] with acc := 1, st := .held, cause := 0x0A }]).modMe
       (fun c => { c with cnt := (1, 0, 0, 0) })
     (s.opAt 3).any (fun o => (o.parts.find? (fun q => q.st == .held && !q.deleg)).isSome &&
       !(o.parts.any (fun q => q.st.pending || (q.st == .held && q.deleg)))) = true ∧ (s.coreAt 0).sleep = .awake ∧
     goes (exec (.vamoLaneFault 3) s) (fun t => t.me.vdone == 1 && t.me.lates.map (·.cause) == [0x0A]) = true) := by
  decide +kernel

/-- ReturnFromTrap: a held access of the context to be performed again beside an operation that has none, at S and at F. -/
theorem test_meets_replay :
    (let st : Status := { late := true, ktrap := true }
     let s := (tOp .store [{ tPart [some 1] with st := .held, cause := 0x0A }]).modMe (fun c => { c with priv := .s, kstat := st })
     let s := s.setOps (s.ops ++ [{ id := 4, ctx := 0, kind := .alu, priv := .u }])
     s.acting 0 = true ∧ s.me.priv = .s ∧ s.me.kstat.late = true ∧ s.opsFresh = true ∧
       s.ops.map (fun o => o.replayable 0) = [true, false] ∧ s.ops.map (·.kind) = [.store, .alu] ∧
       goes (exec (.eret 0) s) (fun t => (t.partAt 3 0).any (fun (_, p) => p.st == .wait || p.st == .todo)) = true ∧
       ((s.modMe (fun c => { c with priv := .f, fstat := st })).me.priv = .f ∧
         (s.modMe (fun c => { c with priv := .f, fstat := st })).me.fstat.late = true)) := by
  decide +kernel

/-- ConversionsIssue: a block with one value of each sign, one of zeros, one with an infinity; a table of one segment; the registers of every
form ready; a scale that is a NaN and one that is not. -/
theorem test_meets_conversions :
    tFp.vecReady [] [1] 3 = true ∧ (0 + 1) * (512 / max (Ty.bf16).width (Ty.f32).width) ≤ 512 / min (Ty.bf16).width (Ty.f32).width ∧
    tFp.fpTraps (tFp.quantised .mxe4m3 false .f32 1 1).2.2 = false ∧ tFp.ready 0 [1] 5 = true ∧ tFp.vecTakes 4 = true ∧
    Ty.f32.vecFp = true ∧ 32 * (0 : BitVec 2).toNat + 32 ≤ 512 / (schemeFmt .mxe4m3).width ∧ tFp.ready 0 [1, 2] 0 = true ∧
    tFp.vecFull [1] = true ∧ tFp.fpTraps ((tFp.dequantised .mxe4m3 false .f32 1 1 2 0).foldl (fun x y => x ||| y.2) 0) = false ∧
    (let vs : List FVal := [.fin false 3 0, .fin true 1 (-2)]
     vs.all (fun v => match v with
       | .fin _ n e => !(geScaled n e 1 (128 + fmtE4M3.emax))
       | _ => false) = true ∧ vs.any (fun v => !v.isZero) = true ∧
     vs.all (fun v => geScaled ((e3m5 255).1 * 6 * 1) ((e3m5 255).2 + 0) v.mag.1 v.mag.2) = true) ∧
    (let vs : List FVal := [.fin false 0 0, .fin true 0 0]
     vs.all (fun v => v.isZero) = true) ∧
    ([FVal.fin false 1 0, .inf true].any (fun v => v.isNan || v.isInf)) = true ∧
    (let g : Seg := { x := 0x3F800000, y := 0x40000000, s := 0x3F800000, u := 0x3F800000 }
     let lo := (rd32 g.x).mag
     geScaled 3 0 lo.1 lo.2 = true ∧ (compand [g] false (.fin false 3 0)).1 = 0x40800000) ∧
    fmt32.read false 0x3FC00000 = .fin false 0xC00000 (-23) ∧
    fmtE2M1.read false (laneOf (tFp.vecVal 1) 4 0) = .fin false 0 (-1) ∧ fmtB16.read false ((tFp.regVal 2).toNat % 65536) = .fin false 7 (-133) := by
  decide +kernel

/-- Monitors: an address above the last page, a late trap, an interrupt, two triggered monitors. -/
theorem test_meets_mwait :
    tS.ready 0 [5] 5 = true ∧ (2 : Nat) ^ 52 ≤ ((2 : Nat) ^ 52) ∧
    (tMe (fun c => { c with lates := [{ cause := 0x0A, val := 0, above := false }] })).lateReady 0 = true ∧
    (tMe (fun c => { c with kipP := 1, kipE := 1 })).lateReady 0 = false ∧ (tMe (fun c => { c with kipP := 1, kipE := 1 })).irqPending 0 = true ∧
    (let s := tMe (fun c => { c with mon := [(0, { used := true, line := 7, trig := true }), (2, { used := true, line := 8, trig := true })] })
     s.lateReady 0 = false ∧ s.irqPending 0 = false ∧ (s.me.mon.map (·.1)).Nodup ∧ s.me.mon.all (fun x => decide (x.1 < 4) && x.2.used && x.2.trig) = true ∧
       goes (exec (.mwait 0 5 1) s) (fun t => (t.me.xReg false 5).val == 0x51) = true) := by
  decide +kernel

/-- SystemInstructions, SliceAtomics: a load that has not arrived, of a page that is not UN; 1.0 and -1.0, the largest and itself, an infinity. -/
theorem test_meets_fence_and_floats :
    (tOp (.load false) [tPart [some 0]]).ops.any (fun o => decide (o.ctx = 0 ∧ o.id < 10) && o.kind.isLoad && !o.arrived && o.parts.any (fun p =>
      decide (tS.kindOf 0 p.va ≠ some .un))) = true ∧
    fmt32.read false 0x3F800000 = .fin false 0x800000 (-23) ∧ amoValue .addF32 4 0x3F800000 0xBF800000 = 0 ∧
    (2 : Nat) ^ (128 + 149) ≤ (0xFFFFFF + 0xFFFFFF) * 2 ^ ((104 : Int) + 149).toNat ∧ amoValue .addF32 4 0x7F7FFFFF 0x7F7FFFFF = 0x7F800000 ∧
    fmt32.read false 0x7F800000 = .inf false ∧ amoValue .addF32 4 0x7F800000 0xFF800000 = fmt32.cnan ∧ (fmt32.read false 0x7FC00000).isNan = true := by
  decide +kernel

/-- Arrivals, TeamEvents, WaitsAndSleep: a fill after its issue at a file that is free, and at one that is not; a store whose access is to be
acknowledged; a port that has served an access in this cycle; a slot in exchange mode; a watchdog's task whose context runs. -/
theorem test_meets_busy_files_and_ports :
    (let s := tOp (.rfill 1 5 7) [{ tPart [] with well := some 0 }]
     (s.opAt 3).any (fun o => decide (o.issued < s.now) && s.fileFree 1 && !o.allDone && !(s.fillBefore o 0)) = true ∧
       (s.modCtx 1 (fun c => { c with rfAt := 101 })).fileFree 1 = false) ∧
    (let s := tOp .store [{ tPart [some 1] with st := .done }]
     (s.opAt 3).any (fun o => !o.toAck.isEmpty && o.acked.isEmpty) = true) ∧
    (tS.coreAt 0).late.contains (.result 3) = false ∧ tS.portFree 3 = true ∧ (tS.usePort 3).portFree 3 = false ∧
    (tS.slotAt 0 4).st = .attached ∧ (tS.slotAt 0 4).exch = true ∧
    (let t := { tTeam with tstate := [(0, .taken 0 50 false)] }
     let s := { (tS.setTeam t).setLaunch { tLaunch with hdr := { tLaunch.hdr with traps := 0x00010040#32 } } with now := 10000000 }
     (s.ctxAt 0).life = .running ∧ Tbl.get .pending t.tstate 0 = .taken 0 50 false ∧ tLaunch.hdr.watchdog = none ∧
       (s.launchAt 1).any (fun l => l.hdr.watchdog.any (fun lim => decide (50 + lim < s.now))) = true ∧
       goes (exec (.watchdogExpiry 2 0) s) (fun t => t.launches.all (·.token) && (t.ctxAt 0).lates.map (·.cause) == [0x14]) = true) := by
  decide +kernel

/-- MaintenanceEvents: the host's link holds nothing of function 0, and an access of it; frames inside and beyond the carve-out, and of a peer. -/
theorem test_meets_links_and_frames :
    (0 : Nat) < 64 ∧ tS.linkHolds 0 = false ∧
    ({ tS with held := [{ acc := .host { vf := 0, addr := 0x400000300, size := 8, wr := none } }] } : State).linkHolds 0 = true ∧
    tS.frameOk 0 0x3000000 = true ∧ tS.frameOk 0 0x1000000000 = false ∧ tS.frameOk 0 0x3000800 = false ∧
    (let s := tS.setVf 0 { tVf with mvpage := 0x400000000, mvframe := 0x3000000 }
     ∃ p, s.walkRoot 0 ((s.vfAt 0).mvpage.toNat / 65536 % 2 ^ 36 * 65536) = .ok p ∧ decide ((s.vfAt 0).move = none) = true) := by
  refine ⟨by decide +kernel, by decide +kernel, by decide +kernel, by decide +kernel, by decide +kernel, by decide +kernel, ?_⟩
  exact exists_of_okAnd (f := fun _ => decide _) (by decide +kernel)

/-- FirmwareEvents, AtReset: a reset of a function of no launch whose end finds a state, the inputs of the starts, and a turn that is not
taken before the start. -/
theorem test_meets_starts_and_resets :
    (let s := tFw.setVf 1 { live := true, rst := some 90 }
     s.peerWaits (s.clustersOf 1) = false ∧ (s.vfAt 1).move.any (fun m => !m.lines.isEmpty) = false ∧ (s.vfAt 1).sdRun = none ∧ (s.vfAt 1).wiped = false ∧
       s.teamsOn 1 = [] ∧ goes (exec (.resetDone 1) s) (fun t => (t.vfAt 1).wiped && (t.vfAt 1).rst == some 90) = true) ∧
    (let s := tFw.setVf 1 { live := true, rst := some 90, wiped := true }
     (s.vfAt 1).queues.all (fun q => q.2.ending.isNone) = true ∧ goes (exec (.resetDone 1) s) (fun t => (t.vfAt 1).wasRst && (t.vfAt 1).rst.isNone) = true ∧
       ({ recs := [], acc := { va := 0, n := 32 } } : Ending).recs = []) ∧
    (let s := tFw.setLaunch { tLaunch with vf := 1 }
     s.launches.filter (fun l => l.vf == 1) = [{ tLaunch with vf := 1 }] ∧ ((s.vfAt 1).queues.map (·.1)).Nodup) ∧
    ((tFw.setTeam { tTeam with st := .stopping 200 }).teams.map (·.st)) = [.stopping 200] ∧
    tFw.linkHolds 0 = false ∧ (tFw.vfAt 0).rst = none ∧ tFw.pkg.nv.leaf < 2 ^ 20 ∧
    goes (exec (.reset 0 1) tFw) (fun t => (t.vfAt 0).rst == some 4196) = true ∧
    (let good : BootInput :=
       { romOk := true, sigOk := true, versOk := true, linksOk := true, itnikOk := true, keyOk := true, scrubOk := true
         stackFails := [0, 1, 3], badSlices := [5], badClusters := [2], badCxl := [], badPorts := [1], pkgid := 9 }
     good.cutAt = none ∧ good.firmware = none ∧ good.stackFails.all (fun n => decide (n ≤ 3)) = true ∧
     goes (exec (.deviceStart { good with scrubOk := false }) State.reset) (fun t => t.pkg.boot == .stopped 11 && t.pkg.fwarg0 == 11) = true ∧
     goes (exec (.deviceStart { good with stackFails := [4] }) State.reset) (fun t => t.pkg.boot == .stopped 3) = true ∧
     goes (exec (.deviceStart { good with cxlSets := [[1, 0]] }) State.reset) (fun t => t.pkg.boot == .up && t.pkg.cxl.take 2 == [[1, 0], [2]]) = true ∧
     ({ good with cutAt := some (0, .inside) } : BootInput).cutAt = some (0, .inside)) ∧
    (let s : State := { tS.setPkg { tS.pkg with boot := .stopped 3 } with agenda := [.issue 0 0] }
     s.pkg.boot = .stopped 3 ∧ s.turn.1.unstarted = false) := by
  decide +kernel

/-- MemSoundStep, AtReset. -/
theorem test_meets_MemSoundStep : tS.memSound = true ∧ goes (step { tS with agenda := [.tick 101] }) (fun t => t.memSound) = true ∧
    ({ State.reset with agenda := [.tick 1] } : State).turn.1.starts = false := by
  decide +kernel

end Sys2Proof.Tests
end

/-! # Encoding, gating and the issue point

Words, their bytes and their fields, back and forth (R76-R92); the gate of the k field (R86); the step at an issue point (R108); the
system instructions (R119-R122, R164). -/

namespace Sys2Proof.Encoding

open Sys2Proof Sys2Proof.Laws

/-! ### Fields and words -/

theorem ofWord_word (r : Raw) : Raw.ofWord r.word = r := by
  obtain ⟨len, major, d, a, b, k, top, minor, c, imm, hi⟩ := r
  simp (disch := omega) only [Raw.ofWord, Raw.word, RoundTrip.part_low, RoundTrip.part_high, RoundTrip.part_all]
  simp only [Nat.reduceAdd, Nat.reduceSub, RoundTrip.part_all]

theorem word_len (r : Raw) : r.word.extractLsb' 0 2 = r.len := congrArg Raw.len (ofWord_word r)

/-! ### Words and bytes -/

theorem length_leBytes (n v : Nat) : (leBytes n v).length = n := by
  induction n generalizing v with
  | zero => rfl
  | succ n ih => simp [leBytes, ih]

theorem leNat_leBytes (n v : Nat) : leNat (leBytes n v) = v % 256 ^ n := by
  induction n generalizing v with
  | zero => simp [leBytes, leNat, Nat.mod_one]
  | succ n ih =>
    rw [leBytes, leNat, ih, BitVec.toNat_ofNat, show 256 ^ (n + 1) = 256 * 256 ^ n from Nat.pow_succ', Nat.mod_mul]

/-- The length code stands in the first byte of a word (R76). -/
theorem instrLen_low_byte (w : BitVec 128) : instrLen (BitVec.ofNat 8 w.toNat) = lenBytes (w.extractLsb' 0 2) := by
  have h : (BitVec.ofNat 8 w.toNat).extractLsb' 0 2 = w.extractLsb' 0 2 := by
    apply BitVec.eq_of_toNat_eq
    simp [BitVec.extractLsb'_toNat]
  rw [instrLen, h]

theorem lenBytes_pos (len : BitVec 2) : 0 < lenBytes len := by
  revert len; decide

theorem decode_append {b : Byte} {bs : List Byte} {i : Instr} (rest : List Byte) (hl : instrLen b = (b :: bs).length)
    (hi : decodeWord (BitVec.ofNat 128 (leNat (b :: bs))) = .ok i) : decode (b :: bs ++ rest) = .ok (i, rest) := by
  have ht : (b :: (bs ++ rest)).take (instrLen b) = b :: bs := by simp [hl]
  simp only [decode, List.cons_append]
  rw [ht, hi, if_neg (by simp [hl])]
  simp [hl]

/-- The bytes of a word that fits its length code are read back as the word (R76). -/
theorem decode_leBytes {w : BitVec 128} {i : Instr} (rest : List Byte)
    (hw : w.toNat < 256 ^ lenBytes (w.extractLsb' 0 2)) (hi : decodeWord w = .ok i) :
    decode (leBytes (lenBytes (w.extractLsb' 0 2)) w.toNat ++ rest) = .ok (i, rest) := by
  have hl := instrLen_low_byte w
  obtain ⟨n, hn⟩ : ∃ n, lenBytes (w.extractLsb' 0 2) = n + 1 := Nat.exists_eq_add_one.mpr (lenBytes_pos _)
  rw [hn] at hw hl ⊢
  refine decode_append rest (hl.trans (length_leBytes _ _).symm) ?_
  change decodeWord (BitVec.ofNat 128 (leNat (leBytes (n + 1) w.toNat))) = _
  rw [leNat_leBytes, Nat.mod_eq_of_lt hw, BitVec.ofNat_toNat, BitVec.setWidth_eq, hi]

/-! ### Lengths of encodings -/

/-- What stands above bit 63 of an encoding fits the length code, and the code is not the fill word's (R76, R82). -/
def FitsLength (r : Raw) : Prop :=
  r.len = 0 ∧ r.hi = 0 ∨ r.len = 1 ∧ r.hi.toNat < 2 ^ 32 ∨ r.len = 2

theorem fitsLength_withImm {r : Raw} (h : r.len = 0) (h' : r.hi = 0) (i : Imm) : FitsLength (r.withImm i) := by
  cases i with
  | i18 v => exact .inl ⟨h, h'⟩
  | i32 v =>
    have hv : (v.setWidth 64).toNat < 2 ^ 32 := by simp; omega
    exact .inr (.inl ⟨rfl, hv⟩)
  | i64 v => exact .inr (.inr rfl)

theorem fitsLength_toRaw {i : Instr} {r : Raw} (h : toRaw i = some r) : FitsLength r := by
  cases i with
  | addImm | subImm | andImm | orImm | xorImm | shlImm | shrImm | sraImm | minImm | maxImm | mulImm | mulhImm | divImm
  | remImm | sltImm | sltuImm | seqImm | sneImm | li | lea | bcc | j | jal | loop | ld | st | vld | vst | vqtab | spawn
  | fork => cases h; exact fitsLength_withImm rfl rfl _
  | bfx k sg => cases sg <;> cases h <;> exact .inl ⟨rfl, rfl⟩
  | wait k tl cp st ld =>
    cases h
    have hlow : (tl ++ (cp ++ (st ++ ld))).toNat < 2 ^ 32 := (tl ++ (cp ++ (st ++ ld))).isLt
    refine .inr (.inl ⟨rfl, ?_⟩)
    rw [BitVec.toNat_append]
    simpa using hlow
  | cpy => cases h; exact .inr (.inr rfl)
  | _ => cases h <;> exact .inl ⟨rfl, rfl⟩

theorem word_toNat (r : Raw) : ∃ low < 2 ^ 64, r.word.toNat = r.hi.toNat * 2 ^ 64 + low := by
  refine ⟨_, (r.imm ++ (r.c ++ (r.minor ++ (r.top ++ (r.k ++ (r.b ++ (r.a ++ (r.d ++ (r.major ++ r.len))))))))).isLt, ?_⟩
  rw [Raw.word, BitVec.toNat_append, ← Nat.shiftLeft_add_eq_or_of_lt (BitVec.isLt _), Nat.shiftLeft_eq]

theorem word_lt {r : Raw} (h : FitsLength r) : r.word.toNat < 256 ^ lenBytes r.len := by
  obtain ⟨low, hlow, hw⟩ := word_toNat r
  have hhi := r.hi.isLt
  rw [hw]
  rcases h with ⟨h, h'⟩ | ⟨h, h'⟩ | h
  · rw [h, h', show lenBytes 0 = 8 from rfl]; simpa using hlow
  · rw [h, show lenBytes 1 = 12 from rfl]; omega
  · rw [h, show lenBytes 2 = 16 from rfl]; omega

theorem len_ne_fill {r : Raw} (h : FitsLength r) : r.len ≠ 3 := by
  rcases h with ⟨h, -⟩ | ⟨h, -⟩ | h <;> rw [h] <;> decide

/-! ### Encoding and decoding -/

/-- Every instruction is read back from its fields; an event and the fill word have none (R81-R92). -/
theorem ofFields_toRaw (i : Instr) : RoundTrip.Statement i := by
  cases i with
  | add => exact RoundTrip.add _ _ _ _ | addImm => exact RoundTrip.addImm _ _ _ _ | sub => exact RoundTrip.sub _ _ _ _
  | subImm => exact RoundTrip.subImm _ _ _ _ | and => exact RoundTrip.and _ _ _ _ | andImm => exact RoundTrip.andImm _ _ _ _
  | or => exact RoundTrip.or _ _ _ _ | orImm => exact RoundTrip.orImm _ _ _ _ | xor => exact RoundTrip.xor _ _ _ _
  | xorImm => exact RoundTrip.xorImm _ _ _ _ | shl => exact RoundTrip.shl _ _ _ _ | shlImm => exact RoundTrip.shlImm _ _ _ _
  | shr => exact RoundTrip.shr _ _ _ _ | shrImm => exact RoundTrip.shrImm _ _ _ _ | sra => exact RoundTrip.sra _ _ _ _
  | sraImm => exact RoundTrip.sraImm _ _ _ _ | min => exact RoundTrip.min _ _ _ _ _ | minImm => exact RoundTrip.minImm _ _ _ _ _
  | max => exact RoundTrip.max _ _ _ _ _ | maxImm => exact RoundTrip.maxImm _ _ _ _ _ | mul => exact RoundTrip.mul _ _ _ _
  | mulImm => exact RoundTrip.mulImm _ _ _ _ | mulh => exact RoundTrip.mulh _ _ _ _ _
  | mulhImm => exact RoundTrip.mulhImm _ _ _ _ _ | div => exact RoundTrip.div _ _ _ _ _
  | divImm => exact RoundTrip.divImm _ _ _ _ _ | rem => exact RoundTrip.rem _ _ _ _ _
  | remImm => exact RoundTrip.remImm _ _ _ _ _ | slt => exact RoundTrip.slt _ _ _ _ | sltImm => exact RoundTrip.sltImm _ _ _ _
  | sltu => exact RoundTrip.sltu _ _ _ _ | sltuImm => exact RoundTrip.sltuImm _ _ _ _ | seq => exact RoundTrip.seq _ _ _ _
  | seqImm => exact RoundTrip.seqImm _ _ _ _ | sne => exact RoundTrip.sne _ _ _ _ | sneImm => exact RoundTrip.sneImm _ _ _ _
  | clz => exact RoundTrip.clz _ _ _ | ctz => exact RoundTrip.ctz _ _ _ | popc => exact RoundTrip.popc _ _ _
  | sext => exact RoundTrip.sext _ _ _ _ | zext => exact RoundTrip.zext _ _ _ _ | bfx => exact RoundTrip.bfx _ _ _ _ _ _
  | bfi => exact RoundTrip.bfi _ _ _ _ _ _ | sel => exact RoundTrip.sel _ _ _ _ _ | li => exact RoundTrip.li _ _ _
  | lea => exact RoundTrip.lea _ _ _ | bcc => exact RoundTrip.bcc _ _ _ _ _ | j => exact RoundTrip.j _ _
  | jal => exact RoundTrip.jal _ _ _ | jr => exact RoundTrip.jr _ _ _ | loop => exact RoundTrip.loop _ _ _
  | ld => exact RoundTrip.ld _ _ _ _ _ _ | st => exact RoundTrip.st _ _ _ _ _ | pf => exact RoundTrip.pf _ _ _
  | wb => exact RoundTrip.wb _ _ _ | inv => exact RoundTrip.inv _ _ _ | trap => exact RoundTrip.trap _ _
  | eret => exact RoundTrip.eret _ | csrr => exact RoundTrip.csrr _ _ _ | csrw => exact RoundTrip.csrw _ _ _ _
  | csrs => exact RoundTrip.csrs _ _ _ _ | csrc => exact RoundTrip.csrc _ _ _ _ | fence => exact RoundTrip.fence _ _ _
  | nop => exact RoundTrip.nop _ | halt => exact RoundTrip.halt _ | brk => exact RoundTrip.brk _ | wfi => exact RoundTrip.wfi _
  | vaddInt => exact RoundTrip.vaddInt _ _ _ _ _ | vaddIntScalar => exact RoundTrip.vaddIntScalar _ _ _ _ _
  | vsubInt => exact RoundTrip.vsubInt _ _ _ _ _ | vsubIntScalar => exact RoundTrip.vsubIntScalar _ _ _ _ _
  | vmulInt => exact RoundTrip.vmulInt _ _ _ _ _ | vmulIntScalar => exact RoundTrip.vmulIntScalar _ _ _ _ _
  | vminInt => exact RoundTrip.vminInt _ _ _ _ _ | vminIntScalar => exact RoundTrip.vminIntScalar _ _ _ _ _
  | vmaxInt => exact RoundTrip.vmaxInt _ _ _ _ _ | vmaxIntScalar => exact RoundTrip.vmaxIntScalar _ _ _ _ _
  | vand => exact RoundTrip.vand _ _ _ _ _ | vandScalar => exact RoundTrip.vandScalar _ _ _ _ _
  | vor => exact RoundTrip.vor _ _ _ _ _ | vorScalar => exact RoundTrip.vorScalar _ _ _ _ _
  | vxor => exact RoundTrip.vxor _ _ _ _ _ | vxorScalar => exact RoundTrip.vxorScalar _ _ _ _ _
  | vshl => exact RoundTrip.vshl _ _ _ _ _ | vshlScalar => exact RoundTrip.vshlScalar _ _ _ _ _
  | vshr => exact RoundTrip.vshr _ _ _ _ _ | vshrScalar => exact RoundTrip.vshrScalar _ _ _ _ _
  | vsra => exact RoundTrip.vsra _ _ _ _ _ | vsraScalar => exact RoundTrip.vsraScalar _ _ _ _ _
  | vaddFp => exact RoundTrip.vaddFp _ _ _ _ _ | vaddFpScalar => exact RoundTrip.vaddFpScalar _ _ _ _ _
  | vsubFp => exact RoundTrip.vsubFp _ _ _ _ _ | vsubFpScalar => exact RoundTrip.vsubFpScalar _ _ _ _ _
  | vmulFp => exact RoundTrip.vmulFp _ _ _ _ _ | vmulFpScalar => exact RoundTrip.vmulFpScalar _ _ _ _ _
  | vminFp => exact RoundTrip.vminFp _ _ _ _ _ | vminFpScalar => exact RoundTrip.vminFpScalar _ _ _ _ _
  | vmaxFp => exact RoundTrip.vmaxFp _ _ _ _ _ | vmaxFpScalar => exact RoundTrip.vmaxFpScalar _ _ _ _ _
  | vdiv => exact RoundTrip.vdiv _ _ _ _ _ | vdivScalar => exact RoundTrip.vdivScalar _ _ _ _ _
  | vfma => exact RoundTrip.vfma _ _ _ _ _ _ | vfms => exact RoundTrip.vfms _ _ _ _ _ _ | vsqrt => exact RoundTrip.vsqrt _ _ _ _
  | vrcp => exact RoundTrip.vrcp _ _ _ _ | vrsq => exact RoundTrip.vrsq _ _ _ _ | vabs => exact RoundTrip.vabs _ _ _ _
  | vneg => exact RoundTrip.vneg _ _ _ _ | vcmp => exact RoundTrip.vcmp _ _ _ _ _ _
  | vcmpScalar => exact RoundTrip.vcmpScalar _ _ _ _ _ _ | vsel => exact RoundTrip.vsel _ _ _ _ _ _
  | vmov => exact RoundTrip.vmov _ _ _ _ | vbcast => exact RoundTrip.vbcast _ _ _ _ | vext => exact RoundTrip.vext _ _ _ _ _ _
  | vins => exact RoundTrip.vins _ _ _ _ _ _ | vperm => exact RoundTrip.vperm _ _ _ _ _ | vred => exact RoundTrip.vred _ _ _ _ _
  | vld => exact RoundTrip.vld _ _ _ _ | vst => exact RoundTrip.vst _ _ _ _ | vlds => exact RoundTrip.vlds _ _ _ _ _
  | vgather => exact RoundTrip.vgather _ _ _ _ _ _ | vscatter => exact RoundTrip.vscatter _ _ _ _ _ _
  | vcvt => exact RoundTrip.vcvt _ _ _ _ _ _ | vq => exact RoundTrip.vq _ _ _ _ _ _ _ _ _
  | vdq => exact RoundTrip.vdq _ _ _ _ _ _ _ _ _ | vcomp => exact RoundTrip.vcomp _ _ _ _ | vqtab => exact RoundTrip.vqtab _ _ _
  | t5pack => exact RoundTrip.t5pack _ _ _ _ | t5unpk => exact RoundTrip.t5unpk _ _ _ _ | spawn => exact RoundTrip.spawn _ _ _ _
  | reap => exact RoundTrip.reap _ _ _ | exit => exact RoundTrip.exit _ _ | arm => exact RoundTrip.arm _ _ _ _
  | disarm => exact RoundTrip.disarm _ _ _ _ | mwait => exact RoundTrip.mwait _ _ _ | fset => exact RoundTrip.fset _ _ _
  | fclr => exact RoundTrip.fclr _ _ _ | rfill => exact RoundTrip.rfill _ _ _ _ _ | gbar => exact RoundTrip.gbar _ _ _ _
  | garrive => exact RoundTrip.garrive _ _ _ | gwait => exact RoundTrip.gwait _ _ _ | gmem => exact RoundTrip.gmem _ _ _
  | tdec => exact RoundTrip.tdec _ _ _ | tnext => exact RoundTrip.tnext _ _ | tdone => exact RoundTrip.tdone _ _ _ _
  | tcancel => exact RoundTrip.tcancel _ _ _ | wpass => exact RoundTrip.wpass _ _ _ _ _ _ | wpoll => exact RoundTrip.wpoll _ _ _
  | wdetach => exact RoundTrip.wdetach _ _ _ | wattach => exact RoundTrip.wattach _ _ _ _ _
  | wrel => exact RoundTrip.wrel _ _ _ _ | wmode => exact RoundTrip.wmode _ _ _ _ | wclr => exact RoundTrip.wclr _ _ _
  | ldv => exact RoundTrip.ldv _ _ _ _ _ | verchk => exact RoundTrip.verchk _ _ | verclr => exact RoundTrip.verclr _
  | cas => exact RoundTrip.cas _ _ _ _ _ _ _ _ | casv => exact RoundTrip.casv _ _ _ _ _ _ _ _
  | amo => exact RoundTrip.amo _ _ _ _ _ _ _ _ | red => exact RoundTrip.red _ _ _ _ _ _ _
  | vamo => exact RoundTrip.vamo _ _ _ _ _ _ _ _ _ | ldAcq => exact RoundTrip.ldAcq _ _ _ _ _
  | stRel => exact RoundTrip.stRel _ _ _ _ _ | cpy => exact RoundTrip.cpy _ _ _ _ _ _ _ | fork => exact RoundTrip.fork _ _ _ _ _
  | rdv => exact RoundTrip.rdv _ _ _ | qfence => exact RoundTrip.qfence _ _ | wait => exact RoundTrip.wait _ _ _ _ _
  | uiret => exact RoundTrip.uiret _ | clw => exact RoundTrip.clw _ _ _ _ _ | cflip => exact RoundTrip.cflip _
  | cpass => exact RoundTrip.cpass _ _ _ _ _ _ | cdrain => exact RoundTrip.cdrain _ _ _ _ _ _
  | cstk => exact RoundTrip.cstk _ _ _ _ | cfmt => exact RoundTrip.cfmt _ _ _ | cstat => exact RoundTrip.cstat _ _
  | xst => exact RoundTrip.xst _ _ _ _ | sopen => exact RoundTrip.sopen _ _ _ _ _ | sclose => exact RoundTrip.sclose _ _ _ _
  | smark => exact RoundTrip.smark _ _ | nred => exact RoundTrip.nred _ _ _ _ _ _ _ | nmc => exact RoundTrip.nmc _ _ _ _ _ _
  | _ => exact fun _ _ h => nomatch h

theorem decodeRaw_toRaw {i : Instr} {r : Raw} (hi : i.wellFormed = true) (h : toRaw i = some r) : decodeRaw r = .ok i := by
  simp [decodeRaw, ofFields_toRaw i hi r h, h, hi]

/-- An encoding is a fill word, or the word of the fields (R78, R81). -/
theorem encodeWord_cases {i : Instr} {w : BitVec 128} (h : encodeWord i = some w) :
    (∃ bits, i = .fillWord bits ∧ w = (bits ++ 3#2).setWidth 128) ∨ ∃ r, toRaw i = some r ∧ w = r.word := by
  unfold encodeWord at h
  split at h
  next bits => exact .inl ⟨bits, rfl, (Option.some.inj h).symm⟩
  next =>
    obtain ⟨r, hr, hw⟩ := Option.map_eq_some_iff.mp h
    exact .inr ⟨r, hr, hw.symm⟩

theorem fillWord_len (bits : BitVec 30) : ((bits ++ 3#2).setWidth 128).extractLsb' 0 2 = 3 := by
  rw [BitVec.extractLsb'_setWidth_of_le (by omega)]
  exact RoundTrip.low_all bits 3#2

theorem decodeWord_fillWord (bits : BitVec 30) : decodeWord ((bits ++ 3#2).setWidth 128) = .ok (.fillWord bits) := by
  have hbits : ((bits ++ 3#2).setWidth 128).extractLsb' 2 30 = bits := by
    rw [BitVec.extractLsb'_setWidth_of_le (by omega)]
    exact RoundTrip.high_all bits 3#2
  rw [decodeWord, if_pos (fillWord_len bits), hbits]

theorem decodeWord_encodeWord {i : Instr} {w : BitVec 128} (hi : i.wellFormed = true) (h : encodeWord i = some w) :
    decodeWord w = .ok i := by
  obtain ⟨bits, rfl, rfl⟩ | ⟨r, hr, rfl⟩ := encodeWord_cases h
  · exact decodeWord_fillWord bits
  · rw [decodeWord, word_len, if_neg (len_ne_fill (fitsLength_toRaw hr)), ofWord_word, decodeRaw_toRaw hi hr]

theorem encodeWord_lt {i : Instr} {w : BitVec 128} (h : encodeWord i = some w) :
    w.toNat < 256 ^ lenBytes (w.extractLsb' 0 2) := by
  obtain ⟨bits, rfl, rfl⟩ | ⟨r, hr, rfl⟩ := encodeWord_cases h
  · have hlt := (bits ++ 3#2).isLt
    rw [fillWord_len, show lenBytes 3 = 4 from rfl, BitVec.toNat_setWidth]
    omega
  · rw [word_len]
    exact word_lt (fitsLength_toRaw hr)

/-- Settles O2: the fields of the word are read back (`ofFields_toRaw`), and the word from its bytes (`decode_leBytes`). -/
theorem decodeEncode : Obligations.DecodeEncode := by
  intro i bs rest hi h
  obtain ⟨w, hw, rfl⟩ := Option.map_eq_some_iff.mp h
  exact decode_leBytes rest (encodeWord_lt hw) (decodeWord_encodeWord hi hw)

theorem leBytes_add (m n v : Nat) : leBytes (m + n) v = leBytes m v ++ leBytes n (v / 256 ^ m) := by
  induction m generalizing v with
  | zero => simp [leBytes]
  | succ m ih => rw [Nat.succ_add, leBytes, ih, leBytes, List.cons_append, Nat.div_div_eq_div_mul, ← Nat.pow_succ']

theorem lenBytes_le (len : BitVec 2) : lenBytes len ≤ 16 := by
  revert len; decide

/-- A row of the table that holds the encoding of a well-formed instruction decodes to it. -/
theorem decodeTableWord_eq {i : Instr} {w : BitVec 128} (nbits x : Nat) (hi : i.wellFormed = true) (h : encodeWord i = some w)
    (hx : x % 2 ^ nbits = w.toNat) : decodeTableWord nbits x = some i := by
  obtain ⟨m, hm⟩ := Nat.exists_eq_add_of_le (lenBytes_le (w.extractLsb' 0 2))
  rw [decodeTableWord, hx, hm, leBytes_add, decode_leBytes _ (encodeWord_lt h) (decodeWord_encodeWord hi h)]

/-- Settles O1: each word is the encoding of its instruction (`decodeTableWord_eq`); the last two set fields that `add` leaves unused. -/
theorem decodeWords : Obligations.DecodeWords := by
  refine ⟨?_, ?_, ?_, ?_, ?_, ?_, ?_, ?_, ?_, ?_, ?_, ?_, ?_, ?_, ?_, ?_, rfl, rfl⟩
  all_goals exact decodeTableWord_eq _ _ rfl rfl rfl

/-! ### What decodes is well formed -/

theorem decodeRaw_wellFormed {r : Raw} {i : Instr} (h : decodeRaw r = .ok i) : i.wellFormed = true := by
  unfold decodeRaw at h
  split at h
  next => cases h
  next =>
    split at h
    next => cases h
    next =>
      split at h
      next hi => cases h; exact hi
      next => cases h

theorem decodeWord_wellFormed {w : BitVec 128} {i : Instr} (h : decodeWord w = .ok i) : i.wellFormed = true := by
  unfold decodeWord at h
  split at h
  next => cases h; rfl
  next => exact decodeRaw_wellFormed h

/-- Where bytes decode, they hold the whole instruction, and it is well formed (R76, R84). -/
theorem decode_ok {bs more : List Byte} {i : Instr} (h : decode bs = .ok (i, more)) :
    instrLen (bs.headD 0) ≤ bs.length ∧ i.wellFormed = true := by
  cases bs with
  | nil => cases h
  | cons b bs =>
    simp only [decode] at h
    split at h
    next => cases h
    next hl =>
      split at h
      next hj =>
        cases h
        exact ⟨Nat.not_lt.mp hl, decodeWord_wellFormed hj⟩
      next => cases h

end Sys2Proof.Encoding

namespace Sys2Proof.Issuing

open Sys2Proof Sys2Proof.Machine Sys2Proof.Encoding

/-! ### The gate of the k field -/

/-- The k field gates what an instruction does; the checks of R86 that come before the gate are those of `mayName`. -/
theorem exec_gated {s : State} {i : Instr} {k : MReg} {len : Nat} (hg : Instr.gate i = some (k, len))
    (hn : s.mayName i = true) : ∃ body, exec i s = s.finish len (s.gated k len body) := by
  cases i
  case spawn | reap | tnext =>
    cases hg
    have hz : ¬(s.tid != 0) = true := by simpa [State.mayName] using hn
    exact ⟨_, congrArg (s.finish _) (if_neg hz)⟩
  case uiret =>
    cases hg
    have hh : ¬(!s.me.inH) = true := by simpa [State.mayName] using hn
    exact ⟨_, congrArg (s.finish _) (if_neg hh)⟩
  all_goals cases hg
  all_goals exact ⟨_, rfl⟩

/-- Settles O8: every gated instruction stands behind the gate (`exec_gated`), and a shut gate only advances the pc. -/
theorem gateShut : Obligations.GateShut := by
  intro s i k len hg hn hk
  obtain ⟨body, hb⟩ := exec_gated hg hn
  rw [hb, s.gated_shut k len body hk, State.finish_ok]

/-! ### Fetch and the issue point -/

theorem decodeAt_ok {pc : Word} {blk : BitVec 256} {i : Instr} {more : List Byte}
    (h : decode ((blockBytes blk).drop (pc.toNat % 32)) = .ok (i, more)) : decodeAt pc blk = .instr i := by
  simp only [decodeAt, if_neg (Nat.not_lt.mpr (decode_ok h).1), h]

theorem decodeAt_error {pc : Word} {blk : BitVec 256} {e : DecErr} {bytes : List Byte}
    (hb : bytes = (blockBytes blk).drop (pc.toNat % 32)) (hl : instrLen (bytes.headD 0) ≤ bytes.length)
    (h : decode bytes = .error e) :
    decodeAt pc blk = .trap 0x01 (BitVec.ofNat 64 (leNat (bytes.take (instrLen (bytes.headD 0))))) (instrLen (bytes.headD 0)) := by
  subst hb
  simp only [decodeAt, if_neg (Nat.not_lt.mpr hl), h]

/-- Fetch of a block that the buffer holds and no synchronisation has made stale (R80, R108). -/
theorem fetch_buffered {v : State} {b : IBlk} (hlo : 2 ^ 32 ≤ v.me.pc.toNat) (hhi : v.me.pc.toNat < 2 ^ 52)
    (hf : v.me.fetchF = none) (hb : v.myCore.ibuf.find? (fun b => b.va == v.me.pc.toNat / 32 * 32) = some b)
    (hs : v.me.sync ≤ b.at_) : v.fetch = (v.modCore v.cid (fun k => k.touch b), decodeAt v.me.pc b.data) := by
  simp only [State.fetch, if_neg (Nat.not_le.mpr hhi), if_neg (Nat.not_lt.mpr hlo), hf, State.fetchBlock, hb, if_pos hs]

theorem irqPending_congr {s t : State} (hc : t.ctxs = s.ctxs) (hn : t.now = s.now) (a : Nat) :
    t.irqPending a = s.irqPending a := by
  have hctx : t.ctxAt a = s.ctxAt a := by rw [State.ctxAt, State.ctxAt, hc]
  have hcyc : t.cyc = s.cyc := congrArg (BitVec.ofNat 64) hn
  rw [State.irqPending, State.irqPending, State.pending, State.pending, hctx, hcyc]

/-- The issue slot goes to the context whose it is (R152). -/
theorem step_issue {s : State} {core tid : Nat} {rest : List Turn} (ha : s.agenda = .issue core tid :: rest)
    (hs : ({ s with agenda := rest } : State).hasSlot (16 * core + tid) = true) :
    step s = follow ({ s with agenda := rest, cur := 16 * core + tid } : State).issuePoint := by
  have hturn : s.turn = (.issue core tid, { s with agenda := rest }) := by
    simp [State.turn, ha, State.linkWaits]
  have hboot : s.pkg.boot = .up := by
    simp only [State.hasSlot, Bool.and_eq_true, beq_iff_eq] at hs
    exact hs.1.1
  simp only [step, hturn, hboot, State.takeTurn, State.giveSlot, if_pos hs]

section
variable {v u : State} (hlate : v.lateReady v.cur = false) (hpost : v.me.post = .none)
include hlate hpost

theorem issuePoint_fillWord {w : BitVec 30} (hf : v.fetch = (u, .instr (.fillWord w))) : v.issuePoint = exec (.fillWord w) u := by
  simp [State.issuePoint, hlate, hpost, hf]

theorem issuePoint_instr {i : Instr} (hf : v.fetch = (u, .instr i)) (hi : ∀ w, i ≠ .fillWord w) :
    v.issuePoint = noteDue v.cur (if u.endsAtOnce i (exec i u) then exec i u else u.orBetween (exec i u)) := by
  simp only [State.issuePoint, hlate, hpost, hf]
  cases i with
  | fillWord w => exact absurd rfl (hi w)
  | _ => rfl

theorem issuePoint_trap {cause len : Nat} {val : Word} (hf : v.fetch = (u, .trap cause val len)) :
    v.issuePoint = .next (u.trapsWith cause val len) := by
  simp [State.issuePoint, hlate, hpost, hf, State.trapsWith]

end

theorem orBetween_quiet {u : State} (r : Out1) (h : u.between = none) : u.orBetween r = r := by
  cases r with
  | next t => simp [State.orBetween, h]
  | fault | refused => rfl

theorem orBetween_trapped {u t : State} (h : t.last = .trapped) : u.orBetween (.next t) = .next t := by
  simp [State.orBetween, h]

theorem noteDue_trapped {a : Nat} {t : State} (h : t.last = .trapped) : noteDue a (.next t) = .next t := by
  simp [noteDue, h]

theorem between_none {u : State} (hirq : u.irqPending u.cur = false) (hn : u.me.notes = []) : u.between = none := by
  simp [State.between, hirq, State.noticeEntry, hn]

/-- Settles O3: the slot comes to an issue point (`step_issue`), fetch gives what the buffered block decodes to
(`fetch_buffered`, `decodeAt_ok`, `decodeAt_error`), and neither an interrupt nor a notice comes between where none stands
(`between_none`) or where the instruction traps (`orBetween_trapped`). -/
theorem stepRunsDecoded : Obligations.StepRunsDecoded := by
  intro s core tid rest b a c u bytes ha hslot hlate hpost hlo hhi halign hfetch hbuf hsync
  let v : State := { s with agenda := rest, cur := a }
  have hstep : step s = follow v.issuePoint := step_issue ha hslot
  have hf : v.fetch = (u, decodeAt c.pc b.data) := fetch_buffered (v := v) hlo hhi hfetch hbuf hsync
  have hlate' : v.lateReady v.cur = false := hlate
  have hpost' : v.me.post = .none := hpost
  refine ⟨fun i more hd => ?_, fun e hl he => ?_⟩
  · rw [decodeAt_ok hd] at hf
    have hfill : ∀ w, i = .fillWord w → step s = follow (exec i u) := by
      rintro w rfl
      rw [hstep, issuePoint_fillWord hlate' hpost' hf]
    refine ⟨(decode_ok hd).2, hfill, fun hi hirq hn => ?_, fun t ht hl => ?_⟩
    · have hirq' : u.irqPending u.cur = false := (irqPending_congr rfl rfl a).trans hirq
      have hn' : u.me.notes = [] := hn
      rw [hstep, issuePoint_instr hlate' hpost' hf hi, orBetween_quiet _ (between_none hirq' hn'), ite_self]
    · by_cases hi : ∃ w, i = .fillWord w
      · obtain ⟨w, hw⟩ := hi
        exact hfill w hw
      · rw [hstep, issuePoint_instr hlate' hpost' hf (not_exists.mp hi), ht, orBetween_trapped hl, ite_self,
          noteDue_trapped hl]
  · rw [decodeAt_error rfl hl he] at hf
    rw [hstep, issuePoint_trap hlate' hpost' hf]

end Sys2Proof.Issuing

namespace Sys2Proof.SystemGroup

open Sys2Proof Sys2Proof.Machine

section
variable (s : State)

/-- Whatever an update of the acting context leaves, popping the sources leaves (R19). -/
theorem popSrc_keeps {α : Type} (g : State → α) (hg : ∀ (s : State) f, g (s.modMe f) = g s) (ns : List SReg) :
    g (s.popSrc ns) = g s := by
  unfold State.popSrc
  generalize [56, 57, 58, 59] = qs
  induction qs generalizing s with
  | nil => rfl
  | cons q qs ih =>
    rw [List.foldl_cons, ih]
    split
    · exact hg s _
    · rfl

@[simp] theorem popSrc_cur (ns : List SReg) : (s.popSrc ns).cur = s.cur := popSrc_keeps s State.cur (fun _ _ => rfl) ns
@[simp] theorem popSrc_mem (ns : List SReg) : (s.popSrc ns).mem = s.mem := popSrc_keeps s State.mem (fun _ _ => rfl) ns
@[simp] theorem popSrc_ops (ns : List SReg) : (s.popSrc ns).ops = s.ops := popSrc_keeps s State.ops (fun _ _ => rfl) ns

@[simp] theorem retire_cur (len : Nat) : (s.retire len).cur = s.cur := rfl
@[simp] theorem retire_mem (len : Nat) : (s.retire len).mem = s.mem := rfl
@[simp] theorem retire_ops (len : Nat) : (s.retire len).ops = s.ops := rfl
@[simp] theorem endCtx_cur (a : Nat) (v : Word) : (s.endCtx a v).cur = s.cur := rfl
@[simp] theorem endCtx_mem (a : Nat) (v : Word) : (s.endCtx a v).mem = s.mem := rfl
@[simp] theorem endCtx_ops (a : Nat) (v : Word) : (s.endCtx a v).ops = s.ops := rfl

/-- A context that ends itself keeps the value of its end (R121, R150). -/
theorem me_endCtx {a : Nat} (ha : a = s.cur) (v : Word) :
    (s.endCtx a v).me = { s.me with life := .ended, exitv := v, parked := none, post := .none } := by
  rw [State.me, endCtx_cur, ← ha, State.endCtx, State.ctxAt_modCore, State.ctxAt_modCtx_same, State.me, ← ha]

theorem drained_ok (hld : s.me.count .ld = 0) (hst : s.me.count .st = 0) : s.drained = .ok () := by
  simp [State.drained, hld, hst]

/-- Nothing of the context is on its way (R119): every scope is reached. -/
theorem orderedTo_quiet {a : Nat} (before : Nat) (sc : Scope) (un : Bool) (ho : ∀ o ∈ s.ops, o.ctx ≠ a)
    (hs : ∀ x ∈ (s.ctxAt a).seen, (∀ e ∈ s.sb, e.id ≠ x.1) ∧ s.farOut x = false) : s.orderedTo a before sc un = true := by
  rw [State.orderedTo, Bool.and_eq_true]
  refine ⟨List.all_eq_true.mpr fun o hmem => by simp [ho o hmem], List.all_eq_true.mpr fun x hx => ?_⟩
  obtain ⟨hsb, hfar⟩ := hs x hx
  have hnone : s.sb.find? (fun e => e.id == x.1) = none := by simpa [List.find?_eq_none] using hsb
  simp [hnone, hfar]

theorem isStore_of_isLoad {kd : OpKind} (h : kd.isLoad = true) : kd.isStore = false := by
  cases kd with
  | store | wb | inv => cases h
  | _ => rfl

/-- A load that has not arrived, of a page that the wait does not leave out, holds back every scope (R119, R256, R260). -/
theorem opReached_load {o : Op} (sc : Scope) (un : Bool) (hl : o.kind.isLoad = true) (ha : o.arrived = false)
    (hp : ∃ p ∈ o.parts, p.well.isSome = true ∨ s.kindOf (o.ctx / 16) p.va ≠ some .un) : s.opReached o sc un = false := by
  obtain ⟨p, hmem, hp⟩ := hp
  have hout : s.leftOut (o.ctx / 16) un p = false := by
    rcases hp with hp | hp
    · obtain ⟨w, hw⟩ := Option.isSome_iff_exists.mp hp
      simp [State.leftOut, hw]
    · simp [State.leftOut, hp]
  have hall : o.parts.all (s.leftOut (o.ctx / 16) un) = false := List.all_eq_false.mpr ⟨p, hmem, by simp [hout]⟩
  simp [State.opReached, isStore_of_isLoad hl, hl, ha, hall]

theorem orderedTo_load {o : Op} {before : Nat} (sc : Scope) (un : Bool) (hmem : o ∈ s.ops) (hid : o.id < before)
    (ho : s.opReached o sc un = false) : s.orderedTo o.ctx before sc un = false := by
  rw [State.orderedTo, Bool.and_eq_false_iff]
  exact .inl (List.all_eq_false.mpr ⟨o, hmem, by simp [ho, hid]⟩)

section
variable {k : MReg} (hk : s.acting k = true)
include hk

theorem exec_fence (sc : Scope) (un : Bool) : exec (.fence k sc un) s = s.finish 8 (
    if s.orderedTo s.cur s.nid sc un then
      .ok ((if sc == .sys then s.modMe (fun c => { c with sync := s.now + 1 }) else s).retire 8)
    else .error (.park .own)) :=
  congrArg (s.finish 8) (s.gated_acting k 8 _ hk)

theorem exec_wfi : exec (.wfi k) s = s.finish 8 (
    if s.irqPending s.cur || s.lateReady s.cur then .ok (s.retire 8)
    else .ok ((s.retire 8).modMe (fun c => { c with post := .wfi }))) :=
  congrArg (s.finish 8) (s.gated_acting k 8 _ hk)

theorem exec_nop : exec (.nop k) s = .next (s.retire 8) :=
  congrArg (s.finish 8) (s.gated_acting k 8 _ hk)

theorem exec_trap (imm : BitVec 18) : exec (.trap k imm) s =
    .next ((s.takeTrap 0x13 (imm.signExtend 64) (s.me.pc + 8) false false).endedPast 8) :=
  congrArg (s.finish 8) (s.gated_acting k 8 _ hk)

theorem exec_brk : exec (.brk k) s = .next (s.trapsWith 0x12 0 8) :=
  congrArg (s.finish 8) (s.gated_acting k 8 _ hk)

theorem exec_halt (hd : s.drained = .ok ()) : exec (.halt k) s = .next ((s.retire 8).endCtx s.cur 0) := by
  change s.finish 8 (s.gated k 8 _) = _
  rw [s.gated_acting k 8 _ hk, hd]
  rfl

theorem exec_exit {a : SReg} (ha : s.allFull [a] = true) (hd : s.drained = .ok ()) : exec (.exit k a) s =
    .next ((((s.popSrc [a]).retire 8).endCtx s.cur (s.regVal a)).modMe (fun c => { c with mon := [] })) := by
  change s.finish 8 (s.gated k 8 _) = _
  rw [s.gated_acting k 8 _ hk, s.needSrc_ok _ ha, hd]
  rfl
end
end

/-- Settles O26: behind an open gate each instruction is its own body; a fence asks `orderedTo`, which holds where nothing is on its
way (`orderedTo_quiet`) and fails while a load is (`orderedTo_load`); `halt` and `exit` end their own context (`me_endCtx`). -/
theorem systemInstructions : Obligations.SystemInstructions := by
  refine ⟨fun s k a sc un hk => ?_, fun s k imm hk => ⟨exec_trap s hk imm, exec_brk s hk⟩⟩
  refine ⟨exec_nop s hk, fun w => rfl, fun ⟨ho, hs⟩ => ?_, ?_, fun hld hst => ?_, fun hirq hlate => ?_, fun h => ?_⟩
  · rw [exec_fence s hk, if_pos (orderedTo_quiet s s.nid sc un ho hs)]
    simp
  · rintro ⟨o, hmem, hctx, hid, hl, harr, hp⟩
    have hreach := opReached_load s sc un hl harr (by rw [hctx]; exact hp)
    have hord := orderedTo_load s sc un hmem hid hreach
    rw [hctx] at hord
    rw [exec_fence s hk, hord]
    rfl
  · have hd := drained_ok s hld hst
    refine ⟨⟨_, exec_halt s hk hd, ?_⟩, fun ha => ⟨_, exec_exit s hk ha hd, ?_⟩⟩
    · simp [me_endCtx (s.retire 8) (retire_cur s 8).symm]
    · simp [me_endCtx ((s.popSrc [a]).retire 8) (a := s.cur) (by simp)]
  · rw [exec_wfi s hk, hirq, hlate]
    rfl
  · rw [exec_wfi s hk, if_pos (by simpa using h)]
    rfl

end Sys2Proof.SystemGroup

/-! # The barrel core

Starting and ending contexts (R162, R163), the request of an `arm` (R166), full/empty bits and remote fills (R169, R170). -/

namespace Sys2Proof.BarrelCore

open Sys2Proof Sys2Proof.Machine Sys2Proof.SystemGroup

/-! ### The ways of a register write -/

/-- A write of a scalar register is none, one of an `x` register, of a `c` register, or a push (R46). -/
theorem writeReg_cases (s : State) {P : State → Prop} (d : Nat) (v : Word) (hnone : P s)
    (hx : P (s.modMe (fun c => (c.setX c.inH d { val := v }).usesFile s.now))) (hc : ∀ f, P (s.modCore s.cid f))
    (hpush : P (s.modMe (fun c => { c.modOut (d - 56) (fun w => w ++ [v]) with pushes := c.pushes ++ [d - 56] }))) :
    P (s.writeReg d v) := by
  unfold State.writeReg
  split
  · exact hnone
  · split
    · exact hx
    · split
      · exact hc _
      · split
        · exact hpush
        · exact hnone

/-- A scalar register that is marked empty is none, an `x` register, or a `c` register (R46). -/
theorem markEmpty_cases (s : State) {P : State → Prop} (d : Nat) (hnone : P s)
    (hx : ∀ r : Ctx → Reg, P (s.modMe (fun c => c.setX c.inH d (r c)))) (hc : ∀ f, P (s.modCore s.cid f)) :
    P (s.markEmpty d) := by
  unfold State.markEmpty
  split
  · exact hnone
  · split
    · exact hx (fun c => { c.xReg c.inH d with full := false, pend := true })
    · split
      · exact hc _
      · exact hnone

/-! ### The acting context and the others -/

/-- Between two states of an issue the memory and every context but the acting one are as they were. -/
structure ActsAlone (s t : State) : Prop where
  mem : t.mem = s.mem
  cur : t.cur = s.cur
  others : s.othersSame t

namespace ActsAlone

theorem refl (s : State) : ActsAlone s s := ⟨rfl, rfl, fun _ _ => rfl⟩

theorem trans {s t u : State} (h : ActsAlone s t) (h' : ActsAlone t u) : ActsAlone s u :=
  ⟨h'.mem.trans h.mem, h'.cur.trans h.cur, fun a ha => (h'.others a (h.cur ▸ ha)).trans (h.others a ha)⟩

theorem modMe (s : State) (f : Ctx → Ctx) : ActsAlone s (s.modMe f) := ⟨rfl, rfl, fun _ ha => s.ctxAt_modMe_ne f ha⟩

theorem modCore (s : State) (k : Nat) (f : Core → Core) : ActsAlone s (s.modCore k f) := ⟨rfl, rfl, fun _ _ => rfl⟩

theorem useSlot (s : State) : ActsAlone s s.useSlot := by
  unfold State.useSlot
  exact (modCore s _ _).trans (modMe _ _)

theorem retire (s : State) (len : Nat) : ActsAlone s (s.retire len) := by
  obtain ⟨hmem, hcur, hothers⟩ := (modMe s (fun c => { c with pc := c.pc + BitVec.ofNat 64 len })).trans (useSlot _)
  exact ⟨hmem, hcur, hothers⟩

theorem writeReg (s : State) (d : Nat) (v : Word) : ActsAlone s (s.writeReg d v) :=
  writeReg_cases s d v (refl s) (modMe s _) (modCore s _) (modMe s _)

theorem markEmpty (s : State) (d : Nat) : ActsAlone s (s.markEmpty d) :=
  markEmpty_cases s d (refl s) (fun _ => modMe s _) (modCore s _)

end ActsAlone

section
variable (s : State)

/-- What holds before the sources are popped, and is kept as one queue loses its oldest word, holds behind the pops (R19). -/
theorem popSrc_induction {P : State → Prop} (hs : P s)
    (hpop : ∀ u q, P u → P (u.modMe (fun c => c.modIn q (fun w => w.drop 1)))) (ns : List SReg) : P (s.popSrc ns) := by
  unfold State.popSrc
  generalize [56, 57, 58, 59] = qs
  induction qs generalizing s with
  | nil => exact hs
  | cons q qs ih =>
    rw [List.foldl_cons]
    refine ih _ ?_
    split
    · exact hpop _ _ hs
    · exact hs

theorem ActsAlone.popSrc (ns : List SReg) : ActsAlone s (s.popSrc ns) :=
  popSrc_induction s (.refl s) (fun _ _ h => h.trans (.modMe _ _)) ns

/-- Popping the sources changes the input queues of the acting context and nothing else of it (R19). -/
theorem me_popSrc (ns : List SReg) : ∃ q, (s.popSrc ns).me = { s.me with qin := q } := by
  refine popSrc_induction s (P := fun u => ∃ q, u.me = { s.me with qin := q }) ⟨_, rfl⟩ (fun u q h => ?_) ns
  obtain ⟨p, hp⟩ := h
  exact ⟨_, by rw [State.me_modMe, hp]; rfl⟩

@[simp] theorem retire_last (len : Nat) : (s.retire len).last = .issued := rfl

theorem me_retire (len : Nat) : (s.retire len).me =
    { s.me with pc := s.me.pc + BitVec.ofNat 64 len, lastAt := some s.now, parked := none } := by
  change ((s.modMe _).useSlot).me = _
  simp [State.useSlot]

@[simp] theorem retire_pc (len : Nat) : (s.retire len).me.pc = s.me.pc + BitVec.ofNat 64 len := by rw [me_retire]
@[simp] theorem retire_xReg (len : Nat) (b : Bool) (n : Nat) : (s.retire len).me.xReg b n = s.me.xReg b n := by
  rw [me_retire]; rfl
@[simp] theorem retire_v (len : Nat) : (s.retire len).me.v = s.me.v := by rw [me_retire]
@[simp] theorem retire_x (len : Nat) : (s.retire len).me.x = s.me.x := by rw [me_retire]
@[simp] theorem retire_count (len : Nat) (k : Cls) : (s.retire len).me.count k = s.me.count k := by
  rw [me_retire]; cases k <;> rfl

@[simp] theorem xReg_setX_same (c : Ctx) (b : Bool) (n : Nat) (r : Reg) : (c.setX b n r).xReg b n = r := by
  unfold Ctx.setX Ctx.xReg
  split <;> simp

theorem xReg_setX_ne (c : Ctx) (b b' : Bool) {n m : Nat} (r : Reg) (h : m ≠ n) : (c.setX b n r).xReg b' m = c.xReg b' m := by
  unfold Ctx.setX Ctx.xReg
  cases b && decide (40 ≤ n) <;> simp [Tbl.get_set_ne _ _ _ h]

@[simp] theorem setX_v (c : Ctx) (b : Bool) (n : Nat) (r : Reg) : (c.setX b n r).v = c.v := by
  unfold Ctx.setX; split <;> rfl
@[simp] theorem setX_pc (c : Ctx) (b : Bool) (n : Nat) (r : Reg) : (c.setX b n r).pc = c.pc := by
  unfold Ctx.setX; split <;> rfl
@[simp] theorem setX_cnt (c : Ctx) (b : Bool) (n : Nat) (r : Reg) : (c.setX b n r).cnt = c.cnt := by
  unfold Ctx.setX; split <;> rfl

@[simp] theorem writeReg_pc (d : Nat) (v : Word) : (s.writeReg d v).me.pc = s.me.pc := by
  refine writeReg_cases s (P := fun u => u.me.pc = s.me.pc) d v rfl ?_ (fun _ => rfl) ?_
  · rw [State.me_modMe, Ctx.usesFile, setX_pc]
  · rw [State.me_modMe, Ctx.modOut]

@[simp] theorem writeReg_xReg_same {d : Nat} (v : Word) (h0 : 0 < d) (h48 : d < 48) :
    (s.writeReg d v).me.xReg s.me.inH d = { val := v } := by
  rw [State.writeReg, if_neg (Nat.ne_of_gt h0), if_pos h48, State.me_modMe]
  exact xReg_setX_same _ _ _ _

@[simp] theorem markEmpty_ops (d : Nat) : (s.markEmpty d).ops = s.ops :=
  markEmpty_cases s (P := fun u => u.ops = s.ops) d rfl (fun _ => rfl) (fun _ => rfl)
@[simp] theorem markEmpty_nid (d : Nat) : (s.markEmpty d).nid = s.nid :=
  markEmpty_cases s (P := fun u => u.nid = s.nid) d rfl (fun _ => rfl) (fun _ => rfl)
@[simp] theorem markEmpty_cnt (d : Nat) : (s.markEmpty d).me.cnt = s.me.cnt :=
  markEmpty_cases s (P := fun u => u.me.cnt = s.me.cnt) d rfl (fun r => by rw [State.me_modMe, setX_cnt]) (fun _ => rfl)

@[simp] theorem popSrc_nid (ns : List SReg) : (s.popSrc ns).nid = s.nid := popSrc_keeps s State.nid (fun _ _ => rfl) ns

end

/-! ### Operations that enter the machine -/

section
variable (s : State)

/-- A new operation as it enters the machine: numbered, dated, each part with the number of its issue (R45, R259). -/
def launched (o : Op) (due : Nat) : Op :=
  let ps := o.parts.map (fun p => { p with seq := s.nid })
  { o with id := s.nid, issued := s.now, due, parts := if o.kind.isMem then waitTurns ps else ps }

/-- An operation without store entries that counts on a class enters the machine (R251, R286). -/
theorem launchOp_counted {o : Op} {c : Cls} (n due : Nat) (hc : o.kind.cls = some c) (hs : o.kind.isStore = false) :
    s.launchOp o n due = { s.bumpId.countUp o.ctx c n with ops := s.ops ++ [launched s o due] } := by
  simp only [State.launchOp, hc, hs, Bool.false_and, if_neg Bool.false_ne_true]
  rfl

theorem mem_waitTurns_seq {ps : List Part} {m : Nat} (h : ∀ p ∈ ps, p.seq = m) : ∀ p ∈ waitTurns ps, p.seq = m := by
  intro p hp
  obtain ⟨⟨q, i⟩, hq, rfl⟩ := List.mem_map.mp hp
  have hseq := h q (List.fst_mem_of_mem_zipIdx hq)
  dsimp only
  split <;> exact hseq

/-- Every part of a new operation bears the number of its issue (R45). -/
theorem launched_seq {o : Op} {due : Nat} : ∀ p ∈ (launched s o due).parts, p.seq = s.nid := by
  have hmap : ∀ p ∈ o.parts.map (fun p => { p with seq := s.nid }), p.seq = s.nid := by simp
  unfold launched
  dsimp only
  split
  · exact mem_waitTurns_seq hmap
  · exact hmap

section
variable {s} {o : Op} {c : Cls} (n due : Nat) (ho : o.ctx = s.cur) (hc : o.kind.cls = some c) (hs : o.kind.isStore = false)
include ho hc hs

theorem ActsAlone.launchOp : ActsAlone s (s.launchOp o n due) := by
  rw [launchOp_counted s n due hc hs, ho]
  exact ⟨rfl, rfl, (ActsAlone.modMe s (fun x => x.withCount c (x.count c + n))).others⟩

theorem me_launchOp : (s.launchOp o n due).me = s.me.withCount c (s.me.count c + n) := by
  rw [launchOp_counted s n due hc hs, ho]
  exact s.me_modMe (fun x => x.withCount c (x.count c + n))

end

theorem count_congr {c e : Ctx} (h : e.cnt = c.cnt) (k : Cls) : e.count k = c.count k := by
  cases k <;> simp [Ctx.count, h]

@[simp] theorem count_withCount (c : Ctx) (k : Cls) (n : Nat) : (c.withCount k n).count k = n := by cases k <;> rfl

end

/-! ### Starting and ending contexts (R162, R163) -/

section
variable (s : State)

theorem ready_parts {k : MReg} {ns : List SReg} {d : Nat} (h : s.ready k ns d = true) :
    s.acting k = true ∧ s.needSrc ns = .ok () ∧ s.needDst d = .ok () := by
  obtain ⟨hk, hs, hd⟩ := (s.ready_iff k ns d).mp h
  exact ⟨hk, s.needSrc_ok ns hs, s.needDst_ok d hd⟩

/-- The context that a `spawn` starts (R20, R162). -/
def spawnCtx (imm : Imm) : Ctx :=
  let c := s.freshCtx s.cid (s.target imm &&& ~~~3#64)
  { c with
    ktr := { c.ktr with vec := s.me.ktr.vec }
    uvec := s.me.uvec, uirqv := s.me.uirqv, kipE := s.me.kipE, holdTo := s.now + 3, sync := s.now }

/-- The effect of a `spawn` that starts context `t`, before it answers (R162). -/
def spawned (a : SReg) (imm : Imm) (t : Nat) : State := ((s.popSrc [a]).orphan t).setCtx t (spawnCtx s imm)

theorem exec_spawn_refused {k : MReg} {d a : SReg} {imm : Imm} (ht : s.tid ≠ 0) :
    exec (.spawn k d a imm) s = .next (s.trapsWith 0x01 (lowBits (encodeWord (.spawn k d a imm))) imm.bytes) :=
  congrArg (s.finish imm.bytes) (if_pos (bne_iff_ne.mpr ht))

theorem exec_reap_refused {k : MReg} {d a : SReg} (ht : s.tid ≠ 0) :
    exec (.reap k d a) s = .next (s.trapsWith 0x01 (lowBits (encodeWord (.reap k d a))) 8) :=
  congrArg (s.finish 8) (if_pos (bne_iff_ne.mpr ht))

/-- The initial `fpcsr` holds traps in its enables alone: its mode and its flags are 0 (R20, R32). -/
theorem fpcsrInit_low (traps : BitVec 32) : (fpcsrInit traps).extractLsb' 0 8 = 0 := by
  ext i hi
  simp [fpcsrInit, show i < 16 by omega, hi]

/-- What an instruction that writes `d` at its issue leaves (R77, R86): it issues, the pc is behind it, `d` holds the value. -/
theorem answer_ends {u : State} {q : Tbl Port} (hu : u.me = { s.me with qin := q }) (d : Nat) (v : Word) (len : Nat) :
    let w := (u.writeReg d v).retire len
    w.last = .issued ∧ w.me.pc = s.me.pc + BitVec.ofNat 64 len ∧ w.mem = u.mem ∧
      (0 < d → d < 48 → w.me.xReg s.me.inH d = { val := v }) := by
  have hinH : s.me.inH = u.me.inH := by rw [hu]
  refine ⟨rfl, by simp [hu], (ActsAlone.writeReg u d v).mem, fun h0 h48 => ?_⟩
  rw [hinH, retire_xReg, writeReg_xReg_same u v h0 h48]

theorem answer_others {u : State} (d : Nat) (v : Word) (len : Nat) {t : Nat} (ht : t ≠ u.cur) :
    ((u.writeReg d v).retire len).ctxAt t = u.ctxAt t :=
  ((ActsAlone.writeReg u d v).trans (.retire _ len)).others t ht

/-- Where another context changes, the acting one is what it was. -/
theorem me_setCtx_ne {t : Nat} (c : Ctx) (ht : t ≠ s.cur) : (s.setCtx t c).me = s.me := by
  rw [State.me, State.setCtx_cur, s.ctxAt_setCtx, if_neg (Ne.symm ht), State.me]

section
variable {k : MReg} {d a : SReg} {n t : Nat} (htid : s.tid = 0) (hr : s.ready k [a] d.val = true)
  (hn : n = (s.regVal a).toNat) (ht : t = 16 * s.cid + n)
include htid ht

/-- Context 0 names by a number from 1 to 15 a context other than itself (R170). -/
theorem target_ne_cur (h0 : 0 < n) : t ≠ s.cur := by
  unfold State.tid at htid
  unfold State.cid at ht
  omega

include hr hn

/-- A `spawn` that completes answers RANGE, BUSY, or starts the context and answers 0 (R162). -/
theorem exec_spawn (imm : Imm) : exec (.spawn k d a imm) s = .next (
    if n = 0 ∨ 16 ≤ n ∨ (s.hdrOf s.cid).contexts ≤ n then ((s.popSrc [a]).writeReg d.val 2).retire imm.bytes
    else if (s.ctxAt t).life ≠ .free then ((s.popSrc [a]).writeReg d.val 1).retire imm.bytes
    else ((spawned s a imm t).writeReg d.val 0).retire imm.bytes) := by
  obtain ⟨hk, hs, hd⟩ := ready_parts s hr
  change s.finish imm.bytes (if s.tid != 0 then _ else s.gated k imm.bytes _) = _
  rw [if_neg (by simp [htid]), s.gated_acting k _ _ hk, hs, hd]
  simp only [bind, Except.bind, Bool.or_eq_true, decide_eq_true_eq, bne_iff_ne, or_assoc, ← hn, ← ht]
  split
  · rfl
  · split <;> rfl

/-- A `reap` traps, waits, or frees the context and answers its exit value (R163). -/
theorem exec_reap : exec (.reap k d a) s = .next (
    if n = 0 ∨ 16 ≤ n ∨ (s.ctxAt t).life = .free then s.trapsWith 0x01 (lowBits (encodeWord (.reap k d a))) 8
    else if (s.ctxAt t).life = .running then s.park .own
    else (((s.popSrc [a]).setCtx t { s.ctxAt t with life := .free }).writeReg d.val (s.ctxAt t).exitv).retire 8) := by
  obtain ⟨hk, hs, hd⟩ := ready_parts s hr
  change s.finish 8 (if s.tid != 0 then _ else s.gated k 8 _) = _
  rw [if_neg (by simp [htid]), s.gated_acting k _ _ hk, hs, hd]
  simp only [bind, Except.bind, Bool.or_eq_true, decide_eq_true_eq, beq_iff_eq, or_assoc, ← hn, ← ht]
  split
  · rfl
  · split <;> rfl

theorem spawn_starts {imm : Imm} (h0 : 0 < n) (h16 : n < 16) (hc : n < (s.hdrOf s.cid).contexts)
    (hfree : (s.ctxAt t).life = .free) :
    ∃ u, exec (.spawn k d a imm) s = .next u ∧ u.last = .issued ∧ u.me.pc = s.me.pc + BitVec.ofNat 64 imm.bytes ∧
      (0 < d.val ∧ d.val < 48 → u.me.xReg s.me.inH d.val = { val := 0 }) ∧ u.mem = s.mem ∧ u.ctxAt t = spawnCtx s imm := by
  have hcur : (spawned s a imm t).cur = s.cur := popSrc_cur s [a]
  have hne : t ≠ (spawned s a imm t).cur := hcur.symm ▸ target_ne_cur s htid ht h0
  obtain ⟨q, hq⟩ := me_popSrc s [a]
  obtain ⟨hlast, hpc, hmem, hreg⟩ :=
    answer_ends s (u := spawned s a imm t) ((me_setCtx_ne ((s.popSrc [a]).orphan t) (spawnCtx s imm) hne).trans hq) d.val 0
      imm.bytes
  refine ⟨_, (exec_spawn s htid hr hn ht imm).trans (by rw [if_neg (by omega), if_neg (fun h => h hfree)]), hlast, hpc,
    fun h => hreg h.1 h.2, hmem.trans (popSrc_mem s [a]), ?_⟩
  exact (answer_others _ _ _ hne).trans (State.ctxAt_setCtx_same _ t _)

theorem reap_frees (h0 : 0 < n) (h16 : n < 16) (hend : (s.ctxAt t).life = .ended) :
    ∃ u, exec (.reap k d a) s = .next u ∧ u.last = .issued ∧ u.me.pc = s.me.pc + 8 ∧
      u.ctxAt t = { s.ctxAt t with life := .free } ∧ u.mem = s.mem ∧
      (0 < d.val ∧ d.val < 48 → u.me.xReg s.me.inH d.val = { val := (s.ctxAt t).exitv }) := by
  have hne : t ≠ (s.popSrc [a]).cur := (popSrc_cur s [a]).symm ▸ target_ne_cur s htid ht h0
  obtain ⟨q, hq⟩ := me_popSrc s [a]
  obtain ⟨hlast, hpc, hmem, hreg⟩ :=
    answer_ends s ((me_setCtx_ne (s.popSrc [a]) { s.ctxAt t with life := .free } hne).trans hq) d.val (s.ctxAt t).exitv 8
  have hpass : ¬(n = 0 ∨ 16 ≤ n ∨ (s.ctxAt t).life = .free) :=
    not_or.mpr ⟨Nat.ne_of_gt h0, not_or.mpr ⟨Nat.not_le.mpr h16, by simp [hend]⟩⟩
  refine ⟨_, (exec_reap s htid hr hn ht).trans (by rw [if_neg hpass, if_neg (by simp [hend])]), hlast, hpc, ?_,
    hmem.trans (popSrc_mem s [a]), fun h => hreg h.1 h.2⟩
  rw [answer_others _ _ _ (show t ≠ ((s.popSrc [a]).setCtx t _).cur from hne), State.ctxAt_setCtx_same]

end
end

/-- Settles O36: the outcomes are those of `exec_spawn` and `exec_reap`; the context started or freed is another than the acting one
(`target_ne_cur`), so that the answer does not touch it. -/
theorem spawnAndReap : Obligations.SpawnAndReap := by
  intro s k d a imm n t answer refused
  refine ⟨fun ht => ⟨exec_spawn_refused s ht, exec_reap_refused s ht⟩, fun htid hr => ?_⟩
  have hspawn := exec_spawn s htid hr (n := n) (t := t) rfl rfl imm
  have hreap := exec_reap s htid hr (n := n) (t := t) rfl rfl
  refine ⟨fun h => ?_, fun h0 h16 hc hlife => ?_, fun h0 h16 hc hfree => ?_, fun h => ?_, fun h0 h16 hrun => ?_,
    fun h0 h16 hend => reap_frees s htid hr rfl rfl h0 h16 hend⟩
  · exact hspawn.trans (by rw [if_pos h])
  · exact hspawn.trans (by rw [if_neg (by omega), if_pos hlife])
  · obtain ⟨u, hu, hlast, hpc, hreg, hmem, hctx⟩ := spawn_starts s (imm := imm) htid hr rfl rfl h0 h16 hc hfree
    refine ⟨u, hu, hlast, hpc, hreg, hmem, ?_⟩
    rw [hctx]
    refine ⟨rfl, rfl, rfl, rfl, fun b m => ?_, rfl, rfl, fpcsrInit_low _, ?_⟩
    · exact ite_self _
    · exact ⟨rfl, rfl, rfl, rfl, rfl, rfl, rfl, rfl, rfl, rfl, rfl, rfl, rfl, rfl, rfl, rfl, rfl, rfl, rfl, rfl, rfl⟩
  · exact hreap.trans (by rw [if_pos h])
  · have hpass : ¬(n = 0 ∨ 16 ≤ n ∨ (s.ctxAt t).life = .free) :=
      not_or.mpr ⟨Nat.ne_of_gt h0, not_or.mpr ⟨Nat.not_le.mpr h16, by simp [hrun]⟩⟩
    exact hreap.trans (by rw [if_neg hpass, if_pos hrun])

/-! ### Full/empty bits (R169) -/

section
variable (s : State) {k : MReg} {d : SReg}

theorem setFull_scalar (hr : s.ready k [] d.val = true) (h0 : 0 < d.val) (h48 : d.val < 48) (full : Bool) :
    s.setFull k false d full =
      .ok ((s.modMe (fun c => c.setX c.inH d.val { c.xReg c.inH d.val with full })).retire 8) := by
  obtain ⟨hk, -, hd⟩ := ready_parts s hr
  rw [State.setFull, s.gated_acting k _ _ hk, if_neg Bool.false_ne_true, if_neg (Nat.ne_of_gt h0), hd]
  exact if_pos h48

theorem setFull_zero (hk : s.acting k = true) (h0 : d.val = 0) (full : Bool) :
    s.setFull k false d full = .ok (s.retire 8) := by
  rw [State.setFull, s.gated_acting k _ _ hk, if_neg Bool.false_ne_true, if_pos h0]

theorem setFull_vector (hk : s.acting k = true) (hp : (Tbl.get {} s.me.v d.val).pend = false) (full : Bool) :
    s.setFull k true d full =
      .ok ((s.modMe (fun c => c.setV d.val { Tbl.get {} s.me.v d.val with full })).retire 8) := by
  rw [State.setFull, s.gated_acting k _ _ hk, if_pos rfl]
  exact if_neg (ne_true_of_eq_false hp)

/-- The bit of a scalar register changes, and nothing else of the registers does (R169). -/
theorem setFull_scalar_frame (hr : s.ready k [] d.val = true) (h0 : 0 < d.val) (h48 : d.val < 48) (full : Bool) :
    ∃ t, s.finish 8 (s.setFull k false d full) = .next t ∧ t.last = .issued ∧ t.mem = s.mem ∧ s.othersSame t ∧
      t.me.xReg s.me.inH d.val = { s.me.xReg s.me.inH d.val with full } ∧ s.me.scalarsSame t.me d.val ∧ t.me.v = s.me.v := by
  have halone := (ActsAlone.modMe s (fun c => c.setX c.inH d.val { c.xReg c.inH d.val with full })).trans (.retire _ 8)
  refine ⟨_, congrArg (s.finish 8) (setFull_scalar s hr h0 h48 full), rfl, halone.mem, halone.others, ?_, fun n hn b => ?_, ?_⟩
  · simp
  · simp [xReg_setX_ne _ _ _ _ hn]
  · simp

theorem setFull_vector_frame (hk : s.acting k = true) (hp : (Tbl.get {} s.me.v d.val).pend = false) (full : Bool) :
    ∃ t, s.finish 8 (s.setFull k true d full) = .next t ∧ t.last = .issued ∧ t.mem = s.mem ∧ s.othersSame t ∧
      Tbl.get {} t.me.v d.val = { Tbl.get {} s.me.v d.val with full } ∧
      (∀ m, m ≠ d.val → Tbl.get {} t.me.v m = Tbl.get {} s.me.v m) ∧ t.me.x = s.me.x := by
  have halone := (ActsAlone.modMe s (fun c => c.setV d.val { Tbl.get {} s.me.v d.val with full })).trans (.retire _ 8)
  refine ⟨_, congrArg (s.finish 8) (setFull_vector s hk hp full), rfl, halone.mem, halone.others, ?_, fun m hm => ?_, ?_⟩
  · simp [Ctx.setV]
  · simp [Ctx.setV, Tbl.get_set_ne _ _ _ hm]
  · simp [Ctx.setV]

end

/-! ### Remote fills (R170) -/

section
variable (s : State) (ta n : Nat) (v : Word)

/-- The status of a delivery: not running, full already, a result outstanding, or filled (R170). -/
theorem deliverFill_status : (s.deliverFill ta n v).2 =
    if (s.ctxAt ta).life ≠ .running then 3 else if (Tbl.get {} (s.ctxAt ta).x n).full then 1
    else if (Tbl.get {} (s.ctxAt ta).x n).pend then 2 else 0 := by
  simp only [State.deliverFill, bne_iff_ne]
  split
  · rfl
  · split
    · rfl
    · split <;> rfl

/-- A refused fill writes nothing (R170). -/
theorem deliverFill_refused (h : (s.ctxAt ta).life ≠ .running ∨ (Tbl.get {} (s.ctxAt ta).x n).full = true ∨
    (Tbl.get {} (s.ctxAt ta).x n).pend = true) : (s.deliverFill ta n v).1 = s := by
  simp only [State.deliverFill, bne_iff_ne]
  obtain h | h | h := h
  · rw [if_pos h]
  · rw [if_pos h]
    split <;> rfl
  · rw [if_pos h]
    split
    · rfl
    · split <;> rfl

/-- A fill writes the register of the main bank (R170). -/
theorem deliverFill_fills (hlife : (s.ctxAt ta).life = .running) (hfull : (Tbl.get {} (s.ctxAt ta).x n).full = false)
    (hpend : (Tbl.get {} (s.ctxAt ta).x n).pend = false) :
    ((s.deliverFill ta n v).1.ctxAt ta).x = Tbl.set {} (s.ctxAt ta).x n { val := v } := by
  simp only [State.deliverFill, bne_iff_ne, if_neg (Classical.not_not.mpr hlife), if_neg (ne_true_of_eq_false hfull),
    if_neg (ne_true_of_eq_false hpend), State.ctxAt_setCtx_same]

/-- A delivery changes at most the context that it names (R170). -/
theorem deliverFill_eq : (s.deliverFill ta n v).1 = s ∨ ∃ c, (s.deliverFill ta n v).1 = s.setCtx ta c := by
  unfold State.deliverFill
  dsimp only
  split
  · exact .inl rfl
  · split
    · exact .inl rfl
    · split
      · exact .inl rfl
      · exact .inr ⟨_, rfl⟩

theorem deliverFill_keeps (hta : ta ≠ s.cur) : (s.deliverFill ta n v).1.me = s.me ∧ (s.deliverFill ta n v).1.mem = s.mem ∧
    (s.deliverFill ta n v).1.cur = s.cur := by
  obtain h | ⟨c, h⟩ := deliverFill_eq s ta n v
  · rw [h]
    exact ⟨rfl, rfl, rfl⟩
  · rw [h]
    exact ⟨me_setCtx_ne s c hta, rfl, rfl⟩

end

/-- The fill of register `n` of context `ta` under way to another core (R170). -/
def rfillOp (s : State) (d ta n : Nat) (v : Word) : Op :=
  { id := 0, ctx := s.cur, kind := .rfill ta n v, priv := s.me.priv,
    parts := [{ acc := 0, va := 0, dst := 0, data := [] }], outs := [{ dst := s.dstOf d }] }

section
variable (s : State) {k : MReg} {d a b : SReg} (n : BitVec 6) {ta : Nat} {v : Word} (hr : s.ready k [a, b] d.val = true)
  (hst : s.me.count .st = 0) (hta : ta = (s.regVal a).toNat) (hv : v = s.regVal b)
include hr hst hta hv

/-- What an `rfill` comes to: no core of the team, its own core, or a fill under way (R170). -/
theorem exec_rfill : exec (.rfill k d a b n) s = .next (
    if 20480 ≤ ta ∨ s.sameTeam s.cid (ta / 16) = false then ((s.popSrc [a, b]).writeReg d.val 4).retire 8
    else if ta / 16 = s.cid then
      (((s.popSrc [a, b]).deliverFill ta n.toNat v).1.writeReg d.val
        (BitVec.ofNat 64 ((s.popSrc [a, b]).deliverFill ta n.toNat v).2)).retire 8
    else if 56 ≤ d.val then s.trapsWith 0x01 (lowBits (encodeWord (.rfill k d a b n))) 8
    else (((s.popSrc [a, b]).markEmpty d.val).launchOp (rfillOp s d.val ta n.toNat v) 1 (s.now + 100)).retire 8) := by
  obtain ⟨hk, hs, hd⟩ := ready_parts s hr
  change s.finish 8 (s.gated k 8 _) = _
  rw [s.gated_acting k _ _ hk, hs, hd]
  simp only [bind, Except.bind, hst, bne_self_eq_false, if_neg Bool.false_ne_true, Bool.or_eq_true, decide_eq_true_eq,
    Bool.not_eq_true', ← hta, ← hv]
  split
  · rfl
  · split
    · rfl
    · split <;> rfl

theorem rfill_own (hteam : ta < 20480 ∧ s.sameTeam s.cid (ta / 16) = true) (hown : ta / 16 = s.cid) (hne : ta ≠ s.cur) :
    ∃ t, exec (.rfill k d a b n) s = .next t ∧ t.last = .issued ∧ t.mem = s.mem ∧
      ((s.ctxAt ta).life ≠ .running ∨ (Tbl.get {} (s.ctxAt ta).x n.toNat).full = true ∨
        (Tbl.get {} (s.ctxAt ta).x n.toNat).pend = true → t.ctxAt ta = s.ctxAt ta) ∧
      ((s.ctxAt ta).life = .running → (Tbl.get {} (s.ctxAt ta).x n.toNat).full = false →
        (Tbl.get {} (s.ctxAt ta).x n.toNat).pend = false →
        (t.ctxAt ta).x = Tbl.set {} (s.ctxAt ta).x n.toNat { val := v }) ∧
      (0 < d.val → d.val < 48 → t.me.xReg s.me.inH d.val = { val :=
        if (s.ctxAt ta).life ≠ .running then 3 else if (Tbl.get {} (s.ctxAt ta).x n.toNat).full then 1
        else if (Tbl.get {} (s.ctxAt ta).x n.toNat).pend then 2 else 0 }) := by
  obtain ⟨q, hq⟩ := me_popSrc s [a, b]
  have hctx : (s.popSrc [a, b]).ctxAt ta = s.ctxAt ta := (ActsAlone.popSrc s [a, b]).others ta hne
  have hne' : ta ≠ (s.popSrc [a, b]).cur := (popSrc_cur s [a, b]).symm ▸ hne
  obtain ⟨hme, hmem, hcur⟩ := deliverFill_keeps (s.popSrc [a, b]) ta n.toNat v hne'
  obtain ⟨hlast, -, hmem', hreg⟩ :=
    answer_ends s (hme.trans hq) d.val (BitVec.ofNat 64 ((s.popSrc [a, b]).deliverFill ta n.toNat v).2) 8
  have hne'' : ta ≠ ((s.popSrc [a, b]).deliverFill ta n.toNat v).1.cur := hcur.symm ▸ hne'
  have hexec := exec_rfill s n hr hst hta hv
  rw [if_neg (by simp [hteam]), if_pos hown] at hexec
  refine ⟨_, hexec, hlast, hmem'.trans (hmem.trans (popSrc_mem s _)), fun h => ?_, fun hlife hfull hpend => ?_, fun h0 h48 => ?_⟩
  · rw [answer_others _ _ _ hne'', deliverFill_refused _ ta n.toNat v (by rwa [hctx]), hctx]
  · rw [answer_others _ _ _ hne'',
      deliverFill_fills _ ta n.toNat v (by rwa [hctx]) (by rwa [hctx]) (by rwa [hctx]), hctx]
  · rw [hreg h0 h48, deliverFill_status, hctx]
    split
    · rfl
    · split
      · rfl
      · split <;> rfl

theorem rfill_away (hteam : ta < 20480 ∧ s.sameTeam s.cid (ta / 16) = true) (hown : ta / 16 ≠ s.cid) (hd : d.val < 56) :
    ∃ t o, exec (.rfill k d a b n) s = .next t ∧ t.last = .issued ∧ t.ops = s.ops ++ [o] ∧ o.kind = .rfill ta n.toNat v ∧
      t.me.count .st = 1 ∧ t.mem = s.mem ∧ s.othersSame t := by
  have hmark : ActsAlone s ((s.popSrc [a, b]).markEmpty d.val) := (ActsAlone.popSrc s _).trans (.markEmpty _ _)
  have hlaunch : ActsAlone s (((s.popSrc [a, b]).markEmpty d.val).launchOp (rfillOp s d.val ta n.toNat v) 1 (s.now + 100)) :=
    hmark.trans (.launchOp 1 _ hmark.cur.symm rfl rfl)
  have halone := hlaunch.trans (.retire _ 8)
  have hexec := exec_rfill s n hr hst hta hv
  rw [if_neg (by simp [hteam]), if_neg hown, if_neg (Nat.not_le.mpr hd)] at hexec
  refine ⟨_, launched ((s.popSrc [a, b]).markEmpty d.val) (rfillOp s d.val ta n.toNat v) (s.now + 100), hexec, rfl, ?_, rfl, ?_,
    halone.mem, halone.others⟩
  · rw [retire_ops, launchOp_counted _ 1 _ rfl rfl]
    simp
  · obtain ⟨q, hq⟩ := me_popSrc s [a, b]
    have hcnt : ((s.popSrc [a, b]).markEmpty d.val).me.cnt = s.me.cnt := by rw [markEmpty_cnt, hq]
    rw [retire_count, me_launchOp 1 _ hmark.cur.symm rfl rfl, count_withCount]
    rw [count_congr hcnt, hst]

end

/-- Settles O38: `setFull_scalar_frame` and `setFull_vector_frame` give the bits; `exec_rfill` gives the three ways of a fill, of which
the delivery on the own core is `rfill_own` and the one under way `rfill_away`. -/
theorem fullEmptyAndFills : Obligations.FullEmptyAndFills := by
  intro s k d a b n v ta tr bit vbit
  refine ⟨fun hr h0 h48 => ⟨setFull_scalar_frame s hr h0 h48 true, setFull_scalar_frame s hr h0 h48 false⟩,
    fun hk h0 => ⟨congrArg (s.finish 8) (setFull_zero s hk h0 true), congrArg (s.finish 8) (setFull_zero s hk h0 false)⟩,
    fun hk hp => ⟨setFull_vector_frame s hk hp true, setFull_vector_frame s hk hp false⟩, fun hr hst => ⟨fun h => ?_, ?_, ?_⟩⟩
  · exact (exec_rfill s n hr hst (ta := ta) (v := v) rfl rfl).trans (by rw [if_pos h])
  · exact fun hlt hteam hown hne => rfill_own s n hr hst rfl rfl ⟨hlt, hteam⟩ hown hne
  · exact fun hlt hteam hown hd => rfill_away s n hr hst rfl rfl ⟨hlt, hteam⟩ hown hd

/-! ### The request of an `arm` (R166) -/

/-- The part that an `arm` asks for: one byte of its line (R166). -/
def armPart (s : State) (ea : Word) : Part := { s.linePart ea with data := [some 0] }

/-- The state in which monitor `m` is taken for the line of the `arm` that issues now, and its destination is empty (R166). -/
def reserved (s : State) (d a : SReg) (m line : Nat) : State :=
  ((s.popSrc [a]).markEmpty d.val).modMe (fun c => c.setMon m { used := true, op := s.nid, line })

section
variable (s : State) {k : MReg} {d a : SReg} {imm : BitVec 18} {ea : Word} {m : Nat} (hr : s.ready k [a] d.val = true)
  (hea : ea = s.regVal a + imm.signExtend 64) (hlo : 2 ^ 32 ≤ ea.toNat) (hhi : ea.toNat < 2 ^ 52)
  (hacc : s.mayAccess s.cur .ld 1 [armPart s ea] = .ok ()) (hmon : s.me.monOf ((armPart s ea).va / 256) = none)
  (hfree : s.me.freeMon = some m)
include hr hea hlo hhi hacc hmon hfree

/-- An `arm` of a line that no monitor names reserves the lowest free monitor, and its request enters the machine (R166). -/
theorem exec_arm_free : exec (.arm k d a imm) s = .next (((reserved s d a m ((armPart s ea).va / 256)).launchOp
    (s.armOp m d.val (armPart s ea)) 1 (s.now + s.globalLat s.cid (armPart s ea).va)).retire 8) := by
  obtain ⟨hk, hs, hd⟩ := ready_parts s hr
  have hline : checkLine ea = .ok () := by
    rw [checkLine, if_neg (by omega), if_neg (by omega)]
  have hacc' : s.mayAccess s.cur .ld 1 [{ s.linePart ea with data := [some 0] }] = .ok () := hacc
  have hmon' : s.me.monOf ((s.linePart ea).va / 256) = none := hmon
  change s.finish 8 (s.gated k 8 _) = _
  rw [s.gated_acting k _ _ hk, hs, hd]
  simp only [bind, Except.bind, ← hea, hline, hacc', hmon', hfree]
  rfl

/-- The request of an `arm` bears the number of its issue in its part (R45). -/
theorem arm_part_seq {t : State} {o : Op} (ht : exec (.arm k d a imm) s = .next t) (ho : t.ops = s.ops ++ [o]) :
    ∀ p ∈ o.parts, p.seq = s.nid := by
  have hexec := exec_arm_free s hr hea hlo hhi hacc hmon hfree
  rw [ht] at hexec
  injection hexec with hexec
  have hops : (reserved s d a m ((armPart s ea).va / 256)).ops = s.ops := by simp [reserved]
  have hnid : (reserved s d a m ((armPart s ea).va / 256)).nid = s.nid := by simp [reserved]
  rw [hexec, retire_ops, launchOp_counted _ 1 _ rfl rfl, hops] at ho
  have hlast := List.singleton_inj.mp (List.append_cancel_left ho)
  rw [← hlast, ← hnid]
  exact launched_seq _

end

/-- Context 0 with x1 = 2^33 and no monitor, whose next issue has the number 1. -/
def armState : State := { ctxs := [(0, { x := [(1, { val := 0x200000000 })] })], nid := 1 }

/-- Refutes O37: the request of an `arm` that takes a free monitor bears the number of its issue in its part (`arm_part_seq`), here 1,
where the statement asks for the part of `linePart`, whose number is 0. The same holds of every state whose next number is not 0. -/
theorem not_monitors : ¬ Obligations.Monitors := by
  intro h
  have hready : armState.ready 0 [1] (5 : SReg).val = true := by decide
  have hacc : armState.mayAccess armState.cur .ld 1 [armPart armState 0x200000000] = .ok () := by rfl
  obtain ⟨harm, -⟩ := h armState 0 5 1 0 hready
  obtain ⟨-, -, -, hfree⟩ := harm (by decide) (by decide) hacc
  obtain ⟨t, o, ht, -, -, hops, -, hparts, -⟩ := hfree rfl 0 (by decide) (by decide) (by simp)
  have hseq := arm_part_seq armState (m := 0) hready (ea := 0x200000000) (by decide) (by decide) (by decide) hacc rfl rfl ht hops
    (armPart armState 0x200000000) (by rw [hparts]; exact List.mem_singleton.mpr rfl)
  exact absurd hseq (by decide)

end Sys2Proof.BarrelCore
